-- ==== Sys2Proof/Word.lean ====
section
/-! DEFINITION. The word types of the FS-208 model and their plainest arithmetic: bytes, 32-bit register words,
house time, NEVER (00_scope section 4.2), clamping (4.1). -/

namespace Sys2Proof

/-- One byte. -/
abbrev Byte := BitVec 8

/-- One 32-bit register, completion or table access word. -/
abbrev Word := BitVec 32

/-- A house time in nanoseconds, or NEVER (00_scope 4.2). Arithmetic is exact (4.1). -/
abbrev Time := Nat

/-- NEVER, 2^64 − 1: no deadline (00_scope 4.2). -/
abbrev never : Time := 18446744073709551615

/-- The greatest house time, 2^64 − 2 (R40, R47). -/
abbrev maxTime : Time := 18446744073709551614

/-- "Clamped to a range" on natural numbers (00_scope 4.1). -/
def clampNat (lo hi x : Nat) : Nat := max lo (min x hi)

/-- "Clamped to a range" on signed numbers (00_scope 4.1). -/
def clampInt (lo hi x : Int) : Int := max lo (min x hi)

/-- Quotient rounded up, for a positive divisor. -/
def ceilDiv (a b : Nat) : Nat := (a + b - 1) / b

/-- The signed quotient of `a` by the positive `b` rounded half up (00_scope 4.1). -/
def roundHalfUp (a : Int) (b : Nat) : Int := (2 * a + b) / (2 * b)

end Sys2Proof
end

