-- ==== Sys2Proof/Config.lean ====
section
/-! DEFINITION. What an implementation of the FS-208 fixes: the straps sampled at hard reset (R183), the sizes that
follow from them, the constants of the chapters, and the FREE VALUES, opaque constants for what the spec leaves open. -/

namespace Sys2Proof

/-- The MEM strap (R183, section 12.5). -/
inductive MemStrap where
  | gib16 | gib32
deriving DecidableEq, Repr

/-- The IDX strap (R183, section 1.3). -/
inductive IdxStrap where
  | mib128 | mib256 | mib512
deriving DecidableEq, Repr

/-- The four straps, sampled at hard reset and held (R183). -/
structure Straps where
  mem : MemStrap
  idx : IdxStrap
  /-- CHAN: set for eight fitted channels, clear for four. -/
  eightChannels : Bool
  /-- PORTB: set when port B's link is brought up (R149). -/
  portB : Bool
deriving DecidableEq, Repr

/-- The index region in MiB (section 1.3). -/
def Straps.idxMiB (t : Straps) : Nat :=
  match t.idx with
  | .mib128 => 128
  | .mib256 => 256
  | .mib512 => 512

/-- Staging memory in MiB (R183). -/
def Straps.memMiB (t : Straps) : Nat :=
  match t.mem with
  | .gib16 => 16384
  | .gib32 => 32768

/-- The pages of the frame pool (table of section 5.2). -/
def Straps.poolPages (t : Straps) : Nat := t.memMiB - t.idxMiB

/-- The index entries of the region: 16,384 for each MiB (section 1.3). -/
def Straps.indexEntries (t : Straps) : Nat := t.idxMiB * 16384

/-- The number of fitted channels (R183). -/
def Straps.fitted (t : Straps) : Nat := if t.eightChannels then 8 else 4

namespace Config

/-- The straps of `State.reset`. DESIGN CHOICE, unsafe (log 5): the spec samples the straps and names no value; the
introduction describes eight media channels and two heads, so both are taken as present. -/
def resetStraps : Straps := { mem := .gib16, idx := .mib128, eightChannels := true, portB := true }

/-- FREE VALUE (log 16): the revision in bits 16–23 of IDENT, which section 12.5 leaves to the part. Safe. -/
opaque revision : BitVec 8

/-- FREE VALUE (log 14): the word that table access view `view` shows at word `word` for a field that is absent or a
timer that is unset; the chapters state no reading for it. Safe. -/
opaque absentWord : Nat → Nat → BitVec 32

/-- FREE VALUE (log 16): what a read of a register marked "—" in section 12.5 returns, by offset. Safe. -/
opaque unstatedRead : Nat → BitVec 32

/-- FREE VALUE (log 22): the entries that the data mover reads with one read of head memory, by the read's address and
the entries remaining; the mover chooses the sizes of its reads (section 9.4). Safe. -/
opaque moverReadEntries : Nat → Nat → Nat

/-- The clip records (section 1.1). -/
abbrev numClips : Nat := 256
/-- The stream records (section 2.1). -/
abbrev numStreams : Nat := 128
/-- The slot records (section 5.1). -/
abbrev numSlots : Nat := 4096
/-- The request records (R97). -/
abbrev numReqs : Nat := 4096
/-- The tags of a channel (R117). -/
abbrev numTags : Nat := 4
/-- The places of a stream's outbox (R164). -/
abbrev outboxPlaces : Nat := 12
/-- The places of a port's completion queue (R153). -/
abbrev completionPlaces : Nat := 16
/-- Bytes of a block (00_scope 4.3). -/
abbrev blockBytes : Nat := 4096
/-- Bytes of a page (00_scope 4.3). -/
abbrev pageBytes : Nat := 1048576
/-- Blocks of a page (R98). -/
abbrev pageBlocks : Nat := 256
/-- Blocks of the longest segment (R84). -/
abbrev segmentBlocks : Nat := 1024
/-- Bytes of an index entry (section 1.3). -/
abbrev entryBytes : Nat := 64
/-- The end of the 48-bit block addresses, 2^48 (R7). -/
abbrev blockSpace : Nat := 281474976710656
/-- The largest frame count and index capacity (R7). -/
abbrev maxFrames : Nat := 16777215
/-- The largest number of blocks of a frame (R7, R10). -/
abbrev maxFrameBlocks : Nat := 32768
/-- One microsecond, one millisecond and one second in nanoseconds. -/
abbrev us : Nat := 1000
/-- One millisecond in nanoseconds. -/
abbrev ms : Nat := 1000000
/-- One second in nanoseconds. -/
abbrev sec : Nat := 1000000000
/-- Where the descriptor area begins in the staging window: 32 GiB (section 12.5). -/
abbrev descriptorBase : Nat := 34359738368
/-- The bytes of the 4096 slot descriptors (R188). -/
abbrev descriptorBytes : Nat := 4194304

end Config
end Sys2Proof
end

