-- ==== Sys2Proof/Syntax.lean ====
section
/-! DEFINITION. The commands of the FS-208: one constructor of `Instr` for each row of spec/opcode_table.json, with the
row's operands. Values that software reads and writes as words are bit vectors; numbers taken out of a record's
fields are natural numbers or integers "at the width of the field" (R184), which WellFormed.lean checks. -/

namespace Sys2Proof

/-- The two controller heads; head A and port A belong together, as do head B and port B (00_scope 4.6). -/
inductive Head where
  | a | b
deriving DecidableEq, Repr

/-- The other head. -/
def Head.other : Head → Head
  | .a => .b
  | .b => .a

/-- The owner code of section 12.2: 0 for head A, 1 for head B. -/
def Head.code : Head → Nat
  | .a => 0
  | .b => 1

/-- A ring of a port (R150). -/
inductive RingId where
  | command | notice
deriving DecidableEq, Repr

/-- A stripe of a STRIDE clip: channel and 48-bit base block (section 1.2). -/
structure Stripe where
  channel : Nat
  base : Nat
deriving DecidableEq, Repr

/-- The arguments of DEFINE_CLIP as the record carries them (section 12.1). Bytes 8–11 are the frame bytes of a STRIDE
clip and the index base of an INDEXED one; bytes 12–15 are the stripe channels or the index capacity. -/
structure DefineClipArgs where
  /-- Bits 0–1 of byte 2: 0 STRIDE, 1 INDEXED, 2 and 3 neither (R184). -/
  locatorKind : Nat
  openEnd : Bool
  stripeCount : Nat
  frameCount : Nat
  frameBlocks : Nat
  frameBytes : Nat
  indexBase : Nat
  indexCapacity : Nat
  /-- Stripes 0 to 7 as laid out; the first `stripeCount` are in use. -/
  stripes : List Stripe
deriving DecidableEq, Repr

/-- The arguments of OPEN (section 12.1). -/
structure OpenArgs where
  loop : Bool
  openEnd : Bool
  clip : Nat
  generation : Nat
  w : Nat
  c : Nat
  seat : Nat
  inPoint : Nat
  outPoint : Nat
  period : Nat
  start : Nat
deriving DecidableEq, Repr

/-- The arguments of SET_CHANNEL (section 12.1); times in milliseconds. -/
structure SetChannelArgs where
  channel : Nat
  retryLimit : Nat
  tagLimit : Nat
  parkMs : Nat
  wakeMs : Nat
  driftMs : Nat
deriving DecidableEq, Repr

/-- The arguments of SET_DEVICE (section 12.1). A setting is present when its bit of the carried mask is set (R184). -/
structure SetDeviceArgs where
  urgentUs : Option Nat
  horizonUs : Option Nat
  leadUs : Option Nat
  prerollUs : Option Nat
  holdMs : Option Nat
  orphanMs : Option Nat
deriving DecidableEq, Repr

/-- What a fetched command record says, read by R184: the kind and the arguments of that kind. -/
inductive Command where
  | defineClip (args : DefineClipArgs)
  | loadIndex (clip first count address : Nat)
  | extendClip (clip count : Nat)
  | retireClip (clip generation : Nat)
  | openStream (args : OpenArgs)
  | play (stream : Nat) (shuttle : Int) (locate : Option Nat)
  | cue (stream : Nat) (locate : Option Nat)
  | jog (stream : Nat) (n : Int)
  | setRange (stream inPoint outPoint : Nat) (loop openEnd : Bool)
  | setWindow (stream w c seat : Nat)
  | queryStream (stream : Nat)
  | release (stream sequence : Nat)
  | closeStream (stream : Nat)
  | handOver (stream : Nat)
  | takeOver (stream : Nat) (resume : Bool)
  | setChannel (args : SetChannelArgs)
  | characterise (channel s1 s2 address : Nat)
  | channelReset (channel : Nat)
  | setDevice (args : SetDeviceArgs)
  | deviceClear
  | yieldRole
  | unknown (code : Nat)
deriving DecidableEq, Repr

/-- The commands of the part, one constructor for each row of the opcode table. `p` is the port (or the head) the event
belongs to, `c` a channel, `t` a tag, `k` a stream. The rows of command kinds (DEFINE_CLIP to UNKNOWN_COMMAND) are the
event at which the owning block takes the record that port `p` has handed to it (R152), with the arguments the record
carries. -/
inductive Instr where
  /-- HARD_RESET, with the straps sampled (R183). -/
  | hardReset (straps : Straps)
  | defineClip (p : Head) (args : DefineClipArgs)
  | loadIndex (p : Head) (clip first count address : Nat)
  | extendClip (p : Head) (clip count : Nat)
  | retireClip (p : Head) (clip generation : Nat)
  | openStream (p : Head) (args : OpenArgs)
  | play (p : Head) (stream : Nat) (shuttle : Int) (locate : Option Nat)
  | cue (p : Head) (stream : Nat) (locate : Option Nat)
  | jog (p : Head) (stream : Nat) (n : Int)
  | setRange (p : Head) (stream inPoint outPoint : Nat) (loop openEnd : Bool)
  | setWindow (p : Head) (stream w c seat : Nat)
  | queryStream (p : Head) (stream : Nat)
  | release (p : Head) (stream sequence : Nat)
  | closeStream (p : Head) (stream : Nat)
  | handOver (p : Head) (stream : Nat)
  | takeOver (p : Head) (stream : Nat) (resume : Bool)
  | setChannel (p : Head) (args : SetChannelArgs)
  | characterise (p : Head) (channel s1 s2 address : Nat)
  | channelReset (p : Head) (channel : Nat)
  | setDevice (p : Head) (args : SetDeviceArgs)
  | deviceClear (p : Head)
  | yieldRole (p : Head)
  | unknownCommand (p : Head) (code : Nat)
  /-- COMMAND_FETCH_DONE, with the 64 bytes of the record read from head memory (R152). -/
  | commandFetchDone (p : Head) (record : List Byte)
  | fetchReadError (p : Head)
  | fetchReadTimeout (p : Head)
  /-- INDEX_ENTRY_ARRIVAL, with the 64 bytes of the entry read from head memory (R10). -/
  | indexEntryArrival (p : Head) (entry : List Byte)
  | moverReadError (p : Head)
  | moverReadTimeout (p : Head)
  | noticeWriteEnd (p : Head)
  | noticeWriteFail (p : Head)
  | deadlinePass
  | announce (p : Head) (weight : BitVec 4) (nonce : BitVec 32)
  | withdraw (p : Head)
  | ringBaseWrite (p : Head) (ring : RingId) (value : BitVec 64)
  | ringSizeWrite (p : Head) (ring : RingId) (value : BitVec 32)
  | cmdProducerWrite (p : Head) (value : BitVec 32)
  | ntcConsumerWrite (p : Head) (value : BitVec 32)
  | evRequestWrite (p : Head) (value : BitVec 32)
  | evMaskWrite (p : Head) (value : BitVec 32)
  | evLevelWrite (p : Head) (value : BitVec 32)
  | endOfService (p : Head)
  | coalCountWrite (p : Head) (value : BitVec 32)
  | coalExpiryWrite (p : Head) (value : BitVec 32)
  | tbLowRead (p : Head)
  | taSelectWrite (p : Head) (value : BitVec 32)
  | taIndexWrite (p : Head) (value : BitVec 32)
  | taModeWrite (p : Head) (value : BitVec 32)
  | taDataRead (p : Head)
  | portReset (p : Head)
  | discardedWrite (p : Head)
  | portLinkLoss (p : Head)
  /-- STAGING_PAGE_READ of `length` bytes at `offset` of the page area (R159). -/
  | stagingPageRead (p : Head) (offset length : Nat)
  /-- DESCRIPTOR_READ of `length` bytes at `offset` of the descriptor area (R160). -/
  | descriptorRead (p : Head) (offset length : Nat)
  /-- STAGING_WRITE at `offset` of the staging window (R160). -/
  | stagingWrite (p : Head) (offset : Nat)
  | linkUp (c : Fin 8)
  | channelLinkLoss (c : Fin 8)
  | hello (c : Fin 8) (largest : BitVec 16)
  /-- DATA: tag byte, block offset and 4096 bytes of payload (section 12.4). -/
  | dataBlock (c : Fin 8) (tag : BitVec 8) (offset : BitVec 16) (payload : List Byte)
  /-- END: tag byte and status byte (section 12.4). -/
  | readEnd (c : Fin 8) (tag : BitVec 8) (status : BitVec 8)
  | abortDone (c : Fin 8) (tag : BitVec 8)
  | parked (c : Fin 8)
  | awake (c : Fin 8)
  /-- STRAY_MESSAGE: a message whose code is unlisted or a part-to-adapter code (R187). -/
  | strayMessage (c : Fin 8) (code : BitVec 8)
  | idleTimerExpiry (c : Fin 8)
  | parkGuardExpiry (c : Fin 8)
  | wakeGuardExpiry (c : Fin 8)
  | requestTimeout (c : Fin 8) (t : Fin 4)
  | abortGuardExpiry (c : Fin 8) (t : Fin 4)
  | probeTimeout (c : Fin 8)
  | settlingGuardExpiry (c : Fin 8)
  | recheckTimerExpiry (c : Fin 8)
  | displayExpiry (k : Fin 128)
  | holdTimerExpiry (p : Head)
  | settleTimerExpiry
  | orphanTimerExpiry (k : Fin 128)
  | handoverLapse (k : Fin 128)
  | coalescingTimerExpiry (p : Head)
deriving DecidableEq, Repr

end Sys2Proof
end

