-- ==== Sys2Proof/Decode.lean ====
section
/-! DEFINITION. The decoder of table words. The FS-208 is a block: spec/opcode_table.json gives no row any bits
("n_rows_with_fixed": 0), so no word spells a command. The layouts the spec does give (command records, index
entries, notices) are read and written in Machine/Operands.lean. -/

namespace Sys2Proof

/-- The command that a word of the opcode table spells: none, since the table gives no row any bits. -/
def decodeTableWord (_nbits _w : Nat) : Option Instr := none

end Sys2Proof
end

