-- ==== Sys2Proof/Machine/State.lean ====
section
/-! DEFINITION. The state of the FS-208 as plain data: the records, tables, registers, timers and queues that chapters
1 to 12 give the part, their hard-reset values, and the reasons a step could stop. Large tables are sparse lists in one
canonical form (Ops.lean); a number not listed holds the table's hard-reset record. -/

namespace Sys2Proof.Machine

/-- A numbered table held sparsely: numbers strictly rising, no entry equal to the table's reset record. -/
abbrev Table (α : Type) := List (Nat × α)

/-- Staging memory: (byte address, byte), addresses strictly rising, no byte equal to what an unlisted one reads. -/
abbrev Memory := List Host.Cell

/-! ### Clip Table (chapter 1) -/

/-- The states of a clip record (R1). -/
inductive ClipState where
  | free | defined | retiring
deriving DecidableEq, Repr

/-- The locator fields of a clip record (section 1.1); the kind is the constructor. -/
inductive Locator where
  | stride (stripes : List Stripe) (frameBlocks frameBytes : Nat)
  | indexed (base capacity : Nat)
deriving DecidableEq, Repr

/-- A clip record (section 1.1). -/
structure Clip where
  state : ClipState
  generation : Nat
  definer : Head
  frameCount : Nat
  openEnd : Bool
  refCount : Nat
  locator : Locator
deriving DecidableEq, Repr

/-- A FREE record keeping its generation (R1). -/
def Clip.freeWith (generation : Nat) : Clip :=
  { state := .free, generation, definer := .a, frameCount := 0, openEnd := false, refCount := 0,
    locator := .stride [] 0 0 }

/-- A clip record after hard reset (R16). -/
def Clip.reset : Clip := Clip.freeWith 0

/-! ### Stream Table (chapters 2, 4, 8, 10) -/

/-- The states of a stream (section 2.2). -/
inductive StreamState where
  | closed | cued | playing | handover | orphaned | closing
deriving DecidableEq, Repr

/-- The states of a window entry (section 4.2). -/
inductive EntryState where
  | unplaced | filling | staged | failed
deriving DecidableEq, Repr

/-- A failure cause of a slot (section 5.1, R144). -/
inductive Cause where
  | medium | address | channelFault | invalidIndex
deriving DecidableEq, Repr

/-- A window entry (section 4.2). -/
structure WinEntry where
  /-- The unwrapped index. -/
  u : Int
  /-- The clip frame. -/
  frame : Nat
  /-- The display time, a house time or NEVER (R47). -/
  display : Time
  /-- The due time (R49). -/
  due : Time
  state : EntryState
  /-- The slot pinned; absent while UNPLACED. -/
  slot : Option Nat
  /-- The late mark (R69). -/
  late : Bool
deriving DecidableEq, Repr

/-- A delivery-list entry: sequence number, and the slot of a READY or none for a FAILED (R66, R67). -/
structure DelEntry where
  seq : Nat
  slot : Option Nat
deriving DecidableEq, Repr

/-- A notice of a stream's outbox (R164) with the fields section 12.2 gives its kind. The stream number is the
record's own. -/
inductive Notice where
  | ready (late : Bool) (clip generation seq frame slot : Nat) (display : Time) (frameBytes : Nat)
  | failed (cause : Cause) (clip generation seq frame : Nat) (display : Time)
  | missed (count last : Nat)
  | ended (bound : Nat)
deriving DecidableEq, Repr

/-- A stream record (section 2.1), with the pass-pending flag of the Deadline Engine (R55) and the handover and orphan
timers of the Head Arbitration Unit (R178, R180), which the stream record view shows with it. -/
structure StreamRec where
  state : StreamState
  owner : Head
  ownerAbsent : Bool
  clip : Nat
  generation : Nat
  inPoint : Nat
  outPoint : Nat
  loop : Bool
  openEnd : Bool
  /-- Anchor position F0q in frame/65536. -/
  f0q : Int
  /-- Anchor time T0. -/
  t0 : Time
  /-- The shuttle factor S. -/
  s : Int
  /-- The last direction: set for forward. -/
  lastForward : Bool
  savedS : Option Int
  /-- The frame period p. -/
  period : Nat
  w : Nat
  c : Nat
  seat : Nat
  /-- The next delivery index N, unwrapped. -/
  n : Int
  stillDelivered : Bool
  /-- End pending, with the bound the pending END carries (R34). -/
  endPending : Option Nat
  window : List WinEntry
  delivery : List DelEntry
  nextSeq : Nat
  missedCount : Nat
  lastMissed : Nat
  missedTotal : Nat
  lateTotal : Nat
  failedTotal : Nat
  outbox : List Notice
  /-- The pass-pending flag (R55). -/
  passPending : Bool
  handoverTimer : Option Time
  orphanTimer : Option Time
  /-- The seat priority last reported to the Directory by a pass (R61). -/
  seatReported : Nat
deriving DecidableEq, Repr

/-- A stream record after hard reset (R39, R147). -/
def StreamRec.reset : StreamRec :=
  { state := .closed, owner := .a, ownerAbsent := false, clip := 0, generation := 0, inPoint := 0, outPoint := 0,
    loop := false, openEnd := false, f0q := 0, t0 := 0, s := 0, lastForward := true, savedS := none, period := 0,
    w := 1, c := 1, seat := 0, n := 0, stillDelivered := false, endPending := none, window := [], delivery := [],
    nextSeq := 0, missedCount := 0, lastMissed := 0, missedTotal := 0, lateTotal := 0, failedTotal := 0, outbox := [],
    passPending := false, handoverTimer := none, orphanTimer := none, seatReported := 0 }

/-! ### Staging Directory (chapter 5) -/

/-- The states of a slot (R74). -/
inductive SlotState where
  | free | filling | staged | abandoned | failed
deriving DecidableEq, Repr

/-- Where a segment stands (R84). -/
inductive SegStatus where
  | unissued | queued | inFlight | done | withdrawn
deriving DecidableEq, Repr

/-- A segment of a slot: the run R84 cut, the frame offset of R98, and where it stands. -/
structure Segment where
  channel : Nat
  block : Nat
  count : Nat
  offset : Nat
  status : SegStatus
deriving DecidableEq, Repr

/-- A slot record (section 5.1). The segment counts and the total are functions of `segs`. -/
structure Slot where
  state : SlotState
  clip : Nat
  generation : Nat
  frame : Nat
  frameBytes : Nat
  pages : List Nat
  segs : List Segment
  pins : Nat
  /-- Slot due (R77). -/
  due : Time
  /-- Slot seat priority (R77). -/
  seat : Nat
  unpinnedSince : Time
  cause : Option Cause
deriving DecidableEq, Repr

/-- A FREE slot (R77). -/
def Slot.free : Slot :=
  { state := .free, clip := 0, generation := 0, frame := 0, frameBytes := 0, pages := [], segs := [], pins := 0,
    due := never, seat := 3, unpinnedSince := never, cause := none }

/-! ### Channel Scheduler (chapter 6) -/

/-- The states of a request record (R97). -/
inductive ReqState where
  | free | queued | dispatched
deriving DecidableEq, Repr

/-- A request record (section 6.1). -/
structure Request where
  state : ReqState
  slot : Nat
  seg : Nat
  channel : Nat
  block : Nat
  count : Nat
  offset : Nat
  retries : Nat
  /-- The grant count at which it was granted (R101). -/
  seq : Nat
  /-- Class at dispatch, present in DISPATCHED. -/
  cls : Option Nat
  /-- The channel tag, present in DISPATCHED. -/
  tag : Option Nat
deriving DecidableEq, Repr

/-- A FREE record: every field but its state zero or absent (R97). -/
def Request.free : Request :=
  { state := .free, slot := 0, seg := 0, channel := 0, block := 0, count := 0, offset := 0, retries := 0, seq := 0,
    cls := none, tag := none }

/-! ### Media channels (chapter 7) -/

/-- The states of a channel (section 7.2). -/
inductive ChanState where
  | offline | active | parking | parked | waking | faulted
deriving DecidableEq, Repr

/-- The fault reasons (R122). -/
inductive FaultReason where
  | timeouts | smallRead | parkTimeout | wakeTimeout
deriving DecidableEq, Repr

/-- The outcomes of a characterisation (R131). -/
inductive CharOutcome where
  | done | probeError | probeTimeout | faulted | linkLost | reset
deriving DecidableEq, Repr

/-- A tag (R117): an in-flight tag holds its record, dispatch time, estimate, next expected block offset and request
timeout; an aborting tag its abort guard time. -/
inductive Tag where
  | free
  | inFlight (req : Nat) (dispatched : Time) (estimate : Nat) (nextOffset : Nat) (timeout : Time)
  | aborting (guard : Time)
deriving DecidableEq, Repr

/-- The phase of a characterisation (R129, R130); PROBING holds the outstanding probe. -/
inductive CharPhase where
  | draining
  | probing (sent : Time) (nextOffset : Nat) (timeout : Time)
  | settling (guard : Time)
deriving DecidableEq, Repr

/-- A characterisation in progress (R129–R131). -/
structure Characterisation where
  issuer : Head
  tag : Nat
  consumer : Nat
  /-- Set when the issuer's port has been reset since, so that the completion is discarded (R131). -/
  discard : Bool
  s1 : Nat
  s2 : Nat
  address : Nat
  /-- The times of the probes completed, oldest first. -/
  times : List Nat
  phase : CharPhase
deriving DecidableEq, Repr

/-- A media channel: the controller's values (chapter 7) and the Scheduler's for the channel (R113). -/
structure Channel where
  state : ChanState
  link : Bool
  largestRead : Nat
  fault : Option FaultReason
  /-- Setup in µs. -/
  setup : Nat
  /-- Cost in ns/KiB. -/
  cost : Nat
  /-- Wake estimate in ns. -/
  wakeEstimate : Nat
  wakeSent : Time
  /-- Park time in ms, 0 for never. -/
  parkMs : Nat
  retryLimit : Nat
  tagLimit : Nat
  /-- Drift limit in ms. -/
  driftMs : Nat
  tags : Table Tag
  /-- The consecutive-timeout counter. -/
  consecutive : Nat
  /-- The drift run counter. -/
  driftRun : Nat
  timeouts : Nat
  staleEnds : Nat
  discardedData : Nat
  strays : Nat
  shortReads : Nat
  linkLosses : Nat
  wakes : Nat
  drifts : Nat
  dispatches : Nat
  goodEnds : Nat
  retries : Nat
  failedMedium : Nat
  failedAddress : Nat
  failedChannel : Nat
  idleTimer : Option Time
  parkGuard : Option Time
  wakeGuard : Option Time
  /-- The recheck timer of the Scheduler (R102). -/
  recheck : Option Time
  char : Option Characterisation
  lastOutcome : Option CharOutcome
  /-- avgT1 and avgT2 of the last characterisation that ended, where it ended with DONE. -/
  lastAverages : Option (Nat × Nat)
deriving DecidableEq, Repr

/-- A channel after hard reset (R114, R135), and a channel that is not fitted (chapter 7, introduction). -/
def Channel.reset : Channel :=
  { state := .offline, link := false, largestRead := 0, fault := none, setup := 8000, cost := 2000,
    wakeEstimate := 8000000000, wakeSent := 0, parkMs := 0, retryLimit := 2, tagLimit := 2, driftMs := 25, tags := [],
    consecutive := 0, driftRun := 0, timeouts := 0, staleEnds := 0, discardedData := 0, strays := 0, shortReads := 0,
    linkLosses := 0, wakes := 0, drifts := 0, dispatches := 0, goodEnds := 0, retries := 0, failedMedium := 0,
    failedAddress := 0, failedChannel := 0, idleTimer := none, parkGuard := none, wakeGuard := none, recheck := none,
    char := none, lastOutcome := none, lastAverages := none }

/-! ### Ports and notices (chapters 9, 10, 12) -/

/-- The statuses of a completion (R154). -/
inductive Status where
  | ok | busy | badArg | noRoom | noClip | noStream | stale | notOwner | notPrimary
deriving DecidableEq, Repr

/-- A completion (R154): tag, kind, consumer index at fetch, status, result words. -/
structure Completion where
  tag : Nat
  kind : Nat
  consumer : Nat
  status : Status
  results : List Word
deriving DecidableEq, Repr

/-- The events a STATE notice reports (section 12.2). -/
inductive StateEvent where
  | orphaned | handover | lapsed | takenOver | closed
deriving DecidableEq, Repr

/-- A STATE notice (R163). -/
structure StateNotice where
  stream : Nat
  event : StateEvent
  owner : Head
  superseded : Bool
deriving DecidableEq, Repr

/-- A record handed to its owning block: tag and kind bytes, consumer index at fetch, and what the record says. -/
structure Handed where
  tag : Nat
  kind : Nat
  consumer : Nat
  command : Command
deriving DecidableEq, Repr

/-- The port's command in progress (R152): none, its record being read, its record handed to the owning block, a
LOAD_INDEX transfer, or the read of a record whose command a device clear has ended (R162). -/
inductive Progress where
  | idle
  | reading (since : Time)
  | discarding (since : Time)
  | handed (h : Handed)
  | loading
deriving DecidableEq, Repr

/-- A running data mover (section 9.4), with the counts of R11, what its completion carries, and its read of head memory
in progress (R157). -/
structure Mover where
  address : Nat
  remaining : Nat
  /-- The entries of the read in progress that have not arrived. -/
  inRead : Nat
  /-- When the read in progress was sent. -/
  since : Time
  clip : Nat
  generation : Nat
  frame : Nat
  stored : Nat
  invalid : Nat
  skipped : Nat
  tag : Nat
  consumer : Nat
deriving DecidableEq, Repr

/-- What a notice write in progress is writing (R166): the head of the completion queue, of the STATE queue or of a
stream's outbox, or a notice that has left its queue meanwhile, whose write posts nothing (R164). -/
inductive WriteSource where
  | completion | state | stream (k : Nat) | detached
deriving DecidableEq, Repr

/-- A halt cause (R155). -/
inductive HaltCause where
  | fetchRead | noticeWrite
deriving DecidableEq, Repr

/-- A ring of a port (section 9.2). Size 0 is unconfigured (R150). -/
structure RingRegs where
  base : Nat
  size : Nat
  producer : Nat
  consumer : Nat
deriving DecidableEq, Repr

/-- An unconfigured ring (R161). -/
def RingRegs.reset : RingRegs := { base := 0, size := 0, producer := 0, consumer := 0 }

/-- The event state of a port (chapter 10): request, mask and level registers of section 12.5, in-service set,
coalescing state. -/
structure Events where
  request : BitVec 9
  mask : BitVec 9
  level : BitVec 18
  inService : BitVec 4
  coalCount : Nat
  /-- The coalescing expiry in µs. -/
  coalExpiryUs : Nat
  unsignalled : Nat
  coalTimer : Option Time
deriving DecidableEq, Repr

/-- The event state after hard reset and port reset (R171, section 12.5). -/
def Events.reset : Events :=
  { request := 0, mask := 0x1FF, level := 0x3FA54, inService := 0, coalCount := 8, coalExpiryUs := 200,
    unsignalled := 0, coalTimer := none }

/-- The table access window of a port (R158). -/
structure TableWindow where
  select : Nat
  index : Nat
  word : Nat
  advance : Bool
  snapshot : List Word
deriving DecidableEq, Repr

/-- The table access window after port reset (R161). -/
def TableWindow.reset : TableWindow := { select := 0, index := 0, word := 0, advance := false, snapshot := [] }

/-- A port: its controller (chapter 9) and its part of the Notice Controller (chapter 10). -/
structure Port where
  /-- What ANNOUNCE reads. -/
  annWeight : BitVec 4
  annNonce : BitVec 32
  cmdRing : RingRegs
  ntcRing : RingRegs
  /-- Timebase high, latched (R148). -/
  tbHigh : Word
  ta : TableWindow
  /-- The halted flag with its cause (R155). -/
  halt : Option HaltCause
  discardedWrites : Nat
  deniedAccesses : Nat
  lastDenied : Nat
  fetched : Nat
  progress : Progress
  /-- The places taken in the completion queue (R153). -/
  places : Nat
  completions : List Completion
  mover : Option Mover
  /-- The notice write in progress (R166). -/
  write : Option WriteSource
  stall : Bool
  stateQueue : List StateNotice
  ev : Events
deriving DecidableEq, Repr

/-- A port after hard reset or port reset (R161, R162, R171). -/
def Port.reset : Port :=
  { annWeight := 0, annNonce := 0, cmdRing := RingRegs.reset, ntcRing := RingRegs.reset, tbHigh := 0, ta := TableWindow.reset,
    halt := none, discardedWrites := 0, deniedAccesses := 0, lastDenied := 0, fetched := 0, progress := .idle,
    places := 0, completions := [], mover := none, write := none, stall := false, stateQueue := [],
    ev := Events.reset }

/-! ### Head Arbitration Unit (chapter 11) -/

/-- The HAU's values for one head (chapter 11, introduction). -/
structure HeadRecord where
  present : Bool
  weight : Nat
  nonce : Nat
  hold : Option Time
deriving DecidableEq, Repr

/-- A head's values after hard reset (R172). -/
def HeadRecord.reset : HeadRecord := { present := false, weight := 0, nonce := 0, hold := none }

/-- The HAU (chapter 11). `first` names the head whose ANNOUNCE was the first after hard reset (R173). -/
structure Hau where
  headA : HeadRecord
  headB : HeadRecord
  primary : Option Head
  settleTimer : Option Time
  first : Option Head
deriving DecidableEq, Repr

/-- The HAU after hard reset (R172). -/
def Hau.reset : Hau :=
  { headA := HeadRecord.reset, headB := HeadRecord.reset, primary := none, settleTimer := none, first := none }

/-! ### The part -/

/-- What the part sends outside during an event: answers to reads of the register and staging windows, interrupt
messages (R169), reads and writes of head memory (R152, R156, R166), channel link messages in their bytes (section
12.4) and link re-initialisations (R133). -/
inductive Output where
  | registerData (p : Head) (value : Word)
  | stagingData (p : Head) (bytes : List Byte)
  | interrupt (p : Head) (level : Nat)
  | recordRead (p : Head) (address : Nat)
  | indexRead (p : Head) (address entries : Nat)
  | noticeWrite (p : Head) (address : Nat) (bytes : List Byte)
  | link (channel : Nat) (bytes : List Byte)
  | reinitialise (channel : Nat)
deriving DecidableEq, Repr

/-- MODEL's own (log 8): what one event still has to make before it ends: delivery checks of streams (R65), dispatch
choices of channels (R102), a backlog retry (R88). -/
structure Agenda where
  checks : List Nat
  choices : List Nat
  retry : Bool
deriving DecidableEq, Repr

/-- Nothing left to make. -/
def Agenda.empty : Agenda := { checks := [], choices := [], retry := false }

/-- The blocks of the part that events change. -/
structure Device where
  clips : Table Clip
  streams : Table StreamRec
  slots : Table Slot
  freePages : List Nat
  reclaim : List Nat
  reqs : Table Request
  /-- The grant count (R101). -/
  grants : Nat
  channels : Table Channel
  portA : Port
  portB : Port
  hau : Hau
  /-- MODEL's own (log 7): what the part sent outside during the latest event, in order. -/
  out : List Output
  agenda : Agenda
deriving DecidableEq, Repr

/-- Every block at its hard-reset values; the free page list holds the pool's pages in ascending order (R16, R39, R73,
R96, R114, R135, R147, R162, R171, R172). -/
def Device.reset (straps : Straps) : Device :=
  { clips := [], streams := [], slots := [], freePages := List.range' 0 straps.poolPages, reclaim := [], reqs := [],
    grants := 0, channels := [], portA := Port.reset, portB := Port.reset, hau := Hau.reset, out := [],
    agenda := Agenda.empty }

/-- The device settings of SET_DEVICE, in nanoseconds (R41, R175). -/
structure DeviceSettings where
  urgent : Nat
  horizon : Nat
  lead : Nat
  preroll : Nat
  hold : Nat
  /-- Orphan time, 0 for never. -/
  orphan : Nat
deriving DecidableEq, Repr

/-- The defaults (section 3.2, R175). -/
def DeviceSettings.reset : DeviceSettings :=
  { urgent := 20000000, horizon := 400000000, lead := 8000000, preroll := 100000000, hold := 3000000000,
    orphan := 30000000000 }

/-- What the blocks read while they take an event and most events do not change: house time, straps, device settings
and staging memory. -/
structure Env where
  now : Time
  straps : Straps
  dev : DeviceSettings
  mem : Memory
deriving DecidableEq, Repr

/-- The state of the FS-208: the commands waiting, first in first out, and the part. -/
structure State where
  pending : List Instr
  env : Env
  part : Device
deriving DecidableEq, Repr

/-- The part after a hard reset that sampled `Config.resetStraps` (log 5), with no command waiting. -/
def State.reset : State :=
  { pending := [],
    env := { now := 0, straps := Config.resetStraps, dev := DeviceSettings.reset, mem := [] },
    part := Device.reset Config.resetStraps }

/-- The reasons the part stops: none. The spec gives every event an outcome (a status, a halt, a channel fault, an
answer of all-ones), so no meaning faults. -/
inductive Fault where
deriving DecidableEq, Repr

/-- The reasons a command has no meaning here. -/
inductive Refusal where
  /-- Raised by `exec` alone, for a row without a meaning; no arm raises it. Safe. -/
  | notModelled (mnemonic : String)
deriving DecidableEq, Repr

/-- The answer of a command. -/
abbrev Answer := Host.Outcome State Fault Refusal

end Sys2Proof.Machine
end

