-- ==== Sys2Proof/Machine/Bytes.lean ====
section
/-! DEFINITION. Byte order and field helpers: multi-byte fields are little-endian, signed fields two's complement
(chapter 12, introduction). -/

namespace Sys2Proof.Machine

/-- The number that little-endian bytes spell. -/
def leNat : List Byte → Nat
  | [] => 0
  | b :: bs => b.toNat + 256 * leNat bs

/-- `n` modulo 2^(8 × count) as `count` little-endian bytes. -/
def natBytes : Nat → Nat → List Byte
  | 0, _ => []
  | count + 1, n => BitVec.ofNat 8 n :: natBytes count (n / 256)

/-- The field of `count` bytes at byte `at_` of a record; bytes beyond the record read 0. -/
def field (record : List Byte) (at_ count : Nat) : Nat := leNat ((record.drop at_).take count)

/-- Bit `i` of a number. -/
def bit (x i : Nat) : Bool := x.testBit i

/-- The two's complement reading of an unsigned field of `bits` bits. -/
def signedField (bits x : Nat) : Int := if x < 2 ^ (bits - 1) then x else (x : Int) - 2 ^ bits

/-- A natural number as a 32-bit word. -/
def word (n : Nat) : Word := BitVec.ofNat 32 n

/-- A signed number as a two's complement 32-bit word. -/
def wordInt (n : Int) : Word := BitVec.ofInt 32 n

/-- A yes-or-no value as a word: 1 for yes and 0 for no (R185). -/
def wordBool (b : Bool) : Word := if b then 1 else 0

/-- A 64-bit value as two words, low first (R185, R188). -/
def words64 (n : Nat) : List Word := [word n, word (n / 4294967296)]

/-- A signed 64-bit value as two words, low first. -/
def wordsInt64 (n : Int) : List Word :=
  [wordInt n, wordInt (n / 4294967296)]

end Sys2Proof.Machine
end

