-- ==== Sys2Proof/Machine/Ops.lean ====
section
/-! DEFINITION. The named operations over tables, staging memory, ports and the agenda: the only places that read and
write them. -/

namespace Sys2Proof.Machine

/-! ### Tables -/

/-- Record `k` of a table whose unlisted records are `d`. -/
def Table.get {α : Type} (d : α) : Table α → Nat → α
  | [], _ => d
  | (k', v) :: t, k => if k' = k then v else Table.get d t k

/-- A table without its entry for `k`. -/
def Table.erase {α : Type} (t : Table α) (k : Nat) : Table α := t.filter (fun e => decide (e.1 ≠ k))

/-- Insert an entry before the first entry with a greater number. -/
def Table.insert {α : Type} (k : Nat) (v : α) : Table α → Table α
  | [] => [(k, v)]
  | e :: t => if e.1 < k then e :: Table.insert k v t else (k, v) :: e :: t

/-- Write record `k`; a record equal to the reset record is not listed, so that equal tables are equal lists. -/
def Table.set {α : Type} [DecidableEq α] (d : α) (t : Table α) (k : Nat) (v : α) : Table α :=
  if v = d then t.erase k else Table.insert k v (t.erase k)

/-- The canonical form: numbers strictly rising, no entry equal to the reset record. -/
def Table.wf {α : Type} [DecidableEq α] (d : α) (t : Table α) : Bool :=
  decide (t.Pairwise (fun x y => x.1 < y.1)) && t.all (fun e => decide (e.2 ≠ d))

/-! ### Staging memory -/

/-- What an unlisted byte of staging memory reads as. DESIGN CHOICE, unsafe (log 6): the spec gives no contents. -/
def Memory.unlisted : Byte := 0

/-- The byte at an address. -/
def Memory.read (m : Memory) (a : Nat) : Byte := Table.get Memory.unlisted m a

/-- The cells that `bytes` written from address `a` upward make, less those that read as unlisted. -/
def Memory.cells : Nat → List Byte → Memory
  | _, [] => []
  | a, b :: bs => if b = Memory.unlisted then Memory.cells (a + 1) bs else (a, b) :: Memory.cells (a + 1) bs

/-- Write `bytes` from address `a` upward, keeping the canonical form. -/
def Memory.write (m : Memory) (a : Nat) (bytes : List Byte) : Memory :=
  m.filter (fun e => decide (e.1 < a)) ++ Memory.cells a bytes ++ m.filter (fun e => decide (a + bytes.length ≤ e.1))

/-- Write zero to `count` bytes from address `a` upward (R4: entries cleared by DEFINE_CLIP). -/
def Memory.clear (m : Memory) (a count : Nat) : Memory :=
  m.filter (fun e => decide (e.1 < a ∨ a + count ≤ e.1))

/-- `count` bytes from address `a` upward. -/
def Memory.readBytes (m : Memory) (a count : Nat) : List Byte := (List.range' a count).map m.read

/-- The canonical form of memory: addresses strictly rising, no byte equal to what an unlisted one reads. -/
def Memory.wf (m : Memory) : Bool := Table.wf Memory.unlisted m

/-- The byte address of index entry `e` (section 1.3). -/
def entryAddress (e : Nat) : Nat := e * Config.entryBytes

/-- The byte address of page `p` of the frame pool (section 5.2). -/
def pageAddress (straps : Straps) (p : Nat) : Nat := (straps.idxMiB + p) * Config.pageBytes

/-! ### Records of the part -/

/-- Clip record `k`. -/
def Device.clip (m : Device) (k : Nat) : Clip := Table.get Clip.reset m.clips k
/-- Stream record `k`. -/
def Device.stream (m : Device) (k : Nat) : StreamRec := Table.get StreamRec.reset m.streams k
/-- Slot record `n`. -/
def Device.slot (m : Device) (n : Nat) : Slot := Table.get Slot.free m.slots n
/-- Request record `r`. -/
def Device.req (m : Device) (r : Nat) : Request := Table.get Request.free m.reqs r
/-- The record of channel `c`. -/
def Device.channel (m : Device) (c : Nat) : Channel := Table.get Channel.reset m.channels c
/-- The port of a head. -/
def Device.port (m : Device) (p : Head) : Port :=
  match p with
  | .a => m.portA
  | .b => m.portB

/-- Write clip record `k`. -/
def Device.setClip (m : Device) (k : Nat) (v : Clip) : Device := { m with clips := Table.set Clip.reset m.clips k v }
/-- Write stream record `k`. -/
def Device.setStream (m : Device) (k : Nat) (v : StreamRec) : Device := { m with streams := Table.set StreamRec.reset m.streams k v }
/-- Write slot record `n`. -/
def Device.setSlot (m : Device) (n : Nat) (v : Slot) : Device := { m with slots := Table.set Slot.free m.slots n v }
/-- Write request record `r`. -/
def Device.setReq (m : Device) (r : Nat) (v : Request) : Device := { m with reqs := Table.set Request.free m.reqs r v }
/-- Write the record of channel `c`. -/
def Device.setChannel (m : Device) (c : Nat) (v : Channel) : Device := { m with channels := Table.set Channel.reset m.channels c v }
/-- Write the port of a head. -/
def Device.setPort (m : Device) (p : Head) (v : Port) : Device :=
  match p with
  | .a => { m with portA := v }
  | .b => { m with portB := v }

/-- Change stream record `k`. -/
def Device.onStream (m : Device) (k : Nat) (f : StreamRec → StreamRec) : Device := m.setStream k (f (m.stream k))
/-- Change slot record `n`. -/
def Device.onSlot (m : Device) (n : Nat) (f : Slot → Slot) : Device := m.setSlot n (f (m.slot n))
/-- Change the record of channel `c`. -/
def Device.onChannel (m : Device) (c : Nat) (f : Channel → Channel) : Device := m.setChannel c (f (m.channel c))
/-- Change the port of a head. -/
def Device.onPort (m : Device) (p : Head) (f : Port → Port) : Device := m.setPort p (f (m.port p))

/-- The HAU's values for a head. -/
def Hau.head (h : Hau) (p : Head) : HeadRecord :=
  match p with
  | .a => h.headA
  | .b => h.headB

/-- Write the HAU's values for a head. -/
def Hau.setHead (h : Hau) (p : Head) (v : HeadRecord) : Hau :=
  match p with
  | .a => { h with headA := v }
  | .b => { h with headB := v }

/-- The state of tag `t` of a channel. -/
def Channel.tag (c : Channel) (t : Nat) : Tag := Table.get Tag.free c.tags t

/-- Write tag `t` of a channel. -/
def Channel.setTag (c : Channel) (t : Nat) (v : Tag) : Channel := { c with tags := Table.set Tag.free c.tags t v }

/-- All four tags are free. -/
def Channel.tagsFree (c : Channel) : Bool :=
  (List.range Config.numTags).all fun t => decide (c.tag t = Tag.free)

/-- The first number below `bound` that satisfies `f`: "the lowest-numbered". -/
def lowest (bound : Nat) (f : Nat → Bool) : Option Nat := (List.range' 0 bound).find? f

/-- The element that no other of the list stands before in the strict order `lt`; among equals the first. -/
def least {α : Type} (lt : α → α → Bool) : List α → Option α
  | [] => none
  | x :: xs =>
    match least lt xs with
    | none => some x
    | some y => if lt y x then some y else some x

/-- Send something outside during this event (log 7). -/
def Device.emit (m : Device) (o : Output) : Device := { m with out := m.out ++ [o] }

/-- A counter that counts modulo 2^32 (R113, R134, R146, R148). -/
def count32 (n : Nat) : Nat := (n + 1) % 4294967296

/-! ### The agenda of an event (log 8) -/

/-- Ask for a delivery check of stream `k` at this event (R63, R65). -/
def Device.askCheck (m : Device) (k : Nat) : Device :=
  { m with agenda := { m.agenda with checks := if k ∈ m.agenda.checks then m.agenda.checks else m.agenda.checks ++ [k] } }

/-- Note a cause of a dispatch choice for channel `c` (R102). -/
def Device.askChoice (m : Device) (c : Nat) : Device :=
  { m with agenda := { m.agenda with choices := if c ∈ m.agenda.choices then m.agenda.choices else m.agenda.choices ++ [c] } }

/-- Note a cause of a backlog retry (R88). -/
def Device.askRetry (m : Device) : Device := { m with agenda := { m.agenda with retry := true } }

/-! ### Completions and STATE notices -/

/-- A completion is made and stands in the port's completion queue (R153). -/
def Device.complete (m : Device) (p : Head) (x : Completion) : Device :=
  m.onPort p fun port => { port with completions := port.completions ++ [x] }

/-- The STATE notice waiting for a stream takes a new event and owner, keeps its place and is marked superseded. -/
def supersede (x : StateNotice) : List StateNotice → List StateNotice
  | [] => []
  | y :: q =>
    if y.stream = x.stream then { y with event := x.event, owner := x.owner, superseded := true } :: q
    else y :: supersede x q

/-- A STATE notice joins a queue in which none of its notices is being written (R163). -/
def joinState (x : StateNotice) (q : List StateNotice) : List StateNotice :=
  if q.any (fun y => decide (y.stream = x.stream)) then supersede x q else q ++ [x]

/-- A STATE notice is made for a port: a notice being written is left alone, and a waiting one of the same stream is
superseded (R163). -/
def Device.makeState (m : Device) (p : Head) (k : Nat) (event : StateEvent) : Device :=
  let x : StateNotice := { stream := k, event, owner := (m.stream k).owner, superseded := false }
  m.onPort p fun port =>
    match port.write, port.stateQueue with
    | some .state, y :: q => { port with stateQueue := y :: joinState x q }
    | _, q => { port with stateQueue := joinState x q }

/-- A STATE notice is made for both ports (R178, R180). -/
def Device.makeStateBoth (m : Device) (k : Nat) (event : StateEvent) : Device :=
  (m.makeState .a k event).makeState .b k event

/-- The write of the STATE queue's first notice ends without its being posted: a second notice of the same stream
becomes one with it at its place (R163, R166). -/
def unmarkState : List StateNotice → List StateNotice
  | [] => []
  | y :: q =>
    match q.find? (fun z => decide (z.stream = y.stream)) with
    | none => y :: q
    | some z =>
      { y with event := z.event, owner := z.owner, superseded := true } ::
        q.filter (fun z => decide (z.stream ≠ y.stream))

/-- The notice at the head of stream `k`'s outbox is being written on some port (R166). -/
def Device.marked (m : Device) (k : Nat) : Bool :=
  decide (m.portA.write = some (.stream k)) || decide (m.portB.write = some (.stream k))

/-- The writes in progress of stream `k`'s notice no longer belong to a queue: each ends without posting (R164). -/
def Device.detach (m : Device) (k : Nat) : Device :=
  let f (port : Port) : Port := if port.write = some (.stream k) then { port with write := some .detached } else port
  { m with portA := f m.portA, portB := f m.portB }

/-- The numbers of the streams that are not CLOSED, ascending. -/
def Device.liveStreams (m : Device) : List Nat :=
  (m.streams.filter fun e => decide (e.2.state ≠ .closed)).map (·.1)

end Sys2Proof.Machine
end

