-- ==== Sys2Proof/Machine/Transport.lean ====
section
/-! DEFINITION. Positions, window indices and times of one stream record (chapters 2 and 3), its END and MISSED notices
(R33, R34, R139–R141), and the transport changes of PLAY, CUE, JOG and SET_RANGE on the record alone. -/

namespace Sys2Proof.Machine

/-! ### Playhead, direction, stride -/

/-- The playhead P at house time `t`, in frame/65536 (R43). -/
def StreamRec.playhead (x : StreamRec) (t : Time) : Int :=
  if x.s = 0 ∨ t < x.t0 then x.f0q
  else x.f0q + x.s.sign * (((t - x.t0) * x.s.natAbs * 65536 / (8 * x.period) : Nat) : Int)

/-- The stride of a shuttle factor (R44): 1 when stopped and below 16 eighths, else |S| div 8. -/
def strideOf (s : Int) : Nat := if s.natAbs < 16 then 1 else s.natAbs / 8

/-- The stride st (R44). -/
def StreamRec.stride (x : StreamRec) : Nat := strideOf x.s

/-- The direction d (R44). -/
def StreamRec.dir (x : StreamRec) : Int := if x.s = 0 then (if x.lastForward then 1 else -1) else x.s.sign

/-- The stream is PLAYING, or in HANDOVER with S ≠ 0 (R45, R136). -/
def StreamRec.running (x : StreamRec) : Bool :=
  match x.state with
  | .playing => true
  | .handover => decide (x.s ≠ 0)
  | _ => false

/-- The number of frames of the range. -/
def StreamRec.rangeLength (x : StreamRec) : Int := x.outPoint - x.inPoint + 1

/-- `u` lies within [in, out]. -/
def StreamRec.inRange (x : StreamRec) (u : Int) : Bool := decide ((x.inPoint : Int) ≤ u) && decide (u ≤ x.outPoint)

/-- A whole frame mapped into the range (R24). -/
def StreamRec.mapFrame (x : StreamRec) (u : Int) : Int :=
  if x.inRange u then u
  else if x.loop then x.inPoint + (u - x.inPoint) % x.rangeLength
  else clampInt x.inPoint x.outPoint u

/-- The clip frame of N (R26, R36). -/
def StreamRec.frameN (x : StreamRec) : Nat := (x.mapFrame x.n).toNat

/-- The reported position (R25). -/
def StreamRec.position (x : StreamRec) (now : Time) : Nat := (x.mapFrame (x.playhead now / 65536)).toNat

/-! ### Window indices, clip frames, display and due times -/

/-- The clip frame of an unwrapped index (R46). -/
def StreamRec.clipFrame (x : StreamRec) (u : Int) : Nat :=
  (if x.loop then (x.inPoint : Int) + (u - x.inPoint) % x.rangeLength else u).toNat

/-- The window's unwrapped indices in play order (R45). -/
def StreamRec.targets (x : StreamRec) : List Int :=
  let first : Int := if !x.running && x.stillDelivered then x.n + x.dir else x.n
  let all := (List.range x.w).map fun (i : Nat) => first + (i : Int) * x.stride * x.dir
  match x.state with
  | .closed | .closing => []
  | _ => if x.loop then all else all.takeWhile x.inRange

/-- A display time: the mark PAST or a time (R47, 00_scope 4.2). -/
inductive DisplayTime where
  | past
  | time (t : Time)
deriving DecidableEq, Repr

/-- q: the distance of index `u` from the anchor in the direction of play (R47). -/
def StreamRec.distance (x : StreamRec) (u : Int) : Int := (u * 65536 - x.f0q) * x.dir

/-- The time at which the playhead covers the distance `q` from the anchor; NEVER above 2^64 − 2 (R47). -/
def StreamRec.timeAt (x : StreamRec) (q : Nat) : Time :=
  let d := x.t0 + q * x.period * 8 / (x.s.natAbs * 65536)
  if d ≤ maxTime then d else never

/-- The display time of index `u` (R47). -/
def StreamRec.display (x : StreamRec) (u : Int) : DisplayTime :=
  if x.s = 0 then .time never
  else if x.distance u < 0 then .past
  else .time (x.timeAt (x.distance u).toNat)

/-- The display time written in a window entry, which is never PAST (R49, R58). -/
def StreamRec.entryDisplay (x : StreamRec) (u : Int) : Time :=
  if x.s = 0 then never else x.timeAt (x.distance u).toNat

/-- The due time of a display time (R49). -/
def dueTime (lead : Nat) (display : Time) : Time := if display = never then never else display - lead

/-- The display expiry timer (R136): armed at the head entry's display time when the stream runs, the head entry is at
N and the time is not NEVER; unset in every other case. -/
def StreamRec.displayTimer (x : StreamRec) : Option Time :=
  match x.window with
  | [] => none
  | e :: _ => if x.running && decide (e.u = x.n) && decide (e.display ≠ never) then some e.display else none

/-! ### Misses and END -/

/-- A trigger of a read-ahead pass (R55). -/
def StreamRec.trigger (x : StreamRec) : StreamRec := { x with passPending := true }

/-- A MISSED notice may be queued for the stream (R140). -/
def StreamRec.missable (x : StreamRec) : Bool :=
  decide (0 < x.missedCount) && !x.ownerAbsent && decide (x.endPending = none) &&
  match x.state with
  | .cued | .playing | .closing => true
  | _ => false

/-- The missed count is queued as a MISSED notice (R140). -/
def StreamRec.queueMissed (x : StreamRec) : StreamRec :=
  { x with outbox := x.outbox ++ [.missed x.missedCount x.lastMissed], missedCount := 0 }

/-- The MISSED notice on its own: when the outbox is empty (R140, third case). -/
def StreamRec.missedAlone (x : StreamRec) : StreamRec :=
  if x.outbox.isEmpty && x.missable then x.queueMissed else x

/-- A count that stops at 65,535 (R139, R141). -/
def stop16 (n : Nat) : Nat := min n 65535

/-- A further miss taken into a MISSED notice at the tail of the outbox, if the tail is one (R139). -/
def foldMiss (frame : Nat) : List Notice → Option (List Notice)
  | [] => none
  | [.missed count _] => some [.missed (stop16 (count + 1)) frame]
  | [_] => none
  | y :: q => (foldMiss frame q).map (y :: ·)

/-- A miss of clip frame `frame` is counted (R139, R146). `marked`: the notice at the outbox head is being written, so
an outbox of that one notice takes no further miss (R164). DESIGN CHOICE (log 41): a miss taken into the notice at the
tail moves the notice's last frame and leaves the record's last missed frame. -/
def StreamRec.countMiss (x : StreamRec) (marked : Bool) (frame : Nat) : StreamRec :=
  let x := { x with missedTotal := count32 x.missedTotal }
  match if marked && decide (x.outbox.length = 1) then none else foldMiss frame x.outbox with
  | some q => { x with outbox := q }
  | none => { x with missedCount := stop16 (x.missedCount + 1), lastMissed := frame }

/-- An END notice joins the outbox, behind a MISSED notice where one is due and there is room for both; with no room
end pending is set (R34, R140). -/
def StreamRec.queueEnd (x : StreamRec) (bound : Nat) : StreamRec :=
  if x.endPending.isSome || decide (Config.outboxPlaces ≤ x.outbox.length) then { x with endPending := some bound }
  else if x.missable && decide (x.outbox.length + 2 ≤ Config.outboxPlaces) then
    { x.queueMissed with outbox := x.queueMissed.outbox ++ [.ended bound] }
  else { x with outbox := x.outbox ++ [.ended bound] }

/-- An END held by end pending joins the outbox once it has room (R34, R166). -/
def StreamRec.joinPending (x : StreamRec) : StreamRec :=
  match x.endPending with
  | none => x
  | some bound => if x.outbox.length < Config.outboxPlaces then { x with endPending := none }.queueEnd bound else x

/-- N stands past the bound in the direction of play, in a stream without loop (R33). -/
def StreamRec.pastBound (x : StreamRec) : Bool :=
  !x.loop && ((decide (0 < x.dir) && decide ((x.outPoint : Int) < x.n)) ||
              (decide (x.dir < 0) && decide (x.n < x.inPoint)))

/-- The end of the range (R33; in HANDOVER R34): the stream stops at the bound it passed. -/
def StreamRec.endRange (x : StreamRec) (now : Time) : StreamRec :=
  let bound := if 0 < x.dir then x.outPoint else x.inPoint
  let held := decide (x.state = .handover)
  { x with state := if held then .handover else .cued, savedS := if held then some 0 else x.savedS,
           n := bound, f0q := (bound : Int) * 65536, t0 := now, s := 0, stillDelivered := true,
           passPending := true }.queueEnd bound

/-- N steps by the stride in the direction of play, and a step past a bound ends the range (R142, R58). -/
def StreamRec.stepOn (x : StreamRec) (now : Time) : StreamRec :=
  let y := { x with n := x.n + x.stride * x.dir }
  if y.pastBound then y.endRange now else y

/-- N steps and a pass is triggered (R68, R137). -/
def StreamRec.stepN (x : StreamRec) (now : Time) : StreamRec := x.trigger.stepOn now

/-! ### Transport changes -/

/-- Re-anchoring at now (R24). -/
def StreamRec.reanchor (x : StreamRec) (now : Time) : StreamRec :=
  { x with f0q := x.playhead now, t0 := max now x.t0 }

/-- A locate frame clamped into [in, out] (R27, R30). -/
def StreamRec.locateFrame (x : StreamRec) (frame : Nat) : Nat := clampNat x.inPoint x.outPoint frame

/-- PLAY's own settings for a nonzero S (R26). -/
def StreamRec.setPlay (x : StreamRec) (shuttle : Int) : StreamRec :=
  { x with s := shuttle, lastForward := decide (0 < shuttle), stillDelivered := false, state := .playing,
           passPending := true }

/-- PLAY with a locate frame (R27). DESIGN CHOICE (log 42): the entries of a stream that keeps its direction stay until
the next pass, so a locate on N itself leaves the display expiry timer armed on the entry's old display time. -/
def StreamRec.playLocated (x : StreamRec) (now preroll : Time) (shuttle : Int) (frame : Nat) : StreamRec :=
  let f := x.locateFrame frame
  { x with n := f, f0q := (f : Int) * 65536, t0 := now + preroll }.setPlay shuttle

/-- PLAY without a locate frame from CUED (R28). -/
def StreamRec.playFromCued (x : StreamRec) (now preroll : Time) (shuttle : Int) : StreamRec :=
  let step : Int := if x.stillDelivered then strideOf shuttle * shuttle.sign else 0
  let y := { x with n := x.n + step, f0q := x.n * 65536, t0 := now + preroll }.setPlay shuttle
  if x.stillDelivered && y.pastBound then y.endRange now else y

/-- The first frame in the new direction whose display time is not before now, clamped without loop (R29). -/
def StreamRec.reversedN (x : StreamRec) (now : Time) (shuttle : Int) : Int :=
  let pos := x.playhead now
  let u := if 0 < shuttle then -(-pos / 65536) else pos / 65536
  if x.loop then u else clampInt x.inPoint x.outPoint u

/-- PLAY without a locate frame on a PLAYING stream (R29). -/
def StreamRec.playOn (x : StreamRec) (now : Time) (shuttle : Int) : StreamRec :=
  if shuttle.sign = x.s.sign then (x.reanchor now).setPlay shuttle
  else { x.reanchor now with n := x.reversedN now shuttle }.setPlay shuttle

/-- PLAY drops the window entries when it reverses a PLAYING stream (R27, R29). -/
def StreamRec.playReverses (x : StreamRec) (shuttle : Int) : Bool :=
  decide (x.state = .playing) && decide (shuttle.sign ≠ x.s.sign)

/-- PLAY on the record, for a nonzero clamped S (R26–R29). -/
def StreamRec.play (x : StreamRec) (now preroll : Time) (shuttle : Int) (locate : Option Nat) : StreamRec :=
  match locate with
  | some frame => x.playLocated now preroll shuttle frame
  | none => if x.state = .playing then x.playOn now shuttle else x.playFromCued now preroll shuttle

/-- Where CUE without a locate frame puts N and F0q (R30): N is the frame under the playhead mapped into the range, and
F0q moves with it. -/
def StreamRec.stopHere (x : StreamRec) (now : Time) : StreamRec :=
  let pos := x.playhead now
  let under := pos / 65536
  let m := x.mapFrame under
  { x with n := m, f0q := if x.loop then pos - (under - m) * 65536 else if m = under then pos else m * 65536 }

/-- The stop of CUE: T0 now, S 0, last direction kept (R30). -/
def StreamRec.cue (x : StreamRec) (now : Time) (locate : Option Nat) : StreamRec :=
  let y := match locate with
    | some frame => { x with n := x.locateFrame frame, f0q := (x.locateFrame frame : Int) * 65536 }
    | none => x.stopHere now
  { y with t0 := now, s := 0, state := .cued, passPending := true,
           stillDelivered := decide (x.state = .cued) && x.stillDelivered && decide (y.n = x.n) }

/-- JOG (R31). -/
def StreamRec.jog (x : StreamRec) (now : Time) (n : Int) : StreamRec :=
  let m := x.mapFrame (x.n + n)
  { x with n := m, f0q := m * 65536, t0 := now, stillDelivered := false, passPending := true,
           lastForward := if n = 0 then x.lastForward else decide (0 < n) }

/-- SET_RANGE with an out-point already clamped (R32). -/
def StreamRec.setRange (x : StreamRec) (now preroll : Time) (inPoint outPoint : Nat) (loop openEnd : Bool) : StreamRec :=
  let f := x.mapFrame x.n
  let y := { x.reanchor now with inPoint, outPoint, loop, openEnd, passPending := true }
  if y.inRange f then { y with n := f, f0q := y.f0q + (f - x.n) * 65536 }
  else
    let m := y.mapFrame f
    { y with n := m, f0q := m * 65536, t0 := if x.state = .playing then now + preroll else now,
             stillDelivered := false }

/-- CLOSE's stop (R37): re-anchor, S 0, no handover, no orphan timer (R179). -/
def StreamRec.close (x : StreamRec) (now : Time) : StreamRec :=
  { x.reanchor now with s := 0, savedS := none, handoverTimer := none, orphanTimer := none, state := .closing }

/-- The record a stream is left with when it becomes CLOSED (R18); last missed frame and totals are kept (R147). -/
def StreamRec.closed (x : StreamRec) : StreamRec :=
  { x with state := .closed, s := 0, f0q := 0, t0 := 0, n := 0, savedS := none, stillDelivered := false,
           endPending := none, ownerAbsent := false, loop := false, openEnd := false, lastForward := true,
           missedCount := 0, nextSeq := 0, handoverTimer := none, orphanTimer := none, window := [], delivery := [],
           outbox := [] }

/-- Give back to the stream the counts of the MISSED notices that leave the outbox unposted (R141). DESIGN CHOICE
(log 41): a miss folded into the notice after it was queued is not one counted since; the notice's last missed frame is
taken wherever the missed count is 0. -/
def StreamRec.giveBack (x : StreamRec) : StreamRec :=
  let lost := x.outbox.filterMap fun y => match y with
    | .missed count last => some (count, last)
    | _ => none
  { x with missedCount := lost.foldl (fun a e => stop16 (a + e.1)) x.missedCount,
           lastMissed := if x.missedCount = 0 then (lost.getLast?.map (·.2)).getD x.lastMissed else x.lastMissed }

/-- The outbox at the loss of the owner: cleared of every notice but END notices (R176). -/
def StreamRec.clearOutbox (x : StreamRec) : StreamRec :=
  { x.giveBack with outbox := x.outbox.filter fun y => match y with
      | .ended _ => true
      | _ => false }

end Sys2Proof.Machine
end

