-- ==== Sys2Proof/Machine/Operands.lean ====
section
/-! DEFINITION. The layouts of chapter 12: command records (12.1, R184), index entries and slot descriptors (12.3,
R186), notices and their codes (12.2, R185). -/

namespace Sys2Proof.Machine

/-! ### Command records -/

/-- Stripe `j` of a DEFINE_CLIP record: its channel in bits 4j to 4j + 3 of bytes 12–15, its base in bytes 16 + 6j to
21 + 6j (section 12.1). -/
def recordStripe (r : List Byte) (j : Nat) : Stripe :=
  { channel := field r 12 4 / 2 ^ (4 * j) % 16, base := field r (16 + 6 * j) 6 }

/-- The arguments of DEFINE_CLIP (section 12.1). -/
def recordDefineClip (r : List Byte) : DefineClipArgs :=
  let flags := field r 2 1
  { locatorKind := flags % 4, openEnd := bit flags 2, stripeCount := flags / 16, frameCount := field r 3 3,
    frameBlocks := field r 6 2, frameBytes := field r 8 4, indexBase := field r 8 4, indexCapacity := field r 12 4,
    stripes := (List.range 8).map (recordStripe r) }

/-- The arguments of OPEN (section 12.1). -/
def recordOpen (r : List Byte) : OpenArgs :=
  { loop := bit (field r 2 1) 0, openEnd := bit (field r 2 1) 1, clip := field r 3 1, generation := field r 4 1,
    w := field r 5 1, c := field r 6 1, seat := field r 7 1, inPoint := field r 8 4, outPoint := field r 12 4,
    period := field r 16 4, start := field r 20 4 }

/-- The arguments of SET_CHANNEL (section 12.1). -/
def recordSetChannel (r : List Byte) : SetChannelArgs :=
  { channel := field r 3 1, retryLimit := field r 4 1, tagLimit := field r 5 1, parkMs := field r 8 4,
    wakeMs := field r 12 4, driftMs := field r 16 4 }

/-- The arguments of SET_DEVICE: a setting is carried when its bit of the mask is set (R184). -/
def recordSetDevice (r : List Byte) : SetDeviceArgs :=
  let mask := field r 2 1
  let carried (i at_ : Nat) : Option Nat := if bit mask i then some (field r at_ 4) else none
  { urgentUs := carried 0 8, horizonUs := carried 1 12, leadUs := carried 2 16, prerollUs := carried 3 20,
    holdMs := carried 4 24, orphanMs := carried 5 28 }

/-- The locate frame, ignored where the locate-present flag is clear (R184). -/
def recordLocate (r : List Byte) : Option Nat := if bit (field r 2 1) 0 then some (field r 8 4) else none

/-- What a command record says: byte 0 its kind, and the fields that section 12.1 assigns to the kind (R184). -/
def Command.ofRecord (r : List Byte) : Command :=
  let target := field r 3 1
  match field r 0 1 with
  | 0x01 => .defineClip (recordDefineClip r)
  | 0x02 => .loadIndex target (field r 4 4) (field r 8 4) (field r 16 8)
  | 0x03 => .extendClip target (field r 4 4)
  | 0x04 => .retireClip target (field r 4 1)
  | 0x10 => .openStream (recordOpen r)
  | 0x11 => .play target (signedField 8 (field r 4 1)) (recordLocate r)
  | 0x12 => .cue target (recordLocate r)
  | 0x13 => .jog target (signedField 32 (field r 8 4))
  | 0x14 => .setRange target (field r 8 4) (field r 12 4) (bit (field r 2 1) 0) (bit (field r 2 1) 1)
  | 0x15 => .setWindow target (field r 5 1) (field r 6 1) (field r 7 1)
  | 0x16 => .queryStream target
  | 0x17 => .release target (field r 4 2)
  | 0x18 => .closeStream target
  | 0x19 => .handOver target
  | 0x1A => .takeOver target (bit (field r 2 1) 0)
  | 0x20 => .setChannel (recordSetChannel r)
  | 0x21 => .characterise target (field r 4 2) (field r 6 2) (field r 8 8)
  | 0x22 => .channelReset target
  | 0x30 => .setDevice (recordSetDevice r)
  | 0x31 => .deviceClear
  | 0x32 => .yieldRole
  | code => .unknown code

/-! ### Index entries -/

/-- An extent: channel, first block, block count (00_scope 4.3). -/
structure Extent where
  channel : Nat
  block : Nat
  count : Nat
deriving DecidableEq, Repr

/-- What an index entry holds (section 1.3). -/
structure IndexEntry where
  valid : Bool
  extentCount : Nat
  frameBytes : Nat
  /-- Extents 0 to 3 as laid out. -/
  extents : List Extent
deriving DecidableEq, Repr

/-- An index entry read from its 64 bytes (section 12.3). -/
def IndexEntry.ofBytes (b : List Byte) : IndexEntry :=
  { valid := bit (field b 0 1) 0, extentCount := field b 1 1, frameBytes := field b 4 4,
    extents := (List.range 4).map fun k =>
      { channel := field b (8 + 12 * k) 1, block := field b (12 + 12 * k) 6, count := field b (10 + 12 * k) 2 } }

/-- The extents in use. -/
def IndexEntry.used (x : IndexEntry) : List Extent := x.extents.take x.extentCount

/-- The total blocks of the extents in use. -/
def IndexEntry.totalBlocks (x : IndexEntry) : Nat := (x.used.map (·.count)).sum

/-- The checks of R10 on an entry from head memory, its valid flag apart. -/
def IndexEntry.checks (straps : Straps) (x : IndexEntry) : Bool :=
  decide (1 ≤ x.extentCount) && decide (x.extentCount ≤ 4) &&
  x.used.all (fun e => decide (e.channel < straps.fitted) && decide (1 ≤ e.count) &&
    decide (e.count ≤ Config.maxFrameBlocks) && decide (e.block + e.count ≤ Config.blockSpace)) &&
  decide (x.totalBlocks ≤ Config.maxFrameBlocks) && decide (1 ≤ x.frameBytes) &&
  decide (x.frameBytes ≤ x.totalBlocks * Config.blockBytes)

/-- Bytes brought to an exact length, for an ill-formed operand (log 31). -/
def exactly (n : Nat) (b : List Byte) : List Byte := (b ++ List.replicate n 0).take n

/-- The bytes stored for an entry: bytes 1 to 63 as they came, bit 0 of byte 0 the outcome, the rest of byte 0 zero
(R186). -/
def storedEntry (entry : List Byte) (valid : Bool) : List Byte :=
  (if valid then 1 else 0) :: (exactly Config.entryBytes entry).drop 1

/-! ### Codes of section 12.2 -/

/-- The status codes. -/
def Status.code : Status → Nat
  | .ok => 0
  | .busy => 1
  | .badArg => 2
  | .noRoom => 3
  | .noClip => 4
  | .noStream => 5
  | .stale => 6
  | .notOwner => 7
  | .notPrimary => 8

/-- The cause codes; an absent cause reads 0. -/
def Cause.code : Cause → Nat
  | .medium => 1
  | .address => 2
  | .channelFault => 3
  | .invalidIndex => 4

/-- The STATE event codes. -/
def StateEvent.code : StateEvent → Nat
  | .orphaned => 1
  | .handover => 2
  | .lapsed => 3
  | .takenOver => 4
  | .closed => 5

/-- The clip state codes. -/
def ClipState.code : ClipState → Nat
  | .free => 0
  | .defined => 1
  | .retiring => 2

/-- The stream state codes. -/
def StreamState.code : StreamState → Nat
  | .closed => 0
  | .cued => 1
  | .playing => 2
  | .handover => 3
  | .orphaned => 4
  | .closing => 5

/-- The slot state codes (section 12.3). -/
def SlotState.code : SlotState → Nat
  | .free => 0
  | .filling => 1
  | .staged => 2
  | .abandoned => 3
  | .failed => 4

/-- The channel state codes. -/
def ChanState.code : ChanState → Nat
  | .offline => 0
  | .active => 1
  | .parking => 2
  | .parked => 3
  | .waking => 4
  | .faulted => 5

/-- The characterising phase codes. -/
def phaseCode : Option Characterisation → Nat
  | none => 0
  | some x =>
    match x.phase with
    | .draining => 1
    | .probing .. => 2
    | .settling _ => 3

/-- The characterisation outcome codes. -/
def CharOutcome.code : CharOutcome → Nat
  | .done => 1
  | .probeError => 2
  | .probeTimeout => 3
  | .faulted => 4
  | .linkLost => 5
  | .reset => 6

/-- The fault reason codes. -/
def FaultReason.code : FaultReason → Nat
  | .timeouts => 1
  | .smallRead => 2
  | .parkTimeout => 3
  | .wakeTimeout => 4

/-- The tag state codes. -/
def Tag.code : Tag → Nat
  | .free => 0
  | .inFlight .. => 1
  | .aborting _ => 2

/-! ### Notices -/

/-- Fourteen result words: the command's results, then zeros (R185). -/
def resultWords (l : List Word) : List Word := (l ++ List.replicate 14 0).take 14

/-- The 64 bytes of a COMPLETION notice (section 12.2). -/
def Completion.bytes (x : Completion) : List Byte :=
  natBytes 1 0x01 ++ natBytes 1 x.tag ++ natBytes 1 x.kind ++ natBytes 1 x.status.code ++ natBytes 4 x.consumer ++
  (resultWords x.results).flatMap (fun w => natBytes 4 w.toNat)

/-- The 64 bytes of a stream's notice (section 12.2); bytes not assigned are zero (R185). -/
def Notice.bytes (stream : Nat) : Notice → List Byte
  | .ready late clip generation seq frame slot display frameBytes =>
    exactly 64 (natBytes 1 0x02 ++ natBytes 1 (if late then 1 else 0) ++ natBytes 1 stream ++ natBytes 1 clip ++
      natBytes 2 seq ++ natBytes 1 generation ++ natBytes 1 0 ++ natBytes 4 frame ++ natBytes 2 slot ++ natBytes 2 0 ++
      natBytes 8 display ++ natBytes 4 frameBytes)
  | .failed cause clip generation seq frame display =>
    exactly 64 (natBytes 1 0x03 ++ natBytes 1 cause.code ++ natBytes 1 stream ++ natBytes 1 clip ++ natBytes 2 seq ++
      natBytes 1 generation ++ natBytes 1 0 ++ natBytes 4 frame ++ natBytes 4 0 ++ natBytes 8 display)
  | .missed count last =>
    exactly 64 (natBytes 1 0x04 ++ natBytes 1 0 ++ natBytes 1 stream ++ natBytes 1 0 ++ natBytes 2 count ++
      natBytes 2 0 ++ natBytes 4 last)
  | .ended bound =>
    exactly 64 (natBytes 1 0x05 ++ natBytes 1 0 ++ natBytes 1 stream ++ natBytes 1 0 ++ natBytes 4 0 ++ natBytes 4 bound)

/-- The 64 bytes of a STATE notice (section 12.2). -/
def StateNotice.bytes (x : StateNotice) : List Byte :=
  exactly 64 (natBytes 1 0x06 ++ natBytes 1 x.event.code ++ natBytes 1 x.stream ++ natBytes 1 x.owner.code ++
    natBytes 1 (if x.superseded then 1 else 0))

/-! ### Slot descriptors -/

/-- The 1024 bytes of a slot's descriptor (section 12.3, R186). -/
def Slot.descriptor (x : Slot) : List Byte :=
  exactly 1024 (natBytes 1 x.state.code ++ natBytes 1 x.clip ++ natBytes 1 x.generation ++ natBytes 1 x.pages.length ++
    natBytes 4 x.frame ++ natBytes 4 x.frameBytes ++ natBytes 4 0 ++ x.pages.flatMap (natBytes 4))

end Sys2Proof.Machine
end

