-- ==== Sys2Proof/Machine/Flags.lean ====
section
/-! DEFINITION. The event flags of a port: raising a source, the interrupt decision, the in-service set and the
coalescing of NOTICE (chapter 10, R168–R170). -/

namespace Sys2Proof.Machine

/-- The nine event sources, in the order of their bits (section 12.5). -/
inductive Source where
  | portFault | channel | peer | role | notice | ringStall | drift | characterised | access
deriving DecidableEq, Repr

/-- The bit of a source in EV_REQUEST and EV_MASK (section 12.5). -/
def Source.bit : Source → Nat
  | .portFault => 0
  | .channel => 1
  | .peer => 2
  | .role => 3
  | .notice => 4
  | .ringStall => 5
  | .drift => 6
  | .characterised => 7
  | .access => 8

/-- Raising a source sets its request flag (R168). -/
def Events.raise (v : Events) (x : Source) : Events :=
  { v with request := v.request ||| BitVec.twoPow 9 x.bit }

/-- The level of source bit `i`: bits 2i and 2i + 1 of EV_LEVEL (section 12.5). -/
def Events.levelOf (v : Events) (i : Nat) : Nat := (v.level.toNat / 2 ^ (2 * i)) % 4

/-- Level `l` is in service. -/
def Events.serving (v : Events) (l : Nat) : Bool := v.inService.getLsbD l

/-- Level `l` is eligible: some source of the level requests unmasked, and neither it nor a more pressing level is in
service (R169). -/
def Events.eligible (v : Events) (l : Nat) : Bool :=
  (List.range 9).any (fun i => decide (v.levelOf i = l) && v.request.getLsbD i && !v.mask.getLsbD i) &&
  (List.range (l + 1)).all (fun j => !v.serving j)

/-- The level the interrupt decision sends, if any: the lowest-numbered eligible one (R169). -/
def Events.decision (v : Events) : Option Nat := (List.range 4).find? v.eligible

/-- Add a level to the in-service set. -/
def Events.serve (v : Events) (l : Nat) : Events := { v with inService := v.inService ||| BitVec.twoPow 4 l }

/-- END_OF_SERVICE removes the lowest-numbered level from the in-service set (R169). -/
def Events.endService (v : Events) : Events :=
  match (List.range 4).find? v.serving with
  | none => v
  | some l => { v with inService := v.inService &&& ~~~(BitVec.twoPow 4 l) }

/-- NOTICE is raised by the coalescing state: the unsignalled count returns to 0 and the timer is cancelled (R170). -/
def Events.signal (v : Events) : Events := { v.raise .notice with unsignalled := 0, coalTimer := none }

/-- A posting counts toward NOTICE (R170). -/
def Events.posted (v : Events) (now : Time) : Events :=
  let v1 := { v with unsignalled := v.unsignalled + 1,
                     coalTimer := if v.unsignalled = 0 then some (now + v.coalExpiryUs * Config.us) else v.coalTimer }
  if v1.coalCount ≤ v1.unsignalled then v1.signal else v1

/-- Raise a source on a port. -/
def Device.raise (m : Device) (p : Head) (x : Source) : Device := m.onPort p fun port => { port with ev := port.ev.raise x }

/-- Raise a source to both ports (R134). -/
def Device.raiseBoth (m : Device) (x : Source) : Device := (m.raise .a x).raise .b x

/-- The interrupt decision of a port: the message of the lowest eligible level is sent and the level enters the
in-service set (R169). -/
def Device.decideInterrupt (m : Device) (p : Head) : Device :=
  match (m.port p).ev.decision with
  | none => m
  | some l => (m.onPort p fun port => { port with ev := port.ev.serve l }).emit (.interrupt p l)

end Sys2Proof.Machine
end

