-- ==== Sys2Proof/Machine/Messages.lean ====
section
/-! DEFINITION. The messages of a channel link as bytes (section 12.4, R187): those the controller sends, and the command
that a message of an adapter spells. -/

namespace Sys2Proof.Machine

/-- A message that the part sends to an adapter (section 12.4). -/
inductive LinkMessage where
  | read (tag block count : Nat) (probe : Bool)
  | abort (tag : Nat)
  | park
  | wake
deriving DecidableEq, Repr

/-- The bytes of a message sent: its code, then its fields; the bits of a READ that no field takes are zero (R187). -/
def LinkMessage.bytes : LinkMessage → List Byte
  | .read tag block count probe =>
    natBytes 1 0x01 ++ natBytes 1 (tag % 4 + if probe then 128 else 0) ++ natBytes 2 count ++ natBytes 6 block
  | .abort tag => natBytes 1 0x04 ++ natBytes 1 tag
  | .park => natBytes 1 0x06
  | .wake => natBytes 1 0x08

/-- The number of `count` bytes at byte `at_` of a message, as a field of `w` bits. -/
def messageField (w : Nat) (bytes : List Byte) (at_ count : Nat) : BitVec w := BitVec.ofNat w (field bytes at_ count)

/-- The command that a message of channel `c`'s adapter spells, picked by its code byte: a part-to-adapter code or a code
that is not listed is a stray message (R187). Bytes that a message lacks read 0 (log 31). -/
def commandOfMessage (c : Fin 8) (bytes : List Byte) : Instr :=
  let tag : BitVec 8 := messageField 8 bytes 1 1
  match field bytes 0 1 with
  | 0x02 => .dataBlock c tag (messageField 16 bytes 2 2) (bytes.drop 4)
  | 0x03 => .readEnd c tag (messageField 8 bytes 2 1)
  | 0x05 => .abortDone c tag
  | 0x07 => .parked c
  | 0x09 => .awake c
  | 0x0A => .hello c (messageField 16 bytes 1 2)
  | code => .strayMessage c (BitVec.ofNat 8 code)

end Sys2Proof.Machine
end

