-- ==== Sys2Proof/Machine/Scheduler.lean ====
section
/-! DEFINITION. The Channel Scheduler (chapter 6) and the estimates it ranks by (section 3.6): request records, grants,
the dispatch choice and the dispatch, withdrawal, and the idle condition of a channel (R124). -/

namespace Sys2Proof.Machine

/-! ### Segments and queues -/

/-- The segments of a slot in status `st`: the slot's unissued, queued, in flight, done or withdrawn count (R84). -/
def Slot.count (x : Slot) (st : SegStatus) : Nat := x.segs.countP (fun g => decide (g.status = st))

/-- The status of segment `i` is set. -/
def Slot.setSeg (x : Slot) (i : Nat) (st : SegStatus) : Slot :=
  { x with segs := x.segs.modify i fun g => { g with status := st } }

/-- The records that stand in channel `c`'s queue: its QUEUED records (R97, R101; log 9). -/
def Device.queue (m : Device) (c : Nat) : List (Nat × Request) :=
  m.reqs.filter fun e => decide (e.2.state = .queued) && decide (e.2.channel = c)

/-- The DISPATCHED records of a channel. -/
def Device.inFlight (m : Device) (c : Nat) : List (Nat × Request) :=
  m.reqs.filter fun e => decide (e.2.state = .dispatched) && decide (e.2.channel = c)

/-- The lowest-numbered FREE request record (log 12). -/
def Device.freeReq (m : Device) : Option Nat := lowest Config.numReqs fun r => decide ((m.req r).state = .free)

/-- A message leaves on a channel's link, unless the link is down (R115). -/
def Device.send (m : Device) (c : Nat) (x : LinkMessage) : Device :=
  if (m.channel c).link then m.emit (.link c x.bytes) else m

/-- WAKE is sent: the wake-sent time and the wake guard are set and the channel becomes WAKING (R125). -/
def Device.wake (now : Time) (c : Nat) (m : Device) : Device :=
  (m.onChannel c fun ch =>
    { ch with state := .waking, wakeSent := now, wakeGuard := some (now + 30 * Config.sec) }).send c .wake

/-- A record joins a channel's queue: a PARKED channel is woken, and the join is a cause of a dispatch choice (R101,
R102, R125). -/
def Device.joinQueue (now : Time) (c : Nat) (m : Device) : Device :=
  (if (m.channel c).state = .parked then m.wake now c else m).askChoice c

/-! ### Grants -/

/-- A FREE record, if there is one, is granted to segment `i` of slot `n` (R99, R101). -/
def Device.grant (now : Time) (n i : Nat) (m : Device) : Device :=
  match m.freeReq, (m.slot n).segs[i]? with
  | some r, some g =>
    let q : Request :=
      { state := .queued, slot := n, seg := i, channel := g.channel, block := g.block, count := g.count,
        offset := g.offset, retries := 0, seq := m.grants, cls := none, tag := none }
    (({ m.setReq r q with grants := (m.grants + 1) % 18446744073709551616 }).onSlot n
      (·.setSeg i .queued)).joinQueue now g.channel
  | _, _ => m

/-- The unissued segments of a slot are offered: records are granted to them in ascending index while records remain
(R99). -/
def Device.offer (now : Time) (n : Nat) (m : Device) : Device :=
  (List.range (m.slot n).segs.length).foldl (fun m i =>
    if ((m.slot n).segs[i]?.map (·.status)) = some SegStatus.unissued then m.grant now n i else m) m

/-- The waiting slot served first: a FILLING slot with an unissued segment, earliest slot due, then lowest number
(R100). -/
def Device.waitingSlot (m : Device) : Option Nat :=
  (least (fun (x y : Nat × Slot) => decide (x.2.due < y.2.due) || (decide (x.2.due = y.2.due) && decide (x.1 < y.1)))
    (m.slots.filter fun e => decide (e.2.state = .filling) && decide (0 < e.2.count .unissued))).map (·.1)

/-- FREE records are granted to waiting segments one after another (R100). -/
def Device.grantWaiting (now : Time) : Nat → Device → Device
  | 0, m => m
  | fuel + 1, m =>
    match m.freeReq, m.waitingSlot with
    | some _, some n =>
      match (m.slot n).segs.findIdx? (fun g => decide (g.status = .unissued)) with
      | some i => Device.grantWaiting now fuel (m.grant now n i)
      | none => m
    | _, _ => m

/-- Every grant that the freed records of the event allow: at most one for each record of the pool. -/
def Device.grantAll (now : Time) (m : Device) : Device := m.grantWaiting now Config.numReqs

/-! ### Withdrawal -/

/-- The waiting segments of a slot are withdrawn: its QUEUED records on every channel become FREE, unissued segments
stop waiting, and a queue emptied by it unsets the channel's recheck timer (R89, R111). -/
def Device.withdraw (n : Nat) (m : Device) : Device :=
  let mine := m.reqs.filter fun e => decide (e.2.slot = n) && decide (e.2.state = .queued)
  let m1 := mine.foldl (fun m e => m.setReq e.1 Request.free) m
  let m2 := m1.onSlot n fun x =>
    { x with segs := x.segs.map fun g =>
        if g.status = .unissued ∨ g.status = .queued then { g with status := .withdrawn } else g }
  mine.foldl (fun m e =>
    if (m.queue e.2.channel).isEmpty then m.onChannel e.2.channel fun ch => { ch with recheck := none } else m) m2

/-! ### Estimate, issue time, class -/

/-- The base part of the segment estimate, for a number of blocks (R51). -/
def Channel.baseEstimate (x : Channel) (blocks : Nat) : Nat := x.setup * 1000 + blocks * 4 * x.cost

/-- The wake remainder (R51). -/
def Channel.wakeRemainder (x : Channel) (now : Time) : Nat :=
  match x.state with
  | .parked | .parking => x.wakeEstimate
  | .waking => x.wakeEstimate - (now - x.wakeSent)
  | .offline | .active | .faulted => 0

/-- The segment estimate E (R51). -/
def Channel.estimate (x : Channel) (now : Time) (blocks : Nat) : Nat := x.baseEstimate blocks + x.wakeRemainder now

/-- The issue time of a segment of a slot due at `due` with estimate `e` (R52). -/
def issueTime (due e : Nat) : Time := if due = never then never else due - e

/-- The class of an issue time at `now` (R53). -/
def classOf (dev : DeviceSettings) (now : Time) (issue : Time) : Nat :=
  if issue = never then 3
  else if issue < now then 0
  else if issue - now < dev.urgent then 1
  else if issue - now < dev.horizon then 2
  else 3

/-- The issue time of a queued record (R52). -/
def Device.issue (m : Device) (now : Time) (r : Request) : Time :=
  issueTime (m.slot r.slot).due ((m.channel r.channel).estimate now r.count)

/-! ### The dispatch choice -/

/-- A record as a choice ranks it: its number, class, slot seat priority, issue time and sequence. -/
structure Ranked where
  req : Nat
  cls : Nat
  seat : Nat
  issue : Time
  seq : Nat
deriving DecidableEq, Repr

/-- One record ranks before another: by class, seat priority, issue time, sequence (R103). -/
def Ranked.before (x y : Ranked) : Bool :=
  decide (x.cls < y.cls) || (decide (x.cls = y.cls) &&
    (decide (x.seat < y.seat) || (decide (x.seat = y.seat) &&
      (decide (x.issue < y.issue) || (decide (x.issue = y.issue) && decide (x.seq < y.seq))))))

/-- The queue of channel `c` as a choice at this event ranks it (R103). -/
def Device.ranked (e : Env) (m : Device) (c : Nat) : List Ranked :=
  (m.queue c).map fun x =>
    let issue := m.issue e.now x.2
    { req := x.1, cls := classOf e.dev e.now issue, seat := (m.slot x.2.slot).seat, issue, seq := x.2.seq }

/-- A record is eligible: class 3 only while fewer class-3 reads are in flight than the lookahead tag limit (R103). -/
def Device.eligible (m : Device) (c : Nat) (x : Ranked) : Bool :=
  decide (x.cls ≠ 3) ||
  decide (((m.inFlight c).countP fun y => decide (y.2.cls = some 3)) < (m.channel c).tagLimit)

/-- The record the dispatch choice takes, if any is eligible (R103). -/
def Device.choose (e : Env) (m : Device) (c : Nat) : Option Ranked :=
  least Ranked.before ((m.ranked e c).filter (m.eligible c))

/-- The lowest-numbered free tag of a channel. -/
def Channel.freeTag (x : Channel) : Option Nat := lowest Config.numTags fun t => decide (x.tag t = Tag.free)

/-- The request timeout of a read with estimate `est` sent at `now`: clamp(4 × E, 250 ms, 10 s) from the dispatch
time (R120, R130). -/
def requestTimeoutAt (now est : Nat) : Time := now + clampNat (250 * Config.ms) (10 * Config.sec) (4 * est)

/-- The chosen record becomes DISPATCHED on a tag and its READ is sent (R104). -/
def Device.dispatch (e : Env) (c t : Nat) (x : Ranked) (m : Device) : Device :=
  let r := m.req x.req
  let est := (m.channel c).baseEstimate r.count
  let m1 := m.setReq x.req { r with state := .dispatched, cls := some x.cls, tag := some t }
  let m2 := m1.onSlot r.slot (·.setSeg r.seg .inFlight)
  (m2.onChannel c fun ch =>
    { ch.setTag t (.inFlight x.req e.now est 0 (requestTimeoutAt e.now est)) with
      dispatches := count32 ch.dispatches }).send c (.read t r.block r.count false)

/-- The conditions of a dispatch choice: ACTIVE, not characterising, a free tag, a queue that is not empty (R102). -/
def Device.mayChoose (m : Device) (c : Nat) : Bool :=
  decide ((m.channel c).state = .active) && decide ((m.channel c).char = none) && (m.channel c).freeTag.isSome &&
  !(m.queue c).isEmpty

/-- The earliest house time at which a queued record would leave class 3 (R102). -/
def Device.recheckTime (e : Env) (m : Device) (c : Nat) : Option Time :=
  least (fun a b => decide (a < b))
    (((m.ranked e c).filter fun x => decide (x.issue ≠ never)).map fun x => x.issue + 1 - e.dev.horizon)

/-- Dispatch choices of a channel at one event, one after another while its conditions hold and a record is eligible;
then the recheck timer is set or unset (R102). -/
def Device.chooseLoop (e : Env) (c : Nat) : Nat → Device → Device
  | 0, m => m
  | fuel + 1, m =>
    if m.mayChoose c then
      match m.choose e c, (m.channel c).freeTag with
      | some x, some t => Device.chooseLoop e c fuel (m.dispatch e c t x)
      | _, _ => m.onChannel c fun ch => { ch with recheck := m.recheckTime e c }
    else m.onChannel c fun ch => { ch with recheck := none }

/-- The dispatch choices that a cause brings to a channel: none unless the conditions of R102 hold. -/
def Device.runChoice (e : Env) (m : Device) (c : Nat) : Device :=
  if m.mayChoose c then m.chooseLoop e c (Config.numTags + 1) else m

/-! ### The idle condition -/

/-- A channel is idle: ACTIVE, not characterising, queue empty, all tags free (R124). -/
def Device.idle (m : Device) (c : Nat) : Bool :=
  decide ((m.channel c).state = .active) && decide ((m.channel c).char = none) && (m.queue c).isEmpty &&
  (m.channel c).tagsFree

/-- The idle timer as an event leaves it: set to now plus the park time when the channel has become idle, cancelled
when it is not idle (R124). -/
def Device.idleTimer (now : Time) (m : Device) (c : Nat) : Device :=
  if m.idle c then
    if (m.channel c).idleTimer = none ∧ 0 < (m.channel c).parkMs then
      m.onChannel c fun ch => { ch with idleTimer := some (now + ch.parkMs * Config.ms) }
    else m
  else m.onChannel c fun ch => { ch with idleTimer := none }

end Sys2Proof.Machine
end

