-- ==== Sys2Proof/Machine/Directory.lean ====
section
/-! DEFINITION. The Staging Directory (chapter 5): frame location (chapter 1, R3–R6), slot due and seat priority, pins,
freeing, placement, reclaim, the placement backlog and its retry, staging and failure of slots. -/

namespace Sys2Proof.Machine

/-! ### Location of a frame -/

/-- Where a frame lies: its extents in reading order and its frame bytes (R3, R5). -/
structure Location where
  extents : List Extent
  frameBytes : Nat
deriving DecidableEq, Repr

/-- The location of frame `frame` of a clip, or none where the clip is INDEXED and the entry is not valid (R3, R5). -/
def Clip.locate (mem : Memory) (x : Clip) (frame : Nat) : Option Location :=
  match x.locator with
  | .stride stripes blocks bytes =>
    match stripes[frame % stripes.length]? with
    | some s =>
      some { extents := [{ channel := s.channel, block := s.base + frame / stripes.length * blocks, count := blocks }],
             frameBytes := bytes }
    | none => none
  | .indexed base _ =>
    let x := IndexEntry.ofBytes (mem.readBytes (entryAddress (base + frame)) Config.entryBytes)
    if x.valid then some { extents := x.used, frameBytes := x.frameBytes } else none

/-- The segments of one extent that starts at frame block `offset`: runs of 1024 blocks and a remainder (R84, R98). -/
def Extent.cut (x : Extent) (offset : Nat) : List Segment :=
  (List.range (ceilDiv x.count Config.segmentBlocks)).map fun i =>
    { channel := x.channel, block := x.block + i * Config.segmentBlocks,
      count := min Config.segmentBlocks (x.count - i * Config.segmentBlocks),
      offset := offset + i * Config.segmentBlocks, status := .unissued }

/-- The segments of a frame, its extents taken in their order (R84). -/
def cutExtents : Nat → List Extent → List Segment
  | _, [] => []
  | offset, x :: xs => x.cut offset ++ cutExtents (offset + x.count) xs

/-- The number of pages a frame takes (R3, R5, R83). -/
def pagesFor (frameBytes : Nat) : Nat := ceilDiv frameBytes Config.pageBytes

/-! ### Pins, slot due, slot seat priority -/

/-- The (seat priority, due time) of every window entry, over all streams, that pins slot `n` (R76, R77). -/
def Device.windowPins (m : Device) (n : Nat) : List (Nat × Time) :=
  m.streams.flatMap fun e =>
    (e.2.window.filter fun w => decide (w.slot = some n)).map fun w => (e.2.seat, w.due)

/-- Slot due and slot seat priority are recomputed; a change of slot due is a cause of a dispatch choice for every
channel on which the slot has a QUEUED record (R77, R102). -/
def Device.recompute (n : Nat) (m : Device) : Device :=
  let x := m.slot n
  if x.state = .free then m
  else
    let pins := m.windowPins n
    let due := pins.foldl (fun a p => min a p.2) never
    let seat := pins.foldl (fun a p => min a p.1) 3
    let m1 := m.setSlot n { x with due, seat }
    if due = x.due then m1
    else (m1.reqs.filter fun e => decide (e.2.slot = n) && decide (e.2.state = .queued)).foldl
      (fun m e => m.askChoice e.2.channel) m1

/-- A slot is freed: its pages join the tail of the free page list in the order of its page list, it leaves the reclaim
list, and its record becomes FREE; the freeing is a cause of a backlog retry (R79, R88). -/
def Device.freeSlot (n : Nat) (m : Device) : Device :=
  ({ m.setSlot n Slot.free with
      freePages := m.freePages ++ (m.slot n).pages,
      reclaim := m.reclaim.filter fun k => decide (k ≠ n) }).askRetry

/-- What happens to a slot whose pin count has fallen to 0, by its state (R90). -/
def Device.unpinned (now : Time) (n : Nat) (m : Device) : Device :=
  match (m.slot n).state with
  | .staged => ({ m.onSlot n (fun x => { x with unpinnedSince := now }) with reclaim := m.reclaim ++ [n] }).askRetry
  | .filling =>
    let m1 := m.withdraw n
    if (m1.slot n).count .inFlight = 0 then m1.freeSlot n
    else m1.onSlot n fun x => { x with state := .abandoned, unpinnedSince := now }
  | .failed =>
    if (m.slot n).count .inFlight = 0 then m.freeSlot n else m.onSlot n fun x => { x with unpinnedSince := now }
  | .free | .abandoned => m

/-- One pin is removed from a slot, after the entry that held it has left its list (R90). DESIGN CHOICE (log 38): at the
last pin the withdrawal comes before slot due is recomputed, so that the records withdrawn bring no dispatch choice and
the recheck timer of a queue that keeps records stays as it was (R111). -/
def Device.unpin (now : Time) (n : Nat) (m : Device) : Device :=
  let m1 := m.onSlot n fun x => { x with pins := x.pins - 1 }
  (if (m1.slot n).pins = 0 then m1.unpinned now n else m1).recompute n

/-- The pin, if any, of an entry that has left its list is released (R60, R72). -/
def Device.releasePin (now : Time) (slot : Option Nat) (m : Device) : Device :=
  match slot with
  | some n => m.unpin now n
  | none => m

/-! ### Lookup and the slots' entries -/

/-- The slot that is not FREE and holds a key (R75). -/
def Device.findSlot (m : Device) (clip generation frame : Nat) : Option Nat :=
  (m.slots.find? fun e => decide (e.2.state ≠ .free) && decide (e.2.clip = clip) &&
    decide (e.2.generation = generation) && decide (e.2.frame = frame)).map (·.1)

/-- A change of the window entry of stream `k` at index `u`. -/
def Device.onEntry (m : Device) (k : Nat) (u : Int) (f : WinEntry → WinEntry) : Device :=
  m.onStream k fun x => { x with window := x.window.map fun w => if w.u = u then f w else w }

/-- The entry of stream `k` at index `u` pins slot `n` and takes a state; slot due and seat priority follow (R80). -/
def Device.pinEntry (k : Nat) (u : Int) (n : Nat) (st : EntryState) (m : Device) : Device :=
  ((m.onSlot n fun x => { x with pins := x.pins + 1, unpinnedSince := never }).onEntry k u
    fun w => { w with slot := some n, state := st }).recompute n

/-- A change of state of every window entry that pins slot `n`, with a delivery check asked for each stream whose
window head is one of them (R63, R91, R92). -/
def Device.setEntries (n : Nat) (f : WinEntry → WinEntry) (m : Device) : Device :=
  m.streams.foldl (fun m e =>
    if e.2.window.any (fun w => decide (w.slot = some n)) then
      let m1 := m.onStream e.1 fun x =>
        { x with window := x.window.map fun w => if w.slot = some n then f w else w }
      if (e.2.window.head?.bind (·.slot)) = some n then m1.askCheck e.1 else m1
    else m) m

/-- A FILLING slot whose last segment is done becomes STAGED, and every entry pinning it with it, late-marked where the
event is later than the entry's due time (R69, R91). -/
def Device.stageSlot (now : Time) (n : Nat) (m : Device) : Device :=
  (m.onSlot n fun x => { x with state := .staged }).setEntries n
    fun w => { w with state := .staged, late := decide (w.due < now) }

/-- A FILLING slot fails: its waiting segments are withdrawn, it becomes FAILED with the cause, and every entry
pinning it becomes FAILED (R92). -/
def Device.failSlot (n : Nat) (cause : Cause) (m : Device) : Device :=
  ((m.withdraw n).onSlot n fun x => { x with state := .failed, cause := some cause }).setEntries n
    fun w => { w with state := .failed }

/-- An outcome of a read may leave an ABANDONED or FAILED slot with nothing in flight: it is then freed, a FAILED one
only without pins (R93). -/
def Device.endedRead (n : Nat) (m : Device) : Device :=
  let x := m.slot n
  if x.count .inFlight = 0 then
    match x.state with
    | .abandoned => m.freeSlot n
    | .failed => if x.pins = 0 then m.freeSlot n else m
    | _ => m
  else m

/-! ### The placement backlog -/

/-- An entry of the backlog (R87): its due time, stream, place in the window list and index. -/
structure BacklogItem where
  due : Time
  stream : Nat
  place : Nat
  u : Int
deriving DecidableEq, Repr

/-- One entry ranks ahead of another: by due time, stream number, place in the window list (R87). -/
def BacklogItem.before (x y : BacklogItem) : Bool :=
  decide (x.due < y.due) || (decide (x.due = y.due) &&
    (decide (x.stream < y.stream) || (decide (x.stream = y.stream) && decide (x.place < y.place))))

/-- The UNPLACED entries of a window with their places. -/
def unplacedFrom (k : Nat) : Nat → List WinEntry → List BacklogItem
  | _, [] => []
  | place, w :: ws =>
    if w.state = .unplaced then { due := w.due, stream := k, place, u := w.u } :: unplacedFrom k (place + 1) ws
    else unplacedFrom k (place + 1) ws

/-- The entries of the placement backlog: the UNPLACED window entries of all streams (R87; log 9). -/
def Device.backlog (m : Device) : List BacklogItem := m.streams.flatMap fun e => unplacedFrom e.1 0 e.2.window

/-- The head of the backlog in its order. -/
def Device.backlogHead (m : Device) : Option BacklogItem := least BacklogItem.before m.backlog

/-- Some backlog entry ranks ahead of the entry of stream `k` at index `u` (R83, step 1). -/
def Device.rankedAhead (m : Device) (k : Nat) (u : Int) : Bool :=
  match m.backlog.find? (fun x => decide (x.stream = k) && decide (x.u = u)) with
  | some x => m.backlog.any (·.before x)
  | none => false

/-! ### Placement -/

/-- The lowest-numbered FREE slot record (R82, R83). -/
def Device.freeRecord (m : Device) : Option Nat := lowest Config.numSlots fun n => decide ((m.slot n).state = .free)

/-- The free page list holds `need` pages. -/
def Device.hasPages (m : Device) (need : Nat) : Bool := decide ((m.freePages.take need).length = need)

/-- Reclaim from the head of the reclaim list while pages or a record are lacking (R83 step 2, R86). -/
def Device.reclaimFor (need : Nat) : List Nat → Device → Device
  | [], m => m
  | n :: rest, m =>
    if m.hasPages need && m.freeRecord.isSome then m else Device.reclaimFor need rest (m.freeSlot n)

/-- A new slot that stands for a failure: no pages, no segments (R82). -/
def failedSlot (clip generation frame : Nat) (cause : Cause) : Slot :=
  { Slot.free with state := .failed, clip, generation, frame, cause := some cause }

/-- A new FILLING slot (R83 step 4). -/
def fillingSlot (clip generation frame : Nat) (loc : Location) (pages : List Nat) : Slot :=
  { Slot.free with state := .filling, clip, generation, frame, frameBytes := loc.frameBytes, pages,
                   segs := cutExtents 0 loc.extents }

/-- The cause for which a miss placement fails at once (R82), with the location otherwise. -/
def Device.missLocation (e : Env) (m : Device) (x : StreamRec) (frame : Nat) : Cause ⊕ Location :=
  match (m.clip x.clip).locate e.mem frame with
  | none => .inl .invalidIndex
  | some loc =>
    if loc.extents.any (fun t => decide ((m.channel t.channel).state = .faulted)) then .inl .channelFault else .inr loc

/-- A miss placement that fails at once takes a FREE record and no pages (R82). -/
def Device.placeFailed (byPass : Bool) (k : Nat) (w : WinEntry) (cause : Cause) (m : Device) : Device :=
  let x := m.stream k
  let m1 := if m.freeRecord.isSome ∨ (byPass = true ∧ m.rankedAhead k w.u = true) then m
            else m.reclaimFor 0 m.reclaim
  match m1.freeRecord with
  | none => m1
  | some n => (m1.setSlot n (failedSlot x.clip x.generation w.frame cause)).pinEntry k w.u n .failed

/-- A miss placement with a location (R83). -/
def Device.placeMiss (e : Env) (byPass : Bool) (k : Nat) (w : WinEntry) (loc : Location) (m : Device) : Device :=
  let x := m.stream k
  let need := pagesFor loc.frameBytes
  if byPass && m.rankedAhead k w.u then m
  else
    let m1 := m.reclaimFor need m.reclaim
    match m1.freeRecord with
    | none => m1
    | some n =>
      if m1.hasPages need then
        let m2 := { m1 with freePages := m1.freePages.drop need }
        ((m2.setSlot n (fillingSlot x.clip x.generation w.frame loc (m1.freePages.take need))).pinEntry k w.u n
          .filling).offer e.now n
      else m1

/-- A placement that finds an ABANDONED slot revives it, or fails it where a revived segment lies on a FAULTED channel
(R81). -/
def Device.revive (e : Env) (k : Nat) (w : WinEntry) (n : Nat) (m : Device) : Device :=
  let lost := (m.slot n).segs.filter fun g => decide (g.status = .withdrawn)
  if lost.any (fun g => decide ((m.channel g.channel).state = .faulted)) then
    (m.onSlot n fun x => { x with state := .failed, cause := some .channelFault }).pinEntry k w.u n .failed
  else
    ((m.onSlot n fun x =>
      { x with state := .filling,
               segs := x.segs.map fun g => if g.status = .withdrawn then { g with status := .unissued } else g }).pinEntry
        k w.u n .filling).offer e.now n

/-- One placement: the UNPLACED entry `w` of stream `k` is given a slot, or stays UNPLACED and so stands in the backlog
(R80–R83). `byPass`: made by a pass, not by the backlog retry. -/
def Device.place (e : Env) (byPass : Bool) (k : Nat) (w : WinEntry) (m : Device) : Device :=
  let x := m.stream k
  match m.findSlot x.clip x.generation w.frame with
  | some n =>
    match (m.slot n).state with
    | .staged =>
      { m with reclaim := m.reclaim.filter fun j => decide (j ≠ n) }.pinEntry k w.u n .staged
    | .filling => m.pinEntry k w.u n .filling
    | .failed => m.pinEntry k w.u n .failed
    | .abandoned => m.revive e k w n
    | .free => m
  | none =>
    match m.missLocation e x w.frame with
    | .inl cause => m.placeFailed byPass k w cause
    | .inr loc => m.placeMiss e byPass k w loc

/-- The window entry of stream `k` at index `u`. -/
def Device.entry (m : Device) (k : Nat) (u : Int) : Option WinEntry :=
  (m.stream k).window.find? fun w => decide (w.u = u)

end Sys2Proof.Machine
end

