-- ==== Sys2Proof/Machine/Delivery.lean ====
section
/-! DEFINITION. The Stream Table's work on lists (chapter 4): dropping window entries, the delivery check and deliveries
(R65–R68), misses of a head entry (R137), the closing of a stream (R18) and of its clip (R15), and the backlog retry
(R88). -/

namespace Sys2Proof.Machine

/-! ### Dropping -/

/-- The entries of stream `k` that `keep` refuses are removed and their pins released one after another, in window
order (R60, R64, R90). -/
def Device.dropEntries (now : Time) (k : Nat) (keep : WinEntry → Bool) (m : Device) : Device :=
  let gone := (m.stream k).window.filter fun w => !keep w
  let m1 := m.onStream k fun x => { x with window := x.window.filter keep }
  let m2 := gone.foldl (fun m w => m.releasePin now w.slot) m1
  if gone.isEmpty then m else m2

/-- Every window entry of stream `k` is removed (R21, R29, R32, R37). -/
def Device.dropWindow (now : Time) (k : Nat) (m : Device) : Device := m.dropEntries now k fun _ => false

/-- Every delivery-list entry of stream `k` is removed and its pin released (R72). -/
def Device.dropDelivery (now : Time) (k : Nat) (m : Device) : Device :=
  let gone := (m.stream k).delivery
  gone.foldl (fun m d => m.releasePin now d.slot) (m.onStream k fun x => { x with delivery := [] })

/-! ### Delivery -/

/-- The notices a delivery queues: the MISSED notice where one is due, and the READY or FAILED notice (R65, R140). -/
def StreamRec.noticesDue (x : StreamRec) : Nat := if x.missable then 2 else 1

/-- The head entry is delivered at this event: every condition of R65 holds. -/
def StreamRec.deliverable (x : StreamRec) : Option WinEntry :=
  match x.window with
  | [] => none
  | w :: _ =>
    if (decide (x.state = .playing) || (decide (x.state = .cued) && !x.stillDelivered)) &&
       !x.ownerAbsent && decide (w.u = x.n) && decide (x.display w.u ≠ .past) &&
       (decide (w.state = .staged) || decide (w.state = .failed)) && decide (x.delivery.length < x.c) &&
       decide (x.endPending = none) && decide (x.outbox.length + x.noticesDue ≤ Config.outboxPlaces)
    then some w else none

/-- The READY notice of a delivery (R66). -/
def readyNotice (x : StreamRec) (w : WinEntry) (n frameBytes : Nat) : Notice :=
  .ready w.late x.clip x.generation x.nextSeq w.frame n (x.entryDisplay w.u) frameBytes

/-- The FAILED notice of a delivery (R67, R144). -/
def failedNotice (x : StreamRec) (w : WinEntry) (cause : Cause) : Notice :=
  .failed cause x.clip x.generation x.nextSeq w.frame (x.entryDisplay w.u)

/-- The record after its head entry `w` has been delivered with notice `y`: MISSED ahead of it where due, the entry
moved to the delivery list, the next sequence number, and the step of N in PLAYING or still-delivered in CUED (R66–R68,
R140, R146). -/
def StreamRec.delivered (x : StreamRec) (now : Time) (w : WinEntry) (y : Notice) (slot : Option Nat) : StreamRec :=
  let x1 := if x.missable then x.queueMissed else x
  let x2 := { x1 with outbox := x1.outbox ++ [y], window := x1.window.tail,
                      delivery := x1.delivery ++ [DelEntry.mk x1.nextSeq slot],
                      nextSeq := (x1.nextSeq + 1) % 65536,
                      lateTotal := if slot.isSome && w.late then count32 x1.lateTotal else x1.lateTotal,
                      failedTotal := if slot.isNone then count32 x1.failedTotal else x1.failedTotal }
  if x.state = .playing then x2.stepN now else { x2 with stillDelivered := true, passPending := true }

/-- One delivery of the head entry of stream `k` (R66, R67). -/
def Device.deliver (now : Time) (k : Nat) (w : WinEntry) (m : Device) : Device :=
  let x := m.stream k
  let n := w.slot.getD 0
  match w.state with
  | .failed =>
    let cause := ((m.slot n).cause).getD .medium
    (m.setStream k (x.delivered now w (failedNotice x w cause) none)).releasePin now w.slot
  | _ => (m.setStream k (x.delivered now w (readyNotice x w n (m.slot n).frameBytes) w.slot)).recompute n

/-- Deliveries of one stream at one event, while the conditions of R65 hold (R68). -/
def Device.deliverLoop (now : Time) (k : Nat) : Nat → Device → Device
  | 0, m => m
  | fuel + 1, m =>
    match (m.stream k).deliverable with
    | some w => Device.deliverLoop now k fuel (m.deliver now k w)
    | none => m

/-- The delivery check of a stream (R65), and the MISSED notice on its own where the outbox is empty (R140). Each
delivery lengthens the delivery list, which stays within C. DESIGN CHOICE (log 48): where one display expiry gives up
several frames on an empty outbox, the MISSED notice is queued at the delivery check that follows the first. -/
def Device.check (now : Time) (k : Nat) (m : Device) : Device :=
  let m1 := m.deliverLoop now k (m.stream k).c
  if (m1.stream k).outbox.isEmpty && (m1.stream k).missable then m1.onStream k (·.missedAlone) else m1

/-! ### Misses -/

/-- The head entry of stream `k` is given up at its display time: it leaves the window, its pin is released, the miss
is counted and N steps (R137, R139). -/
def Device.missHead (now : Time) (k : Nat) (w : WinEntry) (m : Device) : Device :=
  let marked := m.marked k
  let m1 := m.onStream k fun x => { x with window := x.window.tail }
  (m1.releasePin now w.slot).onStream k fun x => (x.countMiss marked w.frame).stepN now

/-- The display expiry: the head entry is given up while its display time has been reached, with a delivery check
after each unless the range has ended (R137). DESIGN CHOICE (log 48): a check that leaves the outbox with a MISSED
notice alone (R140) comes before the next frame is given up, whose miss is folded into that notice (R139). -/
def Device.expireLoop (now : Time) (k : Nat) : Nat → Device → Device
  | 0, m => m
  | fuel + 1, m =>
    match (m.stream k).displayTimer, (m.stream k).window with
    | some t, w :: _ =>
      if t ≤ now then
        let m1 := m.missHead now k w
        if (m1.stream k).running then Device.expireLoop now k fuel (m1.check now k) else m1
      else m
    | _, _ => m

/-! ### The end of a LOAD_INDEX transfer, retirement, and the closing of a stream -/

/-- The entries of the mover's next read of head memory: at least one and at most those remaining (log 22). -/
def readEntries (address remaining : Nat) : Nat := clampNat 1 remaining (Config.moverReadEntries address remaining)

/-- The mover with its next read in progress, sent at `now` (R157). -/
def Mover.startRead (x : Mover) (now : Time) : Mover :=
  { x with inRead := readEntries x.address x.remaining, since := now }

/-- The mover of a port sends its next read of head memory (R156; log 22). -/
def Device.moverRead (now : Time) (p : Head) (x : Mover) (m : Device) : Device :=
  (m.onPort p fun port => { port with mover := some (x.startRead now) }).emit
    (.indexRead p x.address (readEntries x.address x.remaining))

/-- The completion of a LOAD_INDEX, with its stored, invalid and skipped counts (R11). -/
def Mover.completion (x : Mover) (status : Status) : Completion :=
  { tag := x.tag, kind := 0x02, consumer := x.consumer, status,
    results := [word x.stored, word x.invalid, word x.skipped] }

/-- The data mover of a port becomes idle and the completion of its LOAD_INDEX is made (R156). -/
def Device.endTransfer (p : Head) (status : Status) (m : Device) : Device :=
  match (m.port p).mover with
  | none => m
  | some v => (m.onPort p fun port => { port with mover := none, progress := .idle }).complete p (v.completion status)

/-- A transfer on a clip and generation that ceases to be held ends with NO_CLIP (R11). -/
def Device.endTransferOn (clip generation : Nat) (p : Head) (m : Device) : Device :=
  match (m.port p).mover with
  | some v => if v.clip = clip ∧ v.generation = generation then m.endTransfer p .noClip else m
  | none => m

/-- Retirement of a clip completes: its STAGED slots are freed, its record becomes FREE keeping its generation, and any
LOAD_INDEX on it ends (R15, R94). DESIGN CHOICE (log 10): the slots are freed in ascending slot number, and so their
pages join the tail of the free page list; R15 and R94 give no order. -/
def Device.retire (clip : Nat) (m : Device) : Device :=
  let g := (m.clip clip).generation
  let staged := (m.slots.filter fun e => decide (e.2.state = .staged) && decide (e.2.clip = clip) &&
    decide (e.2.generation = g)).map (·.1)
  let m1 := staged.foldl (fun m n => m.freeSlot n) m
  ((m1.setClip clip (Clip.freeWith g)).endTransferOn clip g .a).endTransferOn clip g .b

/-- The reference count of a clip falls by one (R2). -/
def Device.lowerRef (clip : Nat) (m : Device) : Device :=
  m.setClip clip { m.clip clip with refCount := (m.clip clip).refCount - 1 }

/-- The reference count of a clip falls by one, which may complete its retirement (R2). -/
def Device.dropRef (clip : Nat) (m : Device) : Device :=
  let m1 := m.lowerRef clip
  if (m1.clip clip).state = .retiring ∧ (m1.clip clip).refCount = 0 then m1.retire clip else m1

/-- A stream becomes CLOSED: its record is left as R18 gives, a write of its notice posts nothing (R164), and its
clip's reference count falls. Its lists are already empty (R64; for an ORPHANED stream R179, DESIGN CHOICE (log 47) at
`Device.orphan`). -/
def Device.closeStream (k : Nat) (m : Device) : Device :=
  let clip := (m.stream k).clip
  ((m.onStream k StreamRec.closed).detach k).dropRef clip

/-- A stream in CLOSING with an empty delivery list becomes CLOSED (R38). -/
def Device.closeIfEmpty (k : Nat) (m : Device) : Device :=
  if (m.stream k).state = .closing ∧ (m.stream k).delivery = [] then m.closeStream k else m

/-! ### The backlog retry -/

/-- A retry: entries are placed from the head of the backlog until one stays UNPLACED; an entry placed at the head of
its window brings a delivery check (R88). DESIGN CHOICE (log 45): that check is made at once, before the retry goes on
with the next head of the backlog, so that a slot it frees is there for the entries that follow. -/
def Device.retryLoop (e : Env) : Nat → Device → Device
  | 0, m => m
  | fuel + 1, m =>
    match m.backlogHead with
    | none => m
    | some item =>
      match m.entry item.stream item.u with
      | none => m
      | some w =>
        let m1 := m.place e false item.stream w
        match m1.entry item.stream item.u with
        | some w1 =>
          if w1.state = .unplaced then m1
          else Device.retryLoop e fuel
            (if ((m1.stream item.stream).window.head?.map (·.u)) = some item.u then m1.check e.now item.stream else m1)
        | none => m1

/-- The backlog retry of an event: made where the event brought a cause and the backlog is not empty, and not again for
the slots it frees itself (R88). -/
def Device.retry (e : Env) (m : Device) : Device :=
  if m.agenda.retry && !m.backlog.isEmpty then
    let m1 := m.retryLoop e m.backlog.length
    { m1 with agenda := { m1.agenda with retry := false } }
  else m

end Sys2Proof.Machine
end

