-- ==== Sys2Proof/Machine/Controller.lean ====
section
/-! DEFINITION. The ends of a read as the Scheduler takes them (R105–R112), and the Media Channel Controller's shared
operations (chapter 7): timeouts and faults, link loss, the estimator, characterisation, channel reset. -/

namespace Sys2Proof.Machine

/-! ### The ends of a read -/

/-- What a channel reports of a read (R105): a good END; an END with MEDIUM or a timeout, which may be retried; an END
with ADDRESS; a return. -/
inductive ReadOutcome where
  | good | retryable | address | returned
deriving DecidableEq, Repr

/-- A record goes back to its queue and its segment to queued (R107, R110). -/
def Device.requeue (now : Time) (r retries : Nat) (m : Device) : Device :=
  let q := m.req r
  ((m.setReq r { q with state := .queued, retries, cls := none, tag := none }).onSlot q.slot
    (·.setSeg q.seg .queued)).joinQueue now q.channel

/-- A record becomes FREE and its segment is counted done or withdrawn. -/
def Device.spend (r : Nat) (st : SegStatus) (m : Device) : Device :=
  let q := m.req r
  (m.setReq r Request.free).onSlot q.slot (·.setSeg q.seg st)

/-- The channel's counter of final failures for a cause rises by one (R109). -/
def Channel.countFailure (x : Channel) : Cause → Channel
  | .medium => { x with failedMedium := count32 x.failedMedium }
  | .address => { x with failedAddress := count32 x.failedAddress }
  | .channelFault => { x with failedChannel := count32 x.failedChannel }
  | .invalidIndex => x

/-- A final failure of a record whose slot is FILLING (R109). -/
def Device.finalFailure (r : Nat) (cause : Cause) (m : Device) : Device :=
  let q := m.req r
  ((m.spend r .withdrawn).onChannel q.channel (·.countFailure cause)).failSlot q.slot cause

/-- A good END for a record whose slot is FILLING (R106, R91). -/
def Device.goodRead (now : Time) (r : Nat) (m : Device) : Device :=
  let q := m.req r
  let m1 := (m.spend r .done).onChannel q.channel fun ch => { ch with goodEnds := count32 ch.goodEnds }
  if (m1.slot q.slot).segs.all (fun g => decide (g.status = .done)) then m1.stageSlot now q.slot else m1

/-- The outcome of a read of record `r`, by the state of its slot at this event (R105–R110). -/
def Device.readOutcome (now : Time) (r : Nat) (o : ReadOutcome) (m : Device) : Device :=
  let q := m.req r
  match (m.slot q.slot).state with
  | .filling =>
    match o with
    | .good => m.goodRead now r
    | o =>
      if (m.channel q.channel).state = .faulted then m.finalFailure r .channelFault
      else match o with
        | .address => m.finalFailure r .address
        | .returned => m.requeue now r q.retries
        | _ => if q.retries < (m.channel q.channel).retryLimit then
                 (m.requeue now r (q.retries + 1)).onChannel q.channel fun ch => { ch with retries := count32 ch.retries }
               else m.finalFailure r .medium
  | _ => (m.spend r (if o = .good then .done else .withdrawn)).endedRead q.slot

/-! ### Characterisation -/

/-- avgT1 and avgT2: the averages of the four short and the four long probe times, rounded down (R131). -/
def Characterisation.averages (x : Characterisation) : Nat × Nat :=
  ((x.times.take 4).sum / 4, (x.times.drop 4).sum / 4)

/-- The Cost that the averages give (R131). -/
def fittedCost (s1 s2 a1 a2 : Nat) : Nat :=
  if a2 ≤ a1 then 1 else (clampInt 1 100000 (roundHalfUp (a2 - a1 : Int) (s2 * 4 - s1 * 4))).toNat

/-- The Setup that the short average and the Cost give (R131). -/
def fittedSetup (s1 a1 cost : Nat) : Nat :=
  (clampInt 20 200000 (roundHalfUp ((a1 : Int) - (s1 * 4 * cost : Nat)) 1000)).toNat

/-- The completion of a CHARACTERISE (R131). -/
def charCompletion (x : Characterisation) (o : CharOutcome) (ch : Channel) : Completion :=
  { tag := x.tag, kind := 0x21, consumer := x.consumer, status := .ok,
    results := word o.code :: (if o = .done then
      words64 x.averages.1 ++ words64 x.averages.2 ++ [word ch.setup, word ch.cost] else []) }

/-- The channel as the end of a characterisation leaves it (R131). -/
def Channel.endChar (ch : Channel) (x : Characterisation) (o : CharOutcome) : Channel :=
  let ch := { ch with char := none, lastOutcome := some o }
  if o = .done then
    let cost := fittedCost x.s1 x.s2 x.averages.1 x.averages.2
    { ch with cost, setup := fittedSetup x.s1 x.averages.1 cost, driftRun := 0, lastAverages := some x.averages }
  else { ch with lastAverages := none }

/-- A characterisation in progress ends: CHARACTERISED is raised to both ports, the completion goes to the issuer's
port unless that port has been reset since, and the end is a cause of a dispatch choice (R131). -/
def Device.endChar (c : Nat) (o : CharOutcome) (m : Device) : Device :=
  match (m.channel c).char with
  | none => m
  | some x =>
    let m1 := ((m.onChannel c (·.endChar x o)).raiseBoth .characterised).askChoice c
    if x.discard then m1 else m1.complete x.issuer (charCompletion x o (m1.channel c))

/-- The block count of the next probe (R130). -/
def Characterisation.probeBlocks (x : Characterisation) : Nat := if x.times.length < 4 then x.s1 else x.s2

/-- The next probe READ is sent on tag 0 with the probe flag set (R130). -/
def Device.sendProbe (now : Time) (c : Nat) (m : Device) : Device :=
  match (m.channel c).char with
  | none => m
  | some x =>
    let est := (m.channel c).baseEstimate x.probeBlocks
    (m.onChannel c fun ch =>
      { ch with char := some { x with phase := .probing now 0 (requestTimeoutAt now est) } }).send c
        (.read 0 x.address x.probeBlocks true)

/-- DRAINING ends when all four tags are free: the first probe is sent (R129). -/
def Device.drained (now : Time) (c : Nat) (m : Device) : Device :=
  match (m.channel c).char with
  | some x => if x.phase = .draining ∧ (m.channel c).tagsFree = true then m.sendProbe now c else m
  | none => m

/-! ### Faults and timeouts -/

/-- Every QUEUED record and unissued segment of a faulted channel fails with CHANNEL_FAULT: each FILLING slot that has
one, in ascending slot number, fails and is counted once (R112). -/
def Device.failQueue (c : Nat) (m : Device) : Device :=
  (m.slots.map (·.1)).foldl (fun m n =>
    if (m.slot n).state = .filling ∧
       (m.slot n).segs.any (fun g => decide (g.channel = c) &&
         (decide (g.status = .queued) || decide (g.status = .unissued))) = true
    then (m.onChannel c (·.countFailure .channelFault)).failSlot n .channelFault else m) m

/-- A channel becomes FAULTED (R122). -/
def Device.fault (c : Nat) (why : FaultReason) (m : Device) : Device :=
  let m1 := m.onChannel c fun ch =>
    { ch with state := .faulted, fault := some why, idleTimer := none, parkGuard := none, wakeGuard := none,
              recheck := none }
  (((m1.raiseBoth .channel).endChar c .faulted).failQueue c)

/-- A timeout is counted; a third in a row makes the channel FAULTED (R120, R121, R122). -/
def Device.countTimeout (c : Nat) (m : Device) : Device :=
  let m1 := m.onChannel c fun ch => { ch with timeouts := count32 ch.timeouts, consecutive := ch.consecutive + 1 }
  if (m1.channel c).state ≠ .faulted ∧ 3 ≤ (m1.channel c).consecutive then m1.fault c .timeouts else m1

/-- A tag becomes free, which is a cause of a dispatch choice (R117). -/
def Device.releaseTag (c t : Nat) (m : Device) : Device := (m.onChannel c (·.setTag t .free)).askChoice c

/-! ### The estimator -/

/-- err: how far the observed time of a read lies from its estimate (R127). -/
def readError (now dispatched est : Nat) : Int := ((now : Int) - dispatched) - est

/-- Setup after a good END (R127). -/
def Channel.learn (ch : Channel) (err : Int) : Channel :=
  { ch with setup := (clampInt 20 200000 (ch.setup + err.tdiv 16000)).toNat }

/-- The estimator and the drift run after a good END of a read that is not a probe (R127, R128). -/
def Device.learn (c : Nat) (err : Int) (m : Device) : Device :=
  let m1 := m.onChannel c (·.learn err)
  let run := if ((m1.channel c).driftMs * Config.ms : Nat) < err.natAbs then (m1.channel c).driftRun + 1 else 0
  if 8 ≤ run then
    (m1.onChannel c fun ch => { ch with driftRun := 0, drifts := count32 ch.drifts }).raiseBoth .drift
  else m1.onChannel c fun ch => { ch with driftRun := run }

/-! ### Link loss and channel reset -/

/-- The records of the in-flight tags of a channel, in ascending tag number, the order in which a link loss or a reset
returns them. DESIGN CHOICE (log 39): the rules give none. -/
def Channel.records (ch : Channel) : List Nat :=
  (List.range Config.numTags).filterMap fun t => match ch.tag t with
    | .inFlight r _ _ _ _ => some r
    | _ => none

/-- Every in-flight read of the records given is returned (R110). -/
def Device.returnAll (now : Time) (rs : List Nat) (m : Device) : Device :=
  rs.foldl (fun m r => m.readOutcome now r .returned) m

/-- A link loss, or an adapter restart taken as one (R116, R123). -/
def Device.linkLoss (now : Time) (c : Nat) (m : Device) : Device :=
  let rs := (m.channel c).records
  let m1 := m.onChannel c fun ch =>
    { ch with state := if ch.state = .faulted then .faulted else .offline, tags := [], idleTimer := none,
              parkGuard := none, wakeGuard := none, linkLosses := count32 ch.linkLosses }
  ((m1.returnAll now rs).endChar c .linkLost).raiseBoth .channel

/-- CHANNEL_RESET's own changes of the channel (R133). -/
def Channel.resetBy (ch : Channel) : Channel :=
  { ch with state := .offline, fault := none, link := false, tags := [], idleTimer := none, parkGuard := none,
            wakeGuard := none, consecutive := 0, driftRun := 0 }

/-- CHANNEL_RESET (R133): link re-initialisation is sent, the channel becomes OFFLINE, its tags are freed and its reads
returned. The completion of a characterisation that it ends is made before that of the CHANNEL_RESET. DESIGN CHOICE
(log 39). -/
def Device.resetChannel (now : Time) (c : Nat) (m : Device) : Device :=
  let rs := (m.channel c).records
  let m1 := (m.onChannel c Channel.resetBy).emit (.reinitialise c)
  ((m1.returnAll now rs).endChar c .reset).raiseBoth .channel

end Sys2Proof.Machine
end

