-- ==== Sys2Proof/Machine/Ports.lean ====
section
/-! DEFINITION. The Port Controllers and the Notice Controller at the end of an event (chapters 9 and 10): rings,
command fetch (R152), posting and stall (R165–R167); then `settle`, what every event still makes before it ends, and
how a command's own effect becomes a step. -/

namespace Sys2Proof.Machine

/-! ### Rings -/

/-- A ring is configured (R150). -/
def RingRegs.configured (r : RingRegs) : Bool := decide (r.size ≠ 0)

/-- (x − y) floor modulo (2 × size) (section 9.2). -/
def RingRegs.diff (r : RingRegs) (x y : Nat) : Nat := (((x : Int) - y) % (2 * r.size : Nat)).toNat

/-- The number of records in a ring (section 9.2). -/
def RingRegs.count (r : RingRegs) : Nat := r.diff r.producer r.consumer

/-- An index moved on by one, modulo 2 × size. -/
def RingRegs.next (r : RingRegs) (x : Nat) : Nat := (x + 1) % (2 * r.size)

/-- The head memory address of the record at an index: the ring base plus 64 times its position (section 9.2). -/
def RingRegs.address (r : RingRegs) (x : Nat) : Nat := r.base + 64 * (x % r.size)

/-! ### Command fetch -/

/-- Every condition of a command fetch (R152). -/
def Device.mayFetch (m : Device) (p : Head) : Bool :=
  let port := m.port p
  (m.hau.head p).present && port.cmdRing.configured && port.ntcRing.configured && decide (port.halt = none) &&
  decide (port.progress = .idle) && decide (0 < port.cmdRing.count) && decide (port.places < Config.completionPlaces)

/-- The port begins reading the record at the consumer, and a completion place is taken (R152, R153, R155). -/
def Device.fetch (now : Time) (m : Device) (p : Head) : Device :=
  if m.mayFetch p then
    (m.onPort p fun port => { port with progress := .reading now, places := port.places + 1 }).emit
      (.recordRead p ((m.port p).cmdRing.address (m.port p).cmdRing.consumer))
  else m

/-! ### Posting -/

/-- The stream whose outbox a port posts from: owner here, owner-absent clear, not in HANDOVER, outbox not empty, its
oldest notice not being written elsewhere (log 19); best seat priority, then lowest number (R165). -/
def Device.postingStream (m : Device) (p : Head) : Option Nat :=
  (least (fun (x y : Nat × StreamRec) =>
      decide (x.2.seat < y.2.seat) || (decide (x.2.seat = y.2.seat) && decide (x.1 < y.1)))
    (m.streams.filter fun e => decide (e.2.state ≠ .closed) && decide (e.2.owner = p) && !e.2.ownerAbsent &&
      decide (e.2.state ≠ .handover) && !e.2.outbox.isEmpty && !m.marked e.1)).map (·.1)

/-- The notice a port writes next (R165). -/
def Device.nextNotice (m : Device) (p : Head) : Option WriteSource :=
  if (m.port p).completions ≠ [] then some .completion
  else if (m.port p).stateQueue ≠ [] then some .state
  else (m.postingStream p).map .stream

/-- The bytes of the notice at the head of a queue (R166, R185). -/
def Device.noticeBytes (m : Device) (p : Head) : WriteSource → List Byte
  | .completion => ((m.port p).completions.head?.map (·.bytes)).getD []
  | .state => ((m.port p).stateQueue.head?.map (·.bytes)).getD []
  | .stream k => ((m.stream k).outbox.head?.map (·.bytes k)).getD []
  | .detached => []

/-- Posting at the end of an event: a write begins, or the port stalls on a full ring (R165, R167). It follows all else
in the event: after a DEVICE_CLEAR it may set again the stall flag and RING_STALL that the clear cleared, DESIGN CHOICE
(log 46). -/
def Device.post (m : Device) (p : Head) : Device :=
  let port := m.port p
  if port.ntcRing.configured && decide (port.halt = none) && decide (port.write = none) then
    match m.nextNotice p with
    | none => m
    | some src =>
      if port.ntcRing.count < port.ntcRing.size then
        (m.onPort p fun port => { port with write := some src, stall := false }).emit
          (.noticeWrite p (port.ntcRing.address port.ntcRing.producer) (m.noticeBytes p src))
      else if port.stall then m
      else (m.onPort p fun port => { port with stall := true }).raise p .ringStall
  else m

/-- What the ports make of an event: posting, command fetch, the interrupt decision (R152, R165, R169). -/
def Device.settlePorts (now : Time) (m : Device) : Device :=
  (((((m.post .a).post .b).fetch now .a).fetch now .b).decideInterrupt .a).decideInterrupt .b

/-! ### The end of an event -/

/-- The delivery checks asked for at this event (R63, R65). -/
def Device.runChecks (now : Time) (m : Device) : Device := m.agenda.checks.foldl (fun m k => m.check now k) m

/-- The dispatch choices caused at this event (R102). -/
def Device.runChoices (e : Env) (m : Device) : Device := m.agenda.choices.foldl (fun m c => m.runChoice e c) m

/-- The idle timers of the fitted channels as the event leaves them (R124). -/
def Device.runIdle (e : Env) (m : Device) : Device :=
  (List.range e.straps.fitted).foldl (fun m c => m.idleTimer e.now c) m

/-- What the tables make of an event before it ends: delivery checks, grants of freed records (R100), the backlog retry
(R88), dispatch choices, idle timers; then nothing is left on the agenda (log 10). -/
def Device.settleTables (e : Env) (m : Device) : Device :=
  { ((((m.runChecks e.now).grantAll e.now).retry e).runChoices e).runIdle e with agenda := Agenda.empty }

/-- The whole end of an event. -/
def Device.settle (e : Env) (m : Device) : Device := (m.settleTables e).settlePorts e.now

/-- The part at the start of an event: nothing sent yet, nothing on the agenda. -/
def Device.begin_ (m : Device) : Device := { m with out := [], agenda := Agenda.empty }

/-! ### From an effect to a step -/

/-- An event whose effect on the part is `f`, with all that it brings before it ends. -/
def State.event (s : State) (f : Device → Device) : Answer :=
  .next { s with part := (f s.part.begin_).settle s.env }

/-- An event of a port's own registers: only the ports can make something of it. -/
def State.portEvent (s : State) (f : Device → Device) : Answer :=
  .next { s with part := (f s.part.begin_).settlePorts s.env.now }

/-- An event that brings nothing else about. -/
def State.quietEvent (s : State) (f : Device → Device) : Answer := .next { s with part := f s.part.begin_ }

/-- Port B is reachable only where the PORTB strap enables it (R149). -/
def Env.reachable (e : Env) : Head → Bool
  | .a => true
  | .b => e.straps.portB

/-- An access or a transaction on a port that is not reachable does not happen (R149; log 3). -/
def State.onReachable (s : State) (p : Head) (answer : Answer) : Answer :=
  if s.env.reachable p then answer else .next s

/-- A channel that is not fitted has no controller: nothing happens on it (chapter 7, introduction; log 3). -/
def State.onFitted (s : State) (c : Nat) (answer : Answer) : Answer :=
  if c < s.env.straps.fitted then answer else .next s

/-- A message of a channel's adapter arrives only while the link is up: one that a link loss overtakes is lost (R115;
log 23). -/
def State.onLink (s : State) (c : Nat) (answer : Answer) : Answer :=
  s.onFitted c (if (s.part.channel c).link then answer else .next s)

/-- A block's answer to a command: the part as the command leaves it, the status, the result words (R154). -/
structure Reply where
  part : Device
  status : Status
  results : List Word

/-- A refusal: nothing is changed (R154). -/
def Device.refuse (m : Device) (status : Status) : Reply := { part := m, status, results := [] }

/-- A command taken: status OK and its results. -/
def Device.accept (m : Device) (results : List Word) : Reply := { part := m, status := .ok, results }

/-- The port's command ceases to be in progress and its completion is made (R153, R154). -/
def Device.answer (m : Device) (p : Head) (h : Handed) (status : Status) (results : List Word) : Device :=
  (m.onPort p fun port => { port with progress := .idle }).complete p
    { tag := h.tag, kind := h.kind, consumer := h.consumer, status, results }

/-- The record that port `p` has handed to a block, if it says `cmd` (R152). -/
def Port.handedAs (port : Port) (cmd : Command) : Option Handed :=
  match port.progress with
  | .handed h => if h.command = cmd then some h else none
  | _ => none

/-- A block takes the command that port `p` has handed to it, whole and at one event (R152); with no such record the
event does not happen (log 4). -/
def State.take (s : State) (p : Head) (cmd : Command) (f : Handed → Device → Device) : Answer :=
  match (s.part.port p).handedAs cmd with
  | some h => s.event (f h)
  | none => .next s

/-- A command that makes its completion at the event at which its block takes it. -/
def State.takeReply (s : State) (p : Head) (cmd : Command) (f : Device → Reply) : Answer :=
  s.take p cmd fun h m => let r := f m; r.part.answer p h r.status r.results

/-- A primary-only command: refused with NOT_PRIMARY to any other head, before its own checks (R175). -/
def Device.primaryOnly (m : Device) (p : Head) (f : Device → Reply) : Reply :=
  if m.hau.primary = some p then f m else m.refuse .notPrimary

end Sys2Proof.Machine
end

