-- ==== Sys2Proof/Machine/ChannelCommands.lean ====
section
/-! DEFINITION. The channel commands (chapter 7): SET_CHANNEL, CHARACTERISE, CHANNEL_RESET. -/

namespace Sys2Proof.Machine

/-- The five settings of a channel, each clamped (R132). -/
def Channel.settings (x : Channel) (a : SetChannelArgs) : Channel :=
  { x with parkMs := min a.parkMs 3600000, wakeEstimate := clampNat 100 120000 a.wakeMs * Config.ms,
           retryLimit := min a.retryLimit 3, tagLimit := min a.tagLimit 4, driftMs := clampNat 1 1000 a.driftMs }

/-- The five values in force, in the order of the table of R132, times in milliseconds (log 15). -/
def Channel.settingWords (x : Channel) : List Word :=
  [word x.parkMs, word (x.wakeEstimate / Config.ms), word x.retryLimit, word x.tagLimit, word x.driftMs]

/-- SET_CHANNEL on the part (R132): a changed park time of an idle channel sets its idle timer afresh or cancels it
(R124), and a changed lookahead tag limit is a cause of a dispatch choice (R102). -/
def Device.setChannelCommand (fitted : Nat) (a : SetChannelArgs) (m : Device) : Reply :=
  if fitted ≤ a.channel then m.refuse .badArg
  else
    let old := m.channel a.channel
    let new := old.settings a
    let m1 := m.setChannel a.channel
      (if new.parkMs = old.parkMs then new else { new with idleTimer := none })
    { part := if new.tagLimit = old.tagLimit then m1 else m1.askChoice a.channel,
      status := .ok, results := new.settingWords }

/-- SET_CHANNEL (R132, R175). -/
def execSetChannel (p : Head) (a : SetChannelArgs) (s : State) : Answer :=
  s.takeReply p (.setChannel a) fun m => m.primaryOnly p (·.setChannelCommand s.env.straps.fitted a)

/-- The refusal of a CHARACTERISE, the role apart, or none where it is taken (R129). -/
def Device.characteriseRefusal (m : Device) (fitted c s1 s2 address : Nat) : Option Status :=
  if fitted ≤ c ∨ s1 = 0 ∨ s2 ≤ s1 ∨ 1024 < s2 ∨ Config.blockSpace < address + s2 then some .badArg
  else if (m.channel c).state ≠ .active ∨ (m.channel c).char ≠ none then some .busy
  else none

/-- A CHARACTERISE that is taken: the channel enters DRAINING, or PROBING where all four tags are free, and the
completion is held back (R129). DESIGN CHOICE (log 32): a recheck timer that is set stays set; R102 and R129 do not
end it. -/
def Device.beginChar (now : Time) (p : Head) (h : Handed) (c s1 s2 address : Nat) (m : Device) : Device :=
  let x : Characterisation :=
    { issuer := p, tag := h.tag, consumer := h.consumer, discard := false, s1, s2, address, times := [],
      phase := .draining }
  ((m.onPort p fun port => { port with progress := .idle }).onChannel c fun ch =>
    { ch with char := some x, idleTimer := none }).drained now c

/-- CHARACTERISE (R129, R175). -/
def execCharacterise (p : Head) (c s1 s2 address : Nat) (s : State) : Answer :=
  s.take p (.characterise c s1 s2 address) fun h m =>
    if m.hau.primary ≠ some p then m.answer p h .notPrimary []
    else match m.characteriseRefusal s.env.straps.fitted c s1 s2 address with
      | some status => m.answer p h status []
      | none => m.beginChar s.env.now p h c s1 s2 address

/-- CHANNEL_RESET on the part (R133). -/
def Device.channelReset (now : Time) (fitted c : Nat) (m : Device) : Reply :=
  if fitted ≤ c then m.refuse .badArg
  else { part := m.resetChannel now c, status := .ok, results := [word (m.channel c).state.code] }

/-- CHANNEL_RESET (R133, R175). -/
def execChannelReset (p : Head) (c : Nat) (s : State) : Answer :=
  s.takeReply p (.channelReset c) fun m => m.primaryOnly p (·.channelReset s.env.now s.env.straps.fitted c)

end Sys2Proof.Machine
end

