-- ==== Sys2Proof/Machine/ChannelEvents.lean ====
section
/-! DEFINITION. The link events and messages of a media channel (chapter 7, sections 7.1 to 7.8; R187). A channel that
is not fitted has no controller and takes none; a message arrives only while the link is up (R115). -/

namespace Sys2Proof.Machine

/-- A stray message is discarded and counted (R121, R187). -/
def Channel.stray (x : Channel) : Channel := { x with strays := count32 x.strays }

/-- A DATA message is discarded and counted (R118). -/
def Channel.discardData (x : Channel) : Channel := { x with discardedData := count32 x.discardedData }

/-! ### Link -/

/-- LINK_UP changes no state but the link flag (R115). -/
def execLinkUp (c : Fin 8) (s : State) : Answer :=
  s.onFitted c (s.event fun m => m.onChannel c fun ch => { ch with link := true })

/-- CHANNEL_LINK_LOSS (R115, R123). -/
def execChannelLinkLoss (c : Fin 8) (s : State) : Answer :=
  s.onFitted c (s.event fun m => (m.onChannel c fun ch => { ch with link := false }).linkLoss s.env.now c)

/-- A HELLO in OFFLINE, with the largest read already recorded: the channel becomes ACTIVE, or FAULTED where the largest
read is below 1024 blocks (R116). -/
def Device.helloOffline (c : Nat) (m : Device) : Device :=
  if (m.channel c).largestRead < 1024 then m.fault c .smallRead
  else ((m.onChannel c fun ch => { ch with state := .active, consecutive := 0 }).raiseBoth .channel).askChoice c

/-- A HELLO, by the channel's state (R116). -/
def Device.hello (now : Time) (c largest : Nat) (m : Device) : Device :=
  let known (m : Device) : Device := m.onChannel c fun ch => { ch with largestRead := largest }
  match (m.channel c).state with
  | .offline => (known m).helloOffline c
  | .faulted => known (m.linkLoss now c)
  | .active | .parking | .parked | .waking => (known (m.linkLoss now c)).helloOffline c

/-- HELLO (R116). -/
def execHello (c : Fin 8) (largest : BitVec 16) (s : State) : Answer :=
  s.onLink c (s.event (·.hello s.env.now c largest.toNat))

/-! ### DATA -/

/-- Where a block of a read lands in staging memory: block offset `k` of request `r`, if it lies within the record's
block count and the slot's page list (R98). -/
def Device.blockAddress (straps : Straps) (m : Device) (r : Request) (k : Nat) : Option Nat :=
  let b := r.offset + k
  if r.count ≤ k then none
  else ((m.slot r.slot).pages[b / Config.pageBlocks]?).map fun p =>
    pageAddress straps p + b % Config.pageBlocks * Config.blockBytes

/-- A DATA message of an outstanding probe: checked for order, then discarded (R130). -/
def Channel.probeData (x : Channel) (y : Characterisation) (offset : Nat) : Channel :=
  match y.phase with
  | .probing sent next timeout =>
    if offset = next then { x with char := some { y with phase := .probing sent (next + 1) timeout } } else x.discardData
  | _ => x.discardData

/-- A probe is outstanding on the channel, so that DATA and END on tag 0 belong to it (R130). -/
def Channel.probe (x : Channel) : Option Characterisation :=
  match x.char with
  | some y =>
    match y.phase with
    | .probing .. => some y
    | _ => none
  | none => none

/-- A DATA message on the channel (R118, R130, R187). -/
def Channel.data (x : Channel) (t offset : Nat) : Channel :=
  if 3 < t then x.discardData
  else match (if t = 0 then x.probe else none) with
    | some y => x.probeData y offset
    | none =>
      match x.tag t with
      | .inFlight r dispatched est next timeout =>
        if offset = next then x.setTag t (.inFlight r dispatched est (next + 1) timeout) else x.discardData
      | _ => x.discardData

/-- The address a DATA message writes its block to, if it is written at all (R98, R118, R187). -/
def Device.dataAddress (straps : Straps) (m : Device) (c t offset : Nat) : Option Nat :=
  if 3 < t then none
  else if t = 0 ∧ (m.channel c).probe ≠ none then none
  else match (m.channel c).tag t with
    | .inFlight r _ _ next _ => if offset = next then m.blockAddress straps (m.req r) offset else none
    | _ => none

/-- DATA (R98, R118). -/
def execDataBlock (c : Fin 8) (tag : BitVec 8) (offset : BitVec 16) (payload : List Byte) (s : State) : Answer :=
  s.onLink c (
    let mem := match s.part.dataAddress s.env.straps c tag.toNat offset.toNat with
      | some a => s.env.mem.write a (exactly Config.blockBytes payload)
      | none => s.env.mem
    let e := { s.env with mem }
    .next { s with env := e,
                   part := (s.part.begin_.onChannel c fun ch => ch.data tag.toNat offset.toNat).settle e })

/-! ### END and ABORT_DONE -/

/-- An END status: 0 GOOD, 2 ADDRESS, any other MEDIUM (section 12.4, R187). -/
inductive EndStatus where
  | good | medium | address
deriving DecidableEq, Repr

/-- The status an END byte spells. -/
def EndStatus.ofByte (b : Nat) : EndStatus := if b = 0 then .good else if b = 2 then .address else .medium

/-- A good END of a read, all its blocks received: the outcome, the estimator and drift, and the consecutive-timeout
counter (R106, R119, R127, R128). -/
def Device.goodEnd (now : Time) (c r dispatched est : Nat) (m : Device) : Device :=
  ((m.readOutcome now r .good).learn c (readError now dispatched est)).onChannel c fun ch => { ch with consecutive := 0 }

/-- The outcome of an END on an in-flight tag whose tag has become free (R119). -/
def Device.endedOn (now : Time) (c r dispatched est next : Nat) (status : EndStatus) (m : Device) : Device :=
  match status with
  | .good =>
    if (m.req r).count ≤ next then m.goodEnd now c r dispatched est
    else (m.onChannel c fun ch => { ch with shortReads := count32 ch.shortReads }).readOutcome now r .retryable
  | .medium => m.readOutcome now r .retryable
  | .address => m.readOutcome now r .address

/-- The END of the outstanding probe (R130). A short one is counted as a probe error alone (log 28). -/
def Device.probeEnd (now : Time) (c : Nat) (x : Characterisation) (sent next : Nat) (status : EndStatus) (m : Device) :
    Device :=
  if status = .good ∧ x.probeBlocks ≤ next then
    let y := { x with times := x.times ++ [now - sent] }
    let m1 := m.onChannel c fun ch => { ch with char := some y, consecutive := 0 }
    if y.times.length < 8 then m1.sendProbe now c else m1.endChar c .done
  else m.endChar c .probeError

/-- An END on a tag that carries no probe (R119, R121). -/
def Device.tagEnd (now : Time) (c t : Nat) (status : EndStatus) (m : Device) : Device :=
  match (m.channel c).tag t with
  | .inFlight r dispatched est next _ => ((m.releaseTag c t).endedOn now c r dispatched est next status).drained now c
  | .aborting _ =>
    ((m.releaseTag c t).onChannel c fun ch => { ch with staleEnds := count32 ch.staleEnds }).drained now c
  | .free => m.onChannel c Channel.stray

/-- The end of SETTLING: the probe's abort is settled and the characterisation ends with PROBE_TIMEOUT (R130). -/
def Device.settled (c : Nat) (m : Device) : Device := m.endChar c .probeTimeout

/-- An END message (R119, R121, R130, R187). -/
def Device.endMessage (now : Time) (c t : Nat) (status : EndStatus) (m : Device) : Device :=
  if 3 < t then m.onChannel c Channel.stray
  else if t = 0 then
    match (m.channel c).char with
    | some x =>
      match x.phase with
      | .probing sent next _ => m.probeEnd now c x sent next status
      | .settling _ => (m.onChannel c fun ch => { ch with staleEnds := count32 ch.staleEnds }).settled c
      | .draining => m.tagEnd now c t status
    | none => m.tagEnd now c t status
  else m.tagEnd now c t status

/-- END (R119). -/
def execReadEnd (c : Fin 8) (tag status : BitVec 8) (s : State) : Answer :=
  s.onLink c (s.event (·.endMessage s.env.now c tag.toNat (EndStatus.ofByte status.toNat)))

/-- The channel is in SETTLING (R130). -/
def Channel.settling (x : Channel) : Bool :=
  match x.char with
  | some y =>
    match y.phase with
    | .settling _ => true
    | _ => false
  | none => false

/-- An ABORT_DONE message settles an abort; on any other tag it is stray (R121, R130, R187). -/
def Device.abortDone (now : Time) (c t : Nat) (m : Device) : Device :=
  if 3 < t then m.onChannel c Channel.stray
  else match (m.channel c).tag t with
    | .aborting _ => (m.releaseTag c t).drained now c
    | _ => if t = 0 ∧ (m.channel c).settling = true then m.settled c else m.onChannel c Channel.stray

/-- ABORT_DONE (R121). -/
def execAbortDone (c : Fin 8) (tag : BitVec 8) (s : State) : Answer :=
  s.onLink c (s.event (·.abortDone s.env.now c tag.toNat))

/-! ### PARKED, AWAKE, stray messages -/

/-- A PARKED message: in PARKING the channel becomes PARKED, or WAKE is sent at once for a queue that is not empty
(R125). -/
def Device.parked (now : Time) (c : Nat) (m : Device) : Device :=
  if (m.channel c).state = .parking then
    let m1 := m.onChannel c fun ch => { ch with state := .parked, parkGuard := none }
    if (m1.queue c).isEmpty then m1 else m1.wake now c
  else m.onChannel c Channel.stray

/-- PARKED (R125). -/
def execParked (c : Fin 8) (s : State) : Answer := s.onLink c (s.event (·.parked s.env.now c))

/-- An AWAKE message: the observed wake time becomes the wake estimate and the channel becomes ACTIVE (R126). -/
def Device.awake (now : Time) (c : Nat) (m : Device) : Device :=
  if (m.channel c).state = .waking then
    (m.onChannel c fun ch =>
      { ch with state := .active, wakeGuard := none, wakes := count32 ch.wakes,
                wakeEstimate := clampNat (100 * Config.ms) (120 * Config.sec) (now - ch.wakeSent) }).askChoice c
  else m.onChannel c Channel.stray

/-- AWAKE (R126). -/
def execAwake (c : Fin 8) (s : State) : Answer := s.onLink c (s.event (·.awake s.env.now c))

/-- STRAY_MESSAGE: a message of an unlisted or part-to-adapter code is discarded and counted (R187). A code that an
adapter's message has spells no stray message (log 3). -/
def execStrayMessage (c : Fin 8) (code : BitVec 8) (s : State) : Answer :=
  s.onLink c (if code ∈ [0x02#8, 0x03#8, 0x05#8, 0x07#8, 0x09#8, 0x0A#8] then .next s
    else s.event fun m => m.onChannel c Channel.stray)

end Sys2Proof.Machine
end

