-- ==== Sys2Proof/Machine/ClipCommands.lean ====
section
/-! DEFINITION. The clip commands (chapter 1): DEFINE_CLIP, LOAD_INDEX, EXTEND_CLIP, RETIRE_CLIP. -/

namespace Sys2Proof.Machine

/-- The end of the highest stripe row of a STRIDE clip of `frames` frames lies within the 48-bit block space, for every
stripe (R7, R12). -/
def strideFits (stripes : List Stripe) (frames blocks : Nat) : Bool :=
  stripes.all fun t => decide (t.base + ((frames - 1) / stripes.length + 1) * blocks ≤ Config.blockSpace)

/-- A run of index entries shares an entry with the run of a DEFINED or RETIRING INDEXED clip (R7). -/
def Device.runOverlaps (m : Device) (base capacity : Nat) : Bool :=
  m.clips.any fun e => decide (e.2.state ≠ .free) &&
    match e.2.locator with
    | .indexed b n => decide (base < b + n) && decide (b < base + capacity)
    | .stride .. => false

/-- The locator that DEFINE_CLIP's arguments describe, or none where the arguments fail a check of R7. -/
def defineLocator (straps : Straps) (m : Device) (a : DefineClipArgs) : Option Locator :=
  if a.frameCount = 0 ∨ Config.maxFrames < a.frameCount then none
  else if a.locatorKind = 0 then
    let stripes := a.stripes.take a.stripeCount
    if a.stripeCount = 0 ∨ 8 < a.stripeCount ∨ stripes.any (fun t => decide (straps.fitted ≤ t.channel)) = true ∨
       a.frameBlocks = 0 ∨ Config.maxFrameBlocks < a.frameBlocks ∨ a.frameBytes = 0 ∨
       a.frameBlocks * Config.blockBytes < a.frameBytes ∨ strideFits stripes a.frameCount a.frameBlocks = false
    then none else some (.stride stripes a.frameBlocks a.frameBytes)
  else if a.locatorKind = 1 then
    if a.indexCapacity = 0 ∨ Config.maxFrames < a.indexCapacity ∨ a.indexCapacity < a.frameCount ∨
       straps.indexEntries < a.indexBase + a.indexCapacity ∨ m.runOverlaps a.indexBase a.indexCapacity = true
    then none else some (.indexed a.indexBase a.indexCapacity)
  else none

/-- The FREE clip record with the lowest number (R8). -/
def Device.freeClip (m : Device) : Option Nat := lowest Config.numClips fun k => decide ((m.clip k).state = .free)

/-- The record that DEFINE_CLIP writes over a FREE one (R8). -/
def Clip.define (x : Clip) (p : Head) (a : DefineClipArgs) (loc : Locator) : Clip :=
  { state := .defined, generation := (x.generation + 1) % 256, definer := p, frameCount := a.frameCount,
    openEnd := a.openEnd, refCount := 0, locator := loc }

/-- Staging memory after a clip with this locator is defined: every entry of an INDEXED clip's run is written with its
valid flag clear and its other fields zero (R4). -/
def Locator.clearRun (mem : Memory) : Locator → Memory
  | .indexed base capacity => mem.clear (entryAddress base) (capacity * Config.entryBytes)
  | .stride .. => mem

/-- DEFINE_CLIP on the part (R7, R8). -/
def Device.defineClip (straps : Straps) (p : Head) (a : DefineClipArgs) (m : Device) : Reply :=
  match defineLocator straps m a with
  | none => m.refuse .badArg
  | some loc =>
    match m.freeClip with
    | none => m.refuse .noRoom
    | some k =>
      let x := (m.clip k).define p a loc
      (m.setClip k x).accept [word k, word x.generation]

/-- DEFINE_CLIP (R7, R8, R4). -/
def execDefineClip (p : Head) (a : DefineClipArgs) (s : State) : Answer :=
  match (s.part.port p).handedAs (.defineClip a) with
  | none => .next s
  | some h =>
    let m := s.part.begin_
    let r := m.defineClip s.env.straps p a
    let mem := match defineLocator s.env.straps m a, m.freeClip with
      | some loc, some _ => loc.clearRun s.env.mem
      | _, _ => s.env.mem
    let e := { s.env with mem }
    .next { s with env := e, part := (r.part.answer p h r.status r.results).settle e }

/-- The refusal of a LOAD_INDEX, or none where it is taken (R9). -/
def Device.loadRefusal (m : Device) (clip first count address : Nat) : Option Status :=
  let x := m.clip clip
  if x.state ≠ .defined then some .noClip
  else match x.locator with
    | .stride .. => some .badArg
    | .indexed _ capacity =>
      if count = 0 ∨ capacity < first + count ∨ address % 64 ≠ 0 then some .badArg else none

/-- LOAD_INDEX: the clip's generation is noted and the data mover starts with its first read, the completion being held
back (R9, R156). -/
def execLoadIndex (p : Head) (clip first count address : Nat) (s : State) : Answer :=
  s.take p (.loadIndex clip first count address) fun h m =>
    match m.loadRefusal clip first count address with
    | some status => m.answer p h status []
    | none =>
      (m.onPort p fun port => { port with progress := .loading }).moverRead s.env.now p
        { address, remaining := count, inRead := 0, since := 0, clip, generation := (m.clip clip).generation,
          frame := first, stored := 0, invalid := 0, skipped := 0, tag := h.tag, consumer := h.consumer }

/-- The refusal of an EXTEND_CLIP, or none where it is taken (R12). -/
def Device.extendRefusal (m : Device) (clip count : Nat) : Option Status :=
  let x := m.clip clip
  if x.state ≠ .defined then some .noClip
  else if x.openEnd = false ∨ count ≤ x.frameCount then some .badArg
  else match x.locator with
    | .indexed _ capacity => if capacity < count then some .badArg else none
    | .stride stripes blocks _ =>
      if Config.maxFrames < count ∨ strideFits stripes count blocks = false then some .badArg else none

/-- A stream whose out-point moves with an EXTEND_CLIP of its clip (R13). -/
def StreamRec.follows (x : StreamRec) (clip generation oldCount : Nat) : Bool :=
  decide (x.state ≠ .closed) && decide (x.clip = clip) && decide (x.generation = generation) && x.openEnd &&
  decide (x.outPoint + 1 = oldCount)

/-- A stream after an EXTEND_CLIP: where it follows the clip, its out-point moves and a pass is triggered (R13). -/
def StreamRec.extended (x : StreamRec) (clip generation oldCount newCount : Nat) : StreamRec :=
  if x.follows clip generation oldCount then { x with outPoint := newCount - 1, passPending := true } else x

/-- EXTEND_CLIP on the part (R12, R13). -/
def Device.extendClip (clip count : Nat) (m : Device) : Reply :=
  match m.extendRefusal clip count with
  | some status => m.refuse status
  | none =>
    let x := m.clip clip
    let moved := m.streams.countP fun e => e.2.follows clip x.generation x.frameCount
    let m1 := m.setClip clip { x with frameCount := count }
    let m2 := (m.streams.map (·.1)).foldl (fun m k => m.onStream k (·.extended clip x.generation x.frameCount count)) m1
    m2.accept [word count, word moved]

/-- EXTEND_CLIP (R12, R13). -/
def execExtendClip (p : Head) (clip count : Nat) (s : State) : Answer :=
  s.takeReply p (.extendClip clip count) fun m => m.extendClip clip count

/-- The refusal of a RETIRE_CLIP, its checks in their order, or none where it is taken (R14). -/
def Device.retireRefusal (m : Device) (p : Head) (clip generation : Nat) : Option Status :=
  let x := m.clip clip
  if x.state = .free then some .noClip
  else if x.generation ≠ generation then some .stale
  else if x.definer ≠ p ∧ m.hau.primary ≠ some p then some .notOwner
  else none

/-- RETIRE_CLIP on the part (R14, R15). -/
def Device.retireClip (p : Head) (clip generation : Nat) (m : Device) : Reply :=
  match m.retireRefusal p clip generation with
  | some status => m.refuse status
  | none =>
    let x := m.clip clip
    if x.state = .retiring then m.accept [word x.refCount, wordBool false]
    else
      let m1 := m.setClip clip { x with state := .retiring }
      if x.refCount = 0 then (m1.retire clip).accept [word 0, wordBool true]
      else m1.accept [word x.refCount, wordBool false]

/-- RETIRE_CLIP (R14, R15). -/
def execRetireClip (p : Head) (clip generation : Nat) (s : State) : Answer :=
  s.takeReply p (.retireClip clip generation) fun m => m.retireClip p clip generation

end Sys2Proof.Machine
end

