-- ==== Sys2Proof/Machine/Heads.lean ====
section
/-! DEFINITION. The Head Arbitration Unit's shared operations (chapter 11): resolution of the primary role, the loss and
the return of a head, orphaning, and the lapse of a handover. -/

namespace Sys2Proof.Machine

/-! ### Resolution -/

/-- The head that resolution chooses among the candidates: higher weight, then higher nonce, then head A (R173). -/
def Hau.winner (h : Hau) (candA candB : Bool) : Option Head :=
  match candA, candB with
  | false, false => none
  | true, false => some .a
  | false, true => some .b
  | true, true =>
    if h.headB.weight < h.headA.weight then some .a
    else if h.headA.weight < h.headB.weight then some .b
    else if h.headA.nonce < h.headB.nonce then some .b
    else some .a

/-- The role passes: ROLE is raised on the port of every head whose role changes (R173). -/
def Device.setPrimary (new : Option Head) (m : Device) : Device :=
  let old := m.hau.primary
  let m1 := { m with hau := { m.hau with primary := new } }
  let tell (m : Device) (p : Head) : Device :=
    if decide (old = some p) = decide (new = some p) then m else m.raise p .role
  tell (tell m1 .a) .b

/-- Resolution among the heads present (R173). -/
def Device.resolve (m : Device) : Device :=
  m.setPrimary (m.hau.winner m.hau.headA.present m.hau.headB.present)

/-! ### Loss and return of a head -/

/-- The streams of a head: those it owns that are not CLOSED. -/
def Device.streamsOf (m : Device) (p : Head) : List Nat :=
  (m.streams.filter fun e => decide (e.2.state ≠ .closed) && decide (e.2.owner = p)).map (·.1)

/-- What the loss of its owner does to one stream (R176): owner-absent is set, the delivery list is emptied, the outbox
keeps its END notices, and a stream in CLOSING becomes CLOSED. -/
def Device.loseOwner (now : Time) (k : Nat) (m : Device) : Device :=
  let m1 := (m.onStream k fun x => { x.clearOutbox with ownerAbsent := true }).detach k
  (m1.dropDelivery now k).closeIfEmpty k

/-- The loss of a head that is present: its hold timer starts, PEER is raised on the other head's port, and its streams
lose their owner (R172, R176). A loss of a head that is not present changes nothing here. -/
def Device.loseHead (e : Env) (p : Head) (m : Device) : Device :=
  if (m.hau.head p).present then
    let lost := { m.hau.head p with present := false, hold := some (e.now + e.dev.hold) }
    let m1 := { m with hau := m.hau.setHead p lost }
    (m.streamsOf p).foldl (fun m k => m.loseOwner e.now k) (m1.raise p.other .peer)
  else m

/-- What the return of its owner does to one stream (R177). -/
def Device.regainOwner (now : Time) (k : Nat) (m : Device) : Device :=
  let m1 := m.onStream k fun x => { x with ownerAbsent := false }
  if (m1.stream k).state = .orphaned then m1 else (m1.onStream k StreamRec.trigger).check now k

/-- The streams that the return of a head gives back to it: all of its own while its hold timer runs, and after that the
ORPHANED ones (R177, R178). -/
def Device.regained (m : Device) (p : Head) (returning : Bool) : List Nat :=
  (m.streamsOf p).filter fun k => returning || decide ((m.stream k).state = .orphaned)

/-- The HAU takes the ANNOUNCE of a head that is not present (R172, R173, R177, R178). -/
def Device.arrive (e : Env) (p : Head) (weight nonce : Nat) (m : Device) : Device :=
  let returning := (m.hau.head p).hold.isSome
  let m1 := { m with hau := m.hau.setHead p { present := true, weight, nonce, hold := none } }
  let m2 := (m1.regained p returning).foldl (fun m k => m.regainOwner e.now k) m1
  match m2.hau.first, m2.hau.settleTimer with
  | none, _ => { m2 with hau := { m2.hau with first := some p, settleTimer := some (e.now + Config.sec) } }
  | some f, some _ => if f = p then m2 else { m2 with hau := { m2.hau with settleTimer := none } }.resolve
  | some _, none => if m2.hau.primary = none then m2.resolve else m2

/-- The HAU takes an ANNOUNCE: from a head already present it records weight and nonce and changes nothing else
(R172). -/
def Device.announced (e : Env) (p : Head) (weight nonce : Nat) (m : Device) : Device :=
  if (m.hau.head p).present then
    { m with hau := m.hau.setHead p { m.hau.head p with weight, nonce } }
  else m.arrive e p weight nonce

/-! ### Orphaning and handover -/

/-- The record of an orphaned stream (R178): stopped as by CUE, still-delivered cleared, saved S kept or taken, the
orphan timer started, owner-absent set (log 47). -/
def StreamRec.orphan (x : StreamRec) (e : Env) : StreamRec :=
  { x.cue e.now none with
      state := .orphaned, ownerAbsent := true, stillDelivered := false, savedS := if x.state = .handover then x.savedS else some x.s,
      handoverTimer := none, orphanTimer := if e.dev.orphan = 0 then none else some (e.now + e.dev.orphan) }

/-- A stream is orphaned, with a STATE notice for both ports (R178). DESIGN CHOICE (log 47): the spec takes its delivery
list as emptied at the owner's loss (R72, R179), but an OPEN or a TAKE_OVER handed before its head's WITHDRAW and taken
after it leaves owner-absent clear (R23, R181), so that such a stream can deliver; whatever its list holds is removed
here and its pins are released, as the loss of the owner does, and owner-absent is set. -/
def Device.orphan (e : Env) (k : Nat) (m : Device) : Device :=
  ((m.dropDelivery e.now k).onStream k (·.orphan e)).makeStateBoth k .orphaned

/-- The record of a stream restored from HANDOVER: to CUED if saved S is 0, else to PLAYING with S as it is (R180). -/
def StreamRec.restore (x : StreamRec) : StreamRec :=
  { x with state := if x.savedS = some 0 then .cued else .playing, savedS := none, handoverTimer := none,
           passPending := true }

/-- A handover lapses or is recalled: the stream is restored, or orphaned if its owner is absent (R180). -/
def Device.lapse (e : Env) (k : Nat) (m : Device) : Device :=
  if (m.hau.head (m.stream k).owner).present then
    ((m.onStream k StreamRec.restore).makeStateBoth k .lapsed).check e.now k
  else m.orphan e k

end Sys2Proof.Machine
end

