-- ==== Sys2Proof/Machine/DeviceCommands.lean ====
section
/-! DEFINITION. The device commands (chapters 3 and 11): SET_DEVICE, DEVICE_CLEAR, YIELD; the answer to a record of an
unknown kind (R154); and HARD_RESET (R183). -/

namespace Sys2Proof.Machine

/-! ### SET_DEVICE -/

/-- A setting carried is clamped and scaled to nanoseconds; one not carried keeps the value in force (R184). -/
def carriedOr (old : Nat) (lo hi unit : Nat) : Option Nat → Nat
  | none => old
  | some x => clampNat lo hi x * unit

/-- The device settings after a SET_DEVICE; the horizon is clamped last, against the urgent threshold just set (R41,
R175). -/
def DeviceSettings.apply (d : DeviceSettings) (a : SetDeviceArgs) : DeviceSettings :=
  let urgent := carriedOr d.urgent 1000 500000 Config.us a.urgentUs
  let horizon := match a.horizonUs with
    | some x => x * Config.us
    | none => d.horizon
  { urgent, horizon := clampNat urgent (10 * Config.sec) horizon,
    lead := carriedOr d.lead 0 200000 Config.us a.leadUs,
    preroll := carriedOr d.preroll 0 2000000 Config.us a.prerollUs,
    hold := carriedOr d.hold 500 30000 Config.ms a.holdMs,
    orphan := carriedOr d.orphan 0 3600000 Config.ms a.orphanMs }

/-- The six values in force, in the units in which SET_DEVICE carries them (log 15). -/
def DeviceSettings.settingWords (d : DeviceSettings) : List Word :=
  [word (d.urgent / Config.us), word (d.horizon / Config.us), word (d.lead / Config.us), word (d.preroll / Config.us),
   word (d.hold / Config.ms), word (d.orphan / Config.ms)]

/-- The states in which a changed delivery lead triggers a pass (R42). -/
def StreamState.windowed : StreamState → Bool
  | .cued | .playing | .handover | .orphaned => true
  | .closed | .closing => false

/-- A pass is triggered for every stream that holds a window (R42). -/
def Device.triggerWindows (m : Device) : Device :=
  ((m.streams.filter fun e => e.2.state.windowed).map (·.1)).foldl (fun m k => m.onStream k StreamRec.trigger) m

/-- What a change of the settings brings about: passes for a changed lead, dispatch choices on every channel for a
changed threshold or horizon (R42, R102). -/
def Device.settingsChanged (fitted : Nat) (old new : DeviceSettings) (m : Device) : Device :=
  let m1 := if new.lead = old.lead then m else m.triggerWindows
  if new.urgent = old.urgent ∧ new.horizon = old.horizon then m1
  else (List.range fitted).foldl (fun m c => m.askChoice c) m1

/-- SET_DEVICE (R41, R42, R175, R184). -/
def execSetDevice (p : Head) (a : SetDeviceArgs) (s : State) : Answer :=
  match (s.part.port p).handedAs (.setDevice a) with
  | none => .next s
  | some h =>
    let m := s.part.begin_
    if m.hau.primary = some p then
      let dev := s.env.dev.apply a
      let e := { s.env with dev }
      let m1 := m.settingsChanged e.straps.fitted s.env.dev dev
      .next { s with env := e, part := (m1.answer p h .ok dev.settingWords).settle e }
    else .next { s with part := (m.answer p h .notPrimary []).settle s.env }

/-! ### DEVICE_CLEAR -/

/-- The command in progress after a device clear: none, but for a record that is being read, which the port goes on to
read and then passes by (R162; log 17). -/
def Progress.cleared : Progress → Progress
  | .reading since | .discarding since => .discarding since
  | .idle | .handed _ | .loading => .idle

/-- A port after a device clear (R162, R171): its completion queue and STATE queue are empty, its command in progress
has ended, its writes are abandoned, its requests and in-service set are clear; `places` is 1 on the issuer's port,
for the completion of the DEVICE_CLEAR itself. DESIGN CHOICE (log 39): the channel
resets that the clear makes of every fitted channel leave no CHANNEL raised (R135, R171). DESIGN CHOICE (log 46): where
that completion meets a full notice ring at the end of the event, a stall begins again (R167): RING_STALL is raised and
the stall flag is set, after the clear. -/
def Port.cleared (x : Port) (places : Nat) : Port :=
  { x with progress := x.progress.cleared, places, completions := [], mover := none, write := none, stall := false,
           stateQueue := [], ev := { x.ev with request := 0, inService := 0 } }

/-- A channel after the channel reset of a device clear: no characterisation outcome is reported (R133, R135), and its
queue is empty and its recheck timer unset (R114). -/
def Channel.cleared (x : Channel) : Channel := { x.resetBy with char := none, recheck := none }

/-- Every clip record FREE, generations kept (R16). -/
def Device.clearClips (m : Device) : Device :=
  (m.clips.map (·.1)).foldl (fun m k => m.setClip k (Clip.freeWith (m.clip k).generation)) m

/-- Every stream CLOSED without notices, no pass pending (R39, R55). -/
def Device.clearStreams (m : Device) : Device :=
  (m.streams.map (·.1)).foldl (fun m k => m.onStream k fun x => { x.closed with passPending := false }) m

/-- A channel reset of every fitted channel (R135). CHANNEL is not raised: the ports' request flags are cleared at the same
event (R171; log 39). -/
def Device.clearChannels (fitted : Nat) (m : Device) : Device :=
  (List.range fitted).foldl (fun m c => (m.onChannel c Channel.cleared).emit (.reinitialise c)) m

/-- DEVICE_CLEAR's effect by block (R182). -/
def Device.clear (straps : Straps) (p : Head) (m : Device) : Device :=
  let m1 := m.clearStreams.clearClips
  let m2 := { m1 with slots := [], freePages := List.range' 0 straps.poolPages, reclaim := [], reqs := [] }
  ((m2.clearChannels straps.fitted).onPort p (·.cleared 1)).onPort p.other (·.cleared 0)

/-- DEVICE_CLEAR (R182, R175). -/
def execDeviceClear (p : Head) (s : State) : Answer :=
  s.takeReply p .deviceClear fun m =>
    m.primaryOnly p fun m => { part := m.clear s.env.straps p, status := .ok, results := [] }

/-! ### YIELD, unknown commands, hard reset -/

/-- YIELD on the part (R174): the role passes to the other head if it is present. -/
def Device.yieldRole (p : Head) (m : Device) : Reply :=
  let m1 := if (m.hau.head p.other).present then m.setPrimary (some p.other) else m
  { part := m1, status := .ok, results := [word ((m1.hau.primary.map Head.code).getD 0)] }

/-- YIELD (R174, R175). -/
def execYieldRole (p : Head) (s : State) : Answer :=
  s.takeReply p .yieldRole fun m => m.primaryOnly p (·.yieldRole p)

/-- UNKNOWN_COMMAND: BAD_ARG, nothing changed (R154, R184). -/
def execUnknownCommand (p : Head) (code : Nat) (s : State) : Answer :=
  s.takeReply p (.unknown code) fun m => m.refuse .badArg

/-- HARD_RESET: the straps are sampled and every block takes its hard-reset values; house time starts at 0 (R40, R183).
Staging memory keeps its bytes (log 6), and the commands waiting outside still wait. -/
def execHardReset (straps : Straps) (s : State) : Answer :=
  .next { s with env := { now := 0, straps, dev := DeviceSettings.reset, mem := s.env.mem },
                 part := Device.reset straps }

end Sys2Proof.Machine
end

