-- ==== Sys2Proof/Machine/HeadEvents.lean ====
section
/-! DEFINITION. The head events (chapters 9 and 11): ANNOUNCE, WITHDRAW, PORT_RESET, PORT_LINK_LOSS, and the expiries
of the hold, settle, orphan and handover timers. A timer that is unset or not yet due does not expire (log 3). -/

namespace Sys2Proof.Machine

/-- A timer has expired: it is set, at or before now (R40). -/
def due (timer : Option Time) (now : Time) : Bool :=
  match timer with
  | some t => decide (t ≤ now)
  | none => false

/-- ANNOUNCE: the port records the weight and nonce and reports them to the HAU (R149, R172). -/
def execAnnounce (p : Head) (weight : BitVec 4) (nonce : BitVec 32) (s : State) : Answer :=
  s.onReachable p (s.event fun m =>
    (m.onPort p fun port => { port with annWeight := weight, annNonce := nonce }).announced s.env p weight.toNat
      nonce.toNat)

/-- A write in progress of a stream's notice is abandoned; other writes go on (R166). -/
def Port.abandonStreamWrite (x : Port) : Port :=
  match x.write with
  | some (.stream _) | some .detached => { x with write := none }
  | _ => x

/-- WITHDRAW: a write of ANNOUNCE with weight and nonce 0 (R149, R166, R176). -/
def execWithdraw (p : Head) (s : State) : Answer :=
  s.onReachable p (s.event fun m =>
    (m.onPort p fun port => { port.abandonStreamWrite with annWeight := 0, annNonce := 0 }).loseHead s.env p)

/-- The completions of the characterisations that port `p` issued will be discarded (R131, R161). -/
def Device.discardChars (fitted : Nat) (p : Head) (m : Device) : Device :=
  (List.range fitted).foldl (fun m c =>
    match (m.channel c).char with
    | some x => if x.issuer = p then m.onChannel c fun ch => { ch with char := some { x with discard := true } } else m
    | none => m) m

/-- A port is reset and its head is lost (R161, R171, R176). -/
def Device.resetPort (e : Env) (p : Head) (m : Device) : Device :=
  ((m.setPort p Port.reset).discardChars e.straps.fitted p).loseHead e p

/-- PORT_RESET (R161). -/
def execPortReset (p : Head) (s : State) : Answer :=
  s.onReachable p (s.event (·.resetPort s.env p))

/-- PORT_LINK_LOSS: the same event as a port reset (R161). -/
def execPortLinkLoss (p : Head) (s : State) : Answer :=
  s.onReachable p (s.event fun m => m.resetPort s.env p)

/-! ### Timers of the HAU -/

/-- The streams that the expiry of a head's hold timer orphans (R178). -/
def StreamState.orphanable : StreamState → Bool
  | .cued | .playing | .handover => true
  | .closed | .orphaned | .closing => false

/-- The hold timer of a head expires: its streams are orphaned, and a primary gives up the role (R174, R178). -/
def Device.holdExpired (e : Env) (p : Head) (m : Device) : Device :=
  let m1 := { m with hau := m.hau.setHead p { m.hau.head p with hold := none } }
  let m2 := ((m1.streamsOf p).filter fun k => (m1.stream k).state.orphanable).foldl (fun m k => m.orphan e k) m1
  if m.hau.primary = some p then m2.resolve else m2

/-- HOLD_TIMER_EXPIRY (R174, R178). -/
def execHoldTimerExpiry (p : Head) (s : State) : Answer :=
  if due (s.part.hau.head p).hold s.env.now then s.event (·.holdExpired s.env p) else .next s

/-- SETTLE_TIMER_EXPIRY: resolution runs (R173). -/
def execSettleTimerExpiry (s : State) : Answer :=
  if due s.part.hau.settleTimer s.env.now then
    s.event fun m => { m with hau := { m.hau with settleTimer := none } }.resolve
  else .next s

/-- The orphan timer of stream `k` expires: its window is emptied, it becomes CLOSED, and each present head is told
(R179). Its delivery list was emptied at the latest when the stream was orphaned: DESIGN CHOICE (log 47), at
`Device.orphan`. -/
def Device.orphanExpired (now : Time) (k : Nat) (m : Device) : Device :=
  let m1 := (m.dropWindow now k).closeStream k
  let tell (m : Device) (p : Head) : Device := if (m.hau.head p).present then m.makeState p k .closed else m
  tell (tell m1 .a) .b

/-- ORPHAN_TIMER_EXPIRY (R179). -/
def execOrphanTimerExpiry (k : Fin 128) (s : State) : Answer :=
  if due (s.part.stream k).orphanTimer s.env.now then s.event (·.orphanExpired s.env.now k) else .next s

/-- HANDOVER_LAPSE: the handover timer of stream `k` expires (R180). -/
def execHandoverLapse (k : Fin 128) (s : State) : Answer :=
  if due (s.part.stream k).handoverTimer s.env.now then s.event (·.lapse s.env k) else .next s

end Sys2Proof.Machine
end

