-- ==== Sys2Proof/Machine/PassEvents.lean ====
section
/-! DEFINITION. DEADLINE_PASS: the read-ahead pass of one stream (chapter 4, R56–R62; R142). -/

namespace Sys2Proof.Machine

/-- The flagged stream whose pass is taken: best seat priority, then lowest number (R56). -/
def Device.flagged (m : Device) : Option Nat :=
  (least (fun (x y : Nat × StreamRec) =>
      decide (x.2.seat < y.2.seat) || (decide (x.2.seat = y.2.seat) && decide (x.1 < y.1)))
    (m.streams.filter fun e => e.2.passPending)).map (·.1)

/-- The frame at N is given up as PAST (R58, R142): an entry at N is removed with its pin, the miss is counted, N
steps. -/
def Device.missPast (now : Time) (k : Nat) (m : Device) : Device :=
  let x := m.stream k
  (m.dropEntries now k fun w => decide (w.u ≠ x.n)).onStream k fun y => (y.countMiss (m.marked k) x.frameN).stepOn now

/-- The frames at N are given up while they are PAST (R58). -/
def Device.pastLoop (now : Time) (k : Nat) : Nat → Device → Device
  | 0, m => m
  | fuel + 1, m =>
    if (m.stream k).display (m.stream k).n = .past then Device.pastLoop now k fuel (m.missPast now k) else m

/-- How many frames of a stream can be PAST at most: the frames that stand between N and the anchor. -/
def StreamRec.pastFrames (x : StreamRec) : Nat := (-(x.distance x.n)).toNat / 65536 + 1

/-- A window entry stays at this pass: its index is a target and maps to the same clip frame (R59). -/
def StreamRec.keeps (x : StreamRec) (w : WinEntry) : Bool :=
  x.targets.any fun u => decide (u = w.u) && decide (x.clipFrame u = w.frame)

/-- A new entry at index `u` (R62). -/
def StreamRec.newEntry (x : StreamRec) (lead : Nat) (u : Int) : WinEntry :=
  { u, frame := x.clipFrame u, display := x.entryDisplay u, due := dueTime lead (x.entryDisplay u), state := .unplaced,
    slot := none, late := false }

/-- A kept entry with its display and due times recomputed (R61). -/
def StreamRec.retimed (x : StreamRec) (lead : Nat) (w : WinEntry) : WinEntry :=
  { w with display := x.entryDisplay w.u, due := dueTime lead (x.entryDisplay w.u) }

/-- The window of a pass over the kept entries: each target has its kept entry or a new one, in play order (R59, R61,
R62). -/
def StreamRec.rebuilt (x : StreamRec) (lead : Nat) : List WinEntry :=
  x.targets.map fun u =>
    match x.window.find? (fun w => decide (w.u = u)) with
    | some w => x.retimed lead w
    | none => x.newEntry lead u

/-- The targets that no kept entry matches (R59). -/
def StreamRec.newTargets (x : StreamRec) : List Int :=
  x.targets.filter fun u => !x.window.any fun w => decide (w.u = u)

/-- The slots that a pass reports to the Directory: those of kept entries whose due time moves, or all of them when the
stream's seat priority differs from the one last reported (R61). -/
def StreamRec.reported (x : StreamRec) (lead : Nat) : List Nat :=
  x.window.filterMap fun w =>
    if (x.retimed lead w).due ≠ w.due ∨ x.seat ≠ x.seatReported then w.slot else none

/-- The stages of R59 to R61: drops, grants of the records they free (log 11), the rebuilt window, and the reports of
its kept entries. -/
def Device.rebuild (e : Env) (k : Nat) (m : Device) : Device :=
  let m1 := (m.dropEntries e.now k (m.stream k).keeps).grantAll e.now
  let x := m1.stream k
  let m2 := m1.setStream k { x with window := x.rebuilt e.dev.lead, seatReported := x.seat }
  (x.reported e.dev.lead).foldl (fun m n => m.recompute n) m2

/-- The new entries are offered for placement one by one in window order (R62). -/
def Device.placeNew (e : Env) (k : Nat) (us : List Int) (m : Device) : Device :=
  us.foldl (fun m u =>
    match m.entry k u with
    | some w => m.place e true k w
    | none => m) m

/-- A new entry of the pass stands UNPLACED in the backlog. -/
def Device.leftUnplaced (m : Device) (k : Nat) (us : List Int) : Bool :=
  us.any fun u => (m.entry k u).map (·.state) = some EntryState.unplaced

/-- The placements of a pass, the backlog retry that it or its drops bring, made once, and its delivery check (R62,
R88). -/
def Device.placeAndCheck (e : Env) (k : Nat) (us : List Int) (m : Device) : Device :=
  let m1 := m.placeNew e k us
  let m2 := if m1.leftUnplaced k us then m1.askRetry else m1
  if m2.agenda.retry && !m2.backlog.isEmpty then
    let m3 := (m2.retry e).check e.now k
    { m3 with agenda := { m3.agenda with retry := false } }
  else m2.check e.now k

/-- The pass of stream `k` (R57): only the flag is cleared where the stream is CLOSED or CLOSING. -/
def Device.pass (e : Env) (k : Nat) (m : Device) : Device :=
  let m1 := m.onStream k fun x => { x with passPending := false }
  match (m1.stream k).state with
  | .closed | .closing => m1
  | _ =>
    let m2 := m1.pastLoop e.now k (m1.stream k).pastFrames
    let us := ((m2.dropEntries e.now k (m2.stream k).keeps).stream k).newTargets
    (m2.rebuild e k).placeAndCheck e k us

/-- DEADLINE_PASS (R56, R57). With no flag set the event does not happen (log 3). -/
def execDeadlinePass (s : State) : Answer :=
  match s.part.flagged with
  | some k => s.event (·.pass s.env k)
  | none => .next s

end Sys2Proof.Machine
end

