-- ==== Sys2Proof/Machine/PortEvents.lean ====
section
/-! DEFINITION. The ends of the head memory transactions that a port starts (chapters 9 and 10): command fetches
(R152, R155), index entries and mover reads (R10, R156, R157), notice writes (R155, R166). An event with no such
transaction running does not happen (log 3). -/

namespace Sys2Proof.Machine

/-! ### Command fetch -/

/-- A record has arrived: the consumer advances, the commands-fetched count rises, and the record is handed to its
owning block (R152). -/
def Port.recordArrived (x : Port) (record : List Byte) : Port :=
  { x with cmdRing := { x.cmdRing with consumer := x.cmdRing.next x.cmdRing.consumer },
           fetched := count32 x.fetched,
           progress := .handed { tag := field record 1 1, kind := field record 0 1, consumer := x.cmdRing.consumer,
                                 command := Command.ofRecord record } }

/-- A record has arrived whose command a device clear has ended: the consumer and the commands-fetched count move on,
and no block takes the record (R152, R162; log 17). -/
def Port.recordPassed (x : Port) : Port :=
  { x with cmdRing := { x.cmdRing with consumer := x.cmdRing.next x.cmdRing.consumer },
           fetched := count32 x.fetched, progress := .idle }

/-- COMMAND_FETCH_DONE (R152, R162, R184). -/
def execCommandFetchDone (p : Head) (record : List Byte) (s : State) : Answer :=
  match (s.part.port p).progress with
  | .reading _ => s.event fun m => m.onPort p (·.recordArrived record)
  | .discarding _ => s.event fun m => m.onPort p Port.recordPassed
  | _ => .next s

/-- The port halts: the cause is set and PORT_FAULT is raised (R155). On a port that is halted already the later cause
stands and PORT_FAULT is raised again. DESIGN CHOICE (log 43). -/
def Device.halt (m : Device) (p : Head) (cause : HaltCause) : Device :=
  (m.onPort p fun port => { port with halt := some cause }).raise p .portFault

/-- A port whose record read has failed: the consumer stays and the completion place is freed (R155); a device clear has
freed already the place of a command that it ended (R162). -/
def Port.readFailed (x : Port) : Port :=
  { x with progress := .idle, places := match x.progress with
      | .reading _ => x.places - 1
      | .idle | .discarding _ | .handed _ | .loading => x.places }

/-- A record read has failed, and the port halts (R155). -/
def Device.fetchFailed (m : Device) (p : Head) : Device := (m.onPort p Port.readFailed).halt p .fetchRead

/-- FETCH_READ_ERROR (R155). -/
def execFetchReadError (p : Head) (s : State) : Answer :=
  match (s.part.port p).progress with
  | .reading _ | .discarding _ => s.event (·.fetchFailed p)
  | _ => .next s

/-- FETCH_READ_TIMEOUT: the read has not been answered within 50 ms (R155). -/
def execFetchReadTimeout (p : Head) (s : State) : Answer :=
  match (s.part.port p).progress with
  | .reading since | .discarding since =>
    if since + 50 * Config.ms ≤ s.env.now then s.event fun m => m.fetchFailed p else .next s
  | _ => .next s

/-! ### The data mover -/

/-- How an index entry is handled (R10). -/
inductive EntryOutcome where
  | skipped | invalid | stored
deriving DecidableEq, Repr

/-- The outcome of an index entry brought in by mover `v` (R10). -/
def Device.entryOutcome (m : Device) (straps : Straps) (v : Mover) (entry : List Byte) : EntryOutcome :=
  if (m.findSlot v.clip v.generation v.frame).isSome then .skipped
  else if (IndexEntry.ofBytes entry).valid && (IndexEntry.ofBytes entry).checks straps then .stored
  else .invalid

/-- The mover after an entry has been handled: the count of its outcome, the next address and frame, and the counts
remaining of the transfer and of the read (R11, R156). -/
def Mover.handled (v : Mover) (o : EntryOutcome) : Mover :=
  { v with address := v.address + 64, remaining := v.remaining - 1, inRead := v.inRead - 1,
           frame := v.frame + 1,
           skipped := if o = .skipped then v.skipped + 1 else v.skipped,
           invalid := if o = .invalid then v.invalid + 1 else v.invalid,
           stored := if o = .stored then v.stored + 1 else v.stored }

/-- Staging memory after an entry has been handled: the entry of the clip's run is written unless it is skipped (R10,
R186). -/
def Device.entryMemory (m : Device) (mem : Memory) (v : Mover) (o : EntryOutcome) (entry : List Byte) : Memory :=
  match (m.clip v.clip).locator with
  | .indexed base _ =>
    if o = .skipped then mem else mem.write (entryAddress (base + v.frame)) (storedEntry entry (decide (o = .stored)))
  | .stride .. => mem

/-- The part after an entry has been handled: the transfer ends with the last entry, and the mover's next read follows
the last entry of a read (R11, R156; log 22). -/
def Device.entryHandled (now : Time) (p : Head) (v : Mover) (o : EntryOutcome) (m : Device) : Device :=
  let w := v.handled o
  let m1 := m.onPort p fun port => { port with mover := some w }
  if w.remaining = 0 then m1.endTransfer p .ok
  else if w.inRead = 0 then m1.moverRead now p w
  else m1

/-- INDEX_ENTRY_ARRIVAL (R10, R11, R156). -/
def execIndexEntryArrival (p : Head) (entry : List Byte) (s : State) : Answer :=
  match (s.part.port p).mover with
  | none => .next s
  | some v =>
    let m := s.part.begin_
    let o := m.entryOutcome s.env.straps v entry
    let e := { s.env with mem := m.entryMemory s.env.mem v o entry }
    .next { s with env := e, part := (m.entryHandled s.env.now p v o).settle e }

/-- A mover read has failed: PORT_FAULT is raised and the transfer ends with BAD_ARG and its counts (R157). -/
def Device.moverFailed (m : Device) (p : Head) : Device := (m.raise p .portFault).endTransfer p .badArg

/-- MOVER_READ_ERROR (R157). -/
def execMoverReadError (p : Head) (s : State) : Answer :=
  if (s.part.port p).mover.isSome then s.event (·.moverFailed p) else .next s

/-- MOVER_READ_TIMEOUT: the mover's read has not been answered within 50 ms (R157). -/
def execMoverReadTimeout (p : Head) (s : State) : Answer :=
  match (s.part.port p).mover with
  | some v => if v.since + 50 * Config.ms ≤ s.env.now then s.event fun m => m.moverFailed p else .next s
  | none => .next s

/-! ### Notice writes -/

/-- A notice of a port's own queue has been posted: its write is over, the producer advances and the posting counts
toward NOTICE (R166, R170). -/
def Port.posted (x : Port) (now : Time) : Port :=
  { x with write := none, ntcRing := { x.ntcRing with producer := x.ntcRing.next x.ntcRing.producer },
           ev := x.ev.posted now }

/-- The posting of a completion, whose place becomes free (R153, R166). -/
def Port.postedCompletion (x : Port) (now : Time) : Port :=
  { x.posted now with completions := x.completions.tail, places := x.places - 1 }

/-- The posting of a STATE notice (R166). -/
def Port.postedState (x : Port) (now : Time) : Port := { x.posted now with stateQueue := x.stateQueue.tail }

/-- The posting of a notice of stream `k`: the notice leaves the outbox, an END held by end pending joins it, and the
Stream Table makes a delivery check (R166, R34, R140). -/
def Device.postedStream (now : Time) (p : Head) (k : Nat) (m : Device) : Device :=
  ((m.onPort p (·.posted now)).onStream k fun x => { x with outbox := x.outbox.tail }.joinPending).check now k

/-- A notice of stream `k` belongs to port `p`'s ring: the stream is not CLOSED and its owner is this head (R166). -/
def Device.belongs (m : Device) (p : Head) (k : Nat) : Bool :=
  decide ((m.stream k).state ≠ .closed) && decide ((m.stream k).owner = p)

/-- A notice write ends well (R166). -/
def Device.writeEnded (now : Time) (p : Head) (src : WriteSource) (m : Device) : Device :=
  match src with
  | .completion => m.onPort p (·.postedCompletion now)
  | .state => m.onPort p (·.postedState now)
  | .stream k => if m.belongs p k then m.postedStream now p k else m.onPort p fun x => { x with write := none }
  | .detached => m.onPort p fun x => { x with write := none }

/-- NOTICE_WRITE_END (R166). -/
def execNoticeWriteEnd (p : Head) (s : State) : Answer :=
  match (s.part.port p).write with
  | some src => s.event (·.writeEnded s.env.now p src)
  | none => .next s

/-- A port's notice write is over without a posting: the notice is unmarked and stays at the head of its queue, and two
STATE notices of one stream become one (R163, R166). -/
def Port.writeDropped (x : Port) : Port :=
  { x with write := none, stateQueue := if x.write = some .state then unmarkState x.stateQueue else x.stateQueue }

/-- NOTICE_WRITE_FAIL: the port halts with cause NOTICE_WRITE (R155, R166). -/
def execNoticeWriteFail (p : Head) (s : State) : Answer :=
  if (s.part.port p).write.isSome then s.event fun m => (m.onPort p (·.writeDropped)).halt p .noticeWrite else .next s

end Sys2Proof.Machine
end

