-- ==== Sys2Proof/Machine/RegisterWrites.lean ====
section
/-! DEFINITION. Writes of a port's register window (chapters 9, 10 and 12): rings, events, coalescing, the table access
window, and discarded writes. ANNOUNCE and PORT_RESET stand in HeadEvents.lean. -/

namespace Sys2Proof.Machine

/-- A discarded write raises the discarded-write count and changes nothing else (R148). -/
def Port.discarded (x : Port) : Port := { x with discardedWrites := count32 x.discardedWrites }

/-- DISCARDED_WRITE (R148). -/
def execDiscardedWrite (p : Head) (s : State) : Answer :=
  s.onReachable p (s.portEvent fun m => m.onPort p Port.discarded)

/-! ### Rings -/

/-- A ring of a port. -/
def Port.ring (x : Port) : RingId → RingRegs
  | .command => x.cmdRing
  | .notice => x.ntcRing

/-- Write a ring of a port. -/
def Port.setRing (x : Port) (r : RingId) (v : RingRegs) : Port :=
  match r with
  | .command => { x with cmdRing := v }
  | .notice => { x with ntcRing := v }

/-- A write of a ring base: its low 12 bits are taken as zero; in a configured ring it is discarded (R150). -/
def Port.writeBase (x : Port) (r : RingId) (value : BitVec 64) : Port :=
  if (x.ring r).configured then x.discarded
  else x.setRing r { x.ring r with base := value.toNat / 4096 * 4096 }

/-- The least and the greatest size of a ring (section 9.2). -/
def ringSizes : RingId → Nat × Nat
  | .command => (16, 1024)
  | .notice => (64, 4096)

/-- The size a ring takes from a size written: raised, lowered, or rounded down to a power of two (R150). -/
def ringSize (r : RingId) (value : Nat) : Nat := 2 ^ (clampNat (ringSizes r).1 (ringSizes r).2 value).log2

/-- A write of a ring size configures the ring; in a configured ring it is discarded (R150). -/
def Port.writeSize (x : Port) (r : RingId) (value : BitVec 32) : Port :=
  if (x.ring r).configured then x.discarded
  else x.setRing r { base := (x.ring r).base, size := ringSize r value.toNat, producer := 0, consumer := 0 }

/-- RING_BASE_WRITE (R150). -/
def execRingBaseWrite (p : Head) (r : RingId) (value : BitVec 64) (s : State) : Answer :=
  s.onReachable p (s.portEvent fun m => m.onPort p fun x => x.writeBase r value)

/-- RING_SIZE_WRITE (R150). -/
def execRingSizeWrite (p : Head) (r : RingId) (value : BitVec 32) (s : State) : Answer :=
  s.onReachable p (s.portEvent fun m => m.onPort p fun x => x.writeSize r value)

/-- A write of the command producer is taken where it would not overfill the ring (R151). -/
def Port.writeProducer (x : Port) (value : BitVec 32) : Port :=
  let r := x.cmdRing
  let new := value.toNat % (2 * r.size)
  if r.configured && decide (r.diff new r.consumer ≤ r.size) then { x with cmdRing := { r with producer := new } }
  else x.discarded

/-- CMD_PRODUCER_WRITE (R151). -/
def execCmdProducerWrite (p : Head) (value : BitVec 32) (s : State) : Answer :=
  s.onReachable p (s.portEvent fun m => m.onPort p fun x => x.writeProducer value)

/-- A write of the notice consumer is taken where it moves forward over notices that the ring holds (R151). -/
def Port.writeConsumer (x : Port) (value : BitVec 32) : Port :=
  let r := x.ntcRing
  let new := value.toNat % (2 * r.size)
  if r.configured && decide (r.diff r.producer new ≤ r.count) then { x with ntcRing := { r with consumer := new } }
  else x.discarded

/-- NTC_CONSUMER_WRITE (R151). -/
def execNtcConsumerWrite (p : Head) (value : BitVec 32) (s : State) : Answer :=
  s.onReachable p (s.portEvent fun m => m.onPort p fun x => x.writeConsumer value)

/-! ### Events -/

/-- A write on the event state of a port. -/
def State.eventWrite (s : State) (p : Head) (f : Events → Events) : Answer :=
  s.onReachable p (s.portEvent fun m => m.onPort p fun x => { x with ev := f x.ev })

/-- EV_REQUEST_WRITE clears each request flag written with 1 (R168). -/
def execEvRequestWrite (p : Head) (value : BitVec 32) (s : State) : Answer :=
  s.eventWrite p fun v => { v with request := v.request &&& ~~~(value.setWidth 9) }

/-- EV_MASK_WRITE sets or clears each mask flag as written (R168). -/
def execEvMaskWrite (p : Head) (value : BitVec 32) (s : State) : Answer :=
  s.eventWrite p fun v => { v with mask := value.setWidth 9 }

/-- EV_LEVEL_WRITE sets the level of each source (R168). -/
def execEvLevelWrite (p : Head) (value : BitVec 32) (s : State) : Answer :=
  s.eventWrite p fun v => { v with level := value.setWidth 18 }

/-- END_OF_SERVICE removes the lowest-numbered level from the in-service set (R169). -/
def execEndOfService (p : Head) (s : State) : Answer := s.eventWrite p Events.endService

/-- A new coalescing count, clamped; at or below the unsignalled count it raises NOTICE (R170). -/
def Events.setCoalCount (v : Events) (value : Nat) : Events :=
  let v1 := { v with coalCount := clampNat 1 64 value }
  if v1.coalCount ≤ v1.unsignalled then v1.signal else v1

/-- COAL_COUNT_WRITE (R170). -/
def execCoalCountWrite (p : Head) (value : BitVec 32) (s : State) : Answer :=
  s.eventWrite p (·.setCoalCount value.toNat)

/-- COAL_EXPIRY_WRITE: a running timer keeps its time (R170). -/
def execCoalExpiryWrite (p : Head) (value : BitVec 32) (s : State) : Answer :=
  s.eventWrite p fun v => { v with coalExpiryUs := clampNat 50 2000 value.toNat }

/-- The coalescing timer expires: NOTICE is raised where the unsignalled count is above 0 (R170). -/
def Events.coalExpired (v : Events) : Events :=
  if 0 < v.unsignalled then v.signal else { v with coalTimer := none }

/-- COALESCING_TIMER_EXPIRY (R170). -/
def execCoalescingTimerExpiry (p : Head) (s : State) : Answer :=
  match (s.part.port p).ev.coalTimer with
  | some t =>
    if t ≤ s.env.now then s.portEvent fun m => m.onPort p fun x => { x with ev := x.ev.coalExpired } else .next s
  | none => .next s

/-! ### The table access window -/

/-- The record count of each view (section 9.5). -/
def viewRecords : Nat → Nat
  | 0 => 256
  | 1 => 128
  | 2 => 4096
  | 3 => 8
  | _ => 1

/-- A write of TA_SELECT: a value above 4 is discarded (R158, R188). -/
def Port.writeSelect (x : Port) (value : Nat) : Port :=
  if 4 < value then x.discarded
  else { x with ta := { x.ta with select := value, index := 0, word := 0, snapshot := [] } }

/-- TA_SELECT_WRITE (R158, R188). -/
def execTaSelectWrite (p : Head) (value : BitVec 32) (s : State) : Answer :=
  s.onReachable p (s.portEvent fun m => m.onPort p fun x => x.writeSelect value.toNat)

/-- TA_INDEX_WRITE: the index is taken modulo the selected view's record count (R158). -/
def execTaIndexWrite (p : Head) (value : BitVec 32) (s : State) : Answer :=
  s.onReachable p (s.portEvent fun m => m.onPort p fun x =>
    { x with ta := { x.ta with index := value.toNat % viewRecords x.ta.select, word := 0, snapshot := [] } })

/-- A write of TA_MODE: a value above 1 is discarded (R188). -/
def Port.writeMode (x : Port) (value : Nat) : Port :=
  if 1 < value then x.discarded else { x with ta := { x.ta with advance := decide (value = 1) } }

/-- TA_MODE_WRITE (R158, R188). -/
def execTaModeWrite (p : Head) (value : BitVec 32) (s : State) : Answer :=
  s.onReachable p (s.portEvent fun m => m.onPort p fun x => x.writeMode value.toNat)

end Sys2Proof.Machine
end

