-- ==== Sys2Proof/Machine/StagingWindow.lean ====
section
/-! DEFINITION. The staging window of a port: STAGING_PAGE_READ, DESCRIPTOR_READ, STAGING_WRITE (chapter 9, R159, R160;
R95, R188). -/

namespace Sys2Proof.Machine

/-- A read or a write of the staging window is denied at `address`: ACCESS is raised, the denied-access count rises, and
the address is held (R159, R160). DESIGN CHOICE (log 44): the address is the byte offset in the 64 GiB window. -/
def Device.denied (m : Device) (p : Head) (address : Nat) : Device :=
  (m.onPort p fun x => { x with deniedAccesses := count32 x.deniedAccesses, lastDenied := address }).raise p .access

/-- Page `n` of the pool is admitted to a head: a stream it owns has a delivery-list entry whose slot's page list holds
it (R159). -/
def Device.admits (m : Device) (p : Head) (n : Nat) : Bool :=
  m.streams.any fun e => decide (e.2.owner = p) && e.2.delivery.any fun d =>
    match d.slot with
    | some k => (m.slot k).pages.contains n
    | none => false

/-- The byte at an offset of the page area may be read by a head: its page lies in the pool and is admitted (R159). -/
def Device.admitsByte (m : Device) (straps : Straps) (p : Head) (offset : Nat) : Bool :=
  decide (offset / Config.pageBytes < straps.poolPages) && m.admits p (offset / Config.pageBytes)

/-- A byte of the page area as a head reads it: staging memory where admitted, else all-ones (R159). -/
def State.pageByte (s : State) (p : Head) (offset : Nat) : Byte :=
  if s.part.admitsByte s.env.straps p offset then s.env.mem.read (s.env.straps.idxMiB * Config.pageBytes + offset)
  else 0xFF

/-- The answer to a read of the staging window whose byte at an offset is `byte`; `ok` tells the offsets that are read
without denial, and `base` is where the area begins in the window (R159, R160). -/
def State.windowRead (s : State) (p : Head) (base offset length : Nat) (byte : Nat → Byte) (ok : Nat → Bool) : Answer :=
  let offsets := List.range' offset length
  s.onReachable p (s.portEvent fun m =>
    let m1 := m.emit (.stagingData p (offsets.map byte))
    match offsets.find? (fun o => !ok o) with
    | some o => m1.denied p (base + o)
    | none => m1)

/-- STAGING_PAGE_READ of `length` bytes at `offset` of the page area (R159). -/
def execStagingPageRead (p : Head) (offset length : Nat) (s : State) : Answer :=
  s.windowRead p 0 offset length (s.pageByte p) (s.part.admitsByte s.env.straps p)

/-- A byte of the descriptor area: a byte of a slot's descriptor, or all-ones beyond the 4096th (R95, R160, R188). -/
def State.descriptorByte (s : State) (offset : Nat) : Byte :=
  if offset < Config.descriptorBytes then (((s.part.slot (offset / 1024)).descriptor)[offset % 1024]?).getD 0 else 0xFF

/-- DESCRIPTOR_READ of `length` bytes at `offset` of the descriptor area (R160). -/
def execDescriptorRead (p : Head) (offset length : Nat) (s : State) : Answer :=
  s.windowRead p Config.descriptorBase offset length s.descriptorByte fun o => decide (o < Config.descriptorBytes)

/-- STAGING_WRITE at `offset` of the staging window: discarded, staging memory unchanged (R160). -/
def execStagingWrite (p : Head) (offset : Nat) (s : State) : Answer :=
  s.onReachable p (s.portEvent fun m => m.denied p offset)

end Sys2Proof.Machine
end

