-- ==== Sys2Proof/Machine/StreamCommands.lean ====
section
/-! DEFINITION. The stream commands (chapters 2, 4, 11): OPEN, PLAY, CUE, JOG, SET_RANGE, SET_WINDOW, QUERY_STREAM,
RELEASE, CLOSE, HAND_OVER, TAKE_OVER. -/

namespace Sys2Proof.Machine

/-! ### The checks every stream command passes -/

/-- The column of a state in the table of R20, by the group of commands. -/
inductive Admission where
  /-- PLAY, CUE, SET_RANGE, SET_WINDOW, HAND_OVER. -/
  | cuedPlaying
  /-- JOG. -/
  | cuedOnly
  /-- QUERY_STREAM, RELEASE, CLOSE. -/
  | everyState
deriving DecidableEq, Repr

/-- A command of the group is taken in the state (R20, R180). -/
def Admission.admits : Admission → StreamState → Bool
  | .cuedPlaying, x => decide (x = .cued) || decide (x = .playing)
  | .cuedOnly, x => decide (x = .cued)
  | .everyState, _ => true

/-- NO_STREAM: the number is above 127 or the stream is CLOSED (R19). -/
def Device.noStream (m : Device) (k : Nat) : Bool := decide (127 < k) || decide ((m.stream k).state = .closed)

/-- The refusal of R19 and R20, or none where the command passes them. -/
def Device.streamRefusal (m : Device) (p : Head) (k : Nat) (group : Admission) : Option Status :=
  if m.noStream k then some .noStream
  else if (m.stream k).owner ≠ p then some .notOwner
  else if group.admits (m.stream k).state then none
  else some .busy

/-- A stream command that has passed R19 and R20. -/
def Device.streamCommand (m : Device) (p : Head) (k : Nat) (group : Admission) (f : Reply) : Reply :=
  match m.streamRefusal p k group with
  | some status => m.refuse status
  | none => f

/-! ### OPEN -/

/-- The out-point clamped to the clip's frame count − 1 (R22, R23, R32). -/
def Clip.clampOut (x : Clip) (outPoint : Nat) : Nat := min outPoint (x.frameCount - 1)

/-- The CLOSED stream record with the lowest number (R23). -/
def Device.closedStream (m : Device) : Option Nat :=
  lowest Config.numStreams fun k => decide ((m.stream k).state = .closed)

/-- The refusal of an OPEN, or none where it is taken (R22). -/
def Device.openRefusal (m : Device) (a : OpenArgs) : Option Status :=
  let x := m.clip a.clip
  if x.state ≠ .defined then some .noClip
  else if x.generation ≠ a.generation then some .stale
  else if a.period < 1000000 ∨ 1000000000 < a.period ∨ x.clampOut a.outPoint < a.inPoint then some .badArg
  else if m.closedStream = none then some .noRoom
  else none

/-- The record that OPEN sets up (R23, R147); `pending` is the record's pass-pending flag, which R18 leaves. -/
def openedStream (x : Clip) (p : Head) (a : OpenArgs) (now : Time) : StreamRec :=
  let out := x.clampOut a.outPoint
  let n := clampNat a.inPoint out a.start
  { StreamRec.reset with
      state := .cued, owner := p, clip := a.clip, generation := a.generation, inPoint := a.inPoint, outPoint := out,
      loop := a.loop, openEnd := a.openEnd, f0q := (n : Int) * 65536, t0 := now, period := a.period,
      w := clampNat 1 48 a.w, c := clampNat 1 8 a.c, seat := min a.seat 3, n := n, passPending := true,
      seatReported := min a.seat 3 }

/-- OPEN on the part (R22, R23). -/
def Device.openStream (now : Time) (p : Head) (a : OpenArgs) (m : Device) : Reply :=
  match m.openRefusal a, m.closedStream with
  | some status, _ => m.refuse status
  | none, none => m.refuse .noRoom
  | none, some k =>
    let clip := m.clip a.clip
    let x := openedStream clip p a now
    let m1 := m.setClip a.clip { clip with refCount := clip.refCount + 1 }
    (m1.setStream k x).accept [word k, word x.outPoint, wordInt x.n, word x.w, word x.c, word x.seat]

/-- OPEN (R22, R23). -/
def execOpenStream (p : Head) (a : OpenArgs) (s : State) : Answer :=
  s.takeReply p (.openStream a) fun m => m.openStream s.env.now p a

/-! ### PLAY, CUE, JOG, SET_RANGE -/

/-- A transport command's change of the record of stream `k`, its completion's words drawn from the record as the
command leaves it, and the delivery check that follows (R21, R65). -/
def Device.transport (now : Time) (k : Nat) (drop : Bool) (f : StreamRec → StreamRec) (results : StreamRec → List Word)
    (m : Device) : Reply :=
  let m1 := m.onStream k f
  let m2 := if drop then m1.dropWindow now k else m1
  { part := m2.check now k, status := .ok, results := results (m1.stream k) }

/-- CUE on the part, as CUE and as a PLAY with S = 0 (R26, R30). -/
def Device.cueStream (now : Time) (k : Nat) (locate : Option Nat) (m : Device) : Reply :=
  m.transport now k false (·.cue now locate) fun x => [word x.frameN]

/-- The words of a PLAY completion: the S in force, the clip frame of N, T0 (R26). -/
def playResults (x : StreamRec) : List Word := [wordInt x.s, word x.frameN] ++ words64 x.t0

/-- PLAY on the part (R26). -/
def Device.playStream (e : Env) (k : Nat) (shuttle : Int) (locate : Option Nat) (m : Device) : Reply :=
  let shuttle := clampInt (-64) 64 shuttle
  if shuttle = 0 then m.cueStream e.now k locate
  else m.transport e.now k ((m.stream k).playReverses shuttle) (·.play e.now e.dev.preroll shuttle locate) playResults

/-- PLAY (R26–R29). -/
def execPlay (p : Head) (k : Nat) (shuttle : Int) (locate : Option Nat) (s : State) : Answer :=
  s.takeReply p (.play k shuttle locate) fun m =>
    m.streamCommand p k .cuedPlaying (m.playStream s.env k shuttle locate)

/-- CUE (R30). -/
def execCue (p : Head) (k : Nat) (locate : Option Nat) (s : State) : Answer :=
  s.takeReply p (.cue k locate) fun m => m.streamCommand p k .cuedPlaying (m.cueStream s.env.now k locate)

/-- JOG (R31). -/
def execJog (p : Head) (k : Nat) (n : Int) (s : State) : Answer :=
  s.takeReply p (.jog k n) fun m =>
    m.streamCommand p k .cuedOnly
      (m.transport s.env.now k false (·.jog s.env.now n) fun x => [word x.frameN])

/-- SET_RANGE on the part (R32). -/
def Device.setRange (e : Env) (k inPoint outPoint : Nat) (loop openEnd : Bool) (m : Device) : Reply :=
  let out := (m.clip (m.stream k).clip).clampOut outPoint
  if out < inPoint then m.refuse .badArg
  else m.transport e.now k true (·.setRange e.now e.dev.preroll inPoint out loop openEnd)
    fun x => [word x.inPoint, word x.outPoint, word x.frameN]

/-- SET_RANGE (R32). -/
def execSetRange (p : Head) (k inPoint outPoint : Nat) (loop openEnd : Bool) (s : State) : Answer :=
  s.takeReply p (.setRange k inPoint outPoint loop openEnd) fun m =>
    m.streamCommand p k .cuedPlaying (m.setRange s.env k inPoint outPoint loop openEnd)

/-! ### SET_WINDOW, QUERY_STREAM, RELEASE, CLOSE -/

/-- SET_WINDOW's values in force (R35). -/
def StreamRec.setWindow (x : StreamRec) (w c seat : Nat) : StreamRec :=
  { x with w := clampNat 1 48 w, c := max (clampNat 1 8 c) x.delivery.length, seat := min seat 3, passPending := true }

/-- The entries of a window within its depth. -/
def withinDepth (w : Nat) (window : List WinEntry) (e : WinEntry) : Bool :=
  (window.take w).any fun x => decide (x.u = e.u)

/-- SET_WINDOW on the part: entries beyond a lowered depth are dropped from the tail at this event (R35, R64). -/
def Device.setWindow (now : Time) (k w c seat : Nat) (m : Device) : Reply :=
  let m1 := m.onStream k (·.setWindow w c seat)
  let x := m1.stream k
  { part := (m1.dropEntries now k (withinDepth x.w x.window)).check now k, status := .ok,
    results := [word x.w, word x.c, word x.seat] }

/-- SET_WINDOW (R35). -/
def execSetWindow (p : Head) (k w c seat : Nat) (s : State) : Answer :=
  s.takeReply p (.setWindow k w c seat) fun m =>
    m.streamCommand p k .cuedPlaying (m.setWindow s.env.now k w c seat)

/-- The words of a QUERY_STREAM completion (R36). -/
def StreamRec.query (x : StreamRec) (now : Time) : List Word :=
  [word x.state.code, wordBool x.ownerAbsent, wordInt (x.savedS.getD x.s), word (x.position now), word x.frameN,
   word x.window.length, word (x.window.countP fun w => decide (w.state = .staged)), word x.delivery.length,
   word x.nextSeq, word x.missedCount, word x.outbox.length]

/-- QUERY_STREAM (R36). -/
def execQueryStream (p : Head) (k : Nat) (s : State) : Answer :=
  s.takeReply p (.queryStream k) fun m =>
    m.streamCommand p k .everyState (m.accept ((m.stream k).query s.env.now))

/-- How many entries a RELEASE of sequence number `q` removes from a delivery list (R71). -/
def releaseCount (delivery : List DelEntry) (q : Nat) : Nat :=
  match delivery.head?, delivery.getLast? with
  | some oldest, some newest =>
    let behind := (((q : Int) - oldest.seq) % 65536).toNat
    let ahead := (((q : Int) - newest.seq) % 65536).toNat
    if behind < delivery.length then behind + 1
    else if 1 ≤ ahead ∧ ahead ≤ 32767 then delivery.length
    else 0
  | _, _ => 0

/-- The first `count` entries of the delivery list are removed and their pins released in turn (R71, R90). -/
def Device.releaseFirst (now : Time) (k count : Nat) (m : Device) : Device :=
  let gone := (m.stream k).delivery.take count
  gone.foldl (fun m d => m.releasePin now d.slot) (m.onStream k fun x => { x with delivery := x.delivery.drop count })

/-- RELEASE on the part: a stream in CLOSING may become CLOSED, and in any other state a delivery check follows (R71). -/
def Device.release (now : Time) (k q : Nat) (m : Device) : Reply :=
  let count := releaseCount (m.stream k).delivery q
  let m1 := m.releaseFirst now k count
  { part := if (m1.stream k).state = .closing then m1.closeIfEmpty k else m1.check now k, status := .ok,
    results := [word count, word (m1.stream k).delivery.length] }

/-- RELEASE (R71). -/
def execRelease (p : Head) (k q : Nat) (s : State) : Answer :=
  s.takeReply p (.release k q) fun m => m.streamCommand p k .everyState (m.release s.env.now k q)

/-- The MISSED notice of a stream on its own, where the outbox is empty (R140). -/
def Device.missedAlone (k : Nat) (m : Device) : Device := m.onStream k (·.missedAlone)

/-- CLOSE on the part (R37). -/
def Device.closeCommand (now : Time) (k : Nat) (m : Device) : Reply :=
  let x := m.stream k
  if x.state = .closing then m.accept [word x.delivery.length, wordBool false]
  else
    let m1 := ((m.onStream k (·.close now)).dropWindow now k).missedAlone k
    { part := m1.closeIfEmpty k, status := .ok, results := [word x.delivery.length, wordBool x.delivery.isEmpty] }

/-- CLOSE (R37). -/
def execCloseStream (p : Head) (k : Nat) (s : State) : Answer :=
  s.takeReply p (.closeStream k) fun m => m.streamCommand p k .everyState (m.closeCommand s.env.now k)

/-! ### HAND_OVER and TAKE_OVER -/

/-- The record of a stream handed over (R180). -/
def StreamRec.handOver (x : StreamRec) (e : Env) : StreamRec :=
  { x with state := .handover, savedS := some x.s, handoverTimer := some (e.now + e.dev.hold) }

/-- HAND_OVER on the part (R180). -/
def Device.handOver (e : Env) (k : Nat) (m : Device) : Reply :=
  let m1 := m.onStream k (·.handOver e)
  (m1.makeStateBoth k .handover).accept (wordInt (m.stream k).s :: words64 (e.now + e.dev.hold))

/-- HAND_OVER (R180). -/
def execHandOver (p : Head) (k : Nat) (s : State) : Answer :=
  s.takeReply p (.handOver k) fun m => m.streamCommand p k .cuedPlaying (m.handOver s.env k)

/-- The words of a TAKE_OVER completion: the state, the next delivery sequence number, the notices in the outbox
(R181). -/
def takeOverResults (x : StreamRec) : List Word := [word x.state.code, word x.nextSeq, word x.outbox.length]

/-- An ORPHANED stream taken over: resumed as by PLAY from CUED where RESUME is set and saved S is not 0, else CUED
(R181). -/
def StreamRec.adopt (x : StreamRec) (e : Env) (p : Head) (resume : Bool) : StreamRec :=
  let y := { x with owner := p, ownerAbsent := false, orphanTimer := none, savedS := none, passPending := true }
  let saved := x.savedS.getD 0
  if resume && decide (saved ≠ 0) then y.playFromCued e.now e.dev.preroll saved else { y with state := .cued }

/-- The end of a TAKE_OVER by a new owner: a STATE notice for its port and a delivery check (R181). -/
def Device.tookOver (e : Env) (p : Head) (k : Nat) (m : Device) : Reply :=
  { part := (m.makeState p k .takenOver).check e.now k, status := .ok, results := takeOverResults (m.stream k) }

/-- TAKE_OVER on the part (R181; the recall of R180). DESIGN CHOICE (log 21): a recall that its port was handed before
the owner's WITHDRAW and that is taken after it finds the owner absent, and orphans the stream as the lapse of an absent
owner's handover does, since R180 restores a recalled stream as at a lapse. An ORPHANED stream's delivery list is empty
(log 47). -/
def Device.takeOver (e : Env) (p : Head) (k : Nat) (resume : Bool) (m : Device) : Reply :=
  let x := m.stream k
  match x.state with
  | .handover =>
    if x.owner = p then
      let m1 := m.lapse e k
      let y := if (m.hau.head p).present then x.restore else x.orphan e
      { part := m1, status := .ok, results := takeOverResults y }
    else
      let m1 := (m.onStream k fun y => { y with owner := p, ownerAbsent := false }.restore).dropDelivery e.now k
      m1.tookOver e p k
  | .orphaned => (m.onStream k (·.adopt e p resume)).tookOver e p k
  | .closed | .cued | .playing | .closing => m.refuse .busy

/-- TAKE_OVER (R181): R19 without the owner check. -/
def execTakeOver (p : Head) (k : Nat) (resume : Bool) (s : State) : Answer :=
  s.takeReply p (.takeOver k resume) fun m =>
    if m.noStream k then m.refuse .noStream else m.takeOver s.env p k resume

end Sys2Proof.Machine
end

