-- ==== Sys2Proof/Machine/TimerEvents.lean ====
section
/-! DEFINITION. The timer expiries of channels and streams (chapters 6, 7 and 8). A timer that is unset or not yet due
does not expire (R40; log 3). -/

namespace Sys2Proof.Machine

/-- The idle timer of a channel expires: PARK is sent and the park guard set (R124). -/
def Device.idleExpired (now : Time) (c : Nat) (m : Device) : Device :=
  (m.onChannel c fun ch =>
    { ch with state := .parking, idleTimer := none, parkGuard := some (now + 30 * Config.sec) }).send c .park

/-- IDLE_TIMER_EXPIRY (R124). -/
def execIdleTimerExpiry (c : Fin 8) (s : State) : Answer :=
  if due (s.part.channel c).idleTimer s.env.now then s.event (·.idleExpired s.env.now c) else .next s

/-- PARK_GUARD_EXPIRY: the channel becomes FAULTED with PARK_TIMEOUT (R122, R125). -/
def execParkGuardExpiry (c : Fin 8) (s : State) : Answer :=
  if due (s.part.channel c).parkGuard s.env.now then s.event (·.fault c .parkTimeout) else .next s

/-- WAKE_GUARD_EXPIRY: the channel becomes FAULTED with WAKE_TIMEOUT (R122, R126). -/
def execWakeGuardExpiry (c : Fin 8) (s : State) : Answer :=
  if due (s.part.channel c).wakeGuard s.env.now then s.event (·.fault c .wakeTimeout) else .next s

/-- The request timeout of the read of record `r` on tag `t`: the tag becomes aborting, ABORT is sent, the timeout is
counted, and the read's outcome is handled (R120). The tag is aborting and not free, so the outcome alone asks
for no dispatch choice; the settlement of the abort does. DESIGN CHOICE (log 37). -/
def Device.requestTimedOut (now : Time) (c t r : Nat) (m : Device) : Device :=
  let m1 := (m.onChannel c (·.setTag t (.aborting (now + Config.sec)))).send c (.abort t)
  (m1.countTimeout c).readOutcome now r .retryable

/-- REQUEST_TIMEOUT (R120). -/
def execRequestTimeout (c : Fin 8) (t : Fin 4) (s : State) : Answer :=
  match (s.part.channel c).tag t with
  | .inFlight r _ _ _ timeout =>
    if timeout ≤ s.env.now then s.event (·.requestTimedOut s.env.now c t r) else .next s
  | _ => .next s

/-- The abort guard of a tag expires: the abort is settled and a further timeout is counted (R121). -/
def Device.abortGuardExpired (now : Time) (c t : Nat) (m : Device) : Device :=
  ((m.releaseTag c t).countTimeout c).drained now c

/-- ABORT_GUARD_EXPIRY (R121). -/
def execAbortGuardExpiry (c : Fin 8) (t : Fin 4) (s : State) : Answer :=
  match (s.part.channel c).tag t with
  | .aborting guard => if guard ≤ s.env.now then s.event (·.abortGuardExpired s.env.now c t) else .next s
  | _ => .next s

/-- The timeout of the probe of `x`: ABORT is sent and SETTLING begins; where this timeout faults the channel, tag 0 is
aborting instead (R130). -/
def Device.probeTimedOut (now : Time) (c : Nat) (x : Characterisation) (m : Device) : Device :=
  let y := { x with phase := .settling (now + Config.sec) }
  let m1 := ((m.onChannel c fun ch => { ch with char := some y }).send c (.abort 0)).countTimeout c
  if (m1.channel c).state = .faulted then m1.onChannel c (·.setTag 0 (.aborting (now + Config.sec))) else m1

/-- PROBE_TIMEOUT (R130). -/
def execProbeTimeout (c : Fin 8) (s : State) : Answer :=
  match (s.part.channel c).char with
  | some x =>
    match x.phase with
    | .probing _ _ timeout => if timeout ≤ s.env.now then s.event (·.probeTimedOut s.env.now c x) else .next s
    | _ => .next s
  | none => .next s

/-- SETTLING_GUARD_EXPIRY: a further timeout is counted and SETTLING ends (R130). -/
def execSettlingGuardExpiry (c : Fin 8) (s : State) : Answer :=
  match (s.part.channel c).char with
  | some x =>
    match x.phase with
    | .settling guard => if guard ≤ s.env.now then s.event fun m => (m.countTimeout c).settled c else .next s
    | _ => .next s
  | none => .next s

/-- RECHECK_TIMER_EXPIRY: a cause of a dispatch choice, which sets or unsets the timer afresh (R102). -/
def execRecheckTimerExpiry (c : Fin 8) (s : State) : Answer :=
  if due (s.part.channel c).recheck s.env.now then
    s.event fun m => (m.onChannel c fun ch => { ch with recheck := none }).askChoice c
  else .next s

/-- DISPLAY_EXPIRY: every head entry whose display time has been reached is given up (R136, R137). -/
def execDisplayExpiry (k : Fin 128) (s : State) : Answer :=
  if due (s.part.stream k).displayTimer s.env.now then
    s.event fun m => m.expireLoop s.env.now k (m.stream k).window.length
  else .next s

end Sys2Proof.Machine
end

