-- ==== Sys2Proof/Machine/Views.lean ====
section
/-! DEFINITION. Reads of a port's register window: the table access views (section 9.5, R158, R188), TB_LOW_READ and
TA_DATA_READ (R148), and the value that every register of section 12.5 reads as. -/

namespace Sys2Proof.Machine

/-- The number of a table access view. -/
abbrev View := Nat

/-- A view's words brought to the length of its records; words that no field takes read zero (R188). -/
def padded (n : Nat) (l : List Word) : List Word := (l ++ List.replicate n 0).take n

/-- `count` words of an absent field, the first of them word `at_` of view `view`: free values (log 14). -/
def absent (view : View) (at_ count : Nat) : List Word := (List.range' at_ count).map (Config.absentWord view)

/-- A house time that may be unset, in two words. -/
def timeWords (view : View) (at_ : Nat) : Option Time → List Word
  | some t => words64 t
  | none => absent view at_ 2

/-- A value that may be absent, in one word. -/
def optWord (view : View) (at_ : Nat) : Option Word → List Word
  | some w => [w]
  | none => absent view at_ 1

/-! ### Records -/

/-- The three words of stripe `j` of a clip record. -/
def stripeWords (stripes : List Stripe) (j : Nat) : List Word :=
  match stripes[j]? with
  | some t => word t.channel :: words64 t.base
  | none => [0, 0, 0]

/-- The clip record (R188). -/
def Clip.words (x : Clip) : List Word :=
  let locator := match x.locator with
    | .stride stripes blocks bytes => [0, word stripes.length, word blocks, word bytes, 0, 0] ++ (List.range 8).flatMap (stripeWords stripes)
    | .indexed base capacity => [1, 0, 0, 0, word base, word capacity]
  padded 48 ([word x.state.code, word x.generation, word x.definer.code, word x.frameCount, wordBool x.openEnd,
    word x.refCount] ++ locator)

/-- A MISSED notice stands at the tail of the outbox (R145). -/
def StreamRec.missedAtTail (x : StreamRec) : Bool :=
  match x.outbox.getLast? with
  | some (.missed ..) => true
  | _ => false

/-- The stream record: the fields of section 2.1 in their order, then the pass-pending flag (R55), whether the display
expiry timer is armed and whether a MISSED notice stands at the tail of the outbox (R145), and the handover and orphan
timers (chapter 11) (log 14). -/
def StreamRec.words (x : StreamRec) : List Word :=
  padded 48 ([word x.state.code, word x.owner.code, wordBool x.ownerAbsent, word x.clip, word x.generation,
    word x.inPoint, word x.outPoint, wordBool x.loop, wordBool x.openEnd] ++ wordsInt64 x.f0q ++ words64 x.t0 ++
    [wordInt x.s, wordBool (!x.lastForward)] ++ optWord 1 15 (x.savedS.map wordInt) ++
    [word x.period, word x.w, word x.c, word x.seat, wordInt x.n, wordBool x.stillDelivered,
     wordBool x.endPending.isSome, word x.nextSeq, word x.missedCount, word x.lastMissed, word x.missedTotal,
     word x.lateTotal, word x.failedTotal] ++ timeWords 1 29 x.displayTimer ++
    [wordBool x.passPending, wordBool x.displayTimer.isSome, wordBool x.missedAtTail] ++
    timeWords 1 34 x.handoverTimer ++ timeWords 1 36 x.orphanTimer)

/-- The slot record (R188). -/
def Slot.words (x : Slot) : List Word :=
  padded 152 (padded 24 ([word x.state.code, word x.clip, word x.generation, word x.frame, word x.frameBytes,
    word x.pages.length, word x.segs.length, word (x.count .unissued), word (x.count .queued), word (x.count .inFlight),
    word (x.count .done), word (x.count .withdrawn), word x.pins] ++ words64 x.due ++ [word x.seat] ++
    words64 x.unpinnedSince ++ [word ((x.cause.map Cause.code).getD 0)]) ++ x.pages.map word)

/-- The least issue time in a channel's queue and its class; NEVER and 3 for an empty queue (R54). -/
def Device.leastIssue (e : Env) (m : Device) (c : Nat) : Time × Nat :=
  let issue := ((m.ranked e c).map (·.issue)).foldl min never
  (issue, classOf e.dev e.now issue)

/-- The number of records in flight on a channel with class `cls` at dispatch (R113). -/
def Device.inFlightOf (m : Device) (c cls : Nat) : Nat := (m.inFlight c).countP fun x => decide (x.2.cls = some cls)

/-- The three words of tag `t` in the channel record: its state, and the slot and segment it carries in flight (R134). -/
def Device.tagWords (m : Device) (c at_ t : Nat) : List Word :=
  let tag := (m.channel c).tag t
  match tag with
  | .inFlight r _ _ _ _ => [word tag.code, word (m.req r).slot, word (m.req r).seg]
  | _ => word tag.code :: absent 3 (at_ + 3 * t + 1) 2

/-- The channel record: the values of R54, R113 and R134 in their order. DESIGN CHOICE (log 14): the least issue time and
its class, which R54 and R113 both list, stand once, at R54's place; the wake estimate, which two lines of R134 list,
stands at both places; the number of probes completed reads 0 while no characterisation is in progress. -/
def Device.channelWords (e : Env) (m : Device) (c : Nat) : List Word :=
  let x := m.channel c
  let least := m.leastIssue e c
  padded 96 (words64 least.1 ++ [word least.2, word (m.queue c).length] ++
    (List.range 4).map (fun i => word (m.inFlightOf c i)) ++ [wordBool x.recheck.isSome] ++ timeWords 3 9 x.recheck ++
    [word x.dispatches, word x.goodEnds, word x.retries, word x.failedMedium, word x.failedAddress, word x.failedChannel,
     word (Config.numReqs - (m.reqs.countP fun q => decide (q.2.state ≠ .free))),
     word (m.slots.countP fun n => decide (n.2.state = .filling) && decide (0 < n.2.count .unissued)),
     word x.state.code, word (phaseCode x.char), word ((x.char.map fun y => y.times.length).getD 0), wordBool x.link,
     word x.largestRead, word ((x.fault.map FaultReason.code).getD 0), word x.setup, word x.cost,
     word (x.wakeEstimate / Config.ms)] ++
    timeWords 3 28 (if x.state = .waking then some x.wakeSent else none) ++
    [word x.parkMs, word (x.wakeEstimate / Config.ms), word x.retryLimit, word x.tagLimit, word x.driftMs] ++
    (List.range Config.numTags).flatMap (m.tagWords c 35) ++
    [word x.consecutive, word x.driftRun, word x.timeouts, word x.staleEnds, word x.discardedData, word x.strays,
     word x.shortReads, word x.linkLosses, word x.wakes, word x.drifts,
     word ((x.lastOutcome.map CharOutcome.code).getD 0)] ++
    timeWords 3 58 (x.lastAverages.map (·.1)) ++ timeWords 3 60 (x.lastAverages.map (·.2)))

/-- The directory record (section 9.5). -/
def Device.directoryWords (m : Device) : List Word :=
  padded 16 ([word m.freePages.length, word m.reclaim.length] ++ optWord 4 2 (m.reclaim.head?.map word) ++
    [word m.backlog.length] ++ optWord 4 4 (m.backlogHead.map fun x => word x.stream) ++
    timeWords 4 5 (m.backlogHead.map (·.due)))

/-- The words of record `index` of a view (R158, R188). -/
def Device.viewWords (e : Env) (m : Device) (view index : Nat) : List Word :=
  match view with
  | 0 => (m.clip index).words
  | 1 => (m.stream index).words
  | 2 => (m.slot index).words
  | 3 => m.channelWords e index
  | _ => m.directoryWords

/-! ### Reads with an effect on the port -/

/-- TB_LOW_READ returns the low word of house time and latches the high word (R148). -/
def execTbLowRead (p : Head) (s : State) : Answer :=
  s.onReachable p (s.portEvent fun m =>
    (m.onPort p fun x => { x with tbHigh := word (s.env.now / 4294967296) }).emit (.registerData p (word s.env.now)))

/-- The snapshot that a read of the data register uses: a fresh one at word position 0 (R158). -/
def Device.snapshotFor (e : Env) (m : Device) (p : Head) : List Word :=
  let ta := (m.port p).ta
  if ta.word = 0 then m.viewWords e ta.select ta.index else ta.snapshot

/-- The word that a read of the data register returns (R158). -/
def Device.dataWord (e : Env) (m : Device) (p : Head) : Word := ((m.snapshotFor e p)[(m.port p).ta.word]?).getD 0

/-- The window after a read of the data register: the word position moves on; after the last word it returns to 0, and
the index rises with post-increment advance (R158). -/
def TableWindow.afterRead (x : TableWindow) (snapshot : List Word) : TableWindow :=
  if x.word + 1 < snapshot.length then { x with word := x.word + 1, snapshot }
  else { x with word := 0, snapshot := [],
                index := if x.advance then (x.index + 1) % viewRecords x.select else x.index }

/-- TA_DATA_READ (R158). -/
def execTaDataRead (p : Head) (s : State) : Answer :=
  s.onReachable p (s.portEvent fun m =>
    let snapshot := m.snapshotFor s.env p
    let value := m.dataWord s.env p
    (m.onPort p fun x => { x with ta := x.ta.afterRead snapshot }).emit (.registerData p value))

/-! ### What each register reads as -/

/-- A sum of fields, each a value at a bit. -/
def packed (fields : List (Nat × Nat)) : Word := word ((fields.map fun f => f.1 * 2 ^ f.2).sum)

/-- A yes-or-no field. -/
def flag (b : Bool) : Nat := if b then 1 else 0

/-- The IDX strap's code. -/
def IdxStrap.code : IdxStrap → Nat
  | .mib128 => 0
  | .mib256 => 1
  | .mib512 => 2

/-- The halt cause's code (section 12.5). -/
def haltCode : Option HaltCause → Nat
  | none => 0
  | some .fetchRead => 1
  | some .noticeWrite => 2

/-- PRESENCE (section 12.5). -/
def Hau.presence (h : Hau) : Word :=
  let of (p : Head) (at_ : Nat) : List (Nat × Nat) :=
    [(flag (h.head p).present, at_), ((h.head p).weight, at_ + 4), (flag (decide (h.primary = some p)), at_ + 8)]
  packed (of .a 0 ++ of .b 16 ++ [(flag h.settleTimer.isSome, 31)])

/-- PORT_STATUS (section 12.5). -/
def Port.status (x : Port) : Word :=
  packed [(flag x.halt.isSome, 0), (haltCode x.halt, 1), (flag x.mover.isSome, 3), (flag x.stall, 4), (x.places, 8),
    (x.completions.length, 16)]

/-- IDENT: part code, revision, port letter (section 12.5). -/
def identWord (p : Head) : Word := packed [(0x208, 0), (Config.revision.toNat, 16), (p.code, 24)]

/-- STRAPS (section 12.5). -/
def Straps.wordOf (t : Straps) : Word :=
  packed [(flag (decide (t.mem = .gib32)), 0), (IdxStrap.code t.idx, 1), (flag t.eightChannels, 3), (flag t.portB, 4)]

/-- The value that the 32-bit word at a register offset of port `p` reads as (R148, section 12.5); an offset that holds
no register reads zero. The low word of a 64-bit register stands at its offset. DESIGN CHOICE (log 40): an offset within
a 32-bit word, at which no word of the table stands, holds no register. -/
def State.readRegister (s : State) (p : Head) (offset : Nat) : Word :=
  let x := s.part.port p
  match offset with
  | 0x000 => identWord p
  | 0x004 => Straps.wordOf s.env.straps
  | 0x008 => word s.env.straps.poolPages
  | 0x010 => x.annNonce
  | 0x014 => word x.annWeight.toNat
  | 0x018 => s.part.hau.presence
  | 0x020 => word x.cmdRing.base
  | 0x024 => word (x.cmdRing.base / 4294967296)
  | 0x028 => word x.cmdRing.size
  | 0x02C => word x.cmdRing.producer
  | 0x030 => word x.cmdRing.consumer
  | 0x040 => word x.ntcRing.base
  | 0x044 => word (x.ntcRing.base / 4294967296)
  | 0x048 => word x.ntcRing.size
  | 0x04C => word x.ntcRing.producer
  | 0x050 => word x.ntcRing.consumer
  | 0x060 => x.ev.request.setWidth 32
  | 0x064 => x.ev.mask.setWidth 32
  | 0x068 => x.ev.level.setWidth 32
  | 0x06C => x.ev.inService.setWidth 32
  | 0x070 => Config.unstatedRead 0x070
  | 0x074 => word x.ev.coalCount
  | 0x078 => word x.ev.coalExpiryUs
  | 0x080 => word s.env.now
  | 0x084 => x.tbHigh
  | 0x090 => word x.ta.select
  | 0x094 => word x.ta.index
  | 0x098 => wordBool x.ta.advance
  | 0x09C => s.part.dataWord s.env p
  | 0x0A0 => x.status
  | 0x0A4 => word ((x.mover.map (·.remaining)).getD 0)
  | 0x0A8 => word x.discardedWrites
  | 0x0AC => word x.deniedAccesses
  | 0x0B0 => word x.lastDenied
  | 0x0B4 => word (x.lastDenied / 4294967296)
  | 0x0B8 => word x.fetched
  | 0x0C4 => word s.part.hau.headA.nonce
  | 0x0C8 => word s.part.hau.headB.nonce
  | _ => 0

end Sys2Proof.Machine
end

