-- ==== Sys2Proof/Machine/Dispatch.lean ====
section
/-! DEFINITION. The dispatch of a command to its meaning: one arm for each row of spec/opcode_table.json. -/

namespace Sys2Proof.Machine

def exec (i : Instr) (s : State) : Host.Outcome State Fault Refusal :=
  match i with
  | .hardReset straps => Sys2Proof.Machine.execHardReset straps s
  | .defineClip p args => Sys2Proof.Machine.execDefineClip p args s
  | .loadIndex p clip first count address => Sys2Proof.Machine.execLoadIndex p clip first count address s
  | .extendClip p clip count => Sys2Proof.Machine.execExtendClip p clip count s
  | .retireClip p clip generation => Sys2Proof.Machine.execRetireClip p clip generation s
  | .openStream p args => Sys2Proof.Machine.execOpenStream p args s
  | .play p stream shuttle locate => Sys2Proof.Machine.execPlay p stream shuttle locate s
  | .cue p stream locate => Sys2Proof.Machine.execCue p stream locate s
  | .jog p stream n => Sys2Proof.Machine.execJog p stream n s
  | .setRange p stream inPoint outPoint loop openEnd => Sys2Proof.Machine.execSetRange p stream inPoint outPoint loop openEnd s
  | .setWindow p stream w c seat => Sys2Proof.Machine.execSetWindow p stream w c seat s
  | .queryStream p stream => Sys2Proof.Machine.execQueryStream p stream s
  | .release p stream sequence => Sys2Proof.Machine.execRelease p stream sequence s
  | .closeStream p stream => Sys2Proof.Machine.execCloseStream p stream s
  | .handOver p stream => Sys2Proof.Machine.execHandOver p stream s
  | .takeOver p stream resume => Sys2Proof.Machine.execTakeOver p stream resume s
  | .setChannel p args => Sys2Proof.Machine.execSetChannel p args s
  | .characterise p channel s1 s2 address => Sys2Proof.Machine.execCharacterise p channel s1 s2 address s
  | .channelReset p channel => Sys2Proof.Machine.execChannelReset p channel s
  | .setDevice p args => Sys2Proof.Machine.execSetDevice p args s
  | .deviceClear p => Sys2Proof.Machine.execDeviceClear p s
  | .yieldRole p => Sys2Proof.Machine.execYieldRole p s
  | .unknownCommand p code => Sys2Proof.Machine.execUnknownCommand p code s
  | .commandFetchDone p record => Sys2Proof.Machine.execCommandFetchDone p record s
  | .fetchReadError p => Sys2Proof.Machine.execFetchReadError p s
  | .fetchReadTimeout p => Sys2Proof.Machine.execFetchReadTimeout p s
  | .indexEntryArrival p entry => Sys2Proof.Machine.execIndexEntryArrival p entry s
  | .moverReadError p => Sys2Proof.Machine.execMoverReadError p s
  | .moverReadTimeout p => Sys2Proof.Machine.execMoverReadTimeout p s
  | .noticeWriteEnd p => Sys2Proof.Machine.execNoticeWriteEnd p s
  | .noticeWriteFail p => Sys2Proof.Machine.execNoticeWriteFail p s
  | .deadlinePass => Sys2Proof.Machine.execDeadlinePass s
  | .announce p weight nonce => Sys2Proof.Machine.execAnnounce p weight nonce s
  | .withdraw p => Sys2Proof.Machine.execWithdraw p s
  | .ringBaseWrite p ring value => Sys2Proof.Machine.execRingBaseWrite p ring value s
  | .ringSizeWrite p ring value => Sys2Proof.Machine.execRingSizeWrite p ring value s
  | .cmdProducerWrite p value => Sys2Proof.Machine.execCmdProducerWrite p value s
  | .ntcConsumerWrite p value => Sys2Proof.Machine.execNtcConsumerWrite p value s
  | .evRequestWrite p value => Sys2Proof.Machine.execEvRequestWrite p value s
  | .evMaskWrite p value => Sys2Proof.Machine.execEvMaskWrite p value s
  | .evLevelWrite p value => Sys2Proof.Machine.execEvLevelWrite p value s
  | .endOfService p => Sys2Proof.Machine.execEndOfService p s
  | .coalCountWrite p value => Sys2Proof.Machine.execCoalCountWrite p value s
  | .coalExpiryWrite p value => Sys2Proof.Machine.execCoalExpiryWrite p value s
  | .tbLowRead p => Sys2Proof.Machine.execTbLowRead p s
  | .taSelectWrite p value => Sys2Proof.Machine.execTaSelectWrite p value s
  | .taIndexWrite p value => Sys2Proof.Machine.execTaIndexWrite p value s
  | .taModeWrite p value => Sys2Proof.Machine.execTaModeWrite p value s
  | .taDataRead p => Sys2Proof.Machine.execTaDataRead p s
  | .portReset p => Sys2Proof.Machine.execPortReset p s
  | .discardedWrite p => Sys2Proof.Machine.execDiscardedWrite p s
  | .portLinkLoss p => Sys2Proof.Machine.execPortLinkLoss p s
  | .stagingPageRead p offset length => Sys2Proof.Machine.execStagingPageRead p offset length s
  | .descriptorRead p offset length => Sys2Proof.Machine.execDescriptorRead p offset length s
  | .stagingWrite p offset => Sys2Proof.Machine.execStagingWrite p offset s
  | .linkUp c => Sys2Proof.Machine.execLinkUp c s
  | .channelLinkLoss c => Sys2Proof.Machine.execChannelLinkLoss c s
  | .hello c largest => Sys2Proof.Machine.execHello c largest s
  | .dataBlock c tag offset payload => Sys2Proof.Machine.execDataBlock c tag offset payload s
  | .readEnd c tag status => Sys2Proof.Machine.execReadEnd c tag status s
  | .abortDone c tag => Sys2Proof.Machine.execAbortDone c tag s
  | .parked c => Sys2Proof.Machine.execParked c s
  | .awake c => Sys2Proof.Machine.execAwake c s
  | .strayMessage c code => Sys2Proof.Machine.execStrayMessage c code s
  | .idleTimerExpiry c => Sys2Proof.Machine.execIdleTimerExpiry c s
  | .parkGuardExpiry c => Sys2Proof.Machine.execParkGuardExpiry c s
  | .wakeGuardExpiry c => Sys2Proof.Machine.execWakeGuardExpiry c s
  | .requestTimeout c t => Sys2Proof.Machine.execRequestTimeout c t s
  | .abortGuardExpiry c t => Sys2Proof.Machine.execAbortGuardExpiry c t s
  | .probeTimeout c => Sys2Proof.Machine.execProbeTimeout c s
  | .settlingGuardExpiry c => Sys2Proof.Machine.execSettlingGuardExpiry c s
  | .recheckTimerExpiry c => Sys2Proof.Machine.execRecheckTimerExpiry c s
  | .displayExpiry k => Sys2Proof.Machine.execDisplayExpiry k s
  | .holdTimerExpiry p => Sys2Proof.Machine.execHoldTimerExpiry p s
  | .settleTimerExpiry => Sys2Proof.Machine.execSettleTimerExpiry s
  | .orphanTimerExpiry k => Sys2Proof.Machine.execOrphanTimerExpiry k s
  | .handoverLapse k => Sys2Proof.Machine.execHandoverLapse k s
  | .coalescingTimerExpiry p => Sys2Proof.Machine.execCoalescingTimerExpiry p s

end Sys2Proof.Machine
end

