-- ==== Sys2Proof/Machine/Step.lean ====
section
/-! DEFINITION. One step of the FS-208: the command at the front of the queue is taken, or, with none waiting, house
time advances by one nanosecond (R40; log 1). -/

namespace Sys2Proof.Machine

/-- A tick of the Timebase: house time counts up to 2^64 − 2 and stays there (R40). DESIGN CHOICE (log 1): it is what a
step does on an empty queue. -/
def State.tick (s : State) : State := { s with env := { s.env with now := min (s.env.now + 1) maxTime } }

/-- One step: the front command on the part with the queue's rest, or a tick. -/
def step (s : State) : Host.Outcome State Fault Refusal :=
  match s.pending with
  | [] => .next s.tick
  | c :: rest => exec c { s with pending := rest }

/-- `s` with the command that a word spells put at the front of its queue; no word spells one (log 2). -/
def State.withFetchWord (s : State) (nbits w : Nat) : State :=
  match decodeTableWord nbits w with
  | some c => { s with pending := c :: s.pending }
  | none => s

end Sys2Proof.Machine
end

