-- ==== Sys2Proof/Machine/Interface.lean ====
section
/-! DEFINITION. How what stands on the part's interfaces spells the commands of the queue: a write or a read of a port's
register window by its offset and width (R148, R149, R188, section 12.5), and a message of a channel's adapter (R187). -/

namespace Sys2Proof.Machine

/-- The command that a write of ANNOUNCE spells: nonce in bits 0–31, weight in bits 32–35, higher bits ignored; WITHDRAW
where both are 0 (R149, R188). -/
def commandOfAnnounce (p : Head) (value : BitVec 64) : Instr :=
  let weight := value.extractLsb' 32 4
  let nonce := value.extractLsb' 0 32
  if weight = 0 ∧ nonce = 0 then .withdraw p else .announce p weight nonce

/-- The command that a write of `width` bytes at a register offset of port `p` spells; `value` holds the bits written.
A write that is too narrow for a register written whole, a write of a register that the head does not write, and a
write to an offset that holds no register are discarded (R148). DESIGN CHOICE (log 40): the
width of any other write plays no part, and an offset inside a register, at which no register of the table begins, holds
no register. -/
def commandOfWrite (p : Head) (offset width : Nat) (value : BitVec 64) : Instr :=
  let low : BitVec 32 := value.extractLsb' 0 32
  let whole (least : Nat) (i : Instr) : Instr := if width < least then .discardedWrite p else i
  match offset with
  | 0x010 => whole 8 (commandOfAnnounce p value)
  | 0x020 => whole 8 (.ringBaseWrite p .command value)
  | 0x028 => whole 4 (.ringSizeWrite p .command low)
  | 0x02C => .cmdProducerWrite p low
  | 0x040 => whole 8 (.ringBaseWrite p .notice value)
  | 0x048 => whole 4 (.ringSizeWrite p .notice low)
  | 0x050 => .ntcConsumerWrite p low
  | 0x060 => .evRequestWrite p low
  | 0x064 => .evMaskWrite p low
  | 0x068 => .evLevelWrite p low
  | 0x070 => .endOfService p
  | 0x074 => .coalCountWrite p low
  | 0x078 => .coalExpiryWrite p low
  | 0x090 => .taSelectWrite p low
  | 0x094 => .taIndexWrite p low
  | 0x098 => .taModeWrite p low
  | 0x0C0 => .portReset p
  | _ => .discardedWrite p

/-- The command that a read of a register spells, for the two registers whose read has an effect on the port (R148,
R158); every other read returns `State.readRegister` and changes nothing. -/
def commandOfRead (p : Head) (offset : Nat) : Option Instr :=
  match offset with
  | 0x080 => some (.tbLowRead p)
  | 0x09C => some (.taDataRead p)
  | _ => none

/-- A command comes to wait behind those that wait already. -/
def State.receive (s : State) (i : Instr) : State := { s with pending := s.pending ++ [i] }

/-- A head writes a register of its port. -/
def State.registerWritten (s : State) (p : Head) (offset width : Nat) (value : BitVec 64) : State :=
  s.receive (commandOfWrite p offset width value)

/-- A message of a channel's adapter arrives. -/
def State.messageArrives (s : State) (c : Fin 8) (bytes : List Byte) : State := s.receive (commandOfMessage c bytes)

end Sys2Proof.Machine
end

