-- ==== Sys2Proof/Safety.lean ====
section
/-! DEFINITION. What counts as a safe run of the FS-208, in the terms the statements use: answers that are next states,
and the legal values of stream records, ports, the Head Arbitration Unit, house time and the canonical tables. -/

namespace Sys2Proof.Machine

/-- An answer is a next state. The part refuses commands with a status and never stops (R154). -/
def Goes (a : Answer) : Prop := ∃ t, a = .next t

/-- Every step from a state with `I` that answers a next state leads to a state with `I`. -/
def Kept (I : State → Prop) : Prop := ∀ s t, I s → step s = .next t → I t

/-- The states of a stream in which S is 0 (R17). -/
def StreamState.stopped : StreamState → Bool
  | .closed | .cued | .orphaned | .closing => true
  | .playing | .handover => false

/-- A legal stream record: what R17, R18, R33, R35, R64, R164 and R180 say of one at the end of every event. -/
structure StreamRec.Legal (x : StreamRec) : Prop where
  /-- The outbox holds at most 12 notices (R164). -/
  outbox : x.outbox.length ≤ 12
  /-- The delivery list holds at most C entries (R64). -/
  credit : x.delivery.length ≤ x.c
  /-- C, W and seat priority stay in their ranges (section 2.1). -/
  settings : 1 ≤ x.c ∧ x.c ≤ 8 ∧ 1 ≤ x.w ∧ x.w ≤ 48 ∧ x.seat ≤ 3
  /-- The window list holds at most W entries (R64). -/
  depth : x.window.length ≤ x.w
  /-- No two window entries have one unwrapped index (R59). -/
  indices : (x.window.map (·.u)).Nodup
  /-- in ≤ out (section 2.1). -/
  range : x.inPoint ≤ x.outPoint
  /-- N of a stream without loop stands within the range (R33, R45). -/
  index : x.state ≠ .closed → x.loop = false → (x.inPoint : Int) ≤ x.n ∧ x.n ≤ x.outPoint
  /-- A CLOSED stream holds neither window nor delivery entries nor notices (R18, R64). -/
  closed : x.state = .closed → x.window = [] ∧ x.delivery = [] ∧ x.outbox = []
  /-- A stream in CLOSING has no window (R38). -/
  closing : x.state = .closing → x.window = []
  /-- S is 0 in CLOSED, CUED, ORPHANED and CLOSING (R17, R18). -/
  stopped : x.state.stopped = true → x.s = 0
  /-- In PLAYING, S is never 0 (R17). -/
  playing : x.state = .playing → x.s ≠ 0
  /-- S stays within −64 to +64 (section 2.1). -/
  factor : -64 ≤ x.s ∧ x.s ≤ 64
  /-- In HANDOVER, saved S is S (R17, R34, R180). -/
  handover : x.state = .handover → x.savedS = some x.s
  /-- In ORPHANED, saved S is present and within the range of S (R178). -/
  orphaned : x.state = .orphaned → ∃ v, x.savedS = some v ∧ -64 ≤ v ∧ v ≤ 64
  /-- Saved S is present in HANDOVER and ORPHANED only (section 2.1). -/
  saved : x.savedS ≠ none → x.state = .handover ∨ x.state = .orphaned
  /-- The handover timer runs in HANDOVER only (R180). -/
  handoverTimer : x.handoverTimer ≠ none → x.state = .handover
  /-- The orphan timer runs in ORPHANED only (R178, R179). -/
  orphanTimer : x.orphanTimer ≠ none → x.state = .orphaned

/-- Every stream record is legal. -/
def State.StreamsLegal (s : State) : Prop := ∀ k, (s.part.stream k).Legal

/-- Staging memory and the sparse tables are in their canonical form, so that equal contents are equal data. -/
def State.Canonical (s : State) : Prop :=
  s.env.mem.wf = true ∧ Table.wf Clip.reset s.part.clips = true ∧ Table.wf StreamRec.reset s.part.streams = true ∧
  Table.wf Slot.free s.part.slots = true ∧ Table.wf Request.free s.part.reqs = true ∧
  Table.wf Channel.reset s.part.channels = true

/-- A primary head is present or its hold timer is running (R174). -/
def Hau.Legal (h : Hau) : Prop := ∀ p, h.primary = some p → (h.head p).present = true ∨ (h.head p).hold ≠ none

/-- The coalescing state stays in its ranges, and the unsignalled count below the coalescing count (R170). -/
def Events.Legal (v : Events) : Prop :=
  1 ≤ v.coalCount ∧ v.coalCount ≤ 64 ∧ 50 ≤ v.coalExpiryUs ∧ v.coalExpiryUs ≤ 2000 ∧ v.unsignalled < v.coalCount

/-- The notice ring never holds more than its size, and a write in progress has a place in it (R151, R165, R166). -/
def Port.RingLegal (x : Port) : Prop :=
  (x.ntcRing.size = 0 → x.write = none) ∧
  (x.ntcRing.size ≠ 0 → x.ntcRing.count ≤ x.ntcRing.size ∧ (x.write ≠ none → x.ntcRing.count < x.ntcRing.size))

/-- A STATE queue holds at most one notice waiting to be written for each stream number, besides the one whose write is
in progress (R163). -/
def Port.StatesLegal (x : Port) : Prop :=
  ((if x.write = some .state then x.stateQueue.tail else x.stateQueue).map (·.stream)).Nodup

/-- The ports, the HAU and house time are legal: R40, R151, R153, R163, R170, R174. -/
structure State.PortsLegal (s : State) : Prop where
  /-- House time never equals NEVER (R40). -/
  time : s.env.now ≤ maxTime
  hau : s.part.hau.Legal
  events : ∀ p, (s.part.port p).ev.Legal
  ring : ∀ p, (s.part.port p).RingLegal
  /-- At most 16 completion places are taken (R153). -/
  places : ∀ p, (s.part.port p).places ≤ 16
  states : ∀ p, (s.part.port p).StatesLegal

/-- The frame pool: every page is on the free page list or in the page list of one slot, once, and a FREE slot holds
none (R78). -/
structure State.PoolLegal (s : State) : Prop where
  pages : (s.part.freePages ++ s.part.slots.flatMap fun e => e.2.pages).Perm (List.range s.env.straps.poolPages)
  free : ∀ n, (s.part.slot n).state = .free → (s.part.slot n).pages = []

/-- No two slots that are not FREE hold the same key (R75). -/
def State.KeysLegal (s : State) : Prop :=
  ∀ i j, (s.part.slot i).state ≠ .free → (s.part.slot j).state ≠ .free → (s.part.slot i).clip = (s.part.slot j).clip →
    (s.part.slot i).generation = (s.part.slot j).generation → (s.part.slot i).frame = (s.part.slot j).frame → i = j

/-- Only the ports differ between two states of the part, and what was sent outside. -/
structure Device.OnlyPorts (m m' : Device) : Prop where
  clips : m'.clips = m.clips
  streams : m'.streams = m.streams
  slots : m'.slots = m.slots
  freePages : m'.freePages = m.freePages
  reclaim : m'.reclaim = m.reclaim
  reqs : m'.reqs = m.reqs
  grants : m'.grants = m.grants
  channels : m'.channels = m.channels
  hau : m'.hau = m.hau

/-- What the port's own work at the end of an event leaves of a port: everything but the command in progress, the
completion places, the write in progress, the stall flag and the event state (R152, R165, R167, R169). -/
structure Port.Settled (x y : Port) : Prop where
  ann : y.annWeight = x.annWeight ∧ y.annNonce = x.annNonce
  rings : y.cmdRing = x.cmdRing ∧ y.ntcRing = x.ntcRing
  window : y.tbHigh = x.tbHigh ∧ y.ta = x.ta
  halt : y.halt = x.halt
  counters : y.discardedWrites = x.discardedWrites ∧ y.deniedAccesses = x.deniedAccesses ∧ y.lastDenied = x.lastDenied ∧
    y.fetched = x.fetched
  queues : y.completions = x.completions ∧ y.stateQueue = x.stateQueue
  mover : y.mover = x.mover
  coalescing : y.ev.coalCount = x.ev.coalCount ∧ y.ev.coalExpiryUs = x.ev.coalExpiryUs ∧
    y.ev.unsignalled = x.ev.unsignalled ∧ y.ev.coalTimer = x.ev.coalTimer
  masks : y.ev.mask = x.ev.mask ∧ y.ev.level = x.ev.level

/-- The fields of a stream record that the end of an event does not change: identity, range, settings, owner, saved S
and the timers of chapter 11. -/
structure StreamRec.Settled (x y : StreamRec) : Prop where
  owner : y.owner = x.owner ∧ y.ownerAbsent = x.ownerAbsent
  clip : y.clip = x.clip ∧ y.generation = x.generation
  range : y.inPoint = x.inPoint ∧ y.outPoint = x.outPoint ∧ y.loop = x.loop ∧ y.openEnd = x.openEnd
  settings : y.period = x.period ∧ y.w = x.w ∧ y.c = x.c ∧ y.seat = x.seat
  timers : y.handoverTimer = x.handoverTimer ∧ y.orphanTimer = x.orphanTimer
  missedTotal : y.missedTotal = x.missedTotal

/-- The fields of a channel that the end of an event does not change: link, estimator, settings, fault, the
characterisation and every counter but that of dispatches. -/
structure Channel.Settled (x y : Channel) : Prop where
  link : y.link = x.link ∧ y.largestRead = x.largestRead ∧ y.fault = x.fault
  estimator : y.setup = x.setup ∧ y.cost = x.cost ∧ y.wakeEstimate = x.wakeEstimate
  settings : y.parkMs = x.parkMs ∧ y.retryLimit = x.retryLimit ∧ y.tagLimit = x.tagLimit ∧ y.driftMs = x.driftMs
  counts : y.consecutive = x.consecutive ∧ y.driftRun = x.driftRun ∧ y.timeouts = x.timeouts ∧ y.staleEnds = x.staleEnds ∧
    y.discardedData = x.discardedData ∧ y.strays = x.strays ∧ y.shortReads = x.shortReads ∧
    y.linkLosses = x.linkLosses ∧ y.wakes = x.wakes ∧ y.drifts = x.drifts ∧ y.goodEnds = x.goodEnds ∧
    y.retries = x.retries ∧ y.failedMedium = x.failedMedium ∧ y.failedAddress = x.failedAddress ∧
    y.failedChannel = x.failedChannel
  char : y.char = x.char ∧ y.lastOutcome = x.lastOutcome ∧ y.lastAverages = x.lastAverages
  guard : y.parkGuard = x.parkGuard

/-- What the end of an event leaves of the part: clip records, the HAU, and the settled fields of ports, streams and
channels. -/
structure Device.Settled (m m' : Device) : Prop where
  clips : m'.clips = m.clips
  hau : m'.hau = m.hau
  port : ∀ p, (m.port p).Settled (m'.port p)
  stream : ∀ k, (m.stream k).Settled (m'.stream k)
  channel : ∀ c, (m.channel c).Settled (m'.channel c)

/-! ### The words of the statements about one command -/

/-- The answer of an event that has changed the part to `m`: the event ends (`settle`), and nothing but the part has
changed. -/
def State.ends (s : State) (m : Device) : Answer := .next { s with part := m.settle s.env }

/-- The answer of a register access that has changed the part to `m`: only the ports make something of it. -/
def State.endsPorts (s : State) (m : Device) : Answer := .next { s with part := m.settlePorts s.env.now }

/-- Port `p` has handed the record `h`, which says `cmd`, to its owning block (R152). -/
structure State.Hands (s : State) (p : Head) (h : Handed) (cmd : Command) : Prop where
  handed : (s.part.port p).progress = .handed h
  spells : h.command = cmd

/-- Head `p` may command stream `k`: the number is at most 127, the stream is not CLOSED, and head `p` owns it
(R19). -/
structure State.Owns (s : State) (p : Head) (k : Nat) : Prop where
  inRange : k ≤ 127
  live : (s.part.stream k).state ≠ .closed
  owner : (s.part.stream k).owner = p

/-- Head `p` may command stream `k`, which is CUED or PLAYING (R19, R20). -/
structure State.Moves (s : State) (p : Head) (k : Nat) : Prop where
  owns : s.Owns p k
  state : (s.part.stream k).state = .cued ∨ (s.part.stream k).state = .playing

/-- The completion of the handed record `h`, with a status and result words (R154). -/
def Handed.completion (h : Handed) (status : Status) (results : List Word) : Completion :=
  { tag := h.tag, kind := h.kind, consumer := h.consumer, status, results }

/-- The command of port `p` is no longer in progress, and a completion has joined the port's completion queue. -/
def Device.completed (m : Device) (p : Head) (x : Completion) : Device :=
  m.onPort p fun port => { port with progress := .idle, completions := port.completions ++ [x] }

end Sys2Proof.Machine

namespace Sys2Proof

open Machine

/-- The port, the stream number and the group of the commands that R19 and R20 check. -/
def Instr.onStream : Instr → Option (Head × Nat × Admission)
  | .play p k _ _ => some (p, k, .cuedPlaying)
  | .cue p k _ => some (p, k, .cuedPlaying)
  | .jog p k _ => some (p, k, .cuedOnly)
  | .setRange p k _ _ _ _ => some (p, k, .cuedPlaying)
  | .setWindow p k _ _ _ => some (p, k, .cuedPlaying)
  | .queryStream p k => some (p, k, .everyState)
  | .release p k _ => some (p, k, .everyState)
  | .closeStream p k => some (p, k, .everyState)
  | .handOver p k => some (p, k, .cuedPlaying)
  | _ => none

/-- The arguments of a STRIDE definition that R7 accepts; `n` is the number of stripes. -/
structure DefineClipArgs.StrideOk (a : DefineClipArgs) (straps : Straps) : Prop where
  kind : a.locatorKind = 0
  frames : 1 ≤ a.frameCount ∧ a.frameCount ≤ 16777215
  count : 1 ≤ a.stripeCount ∧ a.stripeCount ≤ 8
  channels : ∀ t ∈ a.stripes.take a.stripeCount, t.channel < straps.fitted
  blocks : 1 ≤ a.frameBlocks ∧ a.frameBlocks ≤ 32768
  bytes : 1 ≤ a.frameBytes ∧ a.frameBytes ≤ a.frameBlocks * 4096
  reach : ∀ t ∈ a.stripes.take a.stripeCount,
    t.base + ((a.frameCount - 1) / a.stripeCount + 1) * a.frameBlocks ≤ 281474976710656

/-- The arguments of an INDEXED definition that R7 accepts. -/
structure DefineClipArgs.IndexedOk (a : DefineClipArgs) (straps : Straps) (m : Device) : Prop where
  kind : a.locatorKind = 1
  frames : 1 ≤ a.frameCount ∧ a.frameCount ≤ 16777215
  capacity : 1 ≤ a.indexCapacity ∧ a.indexCapacity ≤ 16777215 ∧ a.frameCount ≤ a.indexCapacity
  region : a.indexBase + a.indexCapacity ≤ straps.indexEntries
  apart : ∀ k b n, (m.clip k).state ≠ .free → (m.clip k).locator = .indexed b n →
    b + n ≤ a.indexBase ∨ a.indexBase + a.indexCapacity ≤ b

/-- The locator that an accepted definition describes. -/
def DefineClipArgs.locator (a : DefineClipArgs) : Locator :=
  if a.locatorKind = 0 then .stride (a.stripes.take a.stripeCount) a.frameBlocks a.frameBytes
  else .indexed a.indexBase a.indexCapacity

/-- The port of a primary-only command (R175). -/
def Instr.primaryOnly : Instr → Option Head
  | .setChannel p _ | .characterise p .. | .channelReset p _ | .setDevice p _ | .deviceClear p | .yieldRole p => some p
  | _ => none

/-- Page `n` of the pool is admitted to head `p`: some stream owned by `p` has a delivery-list entry that names a slot
whose page list holds `n` (R159). -/
def Machine.Device.Admitted (m : Device) (p : Head) (n : Nat) : Prop :=
  ∃ k, (m.stream k).owner = p ∧ ∃ d ∈ (m.stream k).delivery, ∃ j, d.slot = some j ∧ n ∈ (m.slot j).pages

/-- The index entry passes every check of R10. -/
structure Machine.IndexEntry.Accepted (x : IndexEntry) (straps : Straps) : Prop where
  valid : x.valid = true
  count : 1 ≤ x.extentCount ∧ x.extentCount ≤ 4
  extents : ∀ t ∈ x.extents.take x.extentCount, t.channel < straps.fitted ∧ 1 ≤ t.count ∧ t.count ≤ 32768 ∧
    t.block + t.count ≤ 281474976710656
  blocks : ((x.extents.take x.extentCount).map (·.count)).sum ≤ 32768
  bytes : 1 ≤ x.frameBytes ∧ x.frameBytes ≤ ((x.extents.take x.extentCount).map (·.count)).sum * 4096

/-- The event state with a source's request flag set (R168); `i` is the source's bit (section 12.5). -/
def Machine.Events.request1 (v : Events) (i : Nat) : Events := { v with request := v.request ||| BitVec.twoPow 9 i }

/-- A port whose discarded-write count has risen by one (R148). -/
def Machine.Port.discarding (x : Port) : Port := { x with discardedWrites := (x.discardedWrites + 1) % 4294967296 }

/-- The unsignalled notices are one more: NOTICE (bit 4) is raised where they reach the coalescing count, and the
coalescing timer starts with the first (R170). -/
def Machine.Events.counting (v : Events) (now : Time) : Events :=
  if v.coalCount ≤ v.unsignalled + 1 then { v.request1 4 with unsignalled := 0, coalTimer := none }
  else { v with unsignalled := v.unsignalled + 1,
                coalTimer := if v.unsignalled = 0 then some (now + v.coalExpiryUs * 1000) else v.coalTimer }

end Sys2Proof
end

