-- ==== Sys2Proof/WellFormed.lean ====
section
/-! DEFINITION. Which terms of `Instr` spell a command of the table: every number within the width of its field
(section 12.1 and R184), records and entries of 64 bytes, DATA payloads of one block, accesses inside the 64 GiB
staging window, ANNOUNCE with a nonzero value, STRAY_MESSAGE with a code no adapter message has. -/

namespace Sys2Proof

/-- `x` fits in `bits` bits. -/
def fits (bits x : Nat) : Bool := decide (x < 2 ^ bits)

/-- `x` is a two's complement number of `bits` bits (`bits` at least 1). -/
def fitsInt (bits : Nat) (x : Int) : Bool := decide (-(2 ^ (bits - 1) : Int) ≤ x) && decide (x < 2 ^ (bits - 1))

/-- An optional field that is absent or fits. -/
def fitsOpt (bits : Nat) : Option Nat → Bool
  | none => true
  | some x => fits bits x

/-- A stripe field: 4-bit channel, 48-bit base. -/
def Stripe.wellFormed (x : Stripe) : Bool := fits 4 x.channel && fits 48 x.base

/-- DEFINE_CLIP's fields at their widths. -/
def DefineClipArgs.wellFormed (a : DefineClipArgs) : Bool :=
  fits 2 a.locatorKind && fits 4 a.stripeCount && fits 24 a.frameCount && fits 16 a.frameBlocks &&
  fits 32 a.frameBytes && fits 32 a.indexBase && fits 32 a.indexCapacity &&
  decide (a.stripes.length = 8) && a.stripes.all Stripe.wellFormed

/-- OPEN's fields at their widths. -/
def OpenArgs.wellFormed (a : OpenArgs) : Bool :=
  fits 8 a.clip && fits 8 a.generation && fits 8 a.w && fits 8 a.c && fits 8 a.seat &&
  fits 32 a.inPoint && fits 32 a.outPoint && fits 32 a.period && fits 32 a.start

/-- SET_CHANNEL's fields at their widths. -/
def SetChannelArgs.wellFormed (a : SetChannelArgs) : Bool :=
  fits 8 a.channel && fits 8 a.retryLimit && fits 8 a.tagLimit && fits 32 a.parkMs && fits 32 a.wakeMs && fits 32 a.driftMs

/-- SET_DEVICE's fields at their widths. -/
def SetDeviceArgs.wellFormed (a : SetDeviceArgs) : Bool :=
  fitsOpt 32 a.urgentUs && fitsOpt 32 a.horizonUs && fitsOpt 32 a.leadUs && fitsOpt 32 a.prerollUs &&
  fitsOpt 32 a.holdMs && fitsOpt 32 a.orphanMs

/-- The command kind codes that section 12.1 lists. -/
def listedKinds : List Nat :=
  [0x01, 0x02, 0x03, 0x04, 0x10, 0x11, 0x12, 0x13, 0x14, 0x15, 0x16, 0x17, 0x18, 0x19, 0x1A,
   0x20, 0x21, 0x22, 0x30, 0x31, 0x32]

/-- The codes of messages from an adapter (section 12.4): DATA, END, ABORT_DONE, PARKED, AWAKE, HELLO. -/
def adapterCodes : List (BitVec 8) := [0x02, 0x03, 0x05, 0x07, 0x09, 0x0A]

/-- A command record's number at its field's width. -/
def Command.wellFormed : Command → Bool
  | .defineClip a => a.wellFormed
  | .loadIndex clip first count address => fits 8 clip && fits 32 first && fits 32 count && fits 64 address
  | .extendClip clip count => fits 8 clip && fits 32 count
  | .retireClip clip generation => fits 8 clip && fits 8 generation
  | .openStream a => a.wellFormed
  | .play k x l => fits 8 k && fitsInt 8 x && fitsOpt 32 l
  | .cue k l => fits 8 k && fitsOpt 32 l
  | .jog k n => fits 8 k && fitsInt 32 n
  | .setRange k i o _ _ => fits 8 k && fits 32 i && fits 32 o
  | .setWindow k w c q => fits 8 k && fits 8 w && fits 8 c && fits 8 q
  | .queryStream k => fits 8 k
  | .release k q => fits 8 k && fits 16 q
  | .closeStream k => fits 8 k
  | .handOver k => fits 8 k
  | .takeOver k _ => fits 8 k
  | .setChannel a => a.wellFormed
  | .characterise c s1 s2 address => fits 8 c && fits 16 s1 && fits 16 s2 && fits 64 address
  | .channelReset c => fits 8 c
  | .setDevice a => a.wellFormed
  | .deviceClear => true
  | .yieldRole => true
  | .unknown code => fits 8 code && !listedKinds.contains code

/-- The command a row of a command kind takes, for those rows. -/
def Instr.command : Instr → Option Command
  | .defineClip _ a => some (.defineClip a)
  | .loadIndex _ clip first count address => some (.loadIndex clip first count address)
  | .extendClip _ clip count => some (.extendClip clip count)
  | .retireClip _ clip generation => some (.retireClip clip generation)
  | .openStream _ a => some (.openStream a)
  | .play _ k x l => some (.play k x l)
  | .cue _ k l => some (.cue k l)
  | .jog _ k n => some (.jog k n)
  | .setRange _ k i o lp oe => some (.setRange k i o lp oe)
  | .setWindow _ k w c q => some (.setWindow k w c q)
  | .queryStream _ k => some (.queryStream k)
  | .release _ k q => some (.release k q)
  | .closeStream _ k => some (.closeStream k)
  | .handOver _ k => some (.handOver k)
  | .takeOver _ k r => some (.takeOver k r)
  | .setChannel _ a => some (.setChannel a)
  | .characterise _ c s1 s2 address => some (.characterise c s1 s2 address)
  | .channelReset _ c => some (.channelReset c)
  | .setDevice _ a => some (.setDevice a)
  | .deviceClear _ => some .deviceClear
  | .yieldRole _ => some .yieldRole
  | .unknownCommand _ code => some (.unknown code)
  | .hardReset _ | .commandFetchDone .. | .fetchReadError _ | .fetchReadTimeout _ | .indexEntryArrival ..
  | .moverReadError _ | .moverReadTimeout _ | .noticeWriteEnd _ | .noticeWriteFail _ | .deadlinePass
  | .announce .. | .withdraw _ | .ringBaseWrite .. | .ringSizeWrite .. | .cmdProducerWrite ..
  | .ntcConsumerWrite .. | .evRequestWrite .. | .evMaskWrite .. | .evLevelWrite .. | .endOfService _
  | .coalCountWrite .. | .coalExpiryWrite .. | .tbLowRead _ | .taSelectWrite .. | .taIndexWrite ..
  | .taModeWrite .. | .taDataRead _ | .portReset _ | .discardedWrite _ | .portLinkLoss _
  | .stagingPageRead .. | .descriptorRead .. | .stagingWrite .. | .linkUp _ | .channelLinkLoss _ | .hello ..
  | .dataBlock .. | .readEnd .. | .abortDone .. | .parked _ | .awake _ | .strayMessage .. | .idleTimerExpiry _
  | .parkGuardExpiry _ | .wakeGuardExpiry _ | .requestTimeout .. | .abortGuardExpiry .. | .probeTimeout _
  | .settlingGuardExpiry _ | .recheckTimerExpiry _ | .displayExpiry _ | .holdTimerExpiry _ | .settleTimerExpiry
  | .orphanTimerExpiry _ | .handoverLapse _ | .coalescingTimerExpiry _ => none

/-- The operands of the rows that are not command kinds. -/
def Instr.operandsFit : Instr → Bool
  | .commandFetchDone _ record => decide (record.length = 64)
  | .indexEntryArrival _ entry => decide (entry.length = 64)
  | .dataBlock _ _ _ payload => decide (payload.length = Config.blockBytes)
  | .announce _ weight nonce => !(decide (weight = 0) && decide (nonce = 0))
  | .stagingPageRead _ offset length => decide (offset + length ≤ Config.descriptorBase)
  | .descriptorRead _ offset length => decide (offset + length ≤ Config.descriptorBase)
  | .stagingWrite _ offset => fits 36 offset
  | .strayMessage _ code => !adapterCodes.contains code
  | _ => true

/-- A term that spells a command of the table. -/
def Instr.wellFormed (i : Instr) : Bool :=
  (match i.command with
   | some cmd => cmd.wellFormed
   | none => true) && i.operandsFit

end Sys2Proof
end

