-- ==== Sys2Proof/Certificates/Slice0/Obligations.lean ====
section
/-! DEFINITION. The statements for the provers. Every statement about one command gives its answer as the part that the
command leaves, followed by the end of the event (`State.ends`, `State.endsPorts`); what the end of an event leaves
unchanged is said once, in `Obligations.EventEndFrame`. -/

open Sys2Proof Sys2Proof.Machine

/-! ### The machine -/

/-- A step takes the command at the front of the queue, on the part with the queue's rest. -/
def Obligations.StepTakesFront : Prop :=
  ∀ (c : Instr) (s : State), step { s with pending := c :: s.pending } = exec c s

/-- A step on an empty queue advances house time by one nanosecond, up to 2^64 − 2, and changes nothing else. The
model's choice (log 1); the range of house time is R40's. -/
def Obligations.IdleStepTicks : Prop :=
  ∀ s : State, s.pending = [] →
    step s = .next { s with env := { s.env with now := if s.env.now < maxTime then s.env.now + 1 else maxTime } }

/-- Every command on every state answers a next state: no event stops the part. That an event which cannot happen
leaves the state as it is, and so answers it, is the model's choice (log 3). -/
def Obligations.EveryCommandAnswersNext : Prop := ∀ (i : Instr) (s : State), Goes (exec i s)

/-- What the commands can change outside the blocks: none changes the queue; only HARD_RESET changes house time or the
straps; only SET_DEVICE from the primary head changes the device settings besides; only DEFINE_CLIP, INDEX_ENTRY_ARRIVAL
and DATA change staging memory. That house time stands still during a command (log 1), that the queue is kept by
commands (log 2) and that HARD_RESET keeps staging memory (log 6) are the model's choices. -/
def Obligations.EnvironmentFrame : Prop :=
  ∀ (i : Instr) (s t : State), exec i s = .next t →
    t.pending = s.pending ∧
    ((∀ straps, i ≠ .hardReset straps) → t.env.now = s.env.now ∧ t.env.straps = s.env.straps ∧
      (t.env.dev ≠ s.env.dev → ∃ p a, i = .setDevice p a ∧ s.part.hau.primary = some p)) ∧
    ((∀ p a, i ≠ .defineClip p a) → (∀ p e, i ≠ .indexEntryArrival p e) → (∀ c t o d, i ≠ .dataBlock c t o d) →
      t.env.mem = s.env.mem)

/-- What the end of every event leaves of the part: clip records, the HAU, and the settled fields of ports, streams
and channels (Safety.lean lists them). The ports' part of it changes nothing but the ports, each but for its command
in progress, completion places, write in progress, stall flag, request flags and in-service set. The order of the work
at the end of an event is the model's (log 10). -/
def Obligations.EventEndFrame : Prop :=
  (∀ (m : Device) (e : Env), m.Settled (m.settle e)) ∧
  ∀ (m : Device) (now : Time), m.OnlyPorts (m.settlePorts now) ∧ ∀ p, (m.port p).Settled ((m.settlePorts now).port p)

/-- HARD_RESET samples the straps and gives the whole part its hard-reset values, field by field. That the queue (log 2)
and the bytes of staging memory (log 6) are kept is the model's choice, and so are the values that the chapters do not
give: the seat priority last reported (log 13) and the wake-sent time (log 34). The agenda, the output and the head
first announced are the model's own fields (logs 7, 8 and 27). -/
def Obligations.HardReset : Prop :=
  ∀ (straps : Straps) (s : State), ∃ t, exec (.hardReset straps) s = .next t ∧
    t.pending = s.pending ∧ t.env.straps = straps ∧ t.env.now = 0 ∧ t.env.mem = s.env.mem ∧
    t.env.dev = { urgent := 20000000, horizon := 400000000, lead := 8000000, preroll := 100000000, hold := 3000000000,
                  orphan := 30000000000 } ∧
    (∀ k, t.part.clip k = { state := .free, generation := 0, definer := .a, frameCount := 0, openEnd := false,
                            refCount := 0, locator := .stride [] 0 0 }) ∧
    (∀ k, t.part.stream k =
      { state := .closed, owner := .a, ownerAbsent := false, clip := 0, generation := 0, inPoint := 0, outPoint := 0,
        loop := false, openEnd := false, f0q := 0, t0 := 0, s := 0, lastForward := true, savedS := none, period := 0,
        w := 1, c := 1, seat := 0, n := 0, stillDelivered := false, endPending := none, window := [], delivery := [],
        nextSeq := 0, missedCount := 0, lastMissed := 0, missedTotal := 0, lateTotal := 0, failedTotal := 0,
        outbox := [], passPending := false, handoverTimer := none, orphanTimer := none, seatReported := 0 }) ∧
    (∀ n, t.part.slot n =
      { state := .free, clip := 0, generation := 0, frame := 0, frameBytes := 0, pages := [], segs := [], pins := 0,
        due := never, seat := 3, unpinnedSince := never, cause := none }) ∧
    t.part.freePages = List.range (straps.memMiB - straps.idxMiB) ∧ t.part.reclaim = [] ∧
    (∀ r, t.part.req r = { state := .free, slot := 0, seg := 0, channel := 0, block := 0, count := 0, offset := 0,
                           retries := 0, seq := 0, cls := none, tag := none }) ∧ t.part.grants = 0 ∧
    (∀ c, t.part.channel c =
      { state := .offline, link := false, largestRead := 0, fault := none, setup := 8000, cost := 2000,
        wakeEstimate := 8000000000, wakeSent := 0, parkMs := 0, retryLimit := 2, tagLimit := 2, driftMs := 25,
        tags := [], consecutive := 0, driftRun := 0, timeouts := 0, staleEnds := 0, discardedData := 0, strays := 0,
        shortReads := 0, linkLosses := 0, wakes := 0, drifts := 0, dispatches := 0, goodEnds := 0, retries := 0,
        failedMedium := 0, failedAddress := 0, failedChannel := 0, idleTimer := none, parkGuard := none,
        wakeGuard := none, recheck := none, char := none, lastOutcome := none, lastAverages := none }) ∧
    (∀ p, t.part.port p =
      { annWeight := 0, annNonce := 0, cmdRing := { base := 0, size := 0, producer := 0, consumer := 0 },
        ntcRing := { base := 0, size := 0, producer := 0, consumer := 0 }, tbHigh := 0,
        ta := { select := 0, index := 0, word := 0, advance := false, snapshot := [] }, halt := none,
        discardedWrites := 0, deniedAccesses := 0, lastDenied := 0, fetched := 0, progress := .idle, places := 0,
        completions := [], mover := none, write := none, stall := false, stateQueue := [],
        ev := { request := 0, mask := 0x1FF, level := 0x3FA54, inService := 0, coalCount := 8, coalExpiryUs := 200,
                unsignalled := 0, coalTimer := none } }) ∧
    (∀ p, t.part.hau.head p = { present := false, weight := 0, nonce := 0, hold := none }) ∧
    t.part.hau.primary = none ∧ t.part.hau.settleTimer = none ∧ t.part.hau.first = none ∧
    t.part.out = [] ∧ t.part.agenda = { checks := [], choices := [], retry := false }

/-! ### Invariants that every step keeps -/

/-- Every step keeps the stream records legal. -/
def Obligations.StepKeepsStreamsLegal : Prop := Kept State.StreamsLegal

/-- Every step keeps staging memory and the sparse tables in canonical form. -/
def Obligations.StepKeepsCanonical : Prop := Kept State.Canonical

/-- Every step keeps the frame pool whole: each page is free or in one slot's page list, once. -/
def Obligations.StepKeepsPoolLegal : Prop := Kept fun s => s.Canonical ∧ s.PoolLegal

/-- Every step keeps the keys of the slots that are not FREE distinct. -/
def Obligations.StepKeepsKeysLegal : Prop := Kept State.KeysLegal

/-- Every step keeps the ports, the HAU and house time legal. -/
def Obligations.StepKeepsPortsLegal : Prop := Kept State.PortsLegal

/-- The state after reset, and the state after every HARD_RESET from a state with legal memory, is legal in all these
respects. -/
def Obligations.ResetIsLegal : Prop :=
  ∀ (s t : State) (straps : Straps), s.env.mem.wf = true →
    (t = State.reset ∨ exec (.hardReset straps) s = .next t) →
    t.StreamsLegal ∧ t.Canonical ∧ t.PoolLegal ∧ t.KeysLegal ∧ t.PortsLegal

/-! ### Clip commands -/

/-- DEFINE_CLIP: BAD_ARG for arguments that R7 rejects, NO_ROOM where no record is FREE, and otherwise the lowest FREE
record is defined; an INDEXED definition clears its run of the index region. -/
def Obligations.DefineClip : Prop :=
  ∀ (s : State) (p : Head) (h : Handed) (a : DefineClipArgs), s.Hands p h (.defineClip a) →
    Table.wf Clip.reset s.part.clips = true → a.stripes.length = 8 →
    (¬ (a.StrideOk s.env.straps ∨ a.IndexedOk s.env.straps s.part) →
      exec (.defineClip p a) s = s.ends (s.part.begin_.completed p (h.completion .badArg []))) ∧
    ((a.StrideOk s.env.straps ∨ a.IndexedOk s.env.straps s.part) → (∀ k < 256, (s.part.clip k).state ≠ .free) →
      exec (.defineClip p a) s = s.ends (s.part.begin_.completed p (h.completion .noRoom []))) ∧
    ((a.StrideOk s.env.straps ∨ a.IndexedOk s.env.straps s.part) → ∀ k < 256, (s.part.clip k).state = .free →
      (∀ j < k, (s.part.clip j).state ≠ .free) →
      let g := ((s.part.clip k).generation + 1) % 256
      let clip : Clip := { state := .defined, generation := g, definer := p, frameCount := a.frameCount,
                           openEnd := a.openEnd, refCount := 0, locator := a.locator }
      let run : Memory :=
        if a.locatorKind = 0 then s.env.mem else s.env.mem.clear (a.indexBase * 64) (a.indexCapacity * 64)
      exec (.defineClip p a) s =
        { s with env := { s.env with mem := run } }.ends
          ((s.part.begin_.setClip k clip).completed p (h.completion .ok [word k, word g])) ∧
      ∀ b, run.read b =
        if a.locatorKind ≠ 0 ∧ a.indexBase * 64 ≤ b ∧ b < (a.indexBase + a.indexCapacity) * 64 then 0
        else s.env.mem.read b)

/-- LOAD_INDEX: its refusals, and what a LOAD_INDEX that is taken starts. That the mover sends one read of head memory at
a time, of a size between one entry and all that remain, is the model's choice (log 22). -/
def Obligations.LoadIndex : Prop :=
  ∀ (s : State) (p : Head) (h : Handed) (clip first count address : Nat),
    s.Hands p h (.loadIndex clip first count address) →
    ((s.part.clip clip).state ≠ .defined →
      exec (.loadIndex p clip first count address) s = s.ends (s.part.begin_.completed p (h.completion .noClip []))) ∧
    ((s.part.clip clip).state = .defined → ∀ stripes blocks bytes,
      (s.part.clip clip).locator = .stride stripes blocks bytes →
      exec (.loadIndex p clip first count address) s = s.ends (s.part.begin_.completed p (h.completion .badArg []))) ∧
    ((s.part.clip clip).state = .defined → ∀ base capacity,
      (s.part.clip clip).locator = .indexed base capacity →
      (count = 0 ∨ capacity < first + count ∨ address % 64 ≠ 0 →
        exec (.loadIndex p clip first count address) s = s.ends (s.part.begin_.completed p (h.completion .badArg []))) ∧
      (count ≠ 0 → first + count ≤ capacity → address % 64 = 0 → ∃ entries, 1 ≤ entries ∧ entries ≤ count ∧
        exec (.loadIndex p clip first count address) s =
          s.ends ((s.part.begin_.setPort p
            { s.part.port p with
                progress := .loading,
                mover := some { address, remaining := count, inRead := entries, since := s.env.now, clip,
                                generation := (s.part.clip clip).generation, frame := first, stored := 0, invalid := 0,
                                skipped := 0, tag := h.tag, consumer := h.consumer } }).emit
            (.indexRead p address entries))))

/-- EXTEND_CLIP: its refusals, and the new frame count of one that is taken, with the streams that follow it. -/
def Obligations.ExtendClip : Prop :=
  ∀ (s : State) (p : Head) (h : Handed) (clip count : Nat), s.Hands p h (.extendClip clip count) →
    ((s.part.clip clip).state ≠ .defined →
      exec (.extendClip p clip count) s = s.ends (s.part.begin_.completed p (h.completion .noClip []))) ∧
    ((s.part.clip clip).state = .defined →
      ((s.part.clip clip).openEnd = false ∨ count ≤ (s.part.clip clip).frameCount ∨
        (∃ base capacity, (s.part.clip clip).locator = .indexed base capacity ∧ capacity < count) ∨
        (∃ stripes blocks bytes, (s.part.clip clip).locator = .stride stripes blocks bytes ∧
          (16777215 < count ∨
            ∃ t ∈ stripes, 281474976710656 < t.base + ((count - 1) / stripes.length + 1) * blocks))) →
      exec (.extendClip p clip count) s = s.ends (s.part.begin_.completed p (h.completion .badArg []))) ∧
    ((s.part.clip clip).state = .defined → (s.part.clip clip).openEnd = true → (s.part.clip clip).frameCount < count →
      (∀ base capacity, (s.part.clip clip).locator = .indexed base capacity → count ≤ capacity) →
      (∀ stripes blocks bytes, (s.part.clip clip).locator = .stride stripes blocks bytes →
        count ≤ 16777215 ∧ ∀ t ∈ stripes, t.base + ((count - 1) / stripes.length + 1) * blocks ≤ 281474976710656) →
      Table.wf StreamRec.reset s.part.streams = true →
      ∃ (m : Device) (moved : Nat),
        exec (.extendClip p clip count) s = s.ends (m.completed p (h.completion .ok [word count, word moved])) ∧
        m.clip clip = { s.part.clip clip with frameCount := count } ∧ (∀ j, j ≠ clip → m.clip j = s.part.clip j) ∧
        (∀ k, m.stream k =
          if (s.part.stream k).follows clip (s.part.clip clip).generation (s.part.clip clip).frameCount
          then { s.part.stream k with outPoint := count - 1, passPending := true } else s.part.stream k) ∧
        moved = s.part.streams.countP (fun e =>
          e.2.follows clip (s.part.clip clip).generation (s.part.clip clip).frameCount) ∧
        m = { s.part.begin_ with clips := m.clips, streams := m.streams })

/-- RETIRE_CLIP: its refusals in their order, a command on a clip already RETIRING, and the two ways in which one that
is taken moves the clip. -/
def Obligations.RetireClip : Prop :=
  ∀ (s : State) (p : Head) (h : Handed) (clip g : Nat), s.Hands p h (.retireClip clip g) →
    ((s.part.clip clip).state = .free →
      exec (.retireClip p clip g) s = s.ends (s.part.begin_.completed p (h.completion .noClip []))) ∧
    ((s.part.clip clip).state ≠ .free → (s.part.clip clip).generation ≠ g →
      exec (.retireClip p clip g) s = s.ends (s.part.begin_.completed p (h.completion .stale []))) ∧
    ((s.part.clip clip).state ≠ .free → (s.part.clip clip).generation = g →
      (s.part.clip clip).definer ≠ p → s.part.hau.primary ≠ some p →
      exec (.retireClip p clip g) s = s.ends (s.part.begin_.completed p (h.completion .notOwner []))) ∧
    ((s.part.clip clip).generation = g → ((s.part.clip clip).definer = p ∨ s.part.hau.primary = some p) →
      ((s.part.clip clip).state = .retiring →
        exec (.retireClip p clip g) s = s.ends (s.part.begin_.completed p
          (h.completion .ok [word (s.part.clip clip).refCount, 0]))) ∧
      ((s.part.clip clip).state = .defined → (s.part.clip clip).refCount ≠ 0 →
        exec (.retireClip p clip g) s = s.ends ((s.part.begin_.setClip clip
          { s.part.clip clip with state := .retiring }).completed p
          (h.completion .ok [word (s.part.clip clip).refCount, 0]))) ∧
      ((s.part.clip clip).state = .defined → (s.part.clip clip).refCount = 0 →
        exec (.retireClip p clip g) s = s.ends (((s.part.begin_.setClip clip
          { s.part.clip clip with state := .retiring }).retire clip).completed p (h.completion .ok [0, 1]))))

/-- Retirement: the record becomes FREE keeping its generation, every STAGED slot of the clip and generation is freed
and no other slot changes, and a LOAD_INDEX on the clip and generation ends with NO_CLIP and its counts. That the
transfer ends at this event is the model's choice (log 18); the order in which the slots are freed, which is the model's
choice too (log 10), plays no part here. -/
def Obligations.Retirement : Prop :=
  ∀ (m : Device) (clip : Nat), Table.wf Slot.free m.slots = true →
    (m.retire clip).clip clip = Clip.freeWith (m.clip clip).generation ∧
    (∀ j, j ≠ clip → (m.retire clip).clip j = m.clip j) ∧
    (∀ n, (m.retire clip).slot n =
      if (m.slot n).state = .staged ∧ (m.slot n).clip = clip ∧ (m.slot n).generation = (m.clip clip).generation
      then Slot.free else m.slot n) ∧
    (∀ p v, (m.port p).mover = some v → v.clip = clip → v.generation = (m.clip clip).generation →
      ((m.retire clip).port p).mover = none ∧ ((m.retire clip).port p).progress = .idle ∧
      ((m.retire clip).port p).completions = (m.port p).completions ++
        [{ tag := v.tag, kind := 0x02, consumer := v.consumer, status := .noClip,
           results := [word v.stored, word v.invalid, word v.skipped] }]) ∧
    (∀ p, ((m.port p).mover = none ∨
        ∃ v, (m.port p).mover = some v ∧ (v.clip ≠ clip ∨ v.generation ≠ (m.clip clip).generation)) →
      (m.retire clip).port p = m.port p) ∧
    (m.retire clip).streams = m.streams ∧ (m.retire clip).channels = m.channels ∧ (m.retire clip).reqs = m.reqs

/-! ### Stream commands -/

/-- The refusals of the nine stream commands that R19 and the table of R20 check: NO_STREAM, NOT_OWNER, BUSY. -/
def Obligations.StreamCommandRefused : Prop :=
  ∀ (s : State) (p : Head) (h : Handed) (i : Instr) (k : Nat) (g : Admission), i.onStream = some (p, k, g) →
    i.command = some h.command → (s.part.port p).progress = .handed h →
    ((127 < k ∨ (s.part.stream k).state = .closed) →
      exec i s = s.ends (s.part.begin_.completed p (h.completion .noStream []))) ∧
    (k ≤ 127 → (s.part.stream k).state ≠ .closed → (s.part.stream k).owner ≠ p →
      exec i s = s.ends (s.part.begin_.completed p (h.completion .notOwner []))) ∧
    (s.Owns p k → (g = .cuedPlaying ∧ (s.part.stream k).state ≠ .cued ∧ (s.part.stream k).state ≠ .playing ∨
        g = .cuedOnly ∧ (s.part.stream k).state ≠ .cued) →
      exec i s = s.ends (s.part.begin_.completed p (h.completion .busy [])))

/-- OPEN: its refusals in their order, and the record that one that is taken sets up in the lowest CLOSED record. The
pass-pending flag and the totals start as R55 and R147 give; that the seat priority last reported starts at the new
seat priority is the model's choice (log 13). -/
def Obligations.OpenStream : Prop :=
  ∀ (s : State) (p : Head) (h : Handed) (a : OpenArgs), s.Hands p h (.openStream a) →
    let clip := s.part.clip a.clip
    let out := min a.outPoint (clip.frameCount - 1)
    let refused (status : Status) : Prop :=
      exec (.openStream p a) s = s.ends (s.part.begin_.completed p (h.completion status []))
    (clip.state ≠ .defined → refused .noClip) ∧
    (clip.state = .defined → clip.generation ≠ a.generation → refused .stale) ∧
    (clip.state = .defined → clip.generation = a.generation →
      (a.period < 1000000 ∨ 1000000000 < a.period ∨ out < a.inPoint) → refused .badArg) ∧
    (clip.state = .defined → clip.generation = a.generation → 1000000 ≤ a.period → a.period ≤ 1000000000 →
      a.inPoint ≤ out →
      ((∀ k < 128, (s.part.stream k).state ≠ .closed) → refused .noRoom) ∧
      (∀ k < 128, (s.part.stream k).state = .closed → (∀ j < k, (s.part.stream j).state ≠ .closed) →
        let n := max a.inPoint (min a.start out)
        let x : StreamRec :=
          { state := .cued, owner := p, ownerAbsent := false, clip := a.clip, generation := a.generation,
            inPoint := a.inPoint, outPoint := out, loop := a.loop, openEnd := a.openEnd, f0q := n * 65536,
            t0 := s.env.now, s := 0, lastForward := true, savedS := none, period := a.period,
            w := max 1 (min a.w 48), c := max 1 (min a.c 8), seat := min a.seat 3, n := n, stillDelivered := false,
            endPending := none, window := [], delivery := [], nextSeq := 0, missedCount := 0, lastMissed := 0,
            missedTotal := 0, lateTotal := 0, failedTotal := 0, outbox := [], passPending := true,
            handoverTimer := none, orphanTimer := none, seatReported := min a.seat 3 }
        exec (.openStream p a) s = s.ends (((s.part.begin_.setClip a.clip
          { clip with refCount := clip.refCount + 1 }).setStream k x).completed p
            (h.completion .ok [word k, word out, word n, word x.w, word x.c, word x.seat]))))

/-- PLAY with a locate frame and a clamped S that is not 0: the stream is placed at the frame with a preroll, and its
window is dropped where it was PLAYING in the other direction. That the completion's words are those before the event's
delivery check, and their layout, are the model's choice (logs 30 and 15). -/
def Obligations.PlayLocated : Prop :=
  ∀ (s : State) (p : Head) (h : Handed) (k : Nat) (shuttle : Int) (frame : Nat),
    s.Hands p h (.play k shuttle (some frame)) → s.Moves p k →
    let v := max (-64) (min shuttle 64)
    v ≠ 0 →
    let x := s.part.stream k
    let f := max x.inPoint (min frame x.outPoint)
    let y := { x with n := f, f0q := (f : Int) * 65536, t0 := s.env.now + s.env.dev.preroll, s := v,
                      lastForward := decide (0 < v), stillDelivered := false, state := .playing, passPending := true }
    let m := s.part.begin_.setStream k y
    let m1 := if x.state = .playing ∧ v.sign ≠ x.s.sign then m.dropWindow s.env.now k else m
    exec (.play p k shuttle (some frame)) s =
      s.ends ((m1.check s.env.now k).completed p
        (h.completion .ok ([wordInt v, word y.frameN] ++ words64 (s.env.now + s.env.dev.preroll))))

/-- PLAY without a locate frame on a CUED stream, with a clamped S that is not 0: from a still frame that was delivered
N moves one step, which may end the range at once. That the completion's words are those before the event's delivery
check, and their layout, are the model's choice (logs 30 and 15). -/
def Obligations.PlayFromCued : Prop :=
  ∀ (s : State) (p : Head) (h : Handed) (k : Nat) (shuttle : Int), s.Hands p h (.play k shuttle none) →
    s.Owns p k → (s.part.stream k).state = .cued →
    let v := max (-64) (min shuttle 64)
    v ≠ 0 →
    let x := s.part.stream k
    let stride : Nat := if v.natAbs < 16 then 1 else v.natAbs / 8
    let n := if x.stillDelivered then x.n + stride * v.sign else x.n
    let moved := { x with n := n, f0q := x.n * 65536, t0 := s.env.now + s.env.dev.preroll, s := v,
                          lastForward := decide (0 < v), stillDelivered := false, state := .playing,
                          passPending := true }
    let past (bound : Nat) : StreamRec :=
      { moved with state := .cued, n := bound, f0q := (bound : Int) * 65536, t0 := s.env.now, s := 0,
                   stillDelivered := true }.queueEnd bound
    let y := if x.stillDelivered = false ∨ x.loop = true then moved
      else if 0 < v ∧ (x.outPoint : Int) < n then past x.outPoint
      else if v < 0 ∧ n < x.inPoint then past x.inPoint
      else moved
    exec (.play p k shuttle none) s =
      s.ends (((s.part.begin_.setStream k y).check s.env.now k).completed p
        (h.completion .ok ([wordInt y.s, word y.frameN] ++ words64 y.t0)))

/-- PLAY without a locate frame on a PLAYING stream, with a clamped S that is not 0: in the same direction only the rate
changes; in the other, N becomes the first frame ahead of the playhead and the window is dropped. That the completion's
words are those before the event's delivery check, and their layout, are the model's choice (logs 30 and 15). -/
def Obligations.PlayOnPlaying : Prop :=
  ∀ (s : State) (p : Head) (h : Handed) (k : Nat) (shuttle : Int), s.Hands p h (.play k shuttle none) →
    s.Owns p k → (s.part.stream k).state = .playing →
    let v := max (-64) (min shuttle 64)
    v ≠ 0 →
    let x := s.part.stream k
    let pos := x.playhead s.env.now
    let y := { x with f0q := pos, t0 := max s.env.now x.t0, s := v, lastForward := decide (0 < v),
                      stillDelivered := false, passPending := true }
    let words (z : StreamRec) : List Word := [wordInt v, word z.frameN] ++ words64 (max s.env.now x.t0)
    (v.sign = x.s.sign →
      exec (.play p k shuttle none) s =
        s.ends (((s.part.begin_.setStream k y).check s.env.now k).completed p (h.completion .ok (words y)))) ∧
    (v.sign ≠ x.s.sign →
      let u := if 0 < v then -(-pos / 65536) else pos / 65536
      let z := { y with n := if x.loop then u else max (x.inPoint : Int) (min u x.outPoint) }
      exec (.play p k shuttle none) s =
        s.ends ((((s.part.begin_.setStream k z).dropWindow s.env.now k).check s.env.now k).completed p
          (h.completion .ok (words z))))

/-- CUE, and PLAY with a clamped S of 0: the stream stops at the locate frame, or on the frame under the playhead. -/
def Obligations.CueStops : Prop :=
  ∀ (s : State) (p : Head) (h : Handed) (i : Instr) (k : Nat) (locate : Option Nat),
    (i = .cue p k locate ∨ ∃ shuttle, i = .play p k shuttle locate ∧ max (-64) (min shuttle 64) = 0) →
    i.command = some h.command → (s.part.port p).progress = .handed h → s.Moves p k →
    let x := s.part.stream k
    let pos := x.playhead s.env.now
    let under := pos / 65536
    let m := x.mapFrame under
    let place : Int × Int := match locate with
      | some frame =>
        let f : Int := (max x.inPoint (min frame x.outPoint) : Nat)
        (f, f * 65536)
      | none => (m, if x.loop then pos - (under - m) * 65536 else if m = under then pos else m * 65536)
    let y := { x with n := place.1, f0q := place.2, t0 := s.env.now, s := 0, state := .cued, passPending := true,
                      stillDelivered := decide (x.state = .cued) && x.stillDelivered && decide (place.1 = x.n) }
    exec i s = s.ends (((s.part.begin_.setStream k y).check s.env.now k).completed p
      (h.completion .ok [word y.frameN]))

/-- JOG on a CUED stream. -/
def Obligations.JogMoves : Prop :=
  ∀ (s : State) (p : Head) (h : Handed) (k : Nat) (n : Int), s.Hands p h (.jog k n) → s.Owns p k →
    (s.part.stream k).state = .cued →
    let x := s.part.stream k
    let f := if x.inRange (x.n + n) then x.n + n
      else if x.loop then x.inPoint + (x.n + n - x.inPoint) % ((x.outPoint : Int) - x.inPoint + 1)
      else max (x.inPoint : Int) (min (x.n + n) x.outPoint)
    let y := { x with n := f, f0q := f * 65536, t0 := s.env.now, stillDelivered := false, passPending := true,
                      lastForward := if n = 0 then x.lastForward else decide (0 < n) }
    exec (.jog p k n) s = s.ends (((s.part.begin_.setStream k y).check s.env.now k).completed p
      (h.completion .ok [word y.frameN]))

/-- SET_RANGE on a CUED or PLAYING stream: BAD_ARG for an in-point beyond the clamped out-point, else the new range with
the stream placed in it and its window dropped. -/
def Obligations.SetRangePlaces : Prop :=
  ∀ (s : State) (p : Head) (h : Handed) (k i o : Nat) (loop openEnd : Bool), s.Hands p h (.setRange k i o loop openEnd) →
    s.Moves p k →
    let x := s.part.stream k
    let out := min o ((s.part.clip x.clip).frameCount - 1)
    (out < i → exec (.setRange p k i o loop openEnd) s =
      s.ends (s.part.begin_.completed p (h.completion .badArg []))) ∧
    (i ≤ out →
      let f := x.mapFrame x.n
      let y := { x with f0q := x.playhead s.env.now, t0 := max s.env.now x.t0, inPoint := i, outPoint := out,
                        loop := loop, openEnd := openEnd, passPending := true }
      let z := if (i : Int) ≤ f ∧ f ≤ out then { y with n := f, f0q := x.playhead s.env.now + (f - x.n) * 65536 }
        else
          let m := if loop then i + (f - i) % ((out : Int) - i + 1) else max (i : Int) (min f out)
          { y with n := m, f0q := m * 65536, stillDelivered := false,
                   t0 := if x.state = .playing then s.env.now + s.env.dev.preroll else s.env.now }
      exec (.setRange p k i o loop openEnd) s =
        s.ends ((((s.part.begin_.setStream k z).dropWindow s.env.now k).check s.env.now k).completed p
          (h.completion .ok [word i, word out, word z.frameN])))

/-- SET_WINDOW on a CUED or PLAYING stream: the three values in force, and the entries beyond the new depth dropped. -/
def Obligations.SetWindowInForce : Prop :=
  ∀ (s : State) (p : Head) (h : Handed) (k w c q : Nat), s.Hands p h (.setWindow k w c q) → s.Moves p k →
    let x := s.part.stream k
    let y := { x with w := max 1 (min w 48), c := max (max 1 (min c 8)) x.delivery.length, seat := min q 3,
                      passPending := true }
    exec (.setWindow p k w c q) s =
      s.ends ((((s.part.begin_.setStream k y).dropEntries s.env.now k
        (fun e => (x.window.take y.w).any fun g => decide (g.u = e.u))).check s.env.now k).completed p
          (h.completion .ok [word y.w, word y.c, word y.seat]))

/-- QUERY_STREAM returns the stream's values to its owner in every state but CLOSED and changes nothing else. -/
def Obligations.QueryStream : Prop :=
  ∀ (s : State) (p : Head) (h : Handed) (k : Nat), s.Hands p h (.queryStream k) → s.Owns p k →
    let x := s.part.stream k
    exec (.queryStream p k) s = s.ends (s.part.begin_.completed p (h.completion .ok
      [word (match x.state with
         | .closed => 0 | .cued => 1 | .playing => 2 | .handover => 3 | .orphaned => 4 | .closing => 5),
       wordBool x.ownerAbsent, wordInt (match x.savedS with | some v => v | none => x.s),
       word (x.mapFrame (x.playhead s.env.now / 65536)).toNat, word (x.mapFrame x.n).toNat, word x.window.length,
       word (x.window.countP fun w => decide (w.state = .staged)), word x.delivery.length, word x.nextSeq,
       word x.missedCount, word x.outbox.length]))

/-- CLOSE: a stream already in CLOSING is left as it is; any other stops, loses its window and enters CLOSING, and
becomes CLOSED at once where its delivery list is empty. -/
def Obligations.CloseStream : Prop :=
  ∀ (s : State) (p : Head) (h : Handed) (k : Nat), s.Hands p h (.closeStream k) → s.Owns p k →
    let x := s.part.stream k
    (x.state = .closing → exec (.closeStream p k) s = s.ends (s.part.begin_.completed p
      (h.completion .ok [word x.delivery.length, 0]))) ∧
    (x.state ≠ .closing →
      let y := { x with f0q := x.playhead s.env.now, t0 := max s.env.now x.t0, s := 0, savedS := none,
                        handoverTimer := none, orphanTimer := none, state := .closing }
      let m := ((s.part.begin_.setStream k y).dropWindow s.env.now k).missedAlone k
      (x.delivery ≠ [] → exec (.closeStream p k) s = s.ends (m.completed p
        (h.completion .ok [word x.delivery.length, 0]))) ∧
      (x.delivery = [] → exec (.closeStream p k) s = s.ends ((m.closeStream k).completed p
        (h.completion .ok [0, 1]))))

/-- What a stream is left with when it becomes CLOSED: the record of R18, its clip's reference count lower by one, and a
clip in RETIRING whose count falls to 0 retired. -/
def Obligations.StreamBecomesClosed : Prop :=
  ∀ (m : Device) (k : Nat),
    let x := m.stream k
    let clip := m.clip x.clip
    (m.closeStream k).stream k =
      { x with state := .closed, s := 0, f0q := 0, t0 := 0, n := 0, savedS := none, stillDelivered := false,
               endPending := none, ownerAbsent := false, loop := false, openEnd := false, lastForward := true,
               missedCount := 0, nextSeq := 0, handoverTimer := none, orphanTimer := none, window := [],
               delivery := [], outbox := [] } ∧
    (∀ j, j ≠ k → (m.closeStream k).stream j = m.stream j) ∧
    (∀ j, j ≠ x.clip → (m.closeStream k).clip j = m.clip j) ∧
    (m.closeStream k).clip x.clip =
      if clip.state = .retiring ∧ clip.refCount - 1 = 0 then Clip.freeWith clip.generation
      else { clip with refCount := clip.refCount - 1 }

/-- What the transport commands, SET_WINDOW and QUERY_STREAM leave unchanged when they answer a next state: clip records,
the HAU, the other head's port but for its own work, every other stream but for its own progress, and the settled fields
of every channel. -/
def Obligations.TransportFrame : Prop :=
  ∀ (s t : State) (i : Instr) (p : Head) (k : Nat) (g : Admission), i.onStream = some (p, k, g) →
    (∀ q, i ≠ .release p k q) → i ≠ .closeStream p k → i ≠ .handOver p k → exec i s = .next t →
    t.env = s.env ∧ t.part.clips = s.part.clips ∧ t.part.hau = s.part.hau ∧
    (s.part.port p.other).Settled (t.part.port p.other) ∧ (∀ j, j ≠ k → (s.part.stream j).Settled (t.part.stream j)) ∧
    (∀ c, (s.part.channel c).Settled (t.part.channel c))

/-- RELEASE: which entries of the delivery list it removes (R71), and the answer; a stream in CLOSING whose list empties
becomes CLOSED. -/
def Obligations.ReleaseRemoves : Prop :=
  ∀ (s : State) (p : Head) (h : Handed) (k q : Nat), s.Hands p h (.release k q) → s.Owns p k →
    let x := s.part.stream k
    let len := x.delivery.length
    ∃ count ≤ len, (x.delivery = [] → count = 0) ∧
      (∀ o n, x.delivery.head? = some o → x.delivery.getLast? = some n →
        let behind := (((q : Int) - o.seq) % 65536).toNat
        let ahead := (((q : Int) - n.seq) % 65536).toNat
        count = if behind < len then behind + 1 else if 1 ≤ ahead ∧ ahead ≤ 32767 then len else 0) ∧
      let m := (x.delivery.take count).foldl (fun m d => m.releasePin s.env.now d.slot)
        (s.part.begin_.setStream k { x with delivery := x.delivery.drop count })
      let done := h.completion .ok [word count, word (len - count)]
      (x.state ≠ .closing → exec (.release p k q) s = s.ends ((m.check s.env.now k).completed p done)) ∧
      (x.state = .closing → count < len → exec (.release p k q) s = s.ends (m.completed p done)) ∧
      (x.state = .closing → count = len → exec (.release p k q) s = s.ends ((m.closeStream k).completed p done))

/-- HAND_OVER on a CUED or PLAYING stream: it enters HANDOVER with its transport as it is, and both ports are told.
TAKE_OVER: its refusals; the recall by the owner, which orphans the stream of an owner that is absent; the change of
owner of a stream in HANDOVER; and the adoption of an ORPHANED stream, resumed or cued. Which STATE notices a recall
makes and that one taken after the owner's WITHDRAW orphans the stream (log 21), that the completion's words are those
before the event's delivery check (log 30), and that a stream that is orphaned loses what its delivery list holds and is
left with owner-absent set (log 47) are the model's choices. -/
def Obligations.HandOverTakeOver : Prop :=
  (∀ (s : State) (p : Head) (h : Handed) (k : Nat), s.Hands p h (.handOver k) → s.Moves p k →
    let x := s.part.stream k
    let expiry := s.env.now + s.env.dev.hold
    exec (.handOver p k) s =
      s.ends (((s.part.begin_.setStream k
        { x with state := .handover, savedS := some x.s, handoverTimer := some expiry }).makeStateBoth k .handover).completed
          p (h.completion .ok (wordInt x.s :: words64 expiry)))) ∧
  ∀ (s : State) (p : Head) (h : Handed) (k : Nat) (resume : Bool), s.Hands p h (.takeOver k resume) →
    let x := s.part.stream k
    let now := s.env.now
    let refused (status : Status) : Prop :=
      exec (.takeOver p k resume) s = s.ends (s.part.begin_.completed p (h.completion status []))
    let words (code : Nat) : List Word := [word code, word x.nextSeq, word x.outbox.length]
    ((127 < k ∨ x.state = .closed) → refused .noStream) ∧
    (k ≤ 127 → x.state = .cued ∨ x.state = .playing ∨ x.state = .closing → refused .busy) ∧
    (k ≤ 127 → x.state = .handover → x.owner = p → (s.part.hau.head p).present = true →
      let y := { x with state := if x.savedS = some 0 then .cued else .playing, savedS := none, handoverTimer := none,
                        passPending := true }
      exec (.takeOver p k resume) s =
        s.ends ((((s.part.begin_.setStream k y).makeStateBoth k .lapsed).check now k).completed p
          (h.completion .ok (words (if x.savedS = some 0 then 1 else 2))))) ∧
    (k ≤ 127 → x.state = .handover → x.owner = p → (s.part.hau.head p).present = false →
      let y := { x.cue now none with
        state := .orphaned, ownerAbsent := true, delivery := [], stillDelivered := false, savedS := x.savedS,
        handoverTimer := none,
        orphanTimer := if s.env.dev.orphan = 0 then none else some (now + s.env.dev.orphan) }
      exec (.takeOver p k resume) s =
        s.ends ((((s.part.begin_.dropDelivery now k).setStream k y).makeStateBoth k .orphaned).completed p
          (h.completion .ok (words 4)))) ∧
    (k ≤ 127 → x.state = .handover → x.owner ≠ p →
      let y := { x with owner := p, ownerAbsent := false, state := if x.savedS = some 0 then .cued else .playing,
                        savedS := none, handoverTimer := none, passPending := true }
      exec (.takeOver p k resume) s =
        s.ends (((((s.part.begin_.setStream k y).dropDelivery now k).makeState p k .takenOver).check now k).completed p
          (h.completion .ok (words (if x.savedS = some 0 then 1 else 2))))) ∧
    (k ≤ 127 → x.state = .orphaned → resume = false ∨ x.savedS = none ∨ x.savedS = some 0 →
      let y := { x with owner := p, ownerAbsent := false, orphanTimer := none, savedS := none, passPending := true,
                        state := .cued }
      exec (.takeOver p k resume) s =
        s.ends ((((s.part.begin_.setStream k y).makeState p k .takenOver).check now k).completed p
          (h.completion .ok (words 1)))) ∧
    (k ≤ 127 → x.state = .orphaned → resume = true → ∀ v, x.savedS = some v → v ≠ 0 →
      let y := { x with owner := p, ownerAbsent := false, orphanTimer := none, savedS := none, passPending := true }
      let z := y.playFromCued now s.env.dev.preroll v
      exec (.takeOver p k resume) s =
        s.ends ((((s.part.begin_.setStream k z).makeState p k .takenOver).check now k).completed p
          (h.completion .ok [word z.state.code, word z.nextSeq, word z.outbox.length])))

/-! ### The window, delivery and misses -/

/-- The target list of a pass: at most W indices, no two equal, and all of them within the range where the stream has no
loop. The i-th is N + i strides in the direction of play, one stride further where a stream that does not run has
delivered its still frame; without loop the list stops at the last index within the range. A CLOSED or CLOSING stream
has none. -/
def Obligations.TargetsWithinWindow : Prop :=
  ∀ x : StreamRec,
    let d : Int := if x.s = 0 then (if x.lastForward = true then 1 else -1) else x.s.sign
    let stride : Nat := if x.s.natAbs < 16 then 1 else x.s.natAbs / 8
    let runs := x.state = .playing ∨ (x.state = .handover ∧ x.s ≠ 0)
    let first := if ¬ runs ∧ x.stillDelivered = true then x.n + d else x.n
    let index (i : Nat) : Int := first + i * stride * d
    x.targets.length ≤ x.w ∧ x.targets.Nodup ∧
    (x.loop = false → ∀ u ∈ x.targets, (x.inPoint : Int) ≤ u ∧ u ≤ x.outPoint) ∧
    (x.state = .closed ∨ x.state = .closing → x.targets = []) ∧
    (x.state ≠ .closed → x.state ≠ .closing → ∀ i u, x.targets[i]? = some u ↔
      i < x.w ∧ u = index i ∧ (x.loop = true ∨ ∀ j ≤ i, (x.inPoint : Int) ≤ index j ∧ index j ≤ x.outPoint))

/-- DEADLINE_PASS takes the pass of the flagged stream with the best seat priority, ties broken by the lowest number;
for a CLOSED or CLOSING stream the pass clears the flag and does nothing else. The stages of any other pass: the PAST
frames at N are given up until N is not PAST, each with its entry removed, the pin released, the miss counted and N
stepped; the window is rebuilt; the new entries are offered in window order, with one backlog retry where the event
brings one (log 36, the model's choice), and a delivery check. What one placement of a pass or of a backlog retry does
to a window entry: a live slot that holds the frame is pinned, an ABANDONED one revived; a frame without a valid
location or on a FAULTED channel takes a slot that stands for the failure; any other takes the lowest FREE record and
its pages, reclaiming from the head of the reclaim list while they lack, or stays UNPLACED; and a failing placement that
finds no FREE record reclaims for one in the same way. And the backlog: its order, and a retry, which places from its
head until one entry stays UNPLACED; that the check of an entry placed at its window head comes before the retry goes on
is the model's choice (log 45). -/
def Obligations.DeadlinePass : Prop :=
  (∀ (s : State) (k : Nat), Table.wf StreamRec.reset s.part.streams = true → (s.part.stream k).passPending = true →
    (∀ j, (s.part.stream j).passPending = true → (s.part.stream k).seat < (s.part.stream j).seat ∨
      ((s.part.stream k).seat = (s.part.stream j).seat ∧ k ≤ j)) →
    exec .deadlinePass s = s.ends (s.part.begin_.pass s.env k) ∧
    ((s.part.stream k).state = .closed ∨ (s.part.stream k).state = .closing →
      exec .deadlinePass s = s.ends (s.part.begin_.setStream k { s.part.stream k with passPending := false }))) ∧
  (∀ (m : Device) (e : Env) (k : Nat), (m.stream k).state ≠ .closed → (m.stream k).state ≠ .closing →
    let b := (m.setStream k { m.stream k with passPending := false }).pastLoop e.now k (m.stream k).pastFrames
    let y := b.stream k
    m.pass e k = (b.rebuild e k).placeAndCheck e k
      (y.targets.filter fun u => !y.window.any fun w => decide (w.u = u ∧ w.frame = y.clipFrame u))) ∧
  (∀ (m : Device) (now : Time) (k : Nat),
    let x := m.stream k
    let past (x : StreamRec) : Prop := x.s ≠ 0 ∧ (x.n * 65536 - x.f0q) * x.s.sign < 0
    let frame := (if x.loop = true then (x.inPoint : Int) + (x.n - x.inPoint) % (x.outPoint - x.inPoint + 1)
      else max (x.inPoint : Int) (min x.n x.outPoint)).toNat
    let missed (b : Device) : Device :=
      b.setStream k (((b.stream k).countMiss (m.marked k) frame).stepOn now)
    (∀ l w r, x.window = l ++ w :: r → w.u = x.n → (∀ v ∈ l ++ r, v.u ≠ x.n) →
      let b := m.setStream k { x with window := l ++ r }
      m.missPast now k = missed (match w.slot with | some n => b.unpin now n | none => b)) ∧
    ((∀ v ∈ x.window, v.u ≠ x.n) → m.missPast now k = missed m) ∧
    (¬ past x → ∀ i, m.pastLoop now k i = m) ∧
    (past x → ∀ i, m.pastLoop now k (i + 1) = (m.missPast now k).pastLoop now k i) ∧
    ¬ past ((m.pastLoop now k x.pastFrames).stream k)) ∧
  (∀ (m : Device) (e : Env) (k : Nat) (us : List Int),
    let b := us.foldl (fun b u => match b.entry k u with | some w => b.place e true k w | none => b) m
    let due := b.agenda.retry = true ∨ ∃ u ∈ us, ∃ w, b.entry k u = some w ∧ w.state = .unplaced
    let made (b : Device) : Device := { b with agenda := { b.agenda with retry := false } }
    (due → b.backlog ≠ [] →
      m.placeAndCheck e k us = made ((made (b.askRetry.retryLoop e b.backlog.length)).check e.now k)) ∧
    (¬ due ∨ b.backlog = [] → m.placeAndCheck e k us = b.check e.now k) ∧
    (m.agenda.retry = true → m.backlog ≠ [] → m.retry e = made (m.retryLoop e m.backlog.length)) ∧
    (m.agenda.retry = false ∨ m.backlog = [] → m.retry e = m)) ∧
  (∀ (m : Device) (e : Env), Table.wf StreamRec.reset m.streams = true →
    let waits (k i : Nat) (w : WinEntry) : Prop := (m.stream k).window[i]? = some w ∧ w.state = .unplaced
    let ahead (k i : Nat) (w : WinEntry) (j l : Nat) (v : WinEntry) : Prop :=
      w.due < v.due ∨ (w.due = v.due ∧ (k < j ∨ (k = j ∧ i < l)))
    (∀ x, m.backlogHead = some x ↔ ∃ w, waits x.stream x.place w ∧ w.due = x.due ∧ w.u = x.u ∧
      ∀ j l v, waits j l v → (j = x.stream ∧ l = x.place) ∨ ahead x.stream x.place w j l v) ∧
    (∀ k i w, waits k i w → ((m.stream k).window.map (·.u)).Nodup →
      (m.rankedAhead k w.u = true ↔ ∃ j l v, waits j l v ∧ ahead j l v k i w)) ∧
    (m.backlogHead = none → ∀ i, m.retryLoop e i = m) ∧
    ∀ x w, m.backlogHead = some x → waits x.stream x.place w → ((m.stream x.stream).window.map (·.u)).Nodup →
      let t := m.place e false x.stream w
      let b := if x.place = 0 then t.check e.now x.stream else t
      ((t.entry x.stream w.u).map (·.state) = some .unplaced → ∀ i, m.retryLoop e (i + 1) = t) ∧
      ((t.entry x.stream w.u).map (·.state) ≠ some .unplaced →
        (∀ i, m.retryLoop e (i + 1) = b.retryLoop e i) ∧ b.backlog.length < m.backlog.length)) ∧
  (∀ (m : Device) (e : Env) (byPass : Bool) (k : Nat) (w : WinEntry), Table.wf Slot.free m.slots = true →
    let x := m.stream k
    let t := m.place e byPass k w
    let held (n : Nat) : Prop := (m.slot n).state ≠ .free ∧ (m.slot n).clip = x.clip ∧
      (m.slot n).generation = x.generation ∧ (m.slot n).frame = w.frame
    let took (b : Device) (n : Nat) (st : EntryState) : Prop :=
      (∀ j, t.stream j = if j = k then
          { x with window := x.window.map fun v => if v.u = w.u then { v with slot := some n, state := st } else v }
        else m.stream j) ∧
      (∀ j, j ≠ n → t.slot j = b.slot j) ∧ (t.slot n).unpinnedSince = never
    let pinned (n : Nat) : Prop := (t.slot n).state = (m.slot n).state ∧ (t.slot n).segs = (m.slot n).segs ∧
      (t.slot n).pins = (m.slot n).pins + 1
    let loc := (m.clip x.clip).locate e.mem w.frame
    let faulted (c : Nat) : Prop := (m.channel c).state = .faulted
    let need (l : Location) : Nat := (l.frameBytes + 1048575) / 1048576
    (∀ n, held n → (∀ j, held j → j = n) →
      ((m.slot n).state = .filling → took m n .filling ∧ pinned n) ∧
      ((m.slot n).state = .failed → took m n .failed ∧ pinned n) ∧
      ((m.slot n).state = .staged → took m n .staged ∧ pinned n ∧
        t.reclaim = m.reclaim.filter fun j => decide (j ≠ n)) ∧
      ((m.slot n).state = .abandoned → (∃ g ∈ (m.slot n).segs, g.status = .withdrawn ∧ faulted g.channel) →
        took m n .failed ∧ (t.slot n).state = .failed ∧ (t.slot n).cause = some .channelFault ∧
        (t.slot n).segs = (m.slot n).segs ∧ (t.slot n).pins = (m.slot n).pins + 1) ∧
      ((m.slot n).state = .abandoned → (∀ g ∈ (m.slot n).segs, g.status = .withdrawn → ¬ faulted g.channel) →
        took m n .filling ∧ (t.slot n).state = .filling ∧ (t.slot n).pins = (m.slot n).pins + 1 ∧
        (t.slot n).count .withdrawn = 0 ∧ (t.slot n).count .done = (m.slot n).count .done ∧
        (t.slot n).count .inFlight = (m.slot n).count .inFlight)) ∧
    ((∀ n, ¬ held n) →
      (∀ n cause, loc = none ∧ cause = .invalidIndex ∨
          (∃ l, loc = some l ∧ (∃ g ∈ l.extents, faulted g.channel) ∧ cause = .channelFault) →
        m.freeRecord = some n →
        took m n .failed ∧ (t.slot n).state = .failed ∧ (t.slot n).cause = some cause ∧ (t.slot n).pins = 1 ∧
        (t.slot n).pages = [] ∧ (t.slot n).segs = [] ∧ t.freePages = m.freePages) ∧
      (∀ cause, loc = none ∧ cause = .invalidIndex ∨
          (∃ l, loc = some l ∧ (∃ g ∈ l.extents, faulted g.channel) ∧ cause = .channelFault) →
        m.freeRecord = none →
        (byPass = true ∧ m.rankedAhead k w.u = true → t = m) ∧
        (byPass = false ∨ m.rankedAhead k w.u = false →
          let b := m.reclaimFor 0 m.reclaim
          (∀ n, b.freeRecord = some n →
            took b n .failed ∧ (t.slot n).state = .failed ∧ (t.slot n).cause = some cause ∧ (t.slot n).pins = 1 ∧
            (t.slot n).pages = [] ∧ (t.slot n).segs = [] ∧ t.freePages = b.freePages) ∧
          (b.freeRecord = none → t = b))) ∧
      (∀ l, loc = some l → (∀ g ∈ l.extents, ¬ faulted g.channel) →
        (byPass = true ∧ m.rankedAhead k w.u = true → t = m) ∧
        (byPass = false ∨ m.rankedAhead k w.u = false →
          let b := m.reclaimFor (need l) m.reclaim
          (∀ n, b.freeRecord = some n → need l ≤ b.freePages.length →
            took b n .filling ∧ (t.slot n).state = .filling ∧ (t.slot n).pins = 1 ∧
            (t.slot n).clip = x.clip ∧ (t.slot n).generation = x.generation ∧ (t.slot n).frame = w.frame ∧
            (t.slot n).frameBytes = l.frameBytes ∧ (t.slot n).pages = b.freePages.take (need l) ∧
            t.freePages = b.freePages.drop (need l) ∧
            (t.slot n).segs.map (fun g => (g.channel, g.block, g.count, g.offset)) =
              (cutExtents 0 l.extents).map fun g => (g.channel, g.block, g.count, g.offset)) ∧
          (b.freeRecord = none ∨ b.freePages.length < need l → t = b))))) ∧
  ∀ (m : Device) (need : Nat), ∃ i ≤ m.reclaim.length,
    let freed (j : Nat) : Device := (m.reclaim.take j).foldl (fun m n => m.freeSlot n) m
    m.reclaimFor need m.reclaim = freed i ∧
    (∀ j < i, (freed j).freePages.length < need ∨ (freed j).freeRecord = none) ∧
    (i < m.reclaim.length → need ≤ (freed i).freePages.length ∧ (freed i).freeRecord ≠ none)

/-- The window that a pass leaves before its placements: one entry for each target, in play order; every entry's clip
frame, display time and due time are those of its index. An entry of the old window whose index is a target and still
maps to its clip frame keeps its state, slot and late mark; every other entry is UNPLACED. -/
def Obligations.PassRebuildsWindow : Prop :=
  ∀ (m : Device) (e : Env) (k : Nat),
    let x := m.stream k
    let y := (m.rebuild e k).stream k
    y.window.map (·.u) = x.targets ∧
    (∀ w ∈ y.window, w.display = x.entryDisplay w.u ∧
      w.due = (if w.display = never then never else w.display - e.dev.lead) ∧ w.frame = x.clipFrame w.u ∧
      ((w.state = .unplaced ∧ w.slot = none ∧ w.late = false) ∨
        ∃ v ∈ x.window, v.u = w.u ∧ v.frame = w.frame ∧ v.state = w.state ∧ v.slot = w.slot ∧ v.late = w.late)) ∧
    ((x.window.map (·.u)).Nodup → ∀ v ∈ x.window, v.u ∈ x.targets → v.frame = x.clipFrame v.u →
      ∃ w ∈ y.window, w.u = v.u ∧ w.state = v.state ∧ w.slot = v.slot ∧ w.late = v.late) ∧
    ∀ w ∈ y.window, (∀ v ∈ x.window, v.u = w.u → v.frame ≠ x.clipFrame w.u) →
      w.state = .unplaced ∧ w.slot = none ∧ w.late = false

/-- The delivery check of a stream: the conditions under which the head entry of its window is delivered; the READY or
FAILED notice of a delivery, behind a MISSED notice where one is due; the entry's move to the tail of the delivery list
under the next sequence number; and the checks that follow until no entry is delivered, with the MISSED notice that
then stands alone. A CUED stream keeps N and marks its still frame delivered. -/
def Obligations.DeliveryMovesHead : Prop :=
  (∀ x : StreamRec, x.missable = true ↔ 0 < x.missedCount ∧ x.ownerAbsent = false ∧ x.endPending = none ∧
    (x.state = .cued ∨ x.state = .playing ∨ x.state = .closing)) ∧
  (∀ (x : StreamRec) (w : WinEntry), x.deliverable = some w ↔
    (∃ l, x.window = w :: l) ∧ (x.state = .playing ∨ (x.state = .cued ∧ x.stillDelivered = false)) ∧
    x.ownerAbsent = false ∧ w.u = x.n ∧ (x.s = 0 ∨ 0 ≤ (w.u * 65536 - x.f0q) * x.s.sign) ∧
    (w.state = .staged ∨ w.state = .failed) ∧ x.delivery.length < x.c ∧ x.endPending = none ∧
    x.outbox.length + (if x.missable = true then 2 else 1) ≤ 12) ∧
  (∀ (x : StreamRec) (now : Time) (w : WinEntry) (l : List WinEntry) (y : Notice) (slot : Option Nat),
    x.window = w :: l →
    let d : StreamRec :=
      { x with outbox := x.outbox ++ (if x.missable = true then [.missed x.missedCount x.lastMissed, y] else [y]),
               missedCount := if x.missable = true then 0 else x.missedCount,
               window := l, delivery := x.delivery ++ [DelEntry.mk x.nextSeq slot],
               nextSeq := (x.nextSeq + 1) % 65536, passPending := true,
               lateTotal := if slot.isSome ∧ w.late = true then (x.lateTotal + 1) % 4294967296 else x.lateTotal,
               failedTotal := if slot = none then (x.failedTotal + 1) % 4294967296 else x.failedTotal }
    x.delivered now w y slot =
      if x.state = .playing then d.stepOn now else { d with stillDelivered := true }) ∧
  ∀ (m : Device) (now : Time) (k : Nat),
    let x := m.stream k
    (∀ w n, x.deliverable = some w → w.slot = some n →
      let display := if x.s = 0 then never else x.entryDisplay w.u
      (w.state = .staged → m.check now k = (((m.setStream k (x.delivered now w
        (.ready w.late x.clip x.generation x.nextSeq w.frame n display (m.slot n).frameBytes) (some n))).recompute n).check
          now k)) ∧
      (∀ cause, w.state = .failed → (m.slot n).cause = some cause →
        m.check now k = (((m.setStream k (x.delivered now w
          (.failed cause x.clip x.generation x.nextSeq w.frame display) none)).unpin now n).check now k))) ∧
    (x.deliverable = none → x.outbox = [] → x.missable = true →
      m.check now k = m.setStream k { x with outbox := [.missed x.missedCount x.lastMissed], missedCount := 0 }) ∧
    (x.deliverable = none → x.outbox ≠ [] ∨ x.missable = false → m.check now k = m)

/-- A step of N in PLAYING and in HANDOVER, and the end of the range where the step passes a bound of a stream without
loop, with its END notice behind a MISSED notice where one is due and there is room; a miss is counted in the missed
total, and in the missed count or in the MISSED notice at the tail of the outbox, unless that notice is being written.
That a miss taken into the notice leaves the record's last missed frame is the model's choice (log 41). -/
def Obligations.StepAndMiss : Prop :=
  (∀ (x : StreamRec) (now : Time), x.state = .playing ∨ x.state = .handover → x.s ≠ 0 →
    let n := x.n + (if x.s.natAbs < 16 then 1 else x.s.natAbs / 8 : Nat) * x.s.sign
    (x.loop = true ∨ (0 < x.s ∧ n ≤ x.outPoint) ∨ (x.s < 0 ∧ (x.inPoint : Int) ≤ n) → x.stepOn now = { x with n := n }) ∧
    (x.loop = false → ∀ bound : Nat,
      (0 < x.s ∧ (x.outPoint : Int) < n ∧ bound = x.outPoint) ∨ (x.s < 0 ∧ n < x.inPoint ∧ bound = x.inPoint) →
      let y : StreamRec :=
        { x with state := if x.state = .handover then .handover else .cued,
                 savedS := if x.state = .handover then some 0 else x.savedS, n := bound,
                 f0q := (bound : Int) * 65536, t0 := now, s := 0, stillDelivered := true, passPending := true }
      (x.endPending = none → x.outbox.length < 12 → x.missable = false ∨ x.outbox.length = 11 →
        x.stepOn now = { y with outbox := x.outbox ++ [.ended bound] }) ∧
      (x.missable = true → x.outbox.length ≤ 10 →
        x.stepOn now = { y with outbox := x.outbox ++ [.missed x.missedCount x.lastMissed, .ended bound],
                                missedCount := 0 }) ∧
      (12 ≤ x.outbox.length ∨ x.endPending ≠ none → x.stepOn now = { y with endPending := some bound }))) ∧
  ∀ (x : StreamRec) (frame : Nat),
    let y : StreamRec := { x with missedTotal := (x.missedTotal + 1) % 4294967296 }
    let counted : StreamRec := { y with missedCount := min (x.missedCount + 1) 65535, lastMissed := frame }
    ((∀ c f, x.outbox.getLast? ≠ some (.missed c f)) → ∀ marked, x.countMiss marked frame = counted) ∧
    (∀ l c f, x.outbox = l ++ [.missed c f] →
      x.countMiss false frame = { y with outbox := l ++ [.missed (min (c + 1) 65535) frame] } ∧
      (l ≠ [] → x.countMiss true frame = x.countMiss false frame) ∧
      (l = [] → x.countMiss true frame = counted))

/-- DISPLAY_EXPIRY where the display expiry timer is due: the head entry leaves the window and its pin is released, the
miss is counted and N steps; then, while the stream runs and its next head entry is due as well, it goes on. That the
delivery check, and with it the MISSED notice on its own, comes after each frame given up and not at the end of the
event is the model's choice (log 48). -/
def Obligations.DisplayExpiry : Prop :=
  ∀ (s : State) (k : Fin 128) (w : WinEntry) (l : List WinEntry), (s.part.stream k).window = w :: l →
    (s.part.stream k).running = true → w.u = (s.part.stream k).n → w.display ≠ never → w.display ≤ s.env.now →
    let now := s.env.now
    let m := ((s.part.begin_.setStream k { s.part.stream k with window := l }).releasePin now w.slot).onStream k
      (fun y => { y.countMiss (s.part.marked k) w.frame with passPending := true }.stepOn now)
    exec (.displayExpiry k) s =
      s.ends (if (m.stream k).running then (m.check now k).expireLoop now k l.length else m)

/-! ### Slots, requests and channels' queues -/

/-- Freeing a slot returns its pages to the tail of the free page list in their order and takes it off the reclaim list;
no other slot changes. An unpin lowers the pin count of its slot by one, and the loss of the last pin is dealt with
exactly where the count falls to 0; no other slot and no window changes. What becomes of a slot that has lost its last
pin, by its state: STAGED joins the tail of the reclaim list; FILLING is freed, or ABANDONED while reads are in flight;
FAILED is freed once nothing is in flight. A withdrawal frees the slot's QUEUED records and unsets the recheck timers of
the queues that it empties; slot due and slot seat priority are the least of the window entries that pin the slot. That
slot seat priority is taken from the streams' present seat priorities at every recompute (log 13), that a FAILED slot
with reads in flight takes now as unpinned-since (log 34) and that the last unpin of a FILLING slot brings no dispatch
choice (log 38) are the model's choices. -/
def Obligations.SlotLosesLastPin : Prop :=
  (∀ (m : Device) (n : Nat), (m.freeSlot n).slot n = Slot.free ∧ (∀ j, j ≠ n → (m.freeSlot n).slot j = m.slot j) ∧
    (m.freeSlot n).freePages = m.freePages ++ (m.slot n).pages ∧
    (m.freeSlot n).reclaim = m.reclaim.filter (fun j => decide (j ≠ n)) ∧
    (m.freeSlot n).streams = m.streams ∧ (m.freeSlot n).reqs = m.reqs ∧ (m.freeSlot n).channels = m.channels) ∧
  (∀ (m : Device) (n : Nat) (now : Time),
    let b := m.setSlot n { m.slot n with pins := (m.slot n).pins - 1 }
    let t := m.unpin now n
    ((m.slot n).pins = 1 → t = (b.unpinned now n).recompute n) ∧
    (1 < (m.slot n).pins → t = b.recompute n ∧ (t.slot n).pins = (m.slot n).pins - 1 ∧
      (t.slot n).state = (m.slot n).state) ∧
    (∀ j, j ≠ n → t.slot j = m.slot j) ∧ t.streams = m.streams) ∧
  (∀ (m : Device) (n : Nat) (now : Time),
    let x := m.slot n
    (x.state = .staged → (m.unpinned now n).slot n = { x with unpinnedSince := now } ∧
      (m.unpinned now n).reclaim = m.reclaim ++ [n] ∧ (m.unpinned now n).freePages = m.freePages) ∧
    (x.state = .filling → x.count .inFlight = 0 → (m.unpinned now n).slot n = Slot.free ∧
      (m.unpinned now n).freePages = m.freePages ++ x.pages) ∧
    (x.state = .filling → x.count .inFlight ≠ 0 → ((m.unpinned now n).slot n).state = .abandoned ∧
      ((m.unpinned now n).slot n).pages = x.pages ∧ ((m.unpinned now n).slot n).count .inFlight = x.count .inFlight ∧
      ((m.unpinned now n).slot n).count .unissued = 0 ∧ ((m.unpinned now n).slot n).count .queued = 0) ∧
    (x.state = .failed → x.count .inFlight = 0 → (m.unpinned now n).slot n = Slot.free) ∧
    (x.state = .failed → x.count .inFlight ≠ 0 → (m.unpinned now n).slot n = { x with unpinnedSince := now }) ∧
    (∀ j, j ≠ n → (m.unpinned now n).slot j = m.slot j)) ∧
  (∀ (m : Device) (n : Nat), Table.wf Request.free m.reqs = true →
    let t := m.withdraw n
    (∀ r, t.req r = if (m.req r).state = .queued ∧ (m.req r).slot = n then Request.free else m.req r) ∧
    t.slot n = { m.slot n with segs := (m.slot n).segs.map fun g =>
      if g.status = .unissued ∨ g.status = .queued then { g with status := .withdrawn } else g } ∧
    (∀ j, j ≠ n → t.slot j = m.slot j) ∧ t.agenda = m.agenda ∧
    (∀ c, ((∃ r, (m.req r).state = .queued ∧ (m.req r).slot = n ∧ (m.req r).channel = c) →
        (∀ r, (m.req r).state = .queued → (m.req r).channel = c → (m.req r).slot = n) →
        t.channel c = { m.channel c with recheck := none }) ∧
      ((∀ r, (m.req r).state = .queued → (m.req r).channel = c → (m.req r).slot ≠ n) ∨
        (∃ r, (m.req r).state = .queued ∧ (m.req r).channel = c ∧ (m.req r).slot ≠ n) →
        t.channel c = m.channel c))) ∧
  (∀ (m : Device) (n : Nat) (now : Time), Table.wf Request.free m.reqs = true →
    (m.slot n).state = .filling → (m.slot n).pins = 1 → (m.unpin now n).agenda.choices = m.agenda.choices) ∧
  ∀ (m : Device) (n : Nat), Table.wf StreamRec.reset m.streams = true → (m.slot n).state ≠ .free →
    let y := (m.recompute n).slot n
    let pins (k : Nat) (w : WinEntry) : Prop := w ∈ (m.stream k).window ∧ w.slot = some n
    y = { m.slot n with due := y.due, seat := y.seat } ∧
    (∀ k w, pins k w → y.due ≤ w.due ∧ y.seat ≤ (m.stream k).seat) ∧
    (y.due = never ∨ ∃ k w, pins k w ∧ y.due = w.due) ∧ (y.seat = 3 ∨ ∃ k w, pins k w ∧ y.seat = (m.stream k).seat)

/-- Where a frame lies, the segments cut from its extents, and the grants of request records to them: a STRIDE frame is
one extent of its stripe; a segment is a run of at most 1024 blocks of an extent, at the extent's channel and in the
extent's order; a grant makes the lowest FREE record (log 12, the model's choice) QUEUED for the segment; and FREE
records go one after another to the waiting slot that is due first while records and waiting segments last. -/
def Obligations.SegmentsCoverExtents : Prop :=
  (∀ (x : Clip) (mem : Memory) (frame : Nat),
    (∀ stripes blocks bytes s, x.locator = .stride stripes blocks bytes → stripes[frame % stripes.length]? = some s →
      x.locate mem frame = some { extents := [{ channel := s.channel, block := s.base + frame / stripes.length * blocks,
                                                count := blocks }], frameBytes := bytes }) ∧
    (∀ base capacity, x.locator = .indexed base capacity →
      let e := IndexEntry.ofBytes (mem.readBytes ((base + frame) * 64) 64)
      x.locate mem frame = if e.valid = true
        then some { extents := e.extents.take e.extentCount, frameBytes := e.frameBytes } else none)) ∧
  (∀ (offset : Nat) (l : List Extent),
    ((cutExtents offset l).map (·.count)).sum = (l.map (·.count)).sum ∧
    (∀ g, g ∈ cutExtents offset l ↔ ∃ j i x, l[j]? = some x ∧ i * 1024 < x.count ∧
      g = { channel := x.channel, block := x.block + i * 1024, count := min 1024 (x.count - i * 1024),
            offset := offset + ((l.take j).map (·.count)).sum + i * 1024, status := .unissued }) ∧
    ∀ i g, (cutExtents offset l)[i]? = some g →
      g.offset = offset + (((cutExtents offset l).take i).map (·.count)).sum) ∧
  (∀ (m : Device) (now : Time) (n i r : Nat) (g : Segment), r < 4096 → (m.req r).state = .free →
    (∀ j < r, (m.req j).state ≠ .free) → (m.slot n).segs[i]? = some g →
    let t := m.grant now n i
    t.req r = { state := .queued, slot := n, seg := i, channel := g.channel, block := g.block, count := g.count,
                offset := g.offset, retries := 0, seq := m.grants, cls := none, tag := none } ∧
    (∀ j, j ≠ r → t.req j = m.req j) ∧ t.grants = (m.grants + 1) % 18446744073709551616 ∧
    t.slot n = (m.slot n).setSeg i .queued ∧ (∀ j, j ≠ n → t.slot j = m.slot j) ∧
    g.channel ∈ t.agenda.choices ∧
    (t.channel g.channel).state = if (m.channel g.channel).state = .parked then .waking else (m.channel g.channel).state) ∧
  (∀ (m : Device) (n : Nat), Table.wf Slot.free m.slots = true →
    let waits (j : Nat) : Prop := (m.slot j).state = .filling ∧ ∃ g ∈ (m.slot j).segs, g.status = .unissued
    (m.waitingSlot = some n ↔ waits n ∧
      ∀ j, waits j → (m.slot n).due < (m.slot j).due ∨ ((m.slot n).due = (m.slot j).due ∧ n ≤ j))) ∧
  ∀ (m : Device) (now : Time), Table.wf Slot.free m.slots = true →
    (∀ n i g, m.freeReq ≠ none → m.waitingSlot = some n → (m.slot n).segs[i]? = some g → g.status = .unissued →
      (∀ j < i, ∀ f, (m.slot n).segs[j]? = some f → f.status ≠ .unissued) →
      m.grantAll now = (m.grant now n i).grantAll now) ∧
    (m.freeReq = none ∨ m.waitingSlot = none → m.grantAll now = m) ∧
    ((m.grantAll now).freeReq = none ∨ (m.grantAll now).waitingSlot = none) ∧
    ∀ n, let t := m.offer now n
      t.freeReq = none ∨ ∀ g ∈ (t.slot n).segs, g.status ≠ .unissued

/-- The class of an issue time is critical (0), urgent (1), normal (2) or lookahead (3) by its distance from now; the
records that a dispatch choice ranks, with the class, seat priority, issue time and sequence that it ranks them by, and
which of them are eligible; the choice takes an eligible record that no eligible record ranks before, and none only
where none is eligible; the record taken becomes DISPATCHED and its READ is sent; and choices follow one another until
none is made, which sets or unsets the recheck timer. -/
def Obligations.DispatchChoice : Prop :=
  (∀ (dev : DeviceSettings) (now issue : Time), dev.urgent ≤ dev.horizon →
    (issue = never → classOf dev now issue = 3) ∧
    (issue ≠ never → issue < now → classOf dev now issue = 0) ∧
    (issue ≠ never → now ≤ issue → issue < now + dev.urgent → classOf dev now issue = 1) ∧
    (issue ≠ never → now + dev.urgent ≤ issue → issue < now + dev.horizon → classOf dev now issue = 2) ∧
    (issue ≠ never → now + dev.horizon ≤ issue → classOf dev now issue = 3)) ∧
  (∀ (m : Device) (e : Env) (c : Nat), Table.wf Request.free m.reqs = true →
    let ch := m.channel c
    let wake := match ch.state with
      | .parked | .parking => ch.wakeEstimate
      | .waking => ch.wakeEstimate - (e.now - ch.wakeSent)
      | .offline | .active | .faulted => 0
    let est (q : Request) : Nat := ch.setup * 1000 + q.count * 4 * ch.cost + wake
    let issue (q : Request) : Time := if (m.slot q.slot).due = never then never else (m.slot q.slot).due - est q
    (∀ y, y ∈ m.ranked e c ↔ ∃ r, (m.req r).state = .queued ∧ (m.req r).channel = c ∧
      y = { req := r, cls := classOf e.dev e.now (issue (m.req r)), seat := (m.slot (m.req r).slot).seat,
            issue := issue (m.req r), seq := (m.req r).seq }) ∧
    (∀ y, m.eligible c y = true ↔ (y.cls ≠ 3 ∨
      (m.reqs.countP fun q => decide (q.2.state = .dispatched ∧ q.2.channel = c ∧ q.2.cls = some 3)) < ch.tagLimit)) ∧
    (∀ x, m.choose e c = some x → x ∈ m.ranked e c ∧ m.eligible c x = true ∧
      ∀ y ∈ m.ranked e c, m.eligible c y = true →
        ¬ (y.cls < x.cls ∨ (y.cls = x.cls ∧ (y.seat < x.seat ∨ (y.seat = x.seat ∧
          (y.issue < x.issue ∨ (y.issue = x.issue ∧ y.seq < x.seq))))))) ∧
    (m.choose e c = none → ∀ y ∈ m.ranked e c, m.eligible c y = false)) ∧
  (∀ (m : Device) (e : Env) (c t : Nat) (x : Ranked), t < 4 →
    let r := m.req x.req
    let ch := m.channel c
    let est := ch.setup * 1000 + r.count * 4 * ch.cost
    let timeout := e.now + max 250000000 (min (4 * est) 10000000000)
    let b := ((m.setReq x.req { r with state := .dispatched, cls := some x.cls, tag := some t }).setSlot r.slot
      ((m.slot r.slot).setSeg r.seg .inFlight)).setChannel c
        { ch.setTag t (.inFlight x.req e.now est 0 timeout) with dispatches := (ch.dispatches + 1) % 4294967296 }
    m.dispatch e c t x = if ch.link = true
      then b.emit (.link c (0x01#8 :: BitVec.ofNat 8 t :: natBytes 2 r.count ++ natBytes 6 r.block)) else b) ∧
  ∀ (m : Device) (e : Env) (c : Nat),
    let free (t : Nat) : Prop := t < 4 ∧ (m.channel c).tag t = .free
    let able := (m.channel c).state = .active ∧ (m.channel c).char = none ∧ (∃ t, free t) ∧ m.queue c ≠ []
    (¬ able → m.runChoice e c = m) ∧
    (able → ∀ x t, m.choose e c = some x → free t → (∀ j < t, (m.channel c).tag j ≠ .free) →
      let d := m.dispatch e c t x
      m.runChoice e c = if d.mayChoose c = true then d.runChoice e c
        else d.onChannel c fun ch => { ch with recheck := none }) ∧
    (able → m.choose e c = none → ∃ v, m.runChoice e c = m.onChannel c (fun ch => { ch with recheck := v }) ∧
      (∀ y ∈ m.ranked e c, y.issue ≠ never → ∃ u, v = some u ∧ u ≤ y.issue + 1 - e.dev.horizon) ∧
      (∀ u, v = some u → ∃ y ∈ m.ranked e c, y.issue ≠ never ∧ u = y.issue + 1 - e.dev.horizon))

/-! ### Device and channel commands -/

/-- A primary-only command of any other head is refused with NOT_PRIMARY, before its own checks; a record of an unknown
kind is answered with BAD_ARG. -/
def Obligations.PrimaryOnlyRefused : Prop :=
  ∀ (s : State) (p : Head) (h : Handed) (i : Instr), i.command = some h.command → (s.part.port p).progress = .handed h →
    (i.primaryOnly = some p → s.part.hau.primary ≠ some p →
      exec i s = s.ends (s.part.begin_.completed p (h.completion .notPrimary []))) ∧
    (∀ code, i = .unknownCommand p code →
      exec i s = s.ends (s.part.begin_.completed p (h.completion .badArg [])))

/-- SET_DEVICE from the primary: the carried settings clamped, the horizon last and against the new urgent threshold;
passes flagged for the streams with windows where the lead changes, dispatch choices asked where a threshold changes.
That the completion carries the values in force as words in the units of the record is the model's choice (log 15). -/
def Obligations.SetDevice : Prop :=
  ∀ (s : State) (p : Head) (h : Handed) (a : SetDeviceArgs), s.Hands p h (.setDevice a) →
    s.part.hau.primary = some p → Table.wf StreamRec.reset s.part.streams = true →
    let old := s.env.dev
    let carried (x : Option Nat) (held lo hi unit : Nat) : Nat :=
      match x with | some v => max lo (min v hi) * unit | none => held
    let urgent := carried a.urgentUs old.urgent 1000 500000 1000
    let asked := match a.horizonUs with | some v => v * 1000 | none => old.horizon
    let dev : DeviceSettings :=
      { urgent, horizon := max urgent (min asked 10000000000), lead := carried a.leadUs old.lead 0 200000 1000,
        preroll := carried a.prerollUs old.preroll 0 2000000 1000,
        hold := carried a.holdMs old.hold 500 30000 1000000,
        orphan := carried a.orphanMs old.orphan 0 3600000 1000000 }
    ∃ m : Device,
      exec (.setDevice p a) s = { s with env := { s.env with dev } }.ends (m.completed p (h.completion .ok
        [word (dev.urgent / 1000), word (dev.horizon / 1000), word (dev.lead / 1000), word (dev.preroll / 1000),
         word (dev.hold / 1000000), word (dev.orphan / 1000000)])) ∧
      (∀ k, m.stream k =
        if dev.lead ≠ old.lead ∧ (s.part.stream k).state ≠ .closed ∧ (s.part.stream k).state ≠ .closing
        then { s.part.stream k with passPending := true } else s.part.stream k) ∧
      (∀ c, c ∈ m.agenda.choices ↔
        (dev.urgent ≠ old.urgent ∨ dev.horizon ≠ old.horizon) ∧ c < s.env.straps.fitted) ∧
      m = { s.part.begin_ with streams := m.streams,
                               agenda := { checks := [], choices := m.agenda.choices, retry := false } }

/-- SET_CHANNEL, CHARACTERISE and CHANNEL_RESET from the primary: their refusals and what they do to the channel. That a
completion carries times in milliseconds (log 15), that CHARACTERISE and CHANNEL_RESET leave the recheck timer (log 32),
and that the completion of a characterisation it ends is made before its own (log 39) are the model's choices. -/
def Obligations.ChannelCommands : Prop :=
  ∀ (s : State) (p : Head) (h : Handed), s.part.hau.primary = some p →
    (∀ a, s.Hands p h (.setChannel a) →
      (s.env.straps.fitted ≤ a.channel →
        exec (.setChannel p a) s = s.ends (s.part.begin_.completed p (h.completion .badArg []))) ∧
      (a.channel < s.env.straps.fitted →
        let x := s.part.channel a.channel
        let y := { x with parkMs := min a.parkMs 3600000, wakeEstimate := max 100 (min a.wakeMs 120000) * 1000000,
                          retryLimit := min a.retryLimit 3, tagLimit := min a.tagLimit 4,
                          driftMs := max 1 (min a.driftMs 1000),
                          idleTimer := if min a.parkMs 3600000 = x.parkMs then x.idleTimer else none }
        let m := s.part.begin_.setChannel a.channel y
        exec (.setChannel p a) s =
          s.ends ((if y.tagLimit = x.tagLimit then m else m.askChoice a.channel).completed p (h.completion .ok
            [word y.parkMs, word (y.wakeEstimate / 1000000), word y.retryLimit, word y.tagLimit, word y.driftMs])))) ∧
    (∀ c s1 s2 address, s.Hands p h (.characterise c s1 s2 address) →
      let x := s.part.channel c
      let bad := s.env.straps.fitted ≤ c ∨ s1 = 0 ∨ s2 ≤ s1 ∨ 1024 < s2 ∨ 281474976710656 < address + s2
      let begun (phase : CharPhase) : Channel :=
        { x with idleTimer := none, char := some { issuer := p, tag := h.tag, consumer := h.consumer, discard := false,
                                                    s1, s2, address, times := [], phase } }
      let m := s.part.begin_.setPort p { s.part.port p with progress := .idle }
      let timeout := s.env.now + max 250000000 (min (4 * (x.setup * 1000 + s1 * 4 * x.cost)) 10000000000)
      (bad → exec (.characterise p c s1 s2 address) s = s.ends (s.part.begin_.completed p (h.completion .badArg []))) ∧
      (¬ bad → x.state ≠ .active ∨ x.char ≠ none →
        exec (.characterise p c s1 s2 address) s = s.ends (s.part.begin_.completed p (h.completion .busy []))) ∧
      (¬ bad → x.state = .active → x.char = none → x.tagsFree = false →
        exec (.characterise p c s1 s2 address) s = s.ends (m.setChannel c (begun .draining))) ∧
      (¬ bad → x.state = .active → x.char = none → x.tagsFree = true →
        (x.link = true → exec (.characterise p c s1 s2 address) s =
          s.ends ((m.setChannel c (begun (.probing s.env.now 0 timeout))).emit
            (.link c (0x01#8 :: 0x80#8 :: natBytes 2 s1 ++ natBytes 6 address)))) ∧
        (x.link = false → exec (.characterise p c s1 s2 address) s =
          s.ends (m.setChannel c (begun (.probing s.env.now 0 timeout)))))) ∧
    (∀ c, s.Hands p h (.channelReset c) →
      (s.env.straps.fitted ≤ c →
        exec (.channelReset p c) s = s.ends (s.part.begin_.completed p (h.completion .badArg []))) ∧
      (c < s.env.straps.fitted →
        let x := s.part.channel c
        let y := { x with state := .offline, fault := none, link := false, tags := [], idleTimer := none,
                          parkGuard := none, wakeGuard := none, consecutive := 0, driftRun := 0 }
        let m := ((s.part.begin_.setChannel c y).emit (.reinitialise c)).returnAll s.env.now x.records
        exec (.channelReset p c) s =
          s.ends (((m.endChar c .reset).raiseBoth .channel).completed p (h.completion .ok [word x.state.code]))))

/-- The end of a characterisation: the channel's outcome, and for DONE the Setup and Cost that the averages of the
four short and the four long probes give; CHARACTERISED to both ports; the completion to the issuer's port, unless
that port has been reset since. That the completion carries each average as two words (log 15) and that the averages
are absent after any other outcome (log 24) are the model's choices. -/
def Obligations.CharacterisationEnds : Prop :=
  ∀ (m : Device) (c : Nat) (o : CharOutcome) (x : Characterisation), (m.channel c).char = some x →
    let ch := m.channel c
    let a1 := (x.times.take 4).sum / 4
    let a2 := (x.times.drop 4).sum / 4
    let blocks := x.s2 * 4 - x.s1 * 4
    let cost := if a2 ≤ a1 then 1 else (max 1 (min ((2 * ((a2 : Int) - a1) + blocks) / (2 * blocks)) 100000)).toNat
    let setup := (max 20 (min ((2 * ((a1 : Int) - x.s1 * 4 * cost) + 1000) / 2000) 200000)).toNat
    let y := if o = .done then
        { ch with char := none, lastOutcome := some o, cost, setup, driftRun := 0, lastAverages := some (a1, a2) }
      else { ch with char := none, lastOutcome := some o, lastAverages := none }
    let m1 := ((m.setChannel c y).raiseBoth .characterised).askChoice c
    m.endChar c o =
      if x.discard then m1 else m1.complete x.issuer
        { tag := x.tag, kind := 0x21, consumer := x.consumer, status := .ok,
          results := word o.code ::
            (if o = .done then words64 a1 ++ words64 a2 ++ [word setup, word cost] else []) }

/-- DEVICE_CLEAR from the primary, by block: clips FREE with their generations kept, streams CLOSED, slots and
requests FREE, the pool whole, a channel reset of every fitted channel, queues of both ports cleared; the roles stay.
That a record being read goes on being read and is then passed by (log 17), that no last outcome is recorded (log 35),
that the channel resets leave no CHANNEL raised (log 39) and that the end of the event, which posts, may begin a stall
again (log 46) are the model's choices. -/
def Obligations.DeviceClear : Prop :=
  ∀ (s : State) (p : Head) (h : Handed), s.Hands p h .deviceClear → s.part.hau.primary = some p →
    let cleared (x : Port) (places : Nat) : Port :=
      { x with progress := match x.progress with
                 | .reading since | .discarding since => .discarding since
                 | .idle | .handed _ | .loading => .idle,
               places, completions := [], mover := none, write := none, stall := false, stateQueue := [],
               ev := { x.ev with request := 0, inService := 0 } }
    ∃ m : Device,
      exec (.deviceClear p) s = s.ends (m.completed p (h.completion .ok [])) ∧
      (∀ k, m.clip k = Clip.freeWith (s.part.clip k).generation) ∧
      (∀ k, m.stream k =
        { s.part.stream k with
            state := .closed, s := 0, f0q := 0, t0 := 0, n := 0, savedS := none, stillDelivered := false,
            endPending := none, ownerAbsent := false, loop := false, openEnd := false, lastForward := true,
            missedCount := 0, nextSeq := 0, handoverTimer := none, orphanTimer := none, window := [], delivery := [],
            outbox := [], passPending := false }) ∧
      (∀ n, m.slot n = Slot.free) ∧ m.freePages = List.range s.env.straps.poolPages ∧ m.reclaim = [] ∧
      (∀ r, m.req r = Request.free) ∧ m.grants = s.part.grants ∧
      (∀ c, m.channel c =
        if c < s.env.straps.fitted then
          { s.part.channel c with
              state := .offline, fault := none, link := false, tags := [], idleTimer := none, parkGuard := none,
              wakeGuard := none, consecutive := 0, driftRun := 0, char := none, recheck := none }
        else s.part.channel c) ∧
      m.port p = cleared (s.part.port p) 1 ∧ m.port p.other = cleared (s.part.port p.other) 0 ∧
      m.hau = s.part.hau ∧ m.out = (List.range s.env.straps.fitted).map Output.reinitialise

/-! ### Heads and roles -/

/-- A write of ANNOUNCE, and the ANNOUNCE and WITHDRAW that it spells: the nonce in bits 0–31, the weight in bits 32–35,
higher bits ignored, WITHDRAW where both are 0; a narrower write is discarded. ANNOUNCE on a reachable port: from a head
already present it records weight and nonce; from any other it makes the head present, gives back its streams (all of
them while its hold timer runs, and the ORPHANED ones after it), and starts the settle timer or runs resolution. That
the settle timer starts at the first announcement after hard reset only, and that the announcement of the same head
leaves it running, is the model's reading (log 27). -/
def Obligations.Announce : Prop :=
  (∀ (p : Head) (width : Nat) (v : BitVec 64), commandOfWrite p 0x010 width v =
    if width < 8 then .discardedWrite p
    else if v.toNat % 2 ^ 36 = 0 then .withdraw p
    else .announce p (BitVec.ofNat 4 (v.toNat / 2 ^ 32)) (BitVec.ofNat 32 v.toNat)) ∧
  (∀ (m : Device) (now : Time) (k : Nat),
    let x := m.stream k
    (x.state = .orphaned → m.regainOwner now k = m.setStream k { x with ownerAbsent := false }) ∧
    (x.state ≠ .orphaned →
      m.regainOwner now k = (m.setStream k { x with ownerAbsent := false, passPending := true }).check now k)) ∧
  ∀ (s : State) (p : Head) (w : BitVec 4) (n : BitVec 32), s.env.reachable p = true →
    let hau := s.part.hau
    let m := s.part.begin_.setPort p { s.part.port p with annWeight := w, annNonce := n }
    ((hau.head p).present = true →
      exec (.announce p w n) s =
        s.ends { m with hau := hau.setHead p { hau.head p with weight := w.toNat, nonce := n.toNat } }) ∧
    ((hau.head p).present = false →
      let hau1 := hau.setHead p { present := true, weight := w.toNat, nonce := n.toNat, hold := none }
      let m1 := { m with hau := hau1 }
      let back := (m1.streamsOf p).filter fun k =>
        decide ((hau.head p).hold ≠ none ∨ (m1.stream k).state = .orphaned)
      let m2 := back.foldl (fun m k => m.regainOwner s.env.now k) m1
      (hau.first = none →
        exec (.announce p w n) s =
          s.ends { m2 with hau := { hau1 with first := some p, settleTimer := some (s.env.now + 1000000000) } }) ∧
      (hau.first = some p → hau.settleTimer ≠ none → exec (.announce p w n) s = s.ends m2) ∧
      (hau.first = some p.other → hau.settleTimer ≠ none →
        exec (.announce p w n) s = s.ends { m2 with hau := { hau1 with settleTimer := none } }.resolve) ∧
      (hau.first ≠ none → hau.settleTimer = none → hau.primary = none →
        exec (.announce p w n) s = s.ends m2.resolve) ∧
      (hau.first ≠ none → hau.settleTimer = none → hau.primary ≠ none →
        exec (.announce p w n) s = s.ends m2))

/-- WITHDRAW, PORT_RESET and PORT_LINK_LOSS on a reachable port: what each does to the port, and the loss of a head that
is present; a head that is not present loses nothing. And what the loss does to one stream of the head: it keeps its END
notices; the MISSED notices that leave the outbox give their counts back, up to 65,535, and the last of them its frame
where the missed count is 0; its delivery list is emptied with every pin released; and a stream in CLOSING becomes
CLOSED. What becomes of a fetch in progress and of a write in progress (logs 17 and 20), and that a miss folded into a
MISSED notice does not bar its frame (log 41), are the model's choices. -/
def Obligations.HeadLost : Prop :=
  (∀ (s : State) (p : Head), s.env.reachable p = true →
    let x := s.part.port p
    let gone := { s.part.hau.head p with present := false, hold := some (s.env.now + s.env.dev.hold) }
    let lost (m : Device) : Device :=
      if (s.part.hau.head p).present = false then m
      else (m.streamsOf p).foldl (fun m k => m.loseOwner s.env.now k)
        ({ m with hau := s.part.hau.setHead p gone }.raise p.other .peer)
    exec (.withdraw p) s =
      s.ends (lost (s.part.begin_.setPort p
        { x with annWeight := 0, annNonce := 0,
                 write := if x.write = some .completion ∨ x.write = some .state then x.write else none })) ∧
    ∃ m : Device,
      exec (.portReset p) s = s.ends (lost m) ∧ exec (.portLinkLoss p) s = s.ends (lost m) ∧
      m.port p = Port.reset ∧ m.port p.other = s.part.port p.other ∧
      (∀ c, m.channel c =
        match (s.part.channel c).char with
        | some y => if c < s.env.straps.fitted ∧ y.issuer = p
                    then { s.part.channel c with char := some { y with discard := true } } else s.part.channel c
        | none => s.part.channel c) ∧
      m = { s.part.begin_ with portA := m.portA, portB := m.portB, channels := m.channels }) ∧
  ∀ (m : Device) (now : Time) (k : Nat),
    let x := m.stream k
    let lost := x.outbox.filterMap fun y => match y with | .missed count last => some (count, last) | _ => none
    let kept : StreamRec :=
      { x with
          ownerAbsent := true, delivery := [],
          outbox := x.outbox.filter fun y => match y with | .ended _ => true | _ => false,
          missedCount := if lost = [] then x.missedCount else min (x.missedCount + (lost.map (·.1)).sum) 65535,
          lastMissed := if x.missedCount = 0 then (lost.getLast?.map (·.2)).getD x.lastMissed else x.lastMissed }
    let unwritten (y : Port) : Port := if y.write = some (.stream k) then { y with write := some .detached } else y
    let b := { m.setStream k kept with portA := unwritten m.portA, portB := unwritten m.portB }
    let t := x.delivery.foldl (fun b d => match d.slot with | some n => b.unpin now n | none => b) b
    (x.state ≠ .closing → m.loseOwner now k = t ∧ t.stream k = kept) ∧
    (x.state = .closing → m.loseOwner now k = t.closeStream k ∧ ((t.closeStream k).stream k).state = .closed ∧
      ((t.closeStream k).stream k).delivery = [] ∧ ((t.closeStream k).stream k).outbox = [] ∧
      ((t.closeStream k).stream k).lastMissed = kept.lastMissed) ∧
    ∀ j, j ≠ k → (m.loseOwner now k).stream j = m.stream j

/-- Resolution, YIELD from the primary, and the expiries of the settle, hold, orphan and handover timers that are due.
That a lapse whose owner is absent makes the ORPHANED notice alone (log 21), and that a stream that is orphaned loses
what its delivery list holds and is left with owner-absent set (log 47), are the model's choices. -/
def Obligations.RolesAndTimers : Prop :=
  (∀ m : Device,
    let a := m.hau.headA
    let b := m.hau.headB
    let new := if a.present = true ∧ b.present = true then
        (if a.weight < b.weight ∨ (a.weight = b.weight ∧ a.nonce < b.nonce) then some Head.b else some Head.a)
      else if a.present = true then some .a else if b.present = true then some .b else none
    m.resolve.hau = { m.hau with primary := new } ∧
    ∀ p, m.resolve.port p =
      if (m.hau.primary = some p ↔ new = some p) then m.port p
      else { m.port p with ev := (m.port p).ev.request1 3 }) ∧
  ∀ s : State,
    let now := s.env.now
    (∀ p h, s.Hands p h .yieldRole → s.part.hau.primary = some p →
      ((s.part.hau.head p.other).present = true →
        exec (.yieldRole p) s = s.ends ((s.part.begin_.setPrimary (some p.other)).completed p
          (h.completion .ok [word p.other.code]))) ∧
      ((s.part.hau.head p.other).present = false →
        exec (.yieldRole p) s = s.ends (s.part.begin_.completed p (h.completion .ok [word p.code])))) ∧
    (∀ t, s.part.hau.settleTimer = some t → t ≤ now →
      exec .settleTimerExpiry s =
        s.ends { s.part.begin_ with hau := { s.part.hau with settleTimer := none } }.resolve) ∧
    (∀ p t, (s.part.hau.head p).hold = some t → t ≤ now →
      let m := { s.part.begin_ with hau := s.part.hau.setHead p { s.part.hau.head p with hold := none } }
      let m1 := ((m.streamsOf p).filter fun k => decide ((s.part.stream k).state = .cued ∨
        (s.part.stream k).state = .playing ∨ (s.part.stream k).state = .handover)).foldl (fun m k => m.orphan s.env k) m
      exec (.holdTimerExpiry p) s = s.ends (if s.part.hau.primary = some p then m1.resolve else m1)) ∧
    (∀ (k : Fin 128) t, (s.part.stream k).orphanTimer = some t → t ≤ now →
      let m := (s.part.begin_.dropWindow now k).closeStream k
      let m1 := if s.part.hau.headA.present then m.makeState .a k .closed else m
      exec (.orphanTimerExpiry k) s =
        s.ends (if s.part.hau.headB.present then m1.makeState .b k .closed else m1)) ∧
    (∀ (k : Fin 128) t, (s.part.stream k).handoverTimer = some t → t ≤ now →
      let x := s.part.stream k
      let stopped := x.cue now none
      let orphaned := { stopped with
        state := .orphaned, ownerAbsent := true, delivery := [], stillDelivered := false,
        savedS := if x.state = .handover then x.savedS else some x.s,
        handoverTimer := none, orphanTimer := if s.env.dev.orphan = 0 then none else some (now + s.env.dev.orphan) }
      ((s.part.hau.head x.owner).present = true →
        exec (.handoverLapse k) s = s.ends (((s.part.begin_.setStream k
          { x with state := if x.savedS = some 0 then .cued else .playing, savedS := none, handoverTimer := none,
                   passPending := true }).makeStateBoth k .lapsed).check now k)) ∧
      ((s.part.hau.head x.owner).present = false →
        exec (.handoverLapse k) s =
          s.ends (((s.part.begin_.dropDelivery now k).setStream k orphaned).makeStateBoth k .orphaned)))

/-! ### Head memory transactions -/

/-- The start and the ends of a command fetch: the conditions under which a port reads the record at its consumer; a
record read well is handed on and the consumer advances; a read error, or no answer within 50 ms, halts the port with
the consumer kept and the completion place freed. That the record waits, handed, for its own command row (log 4), that
a record whose command a device clear ended is read and passed by (log 17), and that a fetch that fails on a port
already halted by a notice write leaves the fetch's halt cause (log 43), are the model's choices. -/
def Obligations.FetchEnds : Prop :=
  (∀ (m : Device) (now : Time) (p : Head),
    let x := m.port p
    let r := x.cmdRing
    let may := (m.hau.head p).present = true ∧ r.size ≠ 0 ∧ x.ntcRing.size ≠ 0 ∧ x.halt = none ∧ x.progress = .idle ∧
      0 < ((r.producer : Int) - r.consumer) % (2 * r.size : Nat) ∧ x.places < 16
    (may → m.fetch now p = (m.setPort p { x with progress := .reading now, places := x.places + 1 }).emit
      (.recordRead p (r.base + 64 * (r.consumer % r.size)))) ∧
    (¬ may → m.fetch now p = m)) ∧
  ∀ (s : State) (p : Head) (since : Time),
    let x := s.part.port p
    let ring := { x.cmdRing with consumer := (x.cmdRing.consumer + 1) % (2 * x.cmdRing.size) }
    let fetched := (x.fetched + 1) % 4294967296
    let leaves (i : Instr) (y : Port) : Prop := exec i s = s.ends (s.part.begin_.setPort p y)
    let failed (places : Nat) : Port :=
      { x with progress := .idle, places, halt := some .fetchRead, ev := x.ev.request1 0 }
    (x.progress = .reading since →
      (∀ record : List Byte, record.length = 64 → leaves (.commandFetchDone p record)
        { x with cmdRing := ring, fetched,
                 progress := .handed { tag := (record.getD 1 0).toNat, kind := (record.getD 0 0).toNat,
                                       consumer := x.cmdRing.consumer, command := Command.ofRecord record } }) ∧
      leaves (.fetchReadError p) (failed (x.places - 1)) ∧
      (since + 50000000 ≤ s.env.now → leaves (.fetchReadTimeout p) (failed (x.places - 1)))) ∧
    (x.progress = .discarding since →
      (∀ record, leaves (.commandFetchDone p record) { x with cmdRing := ring, fetched, progress := .idle }) ∧
      leaves (.fetchReadError p) (failed x.places) ∧
      (since + 50000000 ≤ s.env.now → leaves (.fetchReadTimeout p) (failed x.places)))

/-- The data mover: an entry that arrives is skipped, stored or stored as invalid; the transfer ends with the last entry,
and the next read of head memory follows the last entry of a read; a read error, or no answer within 50 ms of the read,
ends the transfer with BAD_ARG and PORT_FAULT. That the mover sends one read at a time, of a size between one entry and
all that remain, is the model's choice (log 22). -/
def Obligations.MoverReads : Prop :=
  ∀ (s : State) (p : Head) (v : Mover), (s.part.port p).mover = some v → Table.wf Slot.free s.part.slots = true →
    let x := s.part.port p
    let b := s.part.begin_
    let done (w : Mover) (status : Status) (y : Port) : Port :=
      let result : Completion :=
        { tag := w.tag, kind := 0x02, consumer := w.consumer, status,
          results := [word w.stored, word w.invalid, word w.skipped] }
      { y with mover := none, progress := .idle, completions := y.completions ++ [result] }
    (∀ entry base capacity, entry.length = 64 → (s.part.clip v.clip).locator = .indexed base capacity →
      let held := ∃ n, (s.part.slot n).state ≠ .free ∧ (s.part.slot n).clip = v.clip ∧
        (s.part.slot n).generation = v.generation ∧ (s.part.slot n).frame = v.frame
      let good := (IndexEntry.ofBytes entry).Accepted s.env.straps
      let next := { v with address := v.address + 64, remaining := v.remaining - 1, inRead := v.inRead - 1,
                           frame := v.frame + 1 }
      let write (b : Byte) : Memory := s.env.mem.write ((base + v.frame) * 64) (b :: entry.drop 1)
      let after (w : Mover) (mem : Memory) : Prop :=
        let ends (m : Device) : Prop :=
          exec (.indexEntryArrival p entry) s = { s with env := { s.env with mem } }.ends m
        (v.remaining ≤ 1 → ends (b.setPort p (done w .ok x))) ∧
        (1 < v.remaining → 1 < v.inRead → ends (b.setPort p { x with mover := some w })) ∧
        (1 < v.remaining → v.inRead ≤ 1 → ∃ entries, 1 ≤ entries ∧ entries ≤ w.remaining ∧
          ends ((b.setPort p { x with mover := some { w with inRead := entries, since := s.env.now } }).emit
            (.indexRead p w.address entries)))
      (held → after { next with skipped := v.skipped + 1 } s.env.mem) ∧
      (¬ held → good → after { next with stored := v.stored + 1 } (write 1)) ∧
      (¬ held → ¬ good → after { next with invalid := v.invalid + 1 } (write 0))) ∧
    exec (.moverReadError p) s = s.ends (b.setPort p (done v .badArg { x with ev := x.ev.request1 0 })) ∧
    (v.since + 50000000 ≤ s.env.now →
      exec (.moverReadTimeout p) s = s.ends (b.setPort p (done v .badArg { x with ev := x.ev.request1 0 }))) ∧
    (s.env.now < v.since + 50000000 → exec (.moverReadTimeout p) s = .next s)

/-- What the READY, FAILED, MISSED and END notices of a stream carry; which notice a port writes next, where there is
room, and the stall of a full ring; and the end of a notice write: the notice leaves its queue, the ring's producer
advances and the posting counts toward NOTICE; a notice that no longer belongs to the ring posts nothing; a failed write
halts the port. And what a STATE queue takes: a new notice joins the tail, or supersedes the notice of its stream that
waits, which keeps its place; one that is being written is left alone, and where its write does not post it, it becomes
one with the notice of its stream behind it. That a notice being written on one port is not written on the other (log
19), that a write whose notice has left its queue posts nothing (log 20) and that a failed write of a halted port makes
its cause the later one (log 43) are the model's choices. -/
def Obligations.NoticeWrites : Prop :=
  (∀ (k clip g seq frame slot display bytes count last bound : Nat) (late : Bool) (cause : Cause),
    (Notice.ready late clip g seq frame slot display bytes).bytes k =
      [0x02#8, if late = true then 1#8 else 0#8, BitVec.ofNat 8 k, BitVec.ofNat 8 clip] ++ natBytes 2 seq ++
        [BitVec.ofNat 8 g, 0#8] ++ natBytes 4 frame ++ natBytes 2 slot ++ [0#8, 0#8] ++ natBytes 8 display ++
        natBytes 4 bytes ++ List.replicate 36 0 ∧
    (Notice.failed cause clip g seq frame display).bytes k =
      [0x03#8, match cause with | .medium => 1#8 | .address => 2#8 | .channelFault => 3#8 | .invalidIndex => 4#8,
        BitVec.ofNat 8 k, BitVec.ofNat 8 clip] ++ natBytes 2 seq ++ [BitVec.ofNat 8 g, 0#8] ++ natBytes 4 frame ++
        List.replicate 4 0 ++ natBytes 8 display ++ List.replicate 40 0 ∧
    (Notice.missed count last).bytes k =
      [0x04#8, 0#8, BitVec.ofNat 8 k, 0#8] ++ natBytes 2 count ++ [0#8, 0#8] ++ natBytes 4 last ++ List.replicate 52 0 ∧
    (Notice.ended bound).bytes k =
      [0x05#8, 0#8, BitVec.ofNat 8 k, 0#8] ++ List.replicate 4 0 ++ natBytes 4 bound ++ List.replicate 52 0) ∧
  (∀ (m : Device) (p : Head), Table.wf StreamRec.reset m.streams = true →
    let x := m.port p
    let ring := x.ntcRing
    let room := ((ring.producer : Int) - ring.consumer) % (2 * ring.size : Nat) < ring.size
    let may := ring.size ≠ 0 ∧ x.halt = none ∧ x.write = none
    let begins (src : WriteSource) (bytes : List Byte) : Prop :=
      (room → m.post p = (m.setPort p { x with write := some src, stall := false }).emit
        (.noticeWrite p (ring.base + 64 * (ring.producer % ring.size)) bytes)) ∧
      (¬ room → x.stall = false → m.post p = m.setPort p { x with stall := true, ev := x.ev.request1 5 }) ∧
      (¬ room → x.stall = true → m.post p = m)
    let posts (k : Nat) : Prop :=
      let y := m.stream k
      y.state ≠ .closed ∧ y.owner = p ∧ y.ownerAbsent = false ∧ y.state ≠ .handover ∧ y.outbox ≠ [] ∧
        m.portA.write ≠ some (.stream k) ∧ m.portB.write ≠ some (.stream k)
    (¬ may → m.post p = m) ∧
    (may →
      (∀ y l, x.completions = y :: l → begins .completion y.bytes) ∧
      (x.completions = [] → ∀ y l, x.stateQueue = y :: l → begins .state y.bytes) ∧
      (x.completions = [] → x.stateQueue = [] →
        (∀ k y l, posts k → (∀ j, posts j → (m.stream k).seat < (m.stream j).seat ∨
            ((m.stream k).seat = (m.stream j).seat ∧ k ≤ j)) →
          (m.stream k).outbox = y :: l → begins (.stream k) (y.bytes k)) ∧
        ((∀ k, ¬ posts k) → m.post p = m)))) ∧
  (∀ (m : Device) (p : Head) (k : Nat) (event : StateEvent),
    let x := m.port p
    let new : StateNotice := { stream := k, event, owner := (m.stream k).owner, superseded := false }
    let written := if x.write = some .state then x.stateQueue.take 1 else []
    let waiting := if x.write = some .state then x.stateQueue.drop 1 else x.stateQueue
    ((∀ y ∈ waiting, y.stream ≠ k) →
      m.makeState p k event = m.setPort p { x with stateQueue := x.stateQueue ++ [new] }) ∧
    (∀ l y r, waiting = l ++ y :: r → y.stream = k → (∀ z ∈ l, z.stream ≠ k) →
      m.makeState p k event = m.setPort p
        { x with stateQueue := written ++ l ++ { new with superseded := true } :: r })) ∧
  (∀ (y : StateNotice) (l r : List StateNotice), (∀ z ∈ l ++ r, z.stream ≠ y.stream) →
    unmarkState (y :: (l ++ r)) = y :: (l ++ r) ∧
    ∀ z, z.stream = y.stream → unmarkState (y :: (l ++ z :: r)) = { z with superseded := true } :: (l ++ r)) ∧
  ∀ (s : State) (p : Head),
    let x := s.part.port p
    let ring := x.ntcRing
    let posted := { x with write := none, ntcRing := { ring with producer := (ring.producer + 1) % (2 * ring.size) },
                           ev := x.ev.counting s.env.now }
    (x.write = some .completion →
      exec (.noticeWriteEnd p) s = s.ends (s.part.begin_.setPort p
        { posted with completions := x.completions.tail, places := x.places - 1 })) ∧
    (x.write = some .state →
      exec (.noticeWriteEnd p) s = s.ends (s.part.begin_.setPort p { posted with stateQueue := x.stateQueue.tail })) ∧
    (∀ k, x.write = some (.stream k) →
      let y := s.part.stream k
      (y.state ≠ .closed → y.owner = p →
        exec (.noticeWriteEnd p) s = s.ends (((s.part.begin_.setPort p posted).setStream k
          { y with outbox := y.outbox.tail }.joinPending).check s.env.now k)) ∧
      (y.state = .closed ∨ y.owner ≠ p →
        exec (.noticeWriteEnd p) s = s.ends (s.part.begin_.setPort p { x with write := none }))) ∧
    (x.write = some .detached →
      exec (.noticeWriteEnd p) s = s.ends (s.part.begin_.setPort p { x with write := none })) ∧
    (x.write ≠ none →
      exec (.noticeWriteFail p) s = s.ends (s.part.begin_.setPort p
        { x with write := none, stateQueue := if x.write = some .state then unmarkState x.stateQueue else x.stateQueue,
                 halt := some .noticeWrite, ev := x.ev.request1 0 }))

/-! ### The register and staging windows -/

/-- Writes of the ring registers of a reachable port, and discarded writes: which are taken, and the base, size and
indices they leave; and the commands that writes at their offsets spell, with the writes that are too narrow or that
meet no register discarded. That the width of a write plays no further part, and that an offset inside a register holds
none, are the model's choices (log 40). -/
def Obligations.RingWrites : Prop :=
  (∀ (p : Head) (width : Nat) (v : BitVec 64),
    let low : BitVec 32 := v.setWidth 32
    let spells (offset least : Nat) (i : Instr) : Prop :=
      (width < least → commandOfWrite p offset width v = .discardedWrite p) ∧
      (least ≤ width → commandOfWrite p offset width v = i)
    spells 0x020 8 (.ringBaseWrite p .command v) ∧ spells 0x040 8 (.ringBaseWrite p .notice v) ∧
    spells 0x028 4 (.ringSizeWrite p .command low) ∧ spells 0x048 4 (.ringSizeWrite p .notice low) ∧
    spells 0x02C 0 (.cmdProducerWrite p low) ∧ spells 0x050 0 (.ntcConsumerWrite p low) ∧
    ∀ offset, offset ∉ [0x010, 0x020, 0x028, 0x02C, 0x040, 0x048, 0x050, 0x060, 0x064, 0x068, 0x070, 0x074, 0x078,
        0x090, 0x094, 0x098, 0x0C0] → spells offset 0 (.discardedWrite p)) ∧
  ∀ (s : State) (p : Head), s.env.reachable p = true →
    let x := s.part.port p
    let leaves (i : Instr) (y : Port) : Prop := exec i s = s.endsPorts (s.part.begin_.setPort p y)
    leaves (.discardedWrite p) x.discarding ∧
    (∀ r v, (x.ring r).size ≠ 0 → leaves (.ringBaseWrite p r v) x.discarding) ∧
    (∀ r v, (x.ring r).size = 0 →
      leaves (.ringBaseWrite p r v) (x.setRing r { x.ring r with base := v.toNat / 4096 * 4096 })) ∧
    (∀ r v, (x.ring r).size ≠ 0 → leaves (.ringSizeWrite p r v) x.discarding) ∧
    (∀ r v, (x.ring r).size = 0 → ∃ e,
      leaves (.ringSizeWrite p r v)
        (x.setRing r { base := (x.ring r).base, size := 2 ^ e, producer := 0, consumer := 0 }) ∧
      ∀ lo hi, (r = .command ∧ lo = 16 ∧ hi = 1024) ∨ (r = .notice ∧ lo = 64 ∧ hi = 4096) →
        (v.toNat < lo → 2 ^ e = lo) ∧ (hi < v.toNat → 2 ^ e = hi) ∧
        (lo ≤ v.toNat → v.toNat ≤ hi → 2 ^ e ≤ v.toNat ∧ v.toNat < 2 ^ (e + 1))) ∧
    (∀ v,
      let r := x.cmdRing
      let new := v.toNat % (2 * r.size)
      (r.size ≠ 0 → ((new : Int) - r.consumer) % (2 * r.size : Nat) ≤ r.size →
        leaves (.cmdProducerWrite p v) { x with cmdRing := { r with producer := new } }) ∧
      (r.size = 0 ∨ (r.size : Int) < ((new : Int) - r.consumer) % (2 * r.size : Nat) →
        leaves (.cmdProducerWrite p v) x.discarding)) ∧
    (∀ v,
      let r := x.ntcRing
      let new := v.toNat % (2 * r.size)
      let held := ((r.producer : Int) - r.consumer) % (2 * r.size : Nat)
      (r.size ≠ 0 → ((r.producer : Int) - new) % (2 * r.size : Nat) ≤ held →
        leaves (.ntcConsumerWrite p v) { x with ntcRing := { r with consumer := new } }) ∧
      (r.size = 0 ∨ held < ((r.producer : Int) - new) % (2 * r.size : Nat) →
        leaves (.ntcConsumerWrite p v) x.discarding))

/-- Writes of the event and coalescing registers of a reachable port, END_OF_SERVICE, and the coalescing timer; and the
interrupt decision: the message of the lowest level that has an unmasked request, with no level in service that is as
pressing or more, is sent and the level enters the in-service set. -/
def Obligations.EventWrites : Prop :=
  (∀ (m : Device) (p : Head),
    let v := (m.port p).ev
    let level (i : Nat) : Nat := v.level.toNat / 2 ^ (2 * i) % 4
    let asks (l : Nat) : Prop := (∃ i < 9, level i = l ∧ v.request.getLsbD i = true ∧ v.mask.getLsbD i = false) ∧
      ∀ j ≤ l, v.inService.getLsbD j = false
    (∀ l < 4, asks l → (∀ j < l, ¬ asks j) → m.decideInterrupt p = (m.setPort p
      { m.port p with ev := { v with inService := v.inService ||| BitVec.twoPow 4 l } }).emit (.interrupt p l)) ∧
    ((∀ l < 4, ¬ asks l) → m.decideInterrupt p = m)) ∧
  ∀ (s : State) (p : Head),
    let x := s.part.port p
    let v := x.ev
    let leaves (i : Instr) (w : Events) : Prop := exec i s = s.endsPorts (s.part.begin_.setPort p { x with ev := w })
    (s.env.reachable p = true →
      (∀ value, leaves (.evRequestWrite p value) { v with request := v.request &&& ~~~(value.setWidth 9) }) ∧
      (∀ value, leaves (.evMaskWrite p value) { v with mask := value.setWidth 9 }) ∧
      (∀ value, leaves (.evLevelWrite p value) { v with level := value.setWidth 18 }) ∧
      (v.inService = 0 → leaves (.endOfService p) v) ∧
      (∀ l < 4, v.inService.getLsbD l = true → (∀ j < l, v.inService.getLsbD j = false) →
        leaves (.endOfService p) { v with inService := v.inService &&& ~~~(BitVec.twoPow 4 l) }) ∧
      (∀ value,
        let count := max 1 (min value.toNat 64)
        (v.unsignalled < count → leaves (.coalCountWrite p value) { v with coalCount := count }) ∧
        (count ≤ v.unsignalled →
          leaves (.coalCountWrite p value)
            { v.request1 4 with coalCount := count, unsignalled := 0, coalTimer := none })) ∧
      (∀ value, leaves (.coalExpiryWrite p value) { v with coalExpiryUs := max 50 (min value.toNat 2000) })) ∧
    (∀ t, v.coalTimer = some t → t ≤ s.env.now →
      (v.unsignalled = 0 → leaves (.coalescingTimerExpiry p) { v with coalTimer := none }) ∧
      (0 < v.unsignalled →
        leaves (.coalescingTimerExpiry p) { v.request1 4 with unsignalled := 0, coalTimer := none }))

/-- The timebase and the table access window of a reachable port: the latch of the high word, the selection of a view
and a record, and the words that reads of the data register return one after another; and what the words of each view
carry. That a view lists the values in the order in which the chapters name them, the least issue time and its class
once and the wake estimate twice, is the model's choice, and so are that the probes completed read 0 while no
characterisation is in progress and the words of absent fields (log 14); and so is that the two words of the wake
estimate are milliseconds rounded down (log 15). -/
def Obligations.TableWindow : Prop :=
  (∀ (s : State) (p : Head), s.env.reachable p = true →
    let x := s.part.port p
    let b := s.part.begin_
    let records := if x.ta.select = 0 then 256 else if x.ta.select = 1 then 128 else if x.ta.select = 2 then 4096
      else if x.ta.select = 3 then 8 else 1
    exec (.tbLowRead p) s =
      s.endsPorts ((b.setPort p { x with tbHigh := word (s.env.now / 4294967296) }).emit
        (.registerData p (word s.env.now))) ∧
    (∀ v : BitVec 32,
      (4 < v.toNat → exec (.taSelectWrite p v) s = s.endsPorts (b.setPort p x.discarding)) ∧
      (v.toNat ≤ 4 → exec (.taSelectWrite p v) s =
        s.endsPorts (b.setPort p { x with ta := { x.ta with select := v.toNat, index := 0, word := 0, snapshot := [] } })) ∧
      exec (.taIndexWrite p v) s = s.endsPorts (b.setPort p { x with ta := { x.ta with
        index := v.toNat % records, word := 0, snapshot := [] } }) ∧
      (1 < v.toNat → exec (.taModeWrite p v) s = s.endsPorts (b.setPort p x.discarding)) ∧
      (v.toNat ≤ 1 → exec (.taModeWrite p v) s =
        s.endsPorts (b.setPort p { x with ta := { x.ta with advance := decide (v.toNat = 1) } }))) ∧
    (let l := if x.ta.word = 0 then s.part.viewWords s.env x.ta.select x.ta.index else x.ta.snapshot
     let read (ta : Machine.TableWindow) : Prop :=
       exec (.taDataRead p) s = s.endsPorts ((b.setPort p { x with ta }).emit (.registerData p (l.getD x.ta.word 0)))
     (x.ta.word + 1 < l.length → read { x.ta with word := x.ta.word + 1, snapshot := l }) ∧
     (l.length ≤ x.ta.word + 1 →
       read { x.ta with word := 0, snapshot := [],
                        index := if x.ta.advance = true then (x.ta.index + 1) % records else x.ta.index }))) ∧
  ∀ (m : Device) (e : Env) (k : Nat),
    let view (v : Nat) : List Word := m.viewWords e v k
    let clip := m.clip k
    let stream := m.stream k
    let slot := m.slot k
    let ch := m.channel k
    let yes (b : Bool) : Word := if b = true then 1 else 0
    ((view 0).length = 48 ∧ (view 1).length = 48 ∧ (view 2).length = 152 ∧ (view 3).length = 96 ∧
      (view 4).length = 16) ∧
    (view 0).take 6 = [word clip.state.code, word clip.generation, word clip.definer.code, word clip.frameCount,
      yes clip.openEnd, word clip.refCount] ∧
    (∀ stripes blocks bytes, clip.locator = .stride stripes blocks bytes →
      ((view 0).drop 6).take 6 = [0, word stripes.length, word blocks, word bytes, 0, 0] ∧
      ∀ j t, j < 8 → stripes[j]? = some t →
        ((view 0).drop (12 + 3 * j)).take 3 = [word t.channel, word t.base, word (t.base / 4294967296)]) ∧
    (∀ base capacity, clip.locator = .indexed base capacity →
      ((view 0).drop 6).take 6 = [1, 0, 0, 0, word base, word capacity]) ∧
    (view 1).take 15 = [word stream.state.code, word stream.owner.code, yes stream.ownerAbsent, word stream.clip,
      word stream.generation, word stream.inPoint, word stream.outPoint, yes stream.loop, yes stream.openEnd,
      wordInt stream.f0q, wordInt (stream.f0q / 4294967296), word stream.t0, word (stream.t0 / 4294967296),
      wordInt stream.s, yes (!stream.lastForward)] ∧
    (∀ v, stream.savedS = some v → (view 1)[15]? = some (wordInt v)) ∧
    ((view 1).drop 16).take 13 = [word stream.period, word stream.w, word stream.c, word stream.seat, wordInt stream.n,
      yes stream.stillDelivered, yes stream.endPending.isSome, word stream.nextSeq, word stream.missedCount,
      word stream.lastMissed, word stream.missedTotal, word stream.lateTotal, word stream.failedTotal] ∧
    (∀ t, stream.displayTimer = some t → ((view 1).drop 29).take 2 = [word t, word (t / 4294967296)]) ∧
    ((view 1).drop 31).take 2 = [yes stream.passPending, yes stream.displayTimer.isSome] ∧
    (∀ t, stream.handoverTimer = some t → ((view 1).drop 34).take 2 = [word t, word (t / 4294967296)]) ∧
    (∀ t, stream.orphanTimer = some t → ((view 1).drop 36).take 2 = [word t, word (t / 4294967296)]) ∧
    (view 2).take 18 = [word slot.state.code, word slot.clip, word slot.generation, word slot.frame,
      word slot.frameBytes, word slot.pages.length, word slot.segs.length, word (slot.count .unissued),
      word (slot.count .queued), word (slot.count .inFlight), word (slot.count .done), word (slot.count .withdrawn),
      word slot.pins, word slot.due, word (slot.due / 4294967296), word slot.seat, word slot.unpinnedSince,
      word (slot.unpinnedSince / 4294967296)] ∧
    (∀ cause, slot.cause = some cause → (view 2)[18]? = some (word cause.code)) ∧
    (∀ i page, i < 128 → slot.pages[i]? = some page → (view 2)[24 + i]? = some (word page)) ∧
    (view 3)[3]? = some (word (m.queue k).length) ∧
    ((view 3).drop 11).take 6 = [word ch.dispatches, word ch.goodEnds, word ch.retries, word ch.failedMedium,
      word ch.failedAddress, word ch.failedChannel] ∧
    (view 3)[19]? = some (word ch.state.code) ∧
    ((view 3).drop 22).take 2 = [yes ch.link, word ch.largestRead] ∧
    ((view 3).drop 25).take 3 = [word ch.setup, word ch.cost, word (ch.wakeEstimate / 1000000)] ∧
    ((view 3).drop 30).take 5 = [word ch.parkMs, word (ch.wakeEstimate / 1000000), word ch.retryLimit,
      word ch.tagLimit, word ch.driftMs] ∧
    ((view 3).drop 47).take 10 = [word ch.consecutive, word ch.driftRun, word ch.timeouts, word ch.staleEnds,
      word ch.discardedData, word ch.strays, word ch.shortReads, word ch.linkLosses, word ch.wakes, word ch.drifts] ∧
    (view 4).take 2 = [word m.freePages.length, word m.reclaim.length] ∧ (view 4)[3]? = some (word m.backlog.length)

/-- Reads and writes of the staging window of a reachable port: a byte of an admitted page reads as staging memory and
any other as all-ones, a descriptor byte reads without a check, and a read with a byte not admitted and every write
raise ACCESS, the denied-access count and the last denied address. That the last denied address is the byte offset
within the window is the model's choice (log 44). -/
def Obligations.StagingWindow : Prop :=
  ∀ (s : State) (p : Head), s.env.reachable p = true → Table.wf StreamRec.reset s.part.streams = true →
    let x := s.part.port p
    let b := s.part.begin_
    let denied (address : Nat) : Port :=
      { x with deniedAccesses := (x.deniedAccesses + 1) % 4294967296, lastDenied := address, ev := x.ev.request1 8 }
    let open_ (o : Nat) : Prop := o / 1048576 < s.env.straps.poolPages ∧ s.part.Admitted p (o / 1048576)
    (∀ offset length, ∃ bytes : List Byte, bytes.length = length ∧
      (∀ i b, bytes[i]? = some b →
        (open_ (offset + i) → b = s.env.mem.read (s.env.straps.idxMiB * 1048576 + (offset + i))) ∧
        (¬ open_ (offset + i) → b = 0xFF)) ∧
      ((∀ i < length, open_ (offset + i)) →
        exec (.stagingPageRead p offset length) s = s.endsPorts (b.emit (.stagingData p bytes))) ∧
      (∀ i < length, ¬ open_ (offset + i) → (∀ j < i, open_ (offset + j)) →
        exec (.stagingPageRead p offset length) s =
          s.endsPorts ((b.setPort p (denied (offset + i))).emit (.stagingData p bytes)))) ∧
    (∀ offset length, ∃ bytes : List Byte, bytes.length = length ∧
      (∀ i b, bytes[i]? = some b →
        (offset + i < 4194304 → b = (s.part.slot ((offset + i) / 1024)).descriptor.getD ((offset + i) % 1024) 0) ∧
        (4194304 ≤ offset + i → b = 0xFF)) ∧
      (offset + length ≤ 4194304 →
        exec (.descriptorRead p offset length) s = s.endsPorts (b.emit (.stagingData p bytes))) ∧
      (0 < length → 4194304 < offset + length →
        exec (.descriptorRead p offset length) s =
          s.endsPorts ((b.setPort p (denied (34359738368 + max offset 4194304))).emit (.stagingData p bytes)))) ∧
    (∀ offset, exec (.stagingWrite p offset) s = s.endsPorts (b.setPort p (denied offset)))

/-! ### Media channels -/

/-- The outcome of a read of record `r`: while its slot is FILLING the record is spent, goes back to its queue or fails
the slot, by the outcome, the channel's state and its retry limit; in any other state of the slot it is spent, and an
ABANDONED slot, or a FAILED one without pins, is freed with its last read. Where the slot becomes STAGED or FAILED,
every window entry that pins it, in every stream, becomes so too, with the late mark set exactly where it is staged
after its due time; no other entry changes; and a delivery check is asked for each stream whose head entry is one of
them. That every outcome but a good END fails the slot with CHANNEL_FAULT on a FAULTED channel, ADDRESS among them, is
the model's reading of R112 and R122 (log 29). -/
def Obligations.ReadOutcomes : Prop :=
  ∀ (m : Device) (now : Time) (r : Nat) (o : ReadOutcome),
    let q := m.req r
    let x := m.slot q.slot
    let ch := m.channel q.channel
    let t := m.readOutcome now r o
    let lost := o ≠ .good ∧ (ch.state = .faulted ∨ o = .address ∨ (o = .retryable ∧ ch.retryLimit ≤ q.retries))
    let done := x.setSeg q.seg .done
    let ended := x.setSeg q.seg (if o = .good then .done else .withdrawn)
    (x.state = .filling → o = .good → t.req r = Request.free ∧
      t.slot q.slot = { done with state := if ∀ g ∈ done.segs, g.status = .done then .staged else .filling }) ∧
    (x.state = .filling → o ≠ .good → ¬ lost →
      t.req r = { q with state := .queued, retries := if o = .retryable then q.retries + 1 else q.retries,
                         cls := none, tag := none } ∧ t.slot q.slot = x.setSeg q.seg .queued) ∧
    (x.state = .filling → lost → t.req r = Request.free ∧ (t.slot q.slot).state = .failed ∧
      (t.slot q.slot).cause =
        some (if ch.state = .faulted then .channelFault else if o = .address then .address else .medium) ∧
      (t.slot q.slot).pages = x.pages ∧ (t.slot q.slot).pins = x.pins) ∧
    (x.state ≠ .filling → t.req r = Request.free ∧
      t.slot q.slot =
        if ended.count .inFlight = 0 ∧ (x.state = .abandoned ∨ (x.state = .failed ∧ x.pins = 0)) then Slot.free
        else ended) ∧
    (Table.wf StreamRec.reset m.streams = true →
      let enter (f : WinEntry → WinEntry) : Prop :=
        (∀ k, t.stream k =
          { m.stream k with
              window := (m.stream k).window.map fun w => if w.slot = some q.slot then f w else w }) ∧
        ∀ k, k ∈ t.agenda.checks ↔
          k ∈ m.agenda.checks ∨ ∃ w l, (m.stream k).window = w :: l ∧ w.slot = some q.slot
      (x.state = .filling → o = .good → (∀ g ∈ done.segs, g.status = .done) →
        enter fun w => { w with state := .staged, late := decide (w.due < now) }) ∧
      (x.state = .filling → lost → enter fun w => { w with state := .failed }) ∧
      (x.state ≠ .filling ∨ (o = .good ∧ ∃ g ∈ done.segs, g.status ≠ .done) ∨ (o ≠ .good ∧ ¬ lost) →
        t.streams = m.streams ∧ t.agenda.checks = m.agenda.checks))

/-- The bytes of an adapter's message and the command that they spell, by the code byte; and on a fitted channel the link
events and the messages HELLO, DATA and STRAY_MESSAGE, which arrive only while the link is up. A DATA message in order
advances the expected offset, and its block is written where it lies within the read's blocks and the slot's pages; one
out of order, or on a tag without a read, is discarded and counted. That messages arrive only while the link is up and
a link loss is taken whatever the link flag (log 23), that it leaves the recheck timer running (log 32) and that reads
are returned in ascending tag number (log 39) are the model's choices. -/
def Obligations.LinkMessages : Prop :=
  (∀ (c : Fin 8) (t code lo hi : Byte) (rest : List Byte),
    let two : BitVec 16 := BitVec.ofNat 16 (lo.toNat + 256 * hi.toNat)
    commandOfMessage c (0x02#8 :: t :: lo :: hi :: rest) = .dataBlock c t two rest ∧
    commandOfMessage c (0x03#8 :: t :: code :: rest) = .readEnd c t code ∧
    commandOfMessage c (0x05#8 :: t :: rest) = .abortDone c t ∧ commandOfMessage c (0x07#8 :: rest) = .parked c ∧
    commandOfMessage c (0x09#8 :: rest) = .awake c ∧ commandOfMessage c (0x0A#8 :: lo :: hi :: rest) = .hello c two ∧
    (code ∉ [0x02#8, 0x03#8, 0x05#8, 0x07#8, 0x09#8, 0x0A#8] →
      commandOfMessage c (code :: rest) = .strayMessage c code)) ∧
  ∀ (s : State) (c : Fin 8), (c : Nat) < s.env.straps.fitted →
    let x := s.part.channel c
    let b := s.part.begin_
    let cut (link : Bool) : Device :=
      let y := { x with link, state := if x.state = .faulted then .faulted else .offline, tags := [], idleTimer := none,
                        parkGuard := none, wakeGuard := none, linkLosses := (x.linkLosses + 1) % 4294967296 }
      (((b.setChannel c y).returnAll s.env.now x.records).endChar c .linkLost).raiseBoth .channel
    let start (m : Device) (largest : Nat) : Device :=
      if largest < 1024 then (m.onChannel c fun ch => { ch with largestRead := largest }).fault c .smallRead
      else ((m.onChannel c fun ch => { ch with largestRead := largest, state := .active, consecutive := 0 }).raiseBoth
        .channel).askChoice c
    exec (.linkUp c) s = s.ends (b.setChannel c { x with link := true }) ∧
    exec (.channelLinkLoss c) s = s.ends (cut false) ∧
    (x.link = false → (∀ largest, exec (.hello c largest) s = .next s) ∧
      (∀ t offset payload, exec (.dataBlock c t offset payload) s = .next s) ∧
      ∀ code, exec (.strayMessage c code) s = .next s) ∧
    (x.link = true →
      (∀ largest : BitVec 16,
        (x.state = .offline → exec (.hello c largest) s = s.ends (start b largest.toNat)) ∧
        (x.state = .faulted → exec (.hello c largest) s =
          s.ends ((cut true).onChannel c fun ch => { ch with largestRead := largest.toNat })) ∧
        (x.state ≠ .offline → x.state ≠ .faulted →
          exec (.hello c largest) s = s.ends (start (cut true) largest.toNat))) ∧
      (∀ (t : BitVec 8) (offset : BitVec 16) (payload : List Byte), payload.length = 4096 →
        let t' := t.toNat
        let k := offset.toNat
        let discarded := s.ends (b.setChannel c { x with discardedData := (x.discardedData + 1) % 4294967296 })
        (3 < t' → exec (.dataBlock c t offset payload) s = discarded) ∧
        (t' ≤ 3 → t' ≠ 0 ∨ x.probe = none →
          (x.tag t' = .free ∨ (∃ guard, x.tag t' = .aborting guard) →
            exec (.dataBlock c t offset payload) s = discarded) ∧
          ∀ r sent est next timeout, x.tag t' = .inFlight r sent est next timeout →
            let q := s.part.req r
            let pages := (s.part.slot q.slot).pages
            let expects := b.setChannel c (x.setTag t' (.inFlight r sent est (next + 1) timeout))
            (k ≠ next → exec (.dataBlock c t offset payload) s = discarded) ∧
            (k = next → ∀ page, k < q.count → pages[(q.offset + k) / 256]? = some page →
              let mem := s.env.mem.write
                ((s.env.straps.idxMiB + page) * 1048576 + (q.offset + k) % 256 * 4096) payload
              exec (.dataBlock c t offset payload) s = { s with env := { s.env with mem } }.ends expects) ∧
            (k = next → q.count ≤ k ∨ pages[(q.offset + k) / 256]? = none →
              exec (.dataBlock c t offset payload) s = s.ends expects)) ∧
        (∀ y, t' = 0 → x.probe = some y → ∀ sent next timeout, y.phase = .probing sent next timeout →
          (k = next → exec (.dataBlock c t offset payload) s = s.ends (b.setChannel c
            { x with char := some { y with phase := .probing sent (next + 1) timeout } })) ∧
          (k ≠ next → exec (.dataBlock c t offset payload) s = discarded))) ∧
      (∀ code : BitVec 8, code ∉ [0x02#8, 0x03#8, 0x05#8, 0x07#8, 0x09#8, 0x0A#8] →
        exec (.strayMessage c code) s = s.ends (b.setChannel c { x with strays := (x.strays + 1) % 4294967296 })))

/-- The ends of reads on the tags of a fitted channel with its link up: END by its status, ABORT_DONE, the request
timeout and the abort guard; the ENDs of a characterising channel, whose draining ends in the first probe, a good probe
in the next one or in DONE, any other in PROBE_ERROR, and SETTLING in PROBE_TIMEOUT; and the estimator after a good read.
A tag that settles becomes free; an END or ABORT_DONE that settles nothing is stray. That messages arrive only while the
link is up (log 23), that a timed-out read asks for no dispatch choice while its tag is aborting (log 37) and that a
short probe counts as a probe error alone (log 28) are the model's choices. -/
def Obligations.ReadEnds : Prop :=
  (∀ (m : Device) (c : Nat) (err : Int),
    let x := m.channel c
    let setup := (max 20 (min (x.setup + err.tdiv 16000) 200000)).toNat
    let run := if x.driftMs * 1000000 < err.natAbs then x.driftRun + 1 else 0
    (run < 8 → m.learn c err = m.setChannel c { x with setup, driftRun := run }) ∧
    (8 ≤ run → m.learn c err = (m.setChannel c
      { x with setup, driftRun := 0, drifts := (x.drifts + 1) % 4294967296 }).raiseBoth .drift)) ∧
  (∀ (m : Device) (now : Time) (c : Nat),
    let x := m.channel c
    (∀ y, x.char = some y → y.phase = .draining → (∀ t < 4, x.tag t = .free) →
      let blocks := if y.times.length < 4 then y.s1 else y.s2
      let timeout := now + max 250000000 (min (4 * (x.setup * 1000 + blocks * 4 * x.cost)) 10000000000)
      let b := m.setChannel c { x with char := some { y with phase := .probing now 0 timeout } }
      m.drained now c = if x.link = true
        then b.emit (.link c (0x01#8 :: 0x80#8 :: natBytes 2 blocks ++ natBytes 6 y.address)) else b) ∧
    ((∀ y, x.char = some y → y.phase ≠ .draining) ∨ (∃ t < 4, x.tag t ≠ .free) → m.drained now c = m)) ∧
  ∀ (s : State) (c : Fin 8) (t : Fin 4),
    let now := s.env.now
    let x := s.part.channel c
    let b := s.part.begin_
    let freed := (b.setChannel c (x.setTag t .free)).askChoice c
    let tag : BitVec 8 := BitVec.ofNat 8 t
    let ends (status : BitVec 8) (m : Device) : Prop := exec (.readEnd c tag status) s = s.ends m
    let done (m : Device) : Prop := exec (.abortDone c tag) s = s.ends m
    let stray := b.setChannel c { x with strays := (x.strays + 1) % 4294967296 }
    ((c : Nat) < s.env.straps.fitted → x.link = false →
      (∀ far status, exec (.readEnd c far status) s = .next s) ∧ ∀ far, exec (.abortDone c far) s = .next s) ∧
    ((c : Nat) < s.env.straps.fitted → x.link = true →
      (∀ far : BitVec 8, 3 < far.toNat →
        (∀ status, exec (.readEnd c far status) s = s.ends stray) ∧ exec (.abortDone c far) s = s.ends stray) ∧
      ((t : Nat) ≠ 0 ∨ (∀ y, x.char = some y → y.phase = .draining) →
        (∀ r sent est next timeout, x.tag t = .inFlight r sent est next timeout →
          ((s.part.req r).count ≤ next → ends 0 ((((freed.readOutcome now r .good).learn c
            ((now : Int) - sent - est)).onChannel c fun ch => { ch with consecutive := 0 }).drained now c)) ∧
          (next < (s.part.req r).count → ends 0 (((freed.onChannel c fun ch =>
            { ch with shortReads := (ch.shortReads + 1) % 4294967296 }).readOutcome now r .retryable).drained now c)) ∧
          (∀ status : BitVec 8, status ≠ 0 → ends status
            ((freed.readOutcome now r (if status = 2 then .address else .retryable)).drained now c)) ∧ done stray) ∧
        (∀ guard, x.tag t = .aborting guard →
          (∀ status, ends status
            ((freed.onChannel c fun ch => { ch with staleEnds := (ch.staleEnds + 1) % 4294967296 }).drained now c)) ∧
          done (freed.drained now c)) ∧
        (x.tag t = .free → (∀ status, ends status stray) ∧ done stray)) ∧
      (∀ y sent next timeout, (t : Nat) = 0 → x.char = some y → y.phase = .probing sent next timeout →
        let blocks (n : Nat) : Nat := if n < 4 then y.s1 else y.s2
        let n := y.times.length
        let after (phase : CharPhase) : Channel :=
          { x with char := some { y with times := y.times ++ [now - sent], phase }, consecutive := 0 }
        let limit := now + max 250000000 (min (4 * (x.setup * 1000 + blocks (n + 1) * 4 * x.cost)) 10000000000)
        (blocks n ≤ next → n + 1 < 8 → ends 0 ((b.setChannel c (after (.probing now 0 limit))).emit
          (.link c (0x01#8 :: 0x80#8 :: natBytes 2 (blocks (n + 1)) ++ natBytes 6 y.address)))) ∧
        (blocks n ≤ next → 8 ≤ n + 1 → ends 0 ((b.setChannel c (after y.phase)).endChar c .done)) ∧
        (next < blocks n → ends 0 (b.endChar c .probeError)) ∧
        (∀ status : BitVec 8, status ≠ 0 → ends status (b.endChar c .probeError)) ∧
        ((∀ guard, x.tag t ≠ .aborting guard) → done stray)) ∧
      (∀ y guard, (t : Nat) = 0 → x.char = some y → y.phase = .settling guard →
        (∀ status, ends status ((b.setChannel c { x with staleEnds := (x.staleEnds + 1) % 4294967296 }).endChar c
          .probeTimeout)) ∧
        ((∀ guard, x.tag t ≠ .aborting guard) → done (b.endChar c .probeTimeout)))) ∧
    (∀ r sent est next timeout, x.tag t = .inFlight r sent est next timeout → timeout ≤ now →
      let aborts := b.setChannel c (x.setTag t (.aborting (now + 1000000000)))
      exec (.requestTimeout c t) s = s.ends (((if x.link = true
        then aborts.emit (.link c [0x04#8, tag]) else aborts).countTimeout c).readOutcome now r .retryable)) ∧
    (∀ guard, x.tag t = .aborting guard → guard ≤ now →
      exec (.abortGuardExpiry c t) s = s.ends ((freed.countTimeout c).drained now c))

/-- The count of timeouts and the fault that a third one in a row brings; PARKED and AWAKE on a fitted channel, which
arrive only while its link is up (log 23, the model's choice); and the expiries of the idle timer, the park and wake
guards, the recheck timer, the probe timeout and the settling guard that are due, with the link up or down. A probe
whose timeout faults the channel leaves tag 0 aborting. A fault raises CHANNEL on both ports and fails every FILLING
slot that has a queued or an unissued segment on the channel, each counted once, with the window entries that pin it; no
other slot changes. And the idle timer as the end of an event leaves it: unset on a channel that is not idle, and set
from now where an idle channel has none and a park time. -/
def Obligations.PowerAndTimers : Prop :=
  (∀ (m : Device) (c : Nat),
    let x := m.channel c
    let y := { x with timeouts := (x.timeouts + 1) % 4294967296, consecutive := x.consecutive + 1 }
    (x.state = .faulted ∨ x.consecutive < 2 → m.countTimeout c = m.setChannel c y) ∧
    (x.state ≠ .faulted → 2 ≤ x.consecutive → m.countTimeout c = (m.setChannel c y).fault c .timeouts)) ∧
  (∀ (s : State) (c : Fin 8),
    let now := s.env.now
    let x := s.part.channel c
    let b := s.part.begin_
    let stray := s.ends (b.setChannel c { x with strays := (x.strays + 1) % 4294967296 })
    let sent (bytes : List Byte) (m : Device) : Device := if x.link = true then m.emit (.link c bytes) else m
    ((c : Nat) < s.env.straps.fitted → x.link = false →
      exec (.parked c) s = .next s ∧ exec (.awake c) s = .next s) ∧
    ((c : Nat) < s.env.straps.fitted → x.link = true →
      (x.state ≠ .parking → exec (.parked c) s = stray) ∧
      (x.state = .parking → s.part.queue c = [] →
        exec (.parked c) s = s.ends (b.setChannel c { x with state := .parked, parkGuard := none })) ∧
      (x.state = .parking → s.part.queue c ≠ [] →
        exec (.parked c) s = s.ends ((b.setChannel c
          { x with state := .waking, parkGuard := none, wakeSent := now, wakeGuard := some (now + 30000000000) }).emit
            (.link c [0x08#8]))) ∧
      (x.state ≠ .waking → exec (.awake c) s = stray) ∧
      (x.state = .waking → exec (.awake c) s = s.ends ((b.setChannel c
        { x with state := .active, wakeGuard := none, wakes := (x.wakes + 1) % 4294967296,
                 wakeEstimate := max 100000000 (min (now - x.wakeSent) 120000000000) }).askChoice c))) ∧
    (∀ u, x.idleTimer = some u → u ≤ now →
      exec (.idleTimerExpiry c) s = s.ends (sent [0x06#8] (b.setChannel c
        { x with state := .parking, idleTimer := none, parkGuard := some (now + 30000000000) }))) ∧
    (∀ u, x.parkGuard = some u → u ≤ now → exec (.parkGuardExpiry c) s = s.ends (b.fault c .parkTimeout)) ∧
    (∀ u, x.wakeGuard = some u → u ≤ now → exec (.wakeGuardExpiry c) s = s.ends (b.fault c .wakeTimeout)) ∧
    (∀ u, x.recheck = some u → u ≤ now →
      exec (.recheckTimerExpiry c) s = s.ends ((b.setChannel c { x with recheck := none }).askChoice c)) ∧
    (x.state ≠ .faulted → ∀ y u, x.char = some y → u ≤ now →
      let counted (char : Characterisation) : Channel :=
        { x with char := some char, timeouts := (x.timeouts + 1) % 4294967296, consecutive := x.consecutive + 1 }
      let settles := { y with phase := .settling (now + 1000000000) }
      (∀ at_ next, y.phase = .probing at_ next u →
        (x.consecutive < 2 → exec (.probeTimeout c) s =
          s.ends ((sent [0x04#8, 0#8] b).setChannel c (counted settles))) ∧
        (2 ≤ x.consecutive → exec (.probeTimeout c) s =
          s.ends ((((sent [0x04#8, 0#8] b).setChannel c (counted settles)).fault c .timeouts).onChannel c fun ch =>
            ch.setTag 0 (.aborting (now + 1000000000))))) ∧
      (y.phase = .settling u →
        (x.consecutive < 2 → exec (.settlingGuardExpiry c) s =
          s.ends ((b.setChannel c (counted y)).endChar c .probeTimeout)) ∧
        (2 ≤ x.consecutive → exec (.settlingGuardExpiry c) s =
          s.ends ((b.setChannel c (counted y)).fault c .timeouts)))) ∧
    (∀ why, ((b.fault c why).channel c).state = .faulted ∧ ((b.fault c why).channel c).fault = some why ∧
      ((b.fault c why).channel c).char = none ∧ ((b.fault c why).channel c).idleTimer = none ∧
      ((b.fault c why).channel c).parkGuard = none ∧ ((b.fault c why).channel c).wakeGuard = none ∧
      ((b.fault c why).channel c).recheck = none)) ∧
  (∀ (m : Device) (c : Nat) (why : FaultReason), Table.wf StreamRec.reset m.streams = true →
    Table.wf Slot.free m.slots = true → Table.wf Request.free m.reqs = true →
    let x := m.channel c
    let t := m.fault c why
    let fails (n : Nat) : Bool := decide ((m.slot n).state = .filling) &&
      (m.slot n).segs.any fun g => decide (g.channel = c ∧ (g.status = .queued ∨ g.status = .unissued))
    let count := m.slots.countP fun e => fails e.1
    (∀ n, fails n = true → t.slot n =
      { m.slot n with state := .failed, cause := some .channelFault, segs := (m.slot n).segs.map fun g =>
          if g.status = .unissued ∨ g.status = .queued then { g with status := .withdrawn } else g }) ∧
    (∀ n, fails n = false → t.slot n = m.slot n) ∧
    (∀ r, t.req r =
      if (m.req r).state = .queued ∧ fails (m.req r).slot = true then Request.free else m.req r) ∧
    (t.queue c = [] ↔
      ∀ r, (m.req r).state = .queued → (m.req r).channel = c → fails (m.req r).slot = true) ∧
    (∀ k, t.stream k =
      { m.stream k with
          window := (m.stream k).window.map fun w =>
            if w.slot.any fails = true then { w with state := .failed } else w }) ∧
    (∀ k, k ∈ t.agenda.checks ↔ k ∈ m.agenda.checks ∨
      ∃ w l, (m.stream k).window = w :: l ∧ w.slot.any fails = true) ∧
    (t.channel c).failedChannel = (if count = 0 then x.failedChannel else (x.failedChannel + count) % 4294967296) ∧
    (∀ j, j ≠ c → t.channel j = { m.channel j with recheck := (t.channel j).recheck }) ∧
    ∀ p, (t.port p).ev =
      if x.char = none then (m.port p).ev.request1 1 else ((m.port p).ev.request1 1).request1 7) ∧
  ∀ (m : Device) (e : Env) (c : Nat), c < e.straps.fitted →
    let t := m.settle e
    let ch := t.channel c
    let idle := ch.state = .active ∧ ch.char = none ∧ t.queue c = [] ∧ ∀ j < 4, ch.tag j = .free
    (idle → ∀ u, (m.channel c).idleTimer = some u → ch.idleTimer = some u) ∧
    (idle → (m.channel c).idleTimer = none →
      ch.idleTimer = if ch.parkMs = 0 then none else some (e.now + ch.parkMs * 1000000)) ∧
    (¬ idle → ch.idleTimer = none)
end

