-- ==== Sys2Proof/Laws/Tables.lean ====
section
/-! SUPPORT. What the table and memory operations do: a read after a write, and the canonical form they keep. -/

namespace Sys2Proof.Machine

section Tables
variable {α : Type} [DecidableEq α] {d : α}

/-! ### Reading -/

@[simp] theorem Table.get_nil (k : Nat) : Table.get d [] k = d := rfl

theorem Table.get_erase (t : Table α) (k j : Nat) :
    Table.get d (t.erase k) j = if j = k then d else Table.get d t j := by
  induction t with
  | nil => simp [Table.erase]
  | cons e t ih =>
    by_cases h : e.1 = k
    · rw [show Table.erase (e :: t) k = Table.erase t k by simp [Table.erase, h], ih, Table.get]
      grind
    · rw [show Table.erase (e :: t) k = e :: Table.erase t k by simp [Table.erase, h], Table.get, ih, Table.get]
      grind

theorem Table.get_insert (t : Table α) (k j : Nat) (v : α) (h : Table.get d t k = d) (hk : ∀ e ∈ t, e.1 ≠ k) :
    Table.get d (Table.insert k v t) j = if j = k then v else Table.get d t j := by
  induction t with
  | nil => simp only [Table.insert, Table.get]; grind
  | cons e t ih =>
    have hk' : ∀ e ∈ t, e.1 ≠ k := fun x hx => hk x (by simp [hx])
    have hg : Table.get d t k = d := by
      have := hk e (by simp)
      simpa [Table.get, this] using h
    simp only [Table.insert]
    split
    · simp only [Table.get, ih hg hk']; grind
    · simp only [Table.get]; grind

theorem Table.mem_erase (t : Table α) (k : Nat) (e : Nat × α) : e ∈ t.erase k ↔ e ∈ t ∧ e.1 ≠ k := by
  simp [Table.erase]

/-- A read after a write: the record written reads as written, every other as before. -/
theorem Table.get_set (t : Table α) (k j : Nat) (v : α) :
    Table.get d (Table.set d t k v) j = if j = k then v else Table.get d t j := by
  unfold Table.set
  split
  · rw [Table.get_erase]; grind
  · rw [Table.get_insert _ _ _ _ (by rw [Table.get_erase]; simp) (fun e he => ((Table.mem_erase t k e).1 he).2),
      Table.get_erase]
    grind

/-! ### The canonical form -/

/-- The canonical form, in words. -/
theorem Table.wf_iff (t : Table α) :
    Table.wf d t = true ↔ t.Pairwise (fun x y => x.1 < y.1) ∧ ∀ e ∈ t, e.2 ≠ d := by
  simp [Table.wf, List.all_eq_true]

theorem Table.wf_erase (t : Table α) (k : Nat) (h : Table.wf d t = true) : Table.wf d (t.erase k) = true := by
  rw [Table.wf_iff] at h ⊢
  exact ⟨h.1.filter _, fun e he => h.2 e ((Table.mem_erase t k e).1 he).1⟩

theorem Table.mem_insert (t : Table α) (k : Nat) (v : α) (e : Nat × α) :
    e ∈ Table.insert k v t ↔ e = (k, v) ∨ e ∈ t := by
  induction t with
  | nil => simp [Table.insert]
  | cons x t ih =>
    simp only [Table.insert]
    split
    · simp only [List.mem_cons, ih]; tauto
    · simp

theorem Table.wf_insert (t : Table α) (k : Nat) (v : α) (h : Table.wf d t = true) (hv : v ≠ d)
    (hk : ∀ e ∈ t, e.1 ≠ k) : Table.wf d (Table.insert k v t) = true := by
  rw [Table.wf_iff] at h ⊢
  refine ⟨?_, fun e he => ?_⟩
  · obtain ⟨h, -⟩ := h
    induction t with
    | nil => simp [Table.insert]
    | cons x t ih =>
      rw [List.pairwise_cons] at h
      simp only [Table.insert]
      split
      · rw [List.pairwise_cons]
        refine ⟨fun e he => ?_, ih (fun e he => hk e (by simp [he])) h.2⟩
        rcases (Table.mem_insert t k v e).1 he with rfl | he
        · assumption
        · exact h.1 e he
      · rw [List.pairwise_cons, List.pairwise_cons]
        have := hk x (by simp)
        refine ⟨fun e he => ?_, h⟩
        rcases List.mem_cons.1 he with rfl | he
        · show k < e.1
          omega
        · have := h.1 e he
          show k < e.1
          omega
  · rcases (Table.mem_insert t k v e).1 he with rfl | he
    · exact hv
    · exact h.2 e he

/-- A write keeps the canonical form. -/
theorem Table.wf_set (t : Table α) (k : Nat) (v : α) (h : Table.wf d t = true) :
    Table.wf d (Table.set d t k v) = true := by
  unfold Table.set
  split
  · exact Table.wf_erase t k h
  · exact Table.wf_insert _ k v (Table.wf_erase t k h) (by assumption) (fun e he => ((Table.mem_erase t k e).1 he).2)

/-- Taking out the record just put in. -/
theorem Table.erase_insert (t : Table α) (k : Nat) (v : α) (h : ∀ e ∈ t, e.1 ≠ k) :
    (Table.insert k v t).erase k = t := by
  induction t with
  | nil => simp [Table.insert, Table.erase]
  | cons e t ih =>
    have he := h e (by simp)
    have ht := ih fun x hx => h x (by simp [hx])
    unfold Table.insert
    split
    · simpa [Table.erase, he] using ht
    · simp only [Table.erase, List.filter_cons, ne_eq, not_true, decide_false, he, not_false_iff, decide_true]
      simpa using fun a b hab => h (a, b) (by simp [hab])

/-- The later of two writes of a record counts. -/
theorem Table.set_set (t : Table α) (k : Nat) (v w : α) :
    Table.set d (Table.set d t k v) k w = Table.set d t k w := by
  have he : (Table.set d t k v).erase k = t.erase k := by
    unfold Table.set
    split
    · simp [Table.erase, List.filter_filter]
    · exact Table.erase_insert _ _ _ fun e h => ((Table.mem_erase _ _ _).1 h).2
  show (if w = d then (Table.set d t k v).erase k else Table.insert k w ((Table.set d t k v).erase k)) = _
  rw [he]
  rfl

/-- A listed record of a canonical table is what its number reads as. -/
theorem Table.get_of_mem (t : Table α) (h : Table.wf d t = true) (e : Nat × α) (he : e ∈ t) :
    Table.get d t e.1 = e.2 := by
  rw [Table.wf_iff] at h
  obtain ⟨h, -⟩ := h
  induction t with
  | nil => simp at he
  | cons x t ih =>
    rw [List.pairwise_cons] at h
    rcases List.mem_cons.1 he with rfl | he
    · simp [Table.get]
    · have := h.1 e he
      rw [Table.get, if_neg (by omega)]
      exact ih he h.2

/-- Whatever a table reads as is the reset record or listed. -/
theorem Table.get_mem_or (t : Table α) (k : Nat) : Table.get d t k = d ∨ (k, Table.get d t k) ∈ t := by
  induction t with
  | nil => simp
  | cons x t ih =>
    obtain ⟨j, v⟩ := x
    by_cases h : j = k
    · subst h
      right
      simp [Table.get]
    · simp only [Table.get, if_neg h, List.mem_cons]
      tauto

/-! ### Lists held in the records -/

theorem Table.erase_of_lt (t : Table α) (k : Nat) (h : ∀ e ∈ t, k < e.1) : t.erase k = t := by
  simp only [Table.erase, List.filter_eq_self, decide_eq_true_eq]
  intro e he
  have := h e he
  omega

theorem Table.get_of_lt (t : Table α) (k : Nat) (h : ∀ e ∈ t, k < e.1) : Table.get d t k = d := by
  induction t with
  | nil => rfl
  | cons x t ih =>
    have := h x (by simp)
    rw [Table.get, if_neg (by omega)]
    exact ih fun e he => h e (by simp [he])

theorem Table.flatMap_erase {β : Type} (f : α → List β) (hd : f d = []) (t : Table α) (k : Nat)
    (h : Table.wf d t = true) :
    (f (Table.get d t k) ++ (t.erase k).flatMap (fun e => f e.2)).Perm (t.flatMap fun e => f e.2) := by
  rw [Table.wf_iff] at h
  obtain ⟨h, -⟩ := h
  induction t with
  | nil => simp [hd, Table.erase]
  | cons x t ih =>
    rw [List.pairwise_cons] at h
    by_cases g : x.1 = k
    · subst g
      have e : Table.erase (x :: t) x.1 = t := by
        rw [← Table.erase_of_lt t x.1 h.1]
        simp [Table.erase, List.filter_filter]
      rw [e, Table.get, if_pos rfl, List.flatMap_cons]
    · have e : Table.erase (x :: t) k = x :: Table.erase t k := by simp [Table.erase, g]
      rw [e, Table.get, if_neg g, List.flatMap_cons, List.flatMap_cons]
      refine List.Perm.trans ?_ ((ih h.2).append_left _)
      rw [← List.append_assoc, ← List.append_assoc]
      exact List.perm_append_comm.append_right _

theorem Table.flatMap_insert {β : Type} (f : α → List β) (t : Table α) (k : Nat) (v : α) :
    ((Table.insert k v t).flatMap fun e => f e.2).Perm (f v ++ t.flatMap fun e => f e.2) := by
  induction t with
  | nil => simp [Table.insert]
  | cons x t ih =>
    unfold Table.insert
    split
    · rw [List.flatMap_cons, List.flatMap_cons]
      refine (ih.append_left _).trans ?_
      rw [← List.append_assoc, ← List.append_assoc]
      exact List.perm_append_comm.append_right _
    · rw [List.flatMap_cons]

/-- A write exchanges what the record held for what it holds now. -/
theorem Table.flatMap_set {β : Type} (f : α → List β) (hd : f d = []) (t : Table α) (k : Nat) (v : α)
    (h : Table.wf d t = true) :
    (f (Table.get d t k) ++ (Table.set d t k v).flatMap fun e => f e.2).Perm (f v ++ t.flatMap fun e => f e.2) := by
  have he := Table.flatMap_erase f hd t k h
  unfold Table.set
  split
  · rename_i g
    rw [g, hd]
    exact he
  · refine ((Table.flatMap_insert f _ k v).append_left _).trans ?_
    rw [← List.append_assoc]
    refine (List.perm_append_comm.append_right _).trans ?_
    rw [List.append_assoc]
    exact he.append_left _

end Tables

/-! ### Memory -/

theorem Memory.get_append (m1 m2 : Memory) (a : Nat) :
    Memory.read (m1 ++ m2) a = if m1.any (fun e => decide (e.1 = a)) then Memory.read m1 a else Memory.read m2 a := by
  induction m1 with
  | nil => simp
  | cons e m ih =>
    simp only [Memory.read] at ih
    simp only [Memory.read, List.cons_append, Table.get, ih, List.any_cons]
    by_cases h : e.1 = a <;> simp [h]

theorem Memory.read_absent (m : Memory) (a : Nat) (h : ∀ e ∈ m, e.1 ≠ a) : m.read a = Memory.unlisted := by
  induction m with
  | nil => rfl
  | cons e m ih =>
    have h1 := h e (by simp)
    simpa [Memory.read, Table.get, h1] using ih (fun x hx => h x (by simp [hx]))

theorem Memory.read_filter (m : Memory) (f : Nat → Bool) (a : Nat) :
    Memory.read (m.filter fun e => f e.1) a = if f a then m.read a else Memory.unlisted := by
  induction m with
  | nil => simp [Memory.read]
  | cons e m ih =>
    simp only [Memory.read] at ih
    by_cases h : f e.1 <;> by_cases h2 : e.1 = a <;> simp_all [Memory.read, Table.get]

theorem Memory.mem_cells (b : Nat) (bytes : List Byte) (e : Nat × Byte) (h : e ∈ Memory.cells b bytes) :
    b ≤ e.1 ∧ e.1 < b + bytes.length ∧ e.2 ≠ Memory.unlisted := by
  induction bytes generalizing b with
  | nil => simp [Memory.cells] at h
  | cons x xs ih =>
    rw [Memory.cells] at h
    rw [List.length_cons]
    split at h
    · have := ih _ h
      exact ⟨by omega, by omega, this.2.2⟩
    · rcases List.mem_cons.1 h with rfl | h
      · exact ⟨le_refl _, by omega, by assumption⟩
      · have := ih _ h
        exact ⟨by omega, by omega, this.2.2⟩

theorem Memory.read_cells (b : Nat) (bytes : List Byte) (a : Nat) :
    Memory.read (Memory.cells b bytes) a = if b ≤ a then (bytes[a - b]?).getD Memory.unlisted else Memory.unlisted := by
  induction bytes generalizing b with
  | nil => simp [Memory.cells, Memory.read]
  | cons x xs ih =>
    have key : Memory.read (Memory.cells b (x :: xs)) a =
        if b = a then x else Memory.read (Memory.cells (b + 1) xs) a := by
      rw [Memory.cells]
      split
      · rename_i hx
        split
        · subst hx
          rename_i h
          rw [ih, if_neg (by omega)]
        · rfl
      · simp only [Memory.read, Table.get]
    rw [key, ih]
    rcases Nat.lt_trichotomy b a with h | h | h
    · rw [if_neg (by omega), if_pos (by omega), if_pos (by omega)]
      rw [show a - b = (a - (b + 1)) + 1 by omega, List.getElem?_cons_succ]
    · subst h
      simp
    · rw [if_neg (by omega), if_neg (by omega), if_neg (by omega)]

/-- A read after a write: the bytes written read as written, every other byte as before. -/
theorem Memory.read_write (m : Memory) (b : Nat) (bytes : List Byte) (a : Nat) :
    (m.write b bytes).read a =
      if b ≤ a ∧ a < b + bytes.length then (bytes[a - b]?).getD Memory.unlisted else m.read a := by
  unfold Memory.write
  rw [List.append_assoc, Memory.get_append, Memory.get_append, Memory.read_filter (f := fun x => decide (x < b)),
    Memory.read_cells, Memory.read_filter (f := fun x => decide (b + bytes.length ≤ x))]
  have h1 : (m.filter fun e => decide (e.1 < b)).any (fun e => decide (e.1 = a)) = true → a < b := by
    simp only [List.any_eq_true, List.mem_filter, decide_eq_true_eq]
    rintro ⟨e, ⟨-, h⟩, rfl⟩
    exact h
  have h2 : (Memory.cells b bytes).any (fun e => decide (e.1 = a)) = true → b ≤ a ∧ a < b + bytes.length := by
    simp only [List.any_eq_true, decide_eq_true_eq]
    rintro ⟨e, h, rfl⟩
    have := Memory.mem_cells b bytes e h
    exact ⟨this.1, this.2.1⟩
  have h3 : (m.filter fun e => decide (e.1 < b)).any (fun e => decide (e.1 = a)) = false → a < b →
      m.read a = Memory.unlisted := by
    intro h hab
    refine Memory.read_absent m a fun e he hea => ?_
    simp only [List.any_eq_false, List.mem_filter, decide_eq_true_eq] at h
    exact h e ⟨he, by omega⟩ hea
  have h4 : (Memory.cells b bytes).any (fun e => decide (e.1 = a)) = false →
      Memory.read (Memory.cells b bytes) a = Memory.unlisted := by
    intro h
    refine Memory.read_absent _ a fun e he hea => ?_
    simp only [List.any_eq_false, decide_eq_true_eq] at h
    exact h e he hea
  rw [Memory.read_cells] at h4
  by_cases c1 : (m.filter fun e => decide (e.1 < b)).any (fun e => decide (e.1 = a)) = true
  · have := h1 c1
    rw [if_pos c1, if_pos (by simpa using this), if_neg (by omega)]
  · rw [if_neg c1]
    rw [Bool.not_eq_true] at c1
    by_cases c2 : (Memory.cells b bytes).any (fun e => decide (e.1 = a)) = true
    · have := h2 c2
      rw [if_pos c2, if_pos this.1, if_pos this]
    · rw [if_neg c2]
      rw [Bool.not_eq_true] at c2
      have h4 := h4 c2
      by_cases h5 : b ≤ a ∧ a < b + bytes.length
      · rw [if_pos h5, if_neg (by simp; omega)]
        rw [if_pos h5.1] at h4
        exact h4.symm
      · rw [if_neg h5]
        by_cases h6 : a < b
        · rw [if_neg (by simp; omega), h3 c1 h6]
        · rw [if_pos (by simp; omega)]

/-- A byte cleared reads as unlisted, every other as before. -/
theorem Memory.read_clear (m : Memory) (b count a : Nat) :
    (m.clear b count).read a = if b ≤ a ∧ a < b + count then Memory.unlisted else m.read a := by
  unfold Memory.clear
  rw [Memory.read_filter (f := fun x => decide (x < b ∨ b + count ≤ x))]
  by_cases h : b ≤ a ∧ a < b + count
  · rw [if_pos h, if_neg (by simp; omega)]
  · rw [if_neg h, if_pos (by simp; omega)]

theorem Memory.cells_sorted (b : Nat) (bytes : List Byte) :
    (Memory.cells b bytes).Pairwise (fun x y => x.1 < y.1) := by
  induction bytes generalizing b with
  | nil => simp [Memory.cells]
  | cons x xs ih =>
    rw [Memory.cells]
    split
    · exact ih _
    · rw [List.pairwise_cons]
      refine ⟨fun e he => ?_, ih _⟩
      have := Memory.mem_cells _ _ e he
      show b < e.1
      omega

/-- A write keeps memory in its canonical form. -/
theorem Memory.wf_write (m : Memory) (b : Nat) (bytes : List Byte) (h : m.wf = true) : (m.write b bytes).wf = true := by
  unfold Memory.wf at *
  rw [Table.wf_iff] at h ⊢
  unfold Memory.write
  refine ⟨?_, fun e he => ?_⟩
  · rw [List.pairwise_append, List.pairwise_append]
    refine ⟨⟨h.1.filter _, Memory.cells_sorted b bytes, fun x hx y hy => ?_⟩, h.1.filter _, fun x hx y hy => ?_⟩
    · have h1 := Memory.mem_cells b bytes y hy
      simp only [List.mem_filter, decide_eq_true_eq] at hx
      omega
    · simp only [List.mem_filter, decide_eq_true_eq] at hy
      rcases List.mem_append.1 hx with hx | hx
      · simp only [List.mem_filter, decide_eq_true_eq] at hx
        omega
      · have h1 := Memory.mem_cells b bytes x hx
        omega
  · rcases List.mem_append.1 he with he | he
    · rcases List.mem_append.1 he with he | he
      · exact h.2 e (List.mem_filter.1 he).1
      · exact (Memory.mem_cells b bytes e he).2.2
    · exact h.2 e (List.mem_filter.1 he).1

/-- Clearing keeps memory in its canonical form. -/
theorem Memory.wf_clear (m : Memory) (b count : Nat) (h : m.wf = true) : (m.clear b count).wf = true := by
  unfold Memory.wf at *
  rw [Table.wf_iff] at h ⊢
  exact ⟨h.1.filter _, fun e he => h.2 e (List.mem_filter.1 he).1⟩

end Sys2Proof.Machine
end

