-- ==== Sys2Proof/Laws/State.lean ====
section
/-! SUPPORT. One lemma for each field under each update of the part: what the setters of Ops.lean leave unchanged, and
what a record reads as after it has been written. -/

namespace Sys2Proof.Machine

variable (m : Device)

/-! ### Fields -/

@[simp] theorem Device.setClip_streams (k : Nat) (v : Clip) : (m.setClip k v).streams = m.streams := rfl
@[simp] theorem Device.setClip_slots (k : Nat) (v : Clip) : (m.setClip k v).slots = m.slots := rfl
@[simp] theorem Device.setClip_freePages (k : Nat) (v : Clip) : (m.setClip k v).freePages = m.freePages := rfl
@[simp] theorem Device.setClip_reclaim (k : Nat) (v : Clip) : (m.setClip k v).reclaim = m.reclaim := rfl
@[simp] theorem Device.setClip_reqs (k : Nat) (v : Clip) : (m.setClip k v).reqs = m.reqs := rfl
@[simp] theorem Device.setClip_grants (k : Nat) (v : Clip) : (m.setClip k v).grants = m.grants := rfl
@[simp] theorem Device.setClip_channels (k : Nat) (v : Clip) : (m.setClip k v).channels = m.channels := rfl
@[simp] theorem Device.setClip_portA (k : Nat) (v : Clip) : (m.setClip k v).portA = m.portA := rfl
@[simp] theorem Device.setClip_portB (k : Nat) (v : Clip) : (m.setClip k v).portB = m.portB := rfl
@[simp] theorem Device.setClip_hau (k : Nat) (v : Clip) : (m.setClip k v).hau = m.hau := rfl
@[simp] theorem Device.setClip_out (k : Nat) (v : Clip) : (m.setClip k v).out = m.out := rfl
@[simp] theorem Device.setClip_agenda (k : Nat) (v : Clip) : (m.setClip k v).agenda = m.agenda := rfl
@[simp] theorem Device.setClip_stream (k : Nat) (v : Clip) (j : Nat) : (m.setClip k v).stream j = m.stream j := rfl
@[simp] theorem Device.setClip_slot (k : Nat) (v : Clip) (j : Nat) : (m.setClip k v).slot j = m.slot j := rfl
@[simp] theorem Device.setClip_req (k : Nat) (v : Clip) (j : Nat) : (m.setClip k v).req j = m.req j := rfl
@[simp] theorem Device.setClip_channel (k : Nat) (v : Clip) (j : Nat) : (m.setClip k v).channel j = m.channel j := rfl
@[simp] theorem Device.setClip_port (k : Nat) (v : Clip) (p : Head) : (m.setClip k v).port p = m.port p := by cases p <;> rfl

@[simp] theorem Device.setStream_clips (k : Nat) (v : StreamRec) : (m.setStream k v).clips = m.clips := rfl
@[simp] theorem Device.setStream_slots (k : Nat) (v : StreamRec) : (m.setStream k v).slots = m.slots := rfl
@[simp] theorem Device.setStream_freePages (k : Nat) (v : StreamRec) : (m.setStream k v).freePages = m.freePages := rfl
@[simp] theorem Device.setStream_reclaim (k : Nat) (v : StreamRec) : (m.setStream k v).reclaim = m.reclaim := rfl
@[simp] theorem Device.setStream_reqs (k : Nat) (v : StreamRec) : (m.setStream k v).reqs = m.reqs := rfl
@[simp] theorem Device.setStream_grants (k : Nat) (v : StreamRec) : (m.setStream k v).grants = m.grants := rfl
@[simp] theorem Device.setStream_channels (k : Nat) (v : StreamRec) : (m.setStream k v).channels = m.channels := rfl
@[simp] theorem Device.setStream_portA (k : Nat) (v : StreamRec) : (m.setStream k v).portA = m.portA := rfl
@[simp] theorem Device.setStream_portB (k : Nat) (v : StreamRec) : (m.setStream k v).portB = m.portB := rfl
@[simp] theorem Device.setStream_hau (k : Nat) (v : StreamRec) : (m.setStream k v).hau = m.hau := rfl
@[simp] theorem Device.setStream_out (k : Nat) (v : StreamRec) : (m.setStream k v).out = m.out := rfl
@[simp] theorem Device.setStream_agenda (k : Nat) (v : StreamRec) : (m.setStream k v).agenda = m.agenda := rfl
@[simp] theorem Device.setStream_clip (k : Nat) (v : StreamRec) (j : Nat) : (m.setStream k v).clip j = m.clip j := rfl
@[simp] theorem Device.setStream_slot (k : Nat) (v : StreamRec) (j : Nat) : (m.setStream k v).slot j = m.slot j := rfl
@[simp] theorem Device.setStream_req (k : Nat) (v : StreamRec) (j : Nat) : (m.setStream k v).req j = m.req j := rfl
@[simp] theorem Device.setStream_channel (k : Nat) (v : StreamRec) (j : Nat) : (m.setStream k v).channel j = m.channel j := rfl
@[simp] theorem Device.setStream_port (k : Nat) (v : StreamRec) (p : Head) : (m.setStream k v).port p = m.port p := by cases p <;> rfl

@[simp] theorem Device.setSlot_clips (k : Nat) (v : Slot) : (m.setSlot k v).clips = m.clips := rfl
@[simp] theorem Device.setSlot_streams (k : Nat) (v : Slot) : (m.setSlot k v).streams = m.streams := rfl
@[simp] theorem Device.setSlot_freePages (k : Nat) (v : Slot) : (m.setSlot k v).freePages = m.freePages := rfl
@[simp] theorem Device.setSlot_reclaim (k : Nat) (v : Slot) : (m.setSlot k v).reclaim = m.reclaim := rfl
@[simp] theorem Device.setSlot_reqs (k : Nat) (v : Slot) : (m.setSlot k v).reqs = m.reqs := rfl
@[simp] theorem Device.setSlot_grants (k : Nat) (v : Slot) : (m.setSlot k v).grants = m.grants := rfl
@[simp] theorem Device.setSlot_channels (k : Nat) (v : Slot) : (m.setSlot k v).channels = m.channels := rfl
@[simp] theorem Device.setSlot_portA (k : Nat) (v : Slot) : (m.setSlot k v).portA = m.portA := rfl
@[simp] theorem Device.setSlot_portB (k : Nat) (v : Slot) : (m.setSlot k v).portB = m.portB := rfl
@[simp] theorem Device.setSlot_hau (k : Nat) (v : Slot) : (m.setSlot k v).hau = m.hau := rfl
@[simp] theorem Device.setSlot_out (k : Nat) (v : Slot) : (m.setSlot k v).out = m.out := rfl
@[simp] theorem Device.setSlot_agenda (k : Nat) (v : Slot) : (m.setSlot k v).agenda = m.agenda := rfl
@[simp] theorem Device.setSlot_clip (k : Nat) (v : Slot) (j : Nat) : (m.setSlot k v).clip j = m.clip j := rfl
@[simp] theorem Device.setSlot_stream (k : Nat) (v : Slot) (j : Nat) : (m.setSlot k v).stream j = m.stream j := rfl
@[simp] theorem Device.setSlot_req (k : Nat) (v : Slot) (j : Nat) : (m.setSlot k v).req j = m.req j := rfl
@[simp] theorem Device.setSlot_channel (k : Nat) (v : Slot) (j : Nat) : (m.setSlot k v).channel j = m.channel j := rfl
@[simp] theorem Device.setSlot_port (k : Nat) (v : Slot) (p : Head) : (m.setSlot k v).port p = m.port p := by cases p <;> rfl

@[simp] theorem Device.setReq_clips (k : Nat) (v : Request) : (m.setReq k v).clips = m.clips := rfl
@[simp] theorem Device.setReq_streams (k : Nat) (v : Request) : (m.setReq k v).streams = m.streams := rfl
@[simp] theorem Device.setReq_slots (k : Nat) (v : Request) : (m.setReq k v).slots = m.slots := rfl
@[simp] theorem Device.setReq_freePages (k : Nat) (v : Request) : (m.setReq k v).freePages = m.freePages := rfl
@[simp] theorem Device.setReq_reclaim (k : Nat) (v : Request) : (m.setReq k v).reclaim = m.reclaim := rfl
@[simp] theorem Device.setReq_grants (k : Nat) (v : Request) : (m.setReq k v).grants = m.grants := rfl
@[simp] theorem Device.setReq_channels (k : Nat) (v : Request) : (m.setReq k v).channels = m.channels := rfl
@[simp] theorem Device.setReq_portA (k : Nat) (v : Request) : (m.setReq k v).portA = m.portA := rfl
@[simp] theorem Device.setReq_portB (k : Nat) (v : Request) : (m.setReq k v).portB = m.portB := rfl
@[simp] theorem Device.setReq_hau (k : Nat) (v : Request) : (m.setReq k v).hau = m.hau := rfl
@[simp] theorem Device.setReq_out (k : Nat) (v : Request) : (m.setReq k v).out = m.out := rfl
@[simp] theorem Device.setReq_agenda (k : Nat) (v : Request) : (m.setReq k v).agenda = m.agenda := rfl
@[simp] theorem Device.setReq_clip (k : Nat) (v : Request) (j : Nat) : (m.setReq k v).clip j = m.clip j := rfl
@[simp] theorem Device.setReq_stream (k : Nat) (v : Request) (j : Nat) : (m.setReq k v).stream j = m.stream j := rfl
@[simp] theorem Device.setReq_slot (k : Nat) (v : Request) (j : Nat) : (m.setReq k v).slot j = m.slot j := rfl
@[simp] theorem Device.setReq_channel (k : Nat) (v : Request) (j : Nat) : (m.setReq k v).channel j = m.channel j := rfl
@[simp] theorem Device.setReq_port (k : Nat) (v : Request) (p : Head) : (m.setReq k v).port p = m.port p := by cases p <;> rfl

@[simp] theorem Device.setChannel_clips (k : Nat) (v : Channel) : (m.setChannel k v).clips = m.clips := rfl
@[simp] theorem Device.setChannel_streams (k : Nat) (v : Channel) : (m.setChannel k v).streams = m.streams := rfl
@[simp] theorem Device.setChannel_slots (k : Nat) (v : Channel) : (m.setChannel k v).slots = m.slots := rfl
@[simp] theorem Device.setChannel_freePages (k : Nat) (v : Channel) : (m.setChannel k v).freePages = m.freePages := rfl
@[simp] theorem Device.setChannel_reclaim (k : Nat) (v : Channel) : (m.setChannel k v).reclaim = m.reclaim := rfl
@[simp] theorem Device.setChannel_reqs (k : Nat) (v : Channel) : (m.setChannel k v).reqs = m.reqs := rfl
@[simp] theorem Device.setChannel_grants (k : Nat) (v : Channel) : (m.setChannel k v).grants = m.grants := rfl
@[simp] theorem Device.setChannel_portA (k : Nat) (v : Channel) : (m.setChannel k v).portA = m.portA := rfl
@[simp] theorem Device.setChannel_portB (k : Nat) (v : Channel) : (m.setChannel k v).portB = m.portB := rfl
@[simp] theorem Device.setChannel_hau (k : Nat) (v : Channel) : (m.setChannel k v).hau = m.hau := rfl
@[simp] theorem Device.setChannel_out (k : Nat) (v : Channel) : (m.setChannel k v).out = m.out := rfl
@[simp] theorem Device.setChannel_agenda (k : Nat) (v : Channel) : (m.setChannel k v).agenda = m.agenda := rfl
@[simp] theorem Device.setChannel_clip (k : Nat) (v : Channel) (j : Nat) : (m.setChannel k v).clip j = m.clip j := rfl
@[simp] theorem Device.setChannel_stream (k : Nat) (v : Channel) (j : Nat) : (m.setChannel k v).stream j = m.stream j := rfl
@[simp] theorem Device.setChannel_slot (k : Nat) (v : Channel) (j : Nat) : (m.setChannel k v).slot j = m.slot j := rfl
@[simp] theorem Device.setChannel_req (k : Nat) (v : Channel) (j : Nat) : (m.setChannel k v).req j = m.req j := rfl
@[simp] theorem Device.setChannel_port (k : Nat) (v : Channel) (p : Head) : (m.setChannel k v).port p = m.port p := by cases p <;> rfl

@[simp] theorem Device.emit_clips (o : Output) : (m.emit o).clips = m.clips := rfl
@[simp] theorem Device.emit_streams (o : Output) : (m.emit o).streams = m.streams := rfl
@[simp] theorem Device.emit_slots (o : Output) : (m.emit o).slots = m.slots := rfl
@[simp] theorem Device.emit_freePages (o : Output) : (m.emit o).freePages = m.freePages := rfl
@[simp] theorem Device.emit_reclaim (o : Output) : (m.emit o).reclaim = m.reclaim := rfl
@[simp] theorem Device.emit_reqs (o : Output) : (m.emit o).reqs = m.reqs := rfl
@[simp] theorem Device.emit_grants (o : Output) : (m.emit o).grants = m.grants := rfl
@[simp] theorem Device.emit_channels (o : Output) : (m.emit o).channels = m.channels := rfl
@[simp] theorem Device.emit_portA (o : Output) : (m.emit o).portA = m.portA := rfl
@[simp] theorem Device.emit_portB (o : Output) : (m.emit o).portB = m.portB := rfl
@[simp] theorem Device.emit_hau (o : Output) : (m.emit o).hau = m.hau := rfl
@[simp] theorem Device.emit_agenda (o : Output) : (m.emit o).agenda = m.agenda := rfl
@[simp] theorem Device.emit_clip (o : Output) (j : Nat) : (m.emit o).clip j = m.clip j := rfl
@[simp] theorem Device.emit_stream (o : Output) (j : Nat) : (m.emit o).stream j = m.stream j := rfl
@[simp] theorem Device.emit_slot (o : Output) (j : Nat) : (m.emit o).slot j = m.slot j := rfl
@[simp] theorem Device.emit_req (o : Output) (j : Nat) : (m.emit o).req j = m.req j := rfl
@[simp] theorem Device.emit_channel (o : Output) (j : Nat) : (m.emit o).channel j = m.channel j := rfl
@[simp] theorem Device.emit_port (o : Output) (p : Head) : (m.emit o).port p = m.port p := by cases p <;> rfl

@[simp] theorem Device.askCheck_clips (k : Nat) : (m.askCheck k).clips = m.clips := rfl
@[simp] theorem Device.askCheck_streams (k : Nat) : (m.askCheck k).streams = m.streams := rfl
@[simp] theorem Device.askCheck_slots (k : Nat) : (m.askCheck k).slots = m.slots := rfl
@[simp] theorem Device.askCheck_freePages (k : Nat) : (m.askCheck k).freePages = m.freePages := rfl
@[simp] theorem Device.askCheck_reclaim (k : Nat) : (m.askCheck k).reclaim = m.reclaim := rfl
@[simp] theorem Device.askCheck_reqs (k : Nat) : (m.askCheck k).reqs = m.reqs := rfl
@[simp] theorem Device.askCheck_grants (k : Nat) : (m.askCheck k).grants = m.grants := rfl
@[simp] theorem Device.askCheck_channels (k : Nat) : (m.askCheck k).channels = m.channels := rfl
@[simp] theorem Device.askCheck_portA (k : Nat) : (m.askCheck k).portA = m.portA := rfl
@[simp] theorem Device.askCheck_portB (k : Nat) : (m.askCheck k).portB = m.portB := rfl
@[simp] theorem Device.askCheck_hau (k : Nat) : (m.askCheck k).hau = m.hau := rfl
@[simp] theorem Device.askCheck_out (k : Nat) : (m.askCheck k).out = m.out := rfl
@[simp] theorem Device.askCheck_clip (k : Nat) (j : Nat) : (m.askCheck k).clip j = m.clip j := rfl
@[simp] theorem Device.askCheck_stream (k : Nat) (j : Nat) : (m.askCheck k).stream j = m.stream j := rfl
@[simp] theorem Device.askCheck_slot (k : Nat) (j : Nat) : (m.askCheck k).slot j = m.slot j := rfl
@[simp] theorem Device.askCheck_req (k : Nat) (j : Nat) : (m.askCheck k).req j = m.req j := rfl
@[simp] theorem Device.askCheck_channel (k : Nat) (j : Nat) : (m.askCheck k).channel j = m.channel j := rfl
@[simp] theorem Device.askCheck_port (k : Nat) (p : Head) : (m.askCheck k).port p = m.port p := by cases p <;> rfl

@[simp] theorem Device.askChoice_clips (c : Nat) : (m.askChoice c).clips = m.clips := rfl
@[simp] theorem Device.askChoice_streams (c : Nat) : (m.askChoice c).streams = m.streams := rfl
@[simp] theorem Device.askChoice_slots (c : Nat) : (m.askChoice c).slots = m.slots := rfl
@[simp] theorem Device.askChoice_freePages (c : Nat) : (m.askChoice c).freePages = m.freePages := rfl
@[simp] theorem Device.askChoice_reclaim (c : Nat) : (m.askChoice c).reclaim = m.reclaim := rfl
@[simp] theorem Device.askChoice_reqs (c : Nat) : (m.askChoice c).reqs = m.reqs := rfl
@[simp] theorem Device.askChoice_grants (c : Nat) : (m.askChoice c).grants = m.grants := rfl
@[simp] theorem Device.askChoice_channels (c : Nat) : (m.askChoice c).channels = m.channels := rfl
@[simp] theorem Device.askChoice_portA (c : Nat) : (m.askChoice c).portA = m.portA := rfl
@[simp] theorem Device.askChoice_portB (c : Nat) : (m.askChoice c).portB = m.portB := rfl
@[simp] theorem Device.askChoice_hau (c : Nat) : (m.askChoice c).hau = m.hau := rfl
@[simp] theorem Device.askChoice_out (c : Nat) : (m.askChoice c).out = m.out := rfl
@[simp] theorem Device.askChoice_clip (c : Nat) (j : Nat) : (m.askChoice c).clip j = m.clip j := rfl
@[simp] theorem Device.askChoice_stream (c : Nat) (j : Nat) : (m.askChoice c).stream j = m.stream j := rfl
@[simp] theorem Device.askChoice_slot (c : Nat) (j : Nat) : (m.askChoice c).slot j = m.slot j := rfl
@[simp] theorem Device.askChoice_req (c : Nat) (j : Nat) : (m.askChoice c).req j = m.req j := rfl
@[simp] theorem Device.askChoice_channel (c : Nat) (j : Nat) : (m.askChoice c).channel j = m.channel j := rfl
@[simp] theorem Device.askChoice_port (c : Nat) (p : Head) : (m.askChoice c).port p = m.port p := by cases p <;> rfl

@[simp] theorem Device.askRetry_clips : (m.askRetry).clips = m.clips := rfl
@[simp] theorem Device.askRetry_streams : (m.askRetry).streams = m.streams := rfl
@[simp] theorem Device.askRetry_slots : (m.askRetry).slots = m.slots := rfl
@[simp] theorem Device.askRetry_freePages : (m.askRetry).freePages = m.freePages := rfl
@[simp] theorem Device.askRetry_reclaim : (m.askRetry).reclaim = m.reclaim := rfl
@[simp] theorem Device.askRetry_reqs : (m.askRetry).reqs = m.reqs := rfl
@[simp] theorem Device.askRetry_grants : (m.askRetry).grants = m.grants := rfl
@[simp] theorem Device.askRetry_channels : (m.askRetry).channels = m.channels := rfl
@[simp] theorem Device.askRetry_portA : (m.askRetry).portA = m.portA := rfl
@[simp] theorem Device.askRetry_portB : (m.askRetry).portB = m.portB := rfl
@[simp] theorem Device.askRetry_hau : (m.askRetry).hau = m.hau := rfl
@[simp] theorem Device.askRetry_out : (m.askRetry).out = m.out := rfl
@[simp] theorem Device.askRetry_clip (j : Nat) : (m.askRetry).clip j = m.clip j := rfl
@[simp] theorem Device.askRetry_stream (j : Nat) : (m.askRetry).stream j = m.stream j := rfl
@[simp] theorem Device.askRetry_slot (j : Nat) : (m.askRetry).slot j = m.slot j := rfl
@[simp] theorem Device.askRetry_req (j : Nat) : (m.askRetry).req j = m.req j := rfl
@[simp] theorem Device.askRetry_channel (j : Nat) : (m.askRetry).channel j = m.channel j := rfl
@[simp] theorem Device.askRetry_port (p : Head) : (m.askRetry).port p = m.port p := by cases p <;> rfl

@[simp] theorem Device.setPort_clips (p : Head) (v : Port) : (m.setPort p v).clips = m.clips := by cases p <;> rfl
@[simp] theorem Device.setPort_streams (p : Head) (v : Port) : (m.setPort p v).streams = m.streams := by cases p <;> rfl
@[simp] theorem Device.setPort_slots (p : Head) (v : Port) : (m.setPort p v).slots = m.slots := by cases p <;> rfl
@[simp] theorem Device.setPort_freePages (p : Head) (v : Port) : (m.setPort p v).freePages = m.freePages := by cases p <;> rfl
@[simp] theorem Device.setPort_reclaim (p : Head) (v : Port) : (m.setPort p v).reclaim = m.reclaim := by cases p <;> rfl
@[simp] theorem Device.setPort_reqs (p : Head) (v : Port) : (m.setPort p v).reqs = m.reqs := by cases p <;> rfl
@[simp] theorem Device.setPort_grants (p : Head) (v : Port) : (m.setPort p v).grants = m.grants := by cases p <;> rfl
@[simp] theorem Device.setPort_channels (p : Head) (v : Port) : (m.setPort p v).channels = m.channels := by cases p <;> rfl
@[simp] theorem Device.setPort_hau (p : Head) (v : Port) : (m.setPort p v).hau = m.hau := by cases p <;> rfl
@[simp] theorem Device.setPort_out (p : Head) (v : Port) : (m.setPort p v).out = m.out := by cases p <;> rfl
@[simp] theorem Device.setPort_agenda (p : Head) (v : Port) : (m.setPort p v).agenda = m.agenda := by cases p <;> rfl
@[simp] theorem Device.setPort_clip (p : Head) (v : Port) (j : Nat) : (m.setPort p v).clip j = m.clip j := by cases p <;> rfl
@[simp] theorem Device.setPort_stream (p : Head) (v : Port) (j : Nat) : (m.setPort p v).stream j = m.stream j := by cases p <;> rfl
@[simp] theorem Device.setPort_slot (p : Head) (v : Port) (j : Nat) : (m.setPort p v).slot j = m.slot j := by cases p <;> rfl
@[simp] theorem Device.setPort_req (p : Head) (v : Port) (j : Nat) : (m.setPort p v).req j = m.req j := by cases p <;> rfl
@[simp] theorem Device.setPort_channel (p : Head) (v : Port) (j : Nat) : (m.setPort p v).channel j = m.channel j := by cases p <;> rfl

/-! ### A record after it has been written -/

theorem Device.port_setPort (p q : Head) (v : Port) : (m.setPort p v).port q = if q = p then v else m.port q := by
  cases p <;> cases q <;> rfl

@[simp] theorem Device.port_setPort_same (p : Head) (v : Port) : (m.setPort p v).port p = v := by cases p <;> rfl

@[simp] theorem Device.port_setPort_other (p : Head) (v : Port) : (m.setPort p v).port p.other = m.port p.other := by
  cases p <;> rfl

@[simp] theorem Device.port_other_setPort (p : Head) (v : Port) : (m.setPort p.other v).port p = m.port p := by
  cases p <;> rfl

theorem Device.clip_setClip (k j : Nat) (v : Clip) : (m.setClip k v).clip j = if j = k then v else m.clip j := Table.get_set _ _ _ _

@[simp] theorem Device.clip_setClip_same (k : Nat) (v : Clip) : (m.setClip k v).clip k = v := by
  rw [Device.clip_setClip, if_pos rfl]

theorem Device.stream_setStream (k j : Nat) (v : StreamRec) : (m.setStream k v).stream j = if j = k then v else m.stream j := Table.get_set _ _ _ _

@[simp] theorem Device.stream_setStream_same (k : Nat) (v : StreamRec) : (m.setStream k v).stream k = v := by
  rw [Device.stream_setStream, if_pos rfl]

theorem Device.slot_setSlot (k j : Nat) (v : Slot) : (m.setSlot k v).slot j = if j = k then v else m.slot j := Table.get_set _ _ _ _

@[simp] theorem Device.slot_setSlot_same (k : Nat) (v : Slot) : (m.setSlot k v).slot k = v := by
  rw [Device.slot_setSlot, if_pos rfl]

theorem Device.req_setReq (k j : Nat) (v : Request) : (m.setReq k v).req j = if j = k then v else m.req j := Table.get_set _ _ _ _

@[simp] theorem Device.req_setReq_same (k : Nat) (v : Request) : (m.setReq k v).req k = v := by
  rw [Device.req_setReq, if_pos rfl]

theorem Device.channel_setChannel (k j : Nat) (v : Channel) : (m.setChannel k v).channel j = if j = k then v else m.channel j := Table.get_set _ _ _ _

@[simp] theorem Device.channel_setChannel_same (k : Nat) (v : Channel) : (m.setChannel k v).channel k = v := by
  rw [Device.channel_setChannel, if_pos rfl]

/-! ### The HAU -/

theorem Hau.head_setHead (h : Hau) (p q : Head) (v : HeadRecord) :
    (h.setHead p v).head q = if q = p then v else h.head q := by
  cases p <;> cases q <;> rfl

@[simp] theorem Hau.head_setHead_same (h : Hau) (p : Head) (v : HeadRecord) : (h.setHead p v).head p = v := by
  cases p <;> rfl

@[simp] theorem Hau.head_setHead_other (h : Hau) (p : Head) (v : HeadRecord) :
    (h.setHead p v).head p.other = h.head p.other := by
  cases p <;> rfl

@[simp] theorem Hau.setHead_primary (h : Hau) (p : Head) (v : HeadRecord) : (h.setHead p v).primary = h.primary := by
  cases p <;> rfl

@[simp] theorem Hau.setHead_settleTimer (h : Hau) (p : Head) (v : HeadRecord) :
    (h.setHead p v).settleTimer = h.settleTimer := by
  cases p <;> rfl

@[simp] theorem Hau.setHead_first (h : Hau) (p : Head) (v : HeadRecord) : (h.setHead p v).first = h.first := by
  cases p <;> rfl

/-! ### Tags -/

theorem Channel.tag_setTag (x : Channel) (t u : Nat) (v : Tag) : (x.setTag t v).tag u = if u = t then v else x.tag u :=
  Table.get_set _ _ _ _

/-! ### Messages and the link -/

/-- What a message to an adapter does: it is sent where the link is up, and nothing happens where it is down (R115). -/
theorem Device.send_eq (c : Nat) (x : LinkMessage) :
    m.send c x = if (m.channel c).link = true then m.emit (.link c x.bytes) else m := rfl

/-- A message of an adapter of a fitted channel takes effect while the link is up (R115). -/
theorem State.onLink_up {s : State} {c : Nat} (a : Answer) (fitted : c < s.env.straps.fitted)
    (up : (s.part.channel c).link = true) : s.onLink c a = a :=
  (if_pos fitted).trans (if_pos up)

/-- A message that reaches a link that is down is lost (R115). -/
theorem State.onLink_down {s : State} {c : Nat} (a : Answer) (down : (s.part.channel c).link = false) :
    s.onLink c a = .next s := by
  unfold State.onLink State.onFitted
  simp [down]

/-! ### The data mover -/

theorem readEntries_pos (address : Nat) {remaining : Nat} : 1 ≤ readEntries address remaining := Nat.le_max_left ..

theorem readEntries_le (address : Nat) {remaining : Nat} (h : 1 ≤ remaining) : readEntries address remaining ≤ remaining :=
  Nat.max_le.2 ⟨h, Nat.min_le_right ..⟩

variable (v : Mover) (now : Time)

@[simp] theorem Mover.startRead_address : (v.startRead now).address = v.address := rfl
@[simp] theorem Mover.startRead_remaining : (v.startRead now).remaining = v.remaining := rfl
@[simp] theorem Mover.startRead_inRead : (v.startRead now).inRead = readEntries v.address v.remaining := rfl
@[simp] theorem Mover.startRead_since : (v.startRead now).since = now := rfl
@[simp] theorem Mover.startRead_clip : (v.startRead now).clip = v.clip := rfl
@[simp] theorem Mover.startRead_generation : (v.startRead now).generation = v.generation := rfl
@[simp] theorem Mover.startRead_frame : (v.startRead now).frame = v.frame := rfl
@[simp] theorem Mover.startRead_completion (status : Status) : (v.startRead now).completion status = v.completion status :=
  rfl

end Sys2Proof.Machine
end

