-- ==== Sys2Proof/Laws/Streams.lean ====
section
/-! SUPPORT. The changes of one stream record: which of them keep a legal record legal, and which leave the settled
fields as they are. -/

namespace Sys2Proof.Machine

/-- A change of a stream record that the end of an event may make: the settled fields stay, and a legal record stays
legal. -/
def StreamRec.Step (x y : StreamRec) : Prop := StreamRec.Settled x y ∧ (x.Legal → y.Legal)

theorem StreamRec.Settled.refl (x : StreamRec) : StreamRec.Settled x x := by constructor <;> simp

theorem StreamRec.Settled.trans {x y z : StreamRec} (h : StreamRec.Settled x y) (g : StreamRec.Settled y z) :
    StreamRec.Settled x z := by
  obtain ⟨a1, a2, a3, a4, a5, a6⟩ := h
  obtain ⟨b1, b2, b3, b4, b5, b6⟩ := g
  constructor <;> simp_all

theorem StreamRec.Step.refl (x : StreamRec) : StreamRec.Step x x := ⟨StreamRec.Settled.refl x, id⟩

theorem StreamRec.Step.trans {x y z : StreamRec} (h : StreamRec.Step x y) (g : StreamRec.Step y z) :
    StreamRec.Step x z := ⟨h.1.trans g.1, fun l => g.2 (h.2 l)⟩

/-! ### Directions -/

theorem StreamRec.dir_cases (x : StreamRec) : x.dir = 1 ∨ x.dir = -1 := by
  unfold StreamRec.dir
  split
  · split <;> simp
  · rcases lt_trichotomy x.s 0 with h | h | h
    · exact .inr (Int.sign_eq_neg_one_of_neg h)
    · contradiction
    · exact .inl (Int.sign_eq_one_of_pos h)

theorem strideOf_pos (s : Int) : 1 ≤ strideOf s := by
  unfold strideOf
  split <;> omega

theorem Channel.Settled.refl (x : Channel) : Channel.Settled x x := by constructor <;> simp

theorem Channel.Settled.trans {x y z : Channel} (h : Channel.Settled x y) (g : Channel.Settled y z) :
    Channel.Settled x z := by
  obtain ⟨a1, a2, a3, a4, a5, a6⟩ := h
  obtain ⟨b1, b2, b3, b4, b5, b6⟩ := g
  constructor <;> simp_all

theorem Port.Settled.refl (x : Port) : Port.Settled x x := by constructor <;> simp

theorem Port.Settled.trans {x y z : Port} (h : Port.Settled x y) (g : Port.Settled y z) : Port.Settled x z := by
  obtain ⟨a1, a2, a3, a4, a5, a6, a7, a8, a9⟩ := h
  obtain ⟨b1, b2, b3, b4, b5, b6, b7, b8, b9⟩ := g
  constructor <;> simp_all

/-! ### Outbox -/

/-- A change of the outbox, the missed count, end pending and totals alone keeps a legal record legal where the outbox
stays within its places and empty in CLOSED. -/
theorem StreamRec.Legal.of_notices {x y : StreamRec} (h : x.Legal)
    (same : y.delivery = x.delivery ∧ y.c = x.c ∧ y.w = x.w ∧ y.seat = x.seat ∧ y.window = x.window ∧
      y.inPoint = x.inPoint ∧ y.outPoint = x.outPoint ∧ y.state = x.state ∧ y.loop = x.loop ∧ y.n = x.n ∧
      y.s = x.s ∧ y.savedS = x.savedS ∧ y.handoverTimer = x.handoverTimer ∧ y.orphanTimer = x.orphanTimer)
    (len : y.outbox.length ≤ 12) (shut : x.state = .closed → y.outbox = []) : y.Legal := by
  obtain ⟨e1, e2, e3, e4, e5, e6, e7, e8, e9, e10, e11, e12, e13, e14⟩ := same
  constructor
  · exact len
  · rw [e1, e2]; exact h.credit
  · rw [e2, e3, e4]; exact h.settings
  · rw [e5, e3]; exact h.depth
  · rw [e5]; exact h.indices
  · rw [e6, e7]; exact h.range
  · rw [e8, e9, e6, e7, e10]; exact h.index
  · rw [e8, e5, e1]; exact fun hc => ⟨(h.closed hc).1, (h.closed hc).2.1, shut hc⟩
  · rw [e8, e5]; exact h.closing
  · rw [e8, e11]; exact h.stopped
  · rw [e8, e11]; exact h.playing
  · rw [e11]; exact h.factor
  · rw [e8, e11, e12]; exact h.handover
  · rw [e8, e12]; exact h.orphaned
  · rw [e8, e12]; exact h.saved
  · rw [e8, e13]; exact h.handoverTimer
  · rw [e8, e14]; exact h.orphanTimer

theorem StreamRec.queueMissed_step (x : StreamRec) (room : x.Legal → x.outbox.length + 1 ≤ 12 ∧ x.state ≠ .closed) :
    StreamRec.Step x x.queueMissed := by
  refine ⟨by constructor <;> simp [StreamRec.queueMissed], fun h => h.of_notices (by simp [StreamRec.queueMissed]) ?_ ?_⟩
  · simpa [StreamRec.queueMissed] using (room h).1
  · exact fun hc => absurd hc (room h).2

theorem StreamRec.missable_not_closed {x : StreamRec} (h : x.missable = true) : x.state ≠ .closed := by
  intro hc
  simp [StreamRec.missable, hc] at h

theorem StreamRec.missedAlone_step (x : StreamRec) : StreamRec.Step x x.missedAlone := by
  unfold StreamRec.missedAlone
  split
  · rename_i h
    rw [Bool.and_eq_true, List.isEmpty_iff] at h
    exact x.queueMissed_step fun _ => ⟨by simp [h.1], x.missable_not_closed h.2⟩
  · exact .refl x

theorem StreamRec.queueEnd_settled (x : StreamRec) (bound : Nat) : StreamRec.Settled x (x.queueEnd bound) := by
  unfold StreamRec.queueEnd
  split_ifs <;> constructor <;> simp [StreamRec.queueMissed]

/-- Queuing an END keeps a legal record legal where it is not CLOSED. -/
theorem StreamRec.queueEnd_legal {x : StreamRec} (h : x.Legal) (open_ : x.state ≠ .closed) (bound : Nat) :
    (x.queueEnd bound).Legal := by
  unfold StreamRec.queueEnd
  split_ifs with h1 h2
  · exact h.of_notices (by simp) h.outbox (fun hc => absurd hc open_)
  · simp only [Bool.and_eq_true, decide_eq_true_eq] at h2
    exact h.of_notices (by simp [StreamRec.queueMissed]) (by simp [StreamRec.queueMissed, Config.outboxPlaces] at h2 ⊢; omega)
      (fun hc => absurd hc open_)
  · simp only [Bool.or_eq_true, decide_eq_true_eq, not_or, not_le] at h1
    exact h.of_notices (by simp) (by simp [Config.outboxPlaces] at h1 ⊢; omega) (fun hc => absurd hc open_)

theorem StreamRec.queueEnd_state (x : StreamRec) (bound : Nat) : (x.queueEnd bound).state = x.state := by
  unfold StreamRec.queueEnd
  split_ifs <;> rfl

theorem StreamRec.joinPending_step (x : StreamRec) : x.Legal → x.state ≠ .closed → x.joinPending.Legal := by
  intro h open_
  unfold StreamRec.joinPending
  split
  · exact h
  · split
    · exact StreamRec.queueEnd_legal (h.of_notices (y := { x with endPending := none }) (by simp) h.outbox
        (fun hc => absurd hc open_)) open_ _
    · exact h

/-! ### The end of a range and the step of N -/

theorem StreamRec.endRange_settled (x : StreamRec) (now : Time) : StreamRec.Settled x (x.endRange now) :=
  StreamRec.Settled.trans (y := { x with
      state := if decide (x.state = .handover) then .handover else .cued,
      savedS := if decide (x.state = .handover) then some 0 else x.savedS,
      n := ((if 0 < x.dir then x.outPoint else x.inPoint : Nat) : Int),
      f0q := ((if 0 < x.dir then x.outPoint else x.inPoint : Nat) : Int) * 65536, t0 := now, s := 0,
      stillDelivered := true, passPending := true }) (by constructor <;> simp) (StreamRec.queueEnd_settled _ _)

/-- The end of the range leaves a legal record where the stream was running: PLAYING or in HANDOVER. -/
theorem StreamRec.endRange_legal {x : StreamRec} (now : Time) (out : x.outbox.length ≤ 12)
    (credit : x.delivery.length ≤ x.c) (settings : 1 ≤ x.c ∧ x.c ≤ 8 ∧ 1 ≤ x.w ∧ x.w ≤ 48 ∧ x.seat ≤ 3)
    (depth : x.window.length ≤ x.w) (indices : (x.window.map (·.u)).Nodup) (range : x.inPoint ≤ x.outPoint)
    (run : x.state = .playing ∨ x.state = .handover) (saved : x.state = .playing → x.savedS = none)
    (ht : x.handoverTimer ≠ none → x.state = .handover) (ot : x.orphanTimer = none) : (x.endRange now).Legal := by
  unfold StreamRec.endRange
  refine StreamRec.queueEnd_legal ?_ ?_ _
  · constructor <;> try assumption
    · intro _ _
      simp only
      split <;> constructor <;> omega
    · simp only; rcases run with r | r <;> simp [r]
    · simp only; rcases run with r | r <;> simp [r]
    · simp
    · simp only; rcases run with r | r <;> simp [r]
    · simp
    · simp only; rcases run with r | r <;> simp [r]
    · simp only; rcases run with r | r <;> simp [r]
    · simp only
      rcases run with r | r
      · simp [r, saved r]
      · simp [r]
    · simp only
      intro h
      have := ht h
      simp [this]
    · simp [ot]
  · simp only
    rcases run with r | r <;> simp [r]

theorem StreamRec.stepOn_settled (x : StreamRec) (now : Time) : StreamRec.Settled x (x.stepOn now) := by
  unfold StreamRec.stepOn
  simp only
  have h0 : StreamRec.Settled x { x with n := x.n + x.stride * x.dir } := by constructor <;> simp
  split
  · exact h0.trans (StreamRec.endRange_settled _ _)
  · exact h0

/-- A running stream. -/
def StreamRec.Running (x : StreamRec) : Prop := (x.state = .playing ∨ x.state = .handover) ∧ x.s ≠ 0

/-- The step of N keeps a legal running stream legal, whatever its window and notices became meanwhile. -/
theorem StreamRec.stepOn_legal {x : StreamRec} (h : x.Legal) (now : Time) (run : x.Running) : (x.stepOn now).Legal := by
  obtain ⟨run, hs⟩ := run
  have saved : x.state = .playing → x.savedS = none := by
    intro hp
    by_contra hn
    rcases h.saved hn with e | e <;> rw [hp] at e <;> cases e
  have ot : x.orphanTimer = none := by
    by_contra hn
    have := h.orphanTimer hn
    rcases run with r | r <;> rw [r] at this <;> cases this
  unfold StreamRec.stepOn
  simp only
  split
  · exact StreamRec.endRange_legal now h.outbox h.credit h.settings h.depth h.indices h.range run saved h.handoverTimer ot
  · rename_i hb
    have hopen : x.state ≠ .closed := by rcases run with r | r <;> simp [r]
    refine { h with index := fun _ hl => ?_ }
    change x.loop = false at hl
    obtain ⟨i1, i2⟩ := h.index hopen hl
    have hst := strideOf_pos x.s
    have hd := x.dir_cases
    change ¬ (!x.loop && ((decide (0 < x.dir) && decide ((x.outPoint : Int) < x.n + x.stride * x.dir)) ||
      (decide (x.dir < 0) && decide (x.n + x.stride * x.dir < x.inPoint)))) = true at hb
    rcases hd with hd | hd
    · simp [hd, hl, StreamRec.stride] at hb ⊢
      constructor <;> omega
    · simp [hd, hl, StreamRec.stride] at hb ⊢
      constructor <;> omega

theorem StreamRec.trigger_step (x : StreamRec) : StreamRec.Step x x.trigger :=
  ⟨by constructor <;> simp [StreamRec.trigger], fun h => h.of_notices (by simp [StreamRec.trigger]) h.outbox
    (fun hc => (h.closed hc).2.2)⟩

theorem StreamRec.stepN_settled (x : StreamRec) (now : Time) : StreamRec.Settled x (x.stepN now) :=
  x.trigger_step.1.trans (StreamRec.stepOn_settled _ _)

theorem StreamRec.stepN_legal {x : StreamRec} (h : x.Legal) (now : Time) (run : x.Running) : (x.stepN now).Legal :=
  StreamRec.stepOn_legal (x.trigger_step.2 h) now run

/-! ### Misses -/

theorem foldMiss_length {frame : Nat} {l q : List Notice} (h : foldMiss frame l = some q) : q.length = l.length := by
  induction l generalizing q with
  | nil => simp [foldMiss] at h
  | cons y t ih =>
    cases t with
    | nil => cases y <;> simp [foldMiss] at h; simp [← h]
    | cons z t =>
      have : foldMiss frame (y :: z :: t) = (foldMiss frame (z :: t)).map (y :: ·) := by cases y <;> rfl
      rw [this, Option.map_eq_some_iff] at h
      obtain ⟨q', h1, rfl⟩ := h
      simp [ih h1]

theorem StreamRec.countMiss_legal {x : StreamRec} (h : x.Legal) (marked : Bool) (frame : Nat) :
    (x.countMiss marked frame).Legal := by
  unfold StreamRec.countMiss
  simp only
  split
  · rename_i q hq
    split at hq
    · simp at hq
    · have := foldMiss_length hq
      refine h.of_notices (by simp) (by simp only [this]; exact h.outbox) fun hc => ?_
      have h0 := (h.closed hc).2.2
      simp only [h0] at this
      exact List.length_eq_zero_iff.1 this
  · exact h.of_notices (by simp) h.outbox (fun hc => (h.closed hc).2.2)

theorem StreamRec.countMiss_same (x : StreamRec) (marked : Bool) (frame : Nat) :
    (x.countMiss marked frame).state = x.state ∧ (x.countMiss marked frame).s = x.s := by
  unfold StreamRec.countMiss
  simp only
  split <;> simp

/-! ### Lists -/

/-- A shorter window keeps a legal record legal. -/
theorem StreamRec.Legal.of_window {x : StreamRec} (h : x.Legal) {l : List WinEntry} (sub : l.Sublist x.window) :
    ({ x with window := l } : StreamRec).Legal := by
  exact { h with
    depth := le_trans sub.length_le h.depth
    indices := h.indices.sublist (sub.map _)
    closed := fun hc => ⟨List.sublist_nil.1 ((h.closed hc).1 ▸ sub), (h.closed hc).2⟩
    closing := fun hc => List.sublist_nil.1 (h.closing hc ▸ sub) }

/-- A change of window entries that keeps their indices keeps a legal record legal. -/
theorem StreamRec.Legal.of_map {x : StreamRec} (h : x.Legal) (f : WinEntry → WinEntry) (same : ∀ w, (f w).u = w.u) :
    ({ x with window := x.window.map f } : StreamRec).Legal := by
  exact { h with
    depth := by simpa using h.depth
    indices := by simpa [Function.comp_def, same] using h.indices
    closed := fun hc => by simpa [(h.closed hc).1] using (h.closed hc).2
    closing := fun hc => by simp [h.closing hc] }

/-- A shorter delivery list keeps a legal record legal. -/
theorem StreamRec.Legal.of_delivery {x : StreamRec} (h : x.Legal) {l : List DelEntry} (len : l.length ≤ x.delivery.length) :
    ({ x with delivery := l } : StreamRec).Legal := by
  exact { h with
    credit := le_trans len h.credit
    closed := fun hc => ⟨(h.closed hc).1, List.length_eq_zero_iff.1 (by simpa [(h.closed hc).2.1] using len),
      (h.closed hc).2.2⟩ }

/-! ### Delivery -/

/-- What a deliverable head says of its stream (R65). -/
theorem StreamRec.deliverable_cases {x : StreamRec} {w : WinEntry} (h : x.deliverable = some w) :
    (∃ l, x.window = w :: l) ∧ (x.state = .playing ∨ x.state = .cued ∧ x.stillDelivered = false) ∧
    x.ownerAbsent = false ∧ w.u = x.n ∧ x.display w.u ≠ .past ∧ (w.state = .staged ∨ w.state = .failed) ∧
    x.delivery.length < x.c ∧ x.endPending = none ∧ x.outbox.length + x.noticesDue ≤ 12 := by
  unfold StreamRec.deliverable at h
  split at h
  · simp at h
  · rename_i v l hl
    split at h
    · rename_i hc
      simp only [Option.some.injEq] at h
      subst h
      simp only [Bool.and_eq_true, Bool.or_eq_true, decide_eq_true_eq, Bool.not_eq_true', ne_eq] at hc
      obtain ⟨⟨⟨⟨⟨⟨⟨h1, h2⟩, h3⟩, h4⟩, h5⟩, h6⟩, h7⟩, h8⟩ := hc
      exact ⟨⟨l, hl⟩, h1, h2, h3, h4, h5, h6, h7, h8⟩
    · simp at h

theorem StreamRec.delivered_settled (x : StreamRec) (now : Time) (w : WinEntry) (y : Notice) (slot : Option Nat) :
    StreamRec.Settled x (x.delivered now w y slot) := by
  unfold StreamRec.delivered
  simp only
  have h1 : StreamRec.Settled x (if x.missable then x.queueMissed else x) := by
    split
    · constructor <;> simp [StreamRec.queueMissed]
    · exact .refl x
  split
  · exact StreamRec.Settled.trans (h1.trans (by constructor <;> simp)) (StreamRec.stepN_settled _ now)
  · exact h1.trans (by constructor <;> simp)

theorem StreamRec.delivered_legal {x : StreamRec} (h : x.Legal) {w : WinEntry} (d : x.deliverable = some w) (now : Time)
    (y : Notice) (slot : Option Nat) : (x.delivered now w y slot).Legal := by
  obtain ⟨⟨l, hl⟩, hst, -, -, -, -, hc, -, ho⟩ := x.deliverable_cases d
  have open_ : x.state ≠ .closed := by rcases hst with r | r <;> simp [r]
  have h1 : (if x.missable then x.queueMissed else x).Legal ∧
      (if x.missable then x.queueMissed else x).outbox.length + 1 ≤ 12 := by
    unfold StreamRec.noticesDue at ho
    split
    · rename_i hm
      rw [if_pos hm] at ho
      exact ⟨(x.queueMissed_step fun _ => ⟨by omega, open_⟩).2 h, by simp [StreamRec.queueMissed]; omega⟩
    · rename_i hm
      rw [if_neg hm] at ho
      exact ⟨h, ho⟩
  have same : ∀ z : StreamRec, z = (if x.missable then x.queueMissed else x) →
      z.state = x.state ∧ z.s = x.s ∧ z.delivery = x.delivery ∧ z.c = x.c ∧ z.window = x.window := by
    rintro z rfl
    split <;> simp [StreamRec.queueMissed]
  unfold StreamRec.delivered
  simp only
  generalize hz : (if x.missable = true then x.queueMissed else x) = z at h1 same ⊢
  obtain ⟨hz1, hz2⟩ := h1
  obtain ⟨e1, e2, e3, e4, e5⟩ := same z rfl
  have h2 : ∀ (p : Bool) (q : Bool) (a b : Nat), ({ z with
      outbox := z.outbox ++ [y], window := z.window.tail, delivery := z.delivery ++ [DelEntry.mk z.nextSeq slot],
      nextSeq := (z.nextSeq + 1) % 65536, lateTotal := a, failedTotal := b,
      stillDelivered := p, passPending := q } : StreamRec).Legal := by
    intro p q a b
    have hw := hz1.of_window (l := z.window.tail) (List.tail_sublist _)
    have open' : z.state ≠ .closed := by rw [e1]; exact open_
    exact { hw with
      outbox := by simpa using hz2
      credit := by simp only [List.length_append, List.length_singleton, e3, e4]; omega
      closed := fun hcl => absurd hcl open' }
  split
  · rename_i hp
    refine StreamRec.stepN_legal (h2 z.stillDelivered z.passPending _ _) now ⟨.inl ?_, ?_⟩
    · exact e1.trans hp
    · show z.s ≠ 0
      rw [e2]
      exact h.playing hp
  · exact h2 _ _ _ _

end Sys2Proof.Machine
end

