-- ==== Sys2Proof/Laws/Keeps.lean ====
section
/-! SUPPORT. What the operations of the blocks can do, said once: a property of the part that a few kinds of change keep
is kept by every operation made of them. `Quiet` covers slots, requests, pages and the settled part of channels;
`Stable` adds the steps of stream records, and so the whole end of an event but the ports'; `Loose` adds what commands
and events do besides. -/

namespace Sys2Proof.Machine

/-- A change of a slot that keeps its key and its pages, and neither frees it nor takes it. -/
structure Slot.Step (x y : Slot) : Prop where
  key : y.clip = x.clip ∧ y.generation = x.generation ∧ y.frame = x.frame
  pages : y.pages = x.pages
  free : y.state = .free ↔ x.state = .free

/-- A change of other fields. -/
theorem Slot.Step.same {x y : Slot} (key : y.clip = x.clip ∧ y.generation = x.generation ∧ y.frame = x.frame)
    (pages : y.pages = x.pages) (st : y.state = x.state) : Slot.Step x y := ⟨key, pages, by rw [st]⟩

/-- A change of state of a slot that is not FREE to one that is not FREE. -/
theorem Slot.Step.moved {x y : Slot} (key : y.clip = x.clip ∧ y.generation = x.generation ∧ y.frame = x.frame)
    (pages : y.pages = x.pages) (hx : x.state ≠ .free) (hy : y.state ≠ .free) : Slot.Step x y :=
  ⟨key, pages, iff_of_false hy hx⟩

/-- A property that steps and freeings of slots, changes of requests, and changes of the settled fields of channels
keep. -/
structure Quiet (I : Device → Prop) : Prop where
  slot : ∀ m n v, Slot.Step (Device.slot m n) v → I m → I (Device.setSlot m n v)
  freed : ∀ m n, I m → I (Device.freeSlot n m)
  req : ∀ m r v, I m → I (Device.setReq m r v)
  channel : ∀ m c v, Channel.Settled (Device.channel m c) v → I m → I (Device.setChannel m c v)
  reclaim : ∀ (m : Device) l, I m → I { m with reclaim := l }
  grants : ∀ (m : Device) n, I m → I { m with grants := n }
  out : ∀ (m : Device) l, I m → I { m with out := l }
  agenda : ∀ (m : Device) a, I m → I { m with agenda := a }

variable {I : Device → Prop} {m : Device}

theorem foldl_keeps {α : Type} {f : Device → α → Device} (step : ∀ m a, I m → I (f m a)) (l : List α) (m : Device)
    (h : I m) : I (l.foldl f m) := by
  induction l generalizing m with
  | nil => exact h
  | cons a l ih => exact ih _ (step m a h)

/-! ### What an operation does to the states of slots -/

theorem Device.onSlot_state (m : Device) (n : Nat) (f : Slot → Slot) (same : (f (m.slot n)).state = (m.slot n).state)
    (j : Nat) : ((m.onSlot n f).slot j).state = (m.slot j).state := by
  rw [Device.onSlot, Device.slot_setSlot]
  split
  · rename_i g
    rw [g, same]
  · rfl

theorem Device.withdraw_state (m : Device) (n j : Nat) : ((m.withdraw n).slot j).state = (m.slot j).state := by
  unfold Device.withdraw
  simp only
  refine foldl_keeps (I := fun m' => (m'.slot j).state = (m.slot j).state) (fun m' e h => ?_) _ _ ?_
  · split
    · exact h
    · exact h
  · refine (Device.onSlot_state _ _ _ ?_ _).trans ?_
    · rfl
    · exact foldl_keeps (I := fun m' => (m'.slot j).state = (m.slot j).state)
        (f := fun m (e : Nat × Request) => m.setReq e.1 Request.free) (fun _ _ h => h) _ _ rfl

theorem Device.spend_state (m : Device) (r : Nat) (st : SegStatus) (j : Nat) :
    ((m.spend r st).slot j).state = (m.slot j).state :=
  Device.onSlot_state (m.setReq r Request.free) (m.req r).slot (·.setSeg (m.req r).seg st) rfl j

namespace Quiet

variable (q : Quiet I)
include q

theorem askCheck (k : Nat) (h : I m) : I (m.askCheck k) := q.agenda _ _ h
theorem askChoice (c : Nat) (h : I m) : I (m.askChoice c) := q.agenda _ _ h
theorem askRetry (h : I m) : I m.askRetry := q.agenda _ _ h
theorem emit (o : Output) (h : I m) : I (m.emit o) := q.out _ _ h

theorem onSlot (n : Nat) (f : Slot → Slot) (s : Slot.Step (m.slot n) (f (m.slot n))) (h : I m) : I (m.onSlot n f) :=
  q.slot _ _ _ s h

/-- A change of a slot's other fields. -/
theorem onSame (n : Nat) (f : Slot → Slot)
    (key : (f (m.slot n)).clip = (m.slot n).clip ∧ (f (m.slot n)).generation = (m.slot n).generation ∧
      (f (m.slot n)).frame = (m.slot n).frame) (pages : (f (m.slot n)).pages = (m.slot n).pages)
    (st : (f (m.slot n)).state = (m.slot n).state) (h : I m) : I (m.onSlot n f) := q.onSlot n f (.same key pages st) h

theorem onChannel (c : Nat) (f : Channel → Channel) (s : Channel.Settled (m.channel c) (f (m.channel c))) (h : I m) :
    I (m.onChannel c f) := q.channel _ _ _ s h

theorem send (c : Nat) (x : LinkMessage) (h : I m) : I (m.send c x) := by
  unfold Device.send
  split
  · exact q.emit _ h
  · exact h

theorem wake (now : Time) (c : Nat) (h : I m) : I (m.wake now c) :=
  q.send _ _ (q.onChannel _ _ (by constructor <;> simp) h)

theorem joinQueue (now : Time) (c : Nat) (h : I m) : I (m.joinQueue now c) := by
  unfold Device.joinQueue
  refine q.askChoice _ ?_
  split
  · exact q.wake now c h
  · exact h

theorem grant (now : Time) (n i : Nat) (h : I m) : I (m.grant now n i) := by
  unfold Device.grant
  split
  · exact q.joinQueue _ _ (q.onSame _ _ ⟨rfl, rfl, rfl⟩ rfl rfl (q.grants _ _ (q.req _ _ _ h)))
  · exact h

theorem offer (now : Time) (n : Nat) (h : I m) : I (m.offer now n) := by
  unfold Device.offer
  refine foldl_keeps (fun m i h => ?_) _ _ h
  split
  · exact q.grant now n i h
  · exact h

theorem grantWaiting (now : Time) (fuel : Nat) (h : I m) : I (m.grantWaiting now fuel) := by
  induction fuel generalizing m with
  | zero => exact h
  | succ fuel ih =>
    unfold Device.grantWaiting
    split
    · split
      · exact ih (q.grant now _ _ h)
      · exact h
    · exact h

theorem grantAll (now : Time) (h : I m) : I (m.grantAll now) := q.grantWaiting now _ h

theorem withdraw (n : Nat) (h : I m) : I (m.withdraw n) := by
  unfold Device.withdraw
  refine foldl_keeps (fun m e h => ?_) _ _ (q.onSame _ _ ⟨rfl, rfl, rfl⟩ rfl rfl
    (foldl_keeps (fun m e h => q.req _ _ _ h) _ _ h))
  split
  · exact q.onChannel _ _ (by constructor <;> simp) h
  · exact h

theorem dispatch (e : Env) (c t : Nat) (x : Ranked) (h : I m) : I (m.dispatch e c t x) :=
  q.send _ _ (q.onChannel _ _ (by constructor <;> simp [Channel.setTag])
    (q.onSame (m.req x.req).slot (·.setSeg (m.req x.req).seg .inFlight) ⟨rfl, rfl, rfl⟩ rfl rfl (q.req _ _ _ h)))

theorem chooseLoop (e : Env) (c fuel : Nat) (h : I m) : I (m.chooseLoop e c fuel) := by
  induction fuel generalizing m with
  | zero => exact h
  | succ fuel ih =>
    unfold Device.chooseLoop
    split
    · split
      · exact ih (q.dispatch e c _ _ h)
      · exact q.onChannel _ _ (by constructor <;> simp) h
    · exact q.onChannel _ _ (by constructor <;> simp) h

theorem runChoice (e : Env) (c : Nat) (h : I m) : I (m.runChoice e c) := by
  unfold Device.runChoice
  split
  · exact q.chooseLoop e c _ h
  · exact h

theorem idleTimer (now : Time) (c : Nat) (h : I m) : I (m.idleTimer now c) := by
  unfold Device.idleTimer
  split
  · split
    · exact q.onChannel _ _ (by constructor <;> simp) h
    · exact h
  · exact q.onChannel _ _ (by constructor <;> simp) h

theorem recompute (n : Nat) (h : I m) : I (m.recompute n) := by
  unfold Device.recompute
  simp only
  split
  · exact h
  · split
    · exact q.slot _ _ _ (.same ⟨rfl, rfl, rfl⟩ rfl rfl) h
    · exact foldl_keeps (fun m e h => q.askChoice _ h) _ _ (q.slot _ _ _ (.same ⟨rfl, rfl, rfl⟩ rfl rfl) h)

theorem freeSlot (n : Nat) (h : I m) : I (m.freeSlot n) := q.freed _ _ h

theorem unpinned (now : Time) (n : Nat) (h : I m) : I (m.unpinned now n) := by
  unfold Device.unpinned
  split
  · exact q.askRetry (q.reclaim _ _ (q.onSame _ _ ⟨rfl, rfl, rfl⟩ rfl rfl h))
  · rename_i st
    simp only
    split
    · exact q.freeSlot _ (q.withdraw _ h)
    · refine q.onSlot _ _ (.moved ⟨rfl, rfl, rfl⟩ rfl ?_ (by simp)) (q.withdraw _ h)
      rw [Device.withdraw_state, st]
      simp
  · split
    · exact q.freeSlot _ h
    · exact q.onSame _ _ ⟨rfl, rfl, rfl⟩ rfl rfl h
  · exact h
  · exact h

theorem unpin (now : Time) (n : Nat) (h : I m) : I (m.unpin now n) := by
  have h1 := q.onSame n (fun x => { x with pins := x.pins - 1 }) ⟨rfl, rfl, rfl⟩ rfl rfl h
  unfold Device.unpin
  simp only
  refine q.recompute n ?_
  split
  · exact q.unpinned _ _ h1
  · exact h1

theorem releasePin (now : Time) (slot : Option Nat) (h : I m) : I (m.releasePin now slot) := by
  unfold Device.releasePin
  split
  · exact q.unpin now _ h
  · exact h

theorem releasePins {α : Type} (now : Time) (f : α → Option Nat) (l : List α) (h : I m) :
    I (l.foldl (fun m a => m.releasePin now (f a)) m) :=
  foldl_keeps (fun _ a h => q.releasePin now (f a) h) _ _ h

theorem reclaimFor (need : Nat) (l : List Nat) (h : I m) : I (Device.reclaimFor need l m) := by
  induction l generalizing m with
  | nil => exact h
  | cons n l ih =>
    unfold Device.reclaimFor
    split
    · exact h
    · exact ih (q.freeSlot _ h)

theorem endedRead (n : Nat) (h : I m) : I (m.endedRead n) := by
  unfold Device.endedRead
  simp only
  split
  · split
    · exact q.freeSlot _ h
    · split
      · exact q.freeSlot _ h
      · exact h
    · exact h
  · exact h

theorem requeue (now : Time) (r retries : Nat) (h : I m) : I (m.requeue now r retries) :=
  q.joinQueue now (m.req r).channel
    (q.onSame (m.req r).slot (·.setSeg (m.req r).seg .queued) ⟨rfl, rfl, rfl⟩ rfl rfl (q.req _ _ _ h))

theorem spend (r : Nat) (st : SegStatus) (h : I m) : I (m.spend r st) :=
  q.onSame (m.req r).slot (·.setSeg (m.req r).seg st) ⟨rfl, rfl, rfl⟩ rfl rfl (q.req m r Request.free h)

theorem releaseTag (c t : Nat) (h : I m) : I (m.releaseTag c t) :=
  q.askChoice _ (q.onChannel _ _ (by constructor <;> simp [Channel.setTag]) h)

end Quiet

/-- The stream records of the part are those of `m`. -/
theorem quiet_streams (m : Device) : Quiet fun m' => m'.streams = m.streams := by
  constructor <;> intros <;> simp_all [Device.setSlot, Device.setReq, Device.setChannel, Device.freeSlot, Device.askRetry]

theorem Device.releasePin_streams (now : Time) (slot : Option Nat) (m : Device) :
    (m.releasePin now slot).streams = m.streams := (quiet_streams m).releasePin now slot rfl

theorem Device.releasePin_stream (now : Time) (slot : Option Nat) (m : Device) (k : Nat) :
    (m.releasePin now slot).stream k = m.stream k := by
  unfold Device.stream
  rw [m.releasePin_streams now slot]

/-- A stream whose delivery list is dropped has its record as before, with an empty list (R72). -/
theorem Device.dropDelivery_stream (now : Time) (k : Nat) (m : Device) :
    (m.dropDelivery now k).stream k = { m.stream k with delivery := [] } := by
  have h : (m.dropDelivery now k).streams = (m.onStream k fun x => { x with delivery := [] }).streams :=
    foldl_keeps (I := fun m' => m'.streams = _) (fun m' d h => (quiet_streams _).releasePin now d.slot h) _ _ rfl
  unfold Device.stream
  rw [h]
  exact (Device.stream_setStream ..).trans (if_pos rfl)

/-! ### Stream records -/

/-- No slot that is not FREE holds the key of `v`. -/
def Device.Fresh (m : Device) (v : Slot) : Prop :=
  ∀ j, (m.slot j).state ≠ .free → ¬ ((m.slot j).clip = v.clip ∧ (m.slot j).generation = v.generation ∧
    (m.slot j).frame = v.frame)

/-- A property that, besides, steps of stream records and placements in FREE slots keep. -/
structure Stable (I : Device → Prop) : Prop extends Quiet I where
  stream : ∀ m k v, StreamRec.Step (Device.stream m k) v → I m → I (Device.setStream m k v)
  taken : ∀ (m : Device) n v l, (m.slot n).state = .free → Slot.state v ≠ .free → m.Fresh v → v.pages ++ l = m.freePages →
    I m → I (Device.setSlot { m with freePages := l } n v)

/-- A map of window entries that keeps their indices is a step. -/
theorem StreamRec.map_step (x : StreamRec) (f : WinEntry → WinEntry) (same : ∀ w, (f w).u = w.u) :
    StreamRec.Step x { x with window := x.window.map f } :=
  ⟨by constructor <;> simp, fun h => h.of_map f same⟩

theorem StreamRec.filter_step (x : StreamRec) (keep : WinEntry → Bool) :
    StreamRec.Step x { x with window := x.window.filter keep } :=
  ⟨by constructor <;> simp, fun h => h.of_window List.filter_sublist⟩

namespace Stable

variable (q : Stable I)
include q

theorem onStream (k : Nat) (f : StreamRec → StreamRec) (s : StreamRec.Step (m.stream k) (f (m.stream k))) (h : I m) :
    I (m.onStream k f) := q.stream _ _ _ s h

theorem onEntry (k : Nat) (u : Int) (f : WinEntry → WinEntry) (same : ∀ w, (f w).u = w.u) (h : I m) :
    I (m.onEntry k u f) :=
  q.onStream _ _ (StreamRec.map_step _ _ fun w => by split <;> simp [same]) h

theorem pinEntry (k : Nat) (u : Int) (n : Nat) (st : EntryState) (h : I m) : I (m.pinEntry k u n st) :=
  q.recompute _ (q.onEntry _ _ _ (fun _ => rfl) (q.onSame _ _ ⟨rfl, rfl, rfl⟩ rfl rfl h))

theorem setEntries (n : Nat) (f : WinEntry → WinEntry) (same : ∀ w, (f w).u = w.u) (h : I m) : I (m.setEntries n f) := by
  unfold Device.setEntries
  refine foldl_keeps (fun m e h => ?_) _ _ h
  split
  · have : I (m.onStream e.1 fun x =>
        { x with window := x.window.map fun w => if w.slot = some n then f w else w }) :=
      q.onStream _ _ (StreamRec.map_step _ _ fun w => by split <;> simp [same]) h
    simp only
    split
    · exact q.askCheck _ this
    · exact this
  · exact h

theorem stageSlot (now : Time) (n : Nat) (st : (m.slot n).state ≠ .free) (h : I m) : I (m.stageSlot now n) :=
  q.setEntries _ _ (fun _ => rfl) (q.onSlot n _ (.moved ⟨rfl, rfl, rfl⟩ rfl st (by simp)) h)

theorem failSlot (n : Nat) (cause : Cause) (st : (m.slot n).state ≠ .free) (h : I m) : I (m.failSlot n cause) :=
  q.setEntries _ _ (fun _ => rfl) (q.onSlot n _
    (.moved ⟨rfl, rfl, rfl⟩ rfl (by rwa [Device.withdraw_state]) (by simp)) (q.withdraw _ h))

omit q in
theorem freeSlot_slot (n j : Nat) : (m.freeSlot n).slot j = if j = n then Slot.free else m.slot j :=
  Device.slot_setSlot m n j Slot.free

omit q in
theorem fresh_freeSlot {v : Slot} (f : m.Fresh v) (n : Nat) : (m.freeSlot n).Fresh v := by
  intro j hj
  rw [freeSlot_slot] at hj ⊢
  split at hj
  · exact absurd rfl hj
  · rename_i g
    rw [if_neg g]
    exact f j hj

omit q in
theorem fresh_reclaimFor {v : Slot} (need : Nat) (l : List Nat) (f : m.Fresh v) : (Device.reclaimFor need l m).Fresh v := by
  induction l generalizing m with
  | nil => exact f
  | cons n l ih =>
    unfold Device.reclaimFor
    split
    · exact f
    · exact ih (fresh_freeSlot f n)

omit q in
theorem freeRecord_free {n : Nat} (h : m.freeRecord = some n) : (m.slot n).state = .free := by
  simpa using List.find?_some h

omit q in
/-- A miss in the lookup says that no slot that is not FREE holds the key (R75). -/
theorem findSlot_fresh {v : Slot} (h : m.findSlot v.clip v.generation v.frame = none) : m.Fresh v := by
  intro j hj key
  rcases Table.get_mem_or (d := Slot.free) m.slots j with g | g
  · exact hj (by rw [Device.slot, g]; rfl)
  · simp only [Device.findSlot, Option.map_eq_none_iff, List.find?_eq_none] at h
    have := h _ g
    change ¬ (decide ((m.slot j).state ≠ .free) && decide ((m.slot j).clip = v.clip) &&
      decide ((m.slot j).generation = v.generation) && decide ((m.slot j).frame = v.frame)) = true at this
    simp [hj, key.1, key.2.1, key.2.2] at this

theorem placeFailed (byPass : Bool) (k : Nat) (w : WinEntry) (cause : Cause)
    (miss : m.findSlot (m.stream k).clip (m.stream k).generation w.frame = none) (h : I m) :
    I (m.placeFailed byPass k w cause) := by
  have f : m.Fresh (failedSlot (m.stream k).clip (m.stream k).generation w.frame cause) := findSlot_fresh miss
  unfold Device.placeFailed
  simp only
  generalize hm1 : (if m.freeRecord.isSome = true ∨ byPass = true ∧ m.rankedAhead k w.u = true then m
    else m.reclaimFor 0 m.reclaim : Device) = m1
  have h1 : I m1 ∧ m1.Fresh (failedSlot (m.stream k).clip (m.stream k).generation w.frame cause) := by
    rw [← hm1]
    split
    · exact ⟨h, f⟩
    · exact ⟨q.reclaimFor _ _ h, fresh_reclaimFor _ _ f⟩
  split
  · exact h1.1
  · rename_i n hn
    exact q.pinEntry _ _ _ _ (q.taken m1 n _ m1.freePages (freeRecord_free hn) (by simp [failedSlot]) h1.2 rfl h1.1)

theorem placeMiss (e : Env) (byPass : Bool) (k : Nat) (w : WinEntry) (loc : Location)
    (miss : m.findSlot (m.stream k).clip (m.stream k).generation w.frame = none) (h : I m) :
    I (m.placeMiss e byPass k w loc) := by
  unfold Device.placeMiss
  simp only
  split
  · exact h
  · split
    · exact q.reclaimFor _ _ h
    · rename_i n hn
      split
      · refine q.offer _ _ (q.pinEntry _ _ _ _ (q.taken (m.reclaimFor (pagesFor loc.frameBytes) m.reclaim) n _ _
          (freeRecord_free hn) (by simp [fillingSlot]) ?_ ?_ (q.reclaimFor _ _ h)))
        · exact fresh_reclaimFor _ _ (findSlot_fresh miss)
        · exact List.take_append_drop _ _
      · exact q.reclaimFor _ _ h

theorem revive (e : Env) (k : Nat) (w : WinEntry) (n : Nat) (st : (m.slot n).state = .abandoned) (h : I m) :
    I (m.revive e k w n) := by
  have st1 : (m.slot n).state ≠ .free := by simp [st]
  unfold Device.revive
  simp only
  split
  · exact q.pinEntry _ _ _ _ (q.onSlot n _ (.moved ⟨rfl, rfl, rfl⟩ rfl st1 (by simp)) h)
  · exact q.offer _ _ (q.pinEntry _ _ _ _ (q.onSlot n _ (.moved ⟨rfl, rfl, rfl⟩ rfl st1 (by simp)) h))

theorem place (e : Env) (byPass : Bool) (k : Nat) (w : WinEntry) (h : I m) : I (m.place e byPass k w) := by
  unfold Device.place
  simp only
  split
  · split
    · exact q.pinEntry _ _ _ _ (q.reclaim _ _ h)
    · exact q.pinEntry _ _ _ _ h
    · exact q.pinEntry _ _ _ _ h
    · rename_i st
      exact q.revive _ _ _ _ st h
    · exact h
  · rename_i miss
    split
    · exact q.placeFailed _ _ _ _ miss h
    · exact q.placeMiss _ _ _ _ _ miss h

theorem dropEntries (now : Time) (k : Nat) (keep : WinEntry → Bool) (h : I m) : I (m.dropEntries now k keep) := by
  unfold Device.dropEntries
  simp only
  split
  · exact h
  · exact q.releasePins now WinEntry.slot _
      (q.onStream k (fun x => { x with window := x.window.filter keep }) (StreamRec.filter_step _ _) h)

theorem deliver (now : Time) (k : Nat) (w : WinEntry) (d : (m.stream k).deliverable = some w) (h : I m) :
    I (m.deliver now k w) := by
  have s : ∀ y slot, StreamRec.Step (m.stream k) ((m.stream k).delivered now w y slot) := fun y slot =>
    ⟨StreamRec.delivered_settled _ _ _ _ _, fun l => StreamRec.delivered_legal l d now y slot⟩
  unfold Device.deliver
  simp only
  split
  · exact q.releasePin _ _ (q.stream _ _ _ (s _ _) h)
  · exact q.recompute _ (q.stream _ _ _ (s _ _) h)

theorem deliverLoop (now : Time) (k fuel : Nat) (h : I m) : I (m.deliverLoop now k fuel) := by
  induction fuel generalizing m with
  | zero => exact h
  | succ fuel ih =>
    unfold Device.deliverLoop
    split
    · rename_i w hw
      exact ih (q.deliver now k w hw h)
    · exact h

theorem check (now : Time) (k : Nat) (h : I m) : I (m.check now k) := by
  unfold Device.check
  simp only
  split
  · exact q.onStream _ _ (StreamRec.missedAlone_step _) (q.deliverLoop now k _ h)
  · exact q.deliverLoop now k _ h

theorem retryLoop (e : Env) (fuel : Nat) (h : I m) : I (m.retryLoop e fuel) := by
  induction fuel generalizing m with
  | zero => exact h
  | succ fuel ih =>
    unfold Device.retryLoop
    split
    · exact h
    · split
      · exact h
      · simp only
        split
        · split
          · exact q.place _ _ _ _ h
          · refine ih ?_
            split
            · exact q.check _ _ (q.place _ _ _ _ h)
            · exact q.place _ _ _ _ h
        · exact q.place _ _ _ _ h

theorem retry (e : Env) (h : I m) : I (m.retry e) := by
  unfold Device.retry
  split
  · exact q.agenda _ _ (q.retryLoop e _ h)
  · exact h

theorem settleTables (e : Env) (h : I m) : I (m.settleTables e) := by
  unfold Device.settleTables
  refine q.agenda _ _ (foldl_keeps (fun m c h => q.idleTimer _ _ h) _ _ ?_)
  refine foldl_keeps (fun m c h => q.runChoice _ _ h) _ _ ?_
  exact q.retry e (q.grantAll _ (foldl_keeps (fun m k h => q.check _ _ h) _ _ h))

/-! #### The pass and the display expiry -/

theorem trigger (k : Nat) (h : I m) : I (m.onStream k StreamRec.trigger) := q.onStream _ _ (StreamRec.trigger_step _) h

end Stable

end Sys2Proof.Machine
end

