-- ==== Sys2Proof/Laws/Transport.lean ====
section
/-! SUPPORT. The transport changes of a stream record keep it legal: PLAY, CUE, JOG, SET_RANGE, SET_WINDOW, CLOSE,
HAND_OVER, TAKE_OVER, orphaning, restoring, closing, opening, and the window a pass builds. -/

namespace Sys2Proof.Machine

/-! ### Frames mapped into the range -/

theorem clampInt_range {lo hi : Int} (x : Int) (h : lo ≤ hi) : lo ≤ clampInt lo hi x ∧ clampInt lo hi x ≤ hi := by
  unfold clampInt; omega

theorem clampNat_range {lo hi : Nat} (x : Nat) (h : lo ≤ hi) : lo ≤ clampNat lo hi x ∧ clampNat lo hi x ≤ hi := by
  unfold clampNat; omega

theorem StreamRec.mapFrame_range (x : StreamRec) (h : x.inPoint ≤ x.outPoint) (u : Int) :
    (x.inPoint : Int) ≤ x.mapFrame u ∧ x.mapFrame u ≤ x.outPoint := by
  unfold StreamRec.mapFrame
  split
  · rename_i hr
    simp only [StreamRec.inRange, Bool.and_eq_true, decide_eq_true_eq] at hr
    exact hr
  · split
    · unfold StreamRec.rangeLength
      have h1 := Int.emod_nonneg (u - x.inPoint) (show (x.outPoint : Int) - x.inPoint + 1 ≠ 0 by omega)
      have h2 := Int.emod_lt_of_pos (u - x.inPoint) (show (0 : Int) < (x.outPoint : Int) - x.inPoint + 1 by omega)
      omega
    · exact clampInt_range u (by omega)

/-! ### PLAY -/

/-- What is needed of a record besides its transport fields. -/
structure StreamRec.Sound (x : StreamRec) : Prop where
  outbox : x.outbox.length ≤ 12
  credit : x.delivery.length ≤ x.c
  settings : 1 ≤ x.c ∧ x.c ≤ 8 ∧ 1 ≤ x.w ∧ x.w ≤ 48 ∧ x.seat ≤ 3
  depth : x.window.length ≤ x.w
  indices : (x.window.map (·.u)).Nodup
  range : x.inPoint ≤ x.outPoint

theorem StreamRec.Legal.sound {x : StreamRec} (h : x.Legal) : x.Sound :=
  ⟨h.outbox, h.credit, h.settings, h.depth, h.indices, h.range⟩

/-- A running stream without saved S and timers, whose N lies in the range, is legal. -/
theorem StreamRec.Sound.playing {x : StreamRec} (h : x.Sound) (st : x.state = .playing) (saved : x.savedS = none)
    (ht : x.handoverTimer = none) (ot : x.orphanTimer = none) (hs : x.s ≠ 0 ∧ -64 ≤ x.s ∧ x.s ≤ 64)
    (hn : x.loop = false → (x.inPoint : Int) ≤ x.n ∧ x.n ≤ x.outPoint) : x.Legal where
  outbox := h.outbox
  credit := h.credit
  settings := h.settings
  depth := h.depth
  indices := h.indices
  range := h.range
  index := fun _ => hn
  closed := by simp [st]
  closing := by simp [st]
  stopped := by simp [st, StreamState.stopped]
  playing := fun _ => hs.1
  factor := hs.2
  handover := by simp [st]
  orphaned := by simp [st]
  saved := by simp [saved]
  handoverTimer := by simp [ht]
  orphanTimer := by simp [ot]

/-- A CUED stream without saved S and timers, whose N lies in the range, is legal. -/
theorem StreamRec.Sound.cued {x : StreamRec} (h : x.Sound) (st : x.state = .cued) (saved : x.savedS = none)
    (ht : x.handoverTimer = none) (ot : x.orphanTimer = none) (hs : x.s = 0)
    (hn : x.loop = false → (x.inPoint : Int) ≤ x.n ∧ x.n ≤ x.outPoint) : x.Legal where
  outbox := h.outbox
  credit := h.credit
  settings := h.settings
  depth := h.depth
  indices := h.indices
  range := h.range
  index := fun _ => hn
  closed := by simp [st]
  closing := by simp [st]
  stopped := fun _ => hs
  playing := by simp [st]
  factor := by simp [hs]
  handover := by simp [st]
  orphaned := by simp [st]
  saved := by simp [saved]
  handoverTimer := by simp [ht]
  orphanTimer := by simp [ot]

/-- Where saved S and the chapter 11 timers are absent: CUED and PLAYING. -/
theorem StreamRec.Legal.plain {x : StreamRec} (h : x.Legal) (st : x.state = .cued ∨ x.state = .playing) :
    x.savedS = none ∧ x.handoverTimer = none ∧ x.orphanTimer = none := by
  refine ⟨?_, ?_, ?_⟩ <;> by_contra hn
  · rcases st with e | e <;> rcases h.saved hn with g | g <;> rw [e] at g <;> cases g
  · rcases st with e | e <;> have g := h.handoverTimer hn <;> rw [e] at g <;> cases g
  · rcases st with e | e <;> have g := h.orphanTimer hn <;> rw [e] at g <;> cases g

theorem StreamRec.playFromCued_legal {x : StreamRec} (h : x.Sound) (saved : x.savedS = none)
    (ht : x.handoverTimer = none) (ot : x.orphanTimer = none)
    (hn : x.loop = false → (x.inPoint : Int) ≤ x.n ∧ x.n ≤ x.outPoint) (now preroll : Time) {shuttle : Int}
    (h0 : shuttle ≠ 0) (h1 : -64 ≤ shuttle ∧ shuttle ≤ 64) : (x.playFromCued now preroll shuttle).Legal := by
  have hst := strideOf_pos shuttle
  cases hd : x.stillDelivered
  · have e : x.playFromCued now preroll shuttle =
        ({ x with n := x.n + 0, f0q := x.n * 65536, t0 := now + preroll } : StreamRec).setPlay shuttle := by
      simp [StreamRec.playFromCued, hd]
    rw [e]
    refine StreamRec.Sound.playing ⟨h.outbox, h.credit, h.settings, h.depth, h.indices, h.range⟩ rfl saved ht ot
      ⟨h0, h1⟩ fun hl => ?_
    obtain ⟨n1, n2⟩ := hn hl
    simp [StreamRec.setPlay, n1, n2]
  · have e : x.playFromCued now preroll shuttle =
        (let y := ({ x with n := x.n + strideOf shuttle * shuttle.sign, f0q := x.n * 65536,
                            t0 := now + preroll } : StreamRec).setPlay shuttle
         if y.pastBound then y.endRange now else y) := by
      simp [StreamRec.playFromCued, hd]
    rw [e]
    simp only
    split
    · exact StreamRec.endRange_legal now h.outbox h.credit h.settings h.depth h.indices h.range (.inl rfl)
        (fun _ => saved) (by simp [StreamRec.setPlay, ht]) ot
    · rename_i hb
      refine StreamRec.Sound.playing ⟨h.outbox, h.credit, h.settings, h.depth, h.indices, h.range⟩ rfl saved ht ot
        ⟨h0, h1⟩ fun hl => ?_
      change x.loop = false at hl
      obtain ⟨n1, n2⟩ := hn hl
      simp [StreamRec.setPlay, StreamRec.pastBound, hl, StreamRec.dir, h0] at hb ⊢
      rcases lt_trichotomy shuttle 0 with g | g | g
      · rw [Int.sign_eq_neg_one_of_neg g] at hb ⊢
        have := hb.2 g
        constructor <;> omega
      · contradiction
      · rw [Int.sign_eq_one_of_pos g] at hb ⊢
        have := hb.1 g
        constructor <;> omega

theorem StreamRec.reversedN_range (x : StreamRec) (h : x.inPoint ≤ x.outPoint) (now : Time) (shuttle : Int)
    (hl : x.loop = false) :
    (x.inPoint : Int) ≤ x.reversedN now shuttle ∧ x.reversedN now shuttle ≤ x.outPoint := by
  unfold StreamRec.reversedN
  simp only [hl, Bool.false_eq_true, if_false]
  exact clampInt_range _ (by omega)

theorem StreamRec.locateFrame_range (x : StreamRec) (h : x.inPoint ≤ x.outPoint) (frame : Nat) :
    x.inPoint ≤ x.locateFrame frame ∧ x.locateFrame frame ≤ x.outPoint := clampNat_range _ h

theorem StreamRec.play_legal {x : StreamRec} (h : x.Legal) (st : x.state = .cued ∨ x.state = .playing)
    (now preroll : Time) {shuttle : Int} (h0 : shuttle ≠ 0) (h1 : -64 ≤ shuttle ∧ shuttle ≤ 64) (locate : Option Nat) :
    (x.play now preroll shuttle locate).Legal := by
  obtain ⟨saved, ht, ot⟩ := h.plain st
  have open_ : x.state ≠ .closed := by rcases st with e | e <;> simp [e]
  have sound := h.sound
  unfold StreamRec.play
  split
  · rename_i frame
    have := x.locateFrame_range h.range frame
    exact StreamRec.Sound.playing ⟨h.outbox, h.credit, h.settings, h.depth, h.indices, h.range⟩ rfl saved ht ot
      ⟨h0, h1⟩ fun _ => by
        simp only [StreamRec.playLocated, StreamRec.setPlay]
        omega
  · split
    · unfold StreamRec.playOn
      split
      · exact StreamRec.Sound.playing ⟨h.outbox, h.credit, h.settings, h.depth, h.indices, h.range⟩ rfl saved ht ot
          ⟨h0, h1⟩ (h.index open_)
      · exact StreamRec.Sound.playing ⟨h.outbox, h.credit, h.settings, h.depth, h.indices, h.range⟩ rfl saved ht ot
          ⟨h0, h1⟩ (x.reversedN_range h.range now shuttle)
    · exact StreamRec.playFromCued_legal sound saved ht ot (h.index open_) now preroll h0 h1

/-! ### CUE, JOG, SET_RANGE -/

theorem StreamRec.cue_range (x : StreamRec) (h : x.inPoint ≤ x.outPoint) (now : Time) (locate : Option Nat) :
    (x.inPoint : Int) ≤ (x.cue now locate).n ∧ (x.cue now locate).n ≤ x.outPoint := by
  unfold StreamRec.cue
  simp only
  cases locate with
  | some frame =>
    have := x.locateFrame_range h frame
    simp only
    omega
  | none => exact x.mapFrame_range h _

theorem StreamRec.cue_same (x : StreamRec) (now : Time) (locate : Option Nat) :
    (x.cue now locate).outbox = x.outbox ∧ (x.cue now locate).delivery = x.delivery ∧ (x.cue now locate).c = x.c ∧
    (x.cue now locate).w = x.w ∧ (x.cue now locate).seat = x.seat ∧ (x.cue now locate).window = x.window ∧
    (x.cue now locate).inPoint = x.inPoint ∧ (x.cue now locate).outPoint = x.outPoint ∧
    (x.cue now locate).savedS = x.savedS ∧ (x.cue now locate).handoverTimer = x.handoverTimer ∧
    (x.cue now locate).orphanTimer = x.orphanTimer ∧ (x.cue now locate).s = 0 ∧ (x.cue now locate).state = .cued := by
  cases locate <;> simp [StreamRec.cue, StreamRec.stopHere]

theorem StreamRec.cue_sound {x : StreamRec} (h : x.Sound) (now : Time) (locate : Option Nat) : (x.cue now locate).Sound := by
  obtain ⟨e1, e2, e3, e4, e5, e6, e7, e8, -⟩ := x.cue_same now locate
  constructor
  · rw [e1]; exact h.outbox
  · rw [e2, e3]; exact h.credit
  · rw [e3, e4, e5]; exact h.settings
  · rw [e6, e4]; exact h.depth
  · rw [e6]; exact h.indices
  · rw [e7, e8]; exact h.range

theorem StreamRec.cue_legal {x : StreamRec} (h : x.Legal) (st : x.state = .cued ∨ x.state = .playing) (now : Time)
    (locate : Option Nat) : (x.cue now locate).Legal := by
  obtain ⟨saved, ht, ot⟩ := h.plain st
  obtain ⟨-, -, -, -, -, -, e7, e8, e9, e10, e11, e12, e13⟩ := x.cue_same now locate
  refine StreamRec.Sound.cued (x.cue_sound h.sound now locate) e13 (e9.trans saved) (e10.trans ht) (e11.trans ot) e12
    fun _ => ?_
  rw [e7, e8]
  exact x.cue_range h.range now locate

theorem StreamRec.jog_legal {x : StreamRec} (h : x.Legal) (st : x.state = .cued) (now : Time) (n : Int) :
    (x.jog now n).Legal := by
  obtain ⟨saved, ht, ot⟩ := h.plain (.inl st)
  exact StreamRec.Sound.cued ⟨h.outbox, h.credit, h.settings, h.depth, h.indices, h.range⟩ st saved ht ot
    (h.stopped (by simp [st, StreamState.stopped])) fun _ => x.mapFrame_range h.range _

theorem StreamRec.setRange_legal {x : StreamRec} (h : x.Legal) (st : x.state = .cued ∨ x.state = .playing)
    (now preroll : Time) {i o : Nat} (io : i ≤ o) (loop openEnd : Bool) :
    (x.setRange now preroll i o loop openEnd).Legal := by
  obtain ⟨saved, ht, ot⟩ := h.plain st
  have key : ∀ y : StreamRec, y.Sound → y.state = x.state → y.savedS = none → y.handoverTimer = none →
      y.orphanTimer = none → y.s = x.s → (y.loop = false → (y.inPoint : Int) ≤ y.n ∧ y.n ≤ y.outPoint) → y.Legal := by
    intro y hy hst a b c d e
    rcases st with g | g
    · exact hy.cued (hst.trans g) a b c (d.trans (h.stopped (by simp [g, StreamState.stopped]))) e
    · exact hy.playing (hst.trans g) a b c (by rw [d]; exact ⟨h.playing g, h.factor⟩) e
  unfold StreamRec.setRange
  simp only
  split
  · rename_i hr
    simp only [StreamRec.inRange, Bool.and_eq_true, decide_eq_true_eq] at hr
    exact key _ ⟨h.outbox, h.credit, h.settings, h.depth, h.indices, io⟩ rfl saved ht ot rfl fun _ => hr
  · refine key _ ⟨h.outbox, h.credit, h.settings, h.depth, h.indices, io⟩ rfl saved ht ot rfl fun _ => ?_
    exact StreamRec.mapFrame_range { x.reanchor now with
      inPoint := i, outPoint := o, loop := loop, openEnd := openEnd, passPending := true } io _

/-! ### CLOSE and closing -/

theorem StreamRec.close_legal {x : StreamRec} (h : x.Legal) (open_ : x.state ≠ .closed) (now : Time) :
    ({ x.close now with window := [] } : StreamRec).Legal where
  outbox := h.outbox
  credit := h.credit
  settings := h.settings
  depth := by simp
  indices := by simp
  range := h.range
  index := fun _ => h.index open_
  closed := by simp [StreamRec.close]
  closing := by simp
  stopped := by simp [StreamRec.close]
  playing := by simp [StreamRec.close]
  factor := by simp [StreamRec.close]
  handover := by simp [StreamRec.close]
  orphaned := by simp [StreamRec.close]
  saved := by simp [StreamRec.close]
  handoverTimer := by simp [StreamRec.close]
  orphanTimer := by simp [StreamRec.close]

theorem StreamRec.closed_legal {x : StreamRec} (h : x.Legal) : x.closed.Legal where
  outbox := by simp [StreamRec.closed]
  credit := by simp [StreamRec.closed]
  settings := h.settings
  depth := by simp [StreamRec.closed]
  indices := by simp [StreamRec.closed]
  range := h.range
  index := by simp [StreamRec.closed]
  closed := by simp [StreamRec.closed]
  closing := by simp [StreamRec.closed]
  stopped := by simp [StreamRec.closed]
  playing := by simp [StreamRec.closed]
  factor := by simp [StreamRec.closed]
  handover := by simp [StreamRec.closed]
  orphaned := by simp [StreamRec.closed]
  saved := by simp [StreamRec.closed]
  handoverTimer := by simp [StreamRec.closed]
  orphanTimer := by simp [StreamRec.closed]

/-! ### Chapter 11 -/

theorem StreamRec.handOver_legal {x : StreamRec} (h : x.Legal) (st : x.state = .cued ∨ x.state = .playing) (e : Env) :
    (x.handOver e).Legal where
  outbox := h.outbox
  credit := h.credit
  settings := h.settings
  depth := h.depth
  indices := h.indices
  range := h.range
  index := fun _ => h.index (by rcases st with g | g <;> simp [g])
  closed := by simp [StreamRec.handOver]
  closing := by simp [StreamRec.handOver]
  stopped := by simp [StreamRec.handOver, StreamState.stopped]
  playing := by simp [StreamRec.handOver]
  factor := h.factor
  handover := by simp [StreamRec.handOver]
  orphaned := by simp [StreamRec.handOver]
  saved := by simp [StreamRec.handOver]
  handoverTimer := by simp [StreamRec.handOver]
  orphanTimer := by simp [StreamRec.handOver, (h.plain st).2.2]

/-- Restoring a stream in HANDOVER leaves it legal, whoever owns it then. -/
theorem StreamRec.restore_legal {x : StreamRec} (h : x.Legal) (st : x.state = .handover) (owner : Head) (absent : Bool) :
    ({ x with owner := owner, ownerAbsent := absent } : StreamRec).restore.Legal := by
  have hs := h.handover st
  have ot : x.orphanTimer = none := by
    by_contra hn
    have := h.orphanTimer hn
    rw [st] at this
    cases this
  have hn := h.index (by simp [st])
  by_cases h0 : x.s = 0
  · refine StreamRec.Sound.cued ⟨h.outbox, h.credit, h.settings, h.depth, h.indices, h.range⟩ ?_ rfl rfl ot h0 hn
    simp [StreamRec.restore, hs, h0]
  · refine StreamRec.Sound.playing ⟨h.outbox, h.credit, h.settings, h.depth, h.indices, h.range⟩ ?_ rfl rfl ot
      ⟨h0, h.factor⟩ hn
    simp [StreamRec.restore, hs, h0]

theorem StreamRec.orphan_legal {x : StreamRec} (h : x.Legal) (e : Env) : (x.orphan e).Legal := by
  have hc := x.cue_sound h.sound e.now none
  obtain ⟨-, -, -, -, -, -, e7, e8, -, -, -, e12, -⟩ := x.cue_same e.now none
  have hr := x.cue_range h.range e.now none
  constructor
  · exact hc.outbox
  · exact hc.credit
  · exact hc.settings
  · exact hc.depth
  · exact hc.indices
  · exact hc.range
  · intro _ _
    show ((x.cue e.now none).inPoint : Int) ≤ (x.cue e.now none).n ∧ (x.cue e.now none).n ≤ (x.cue e.now none).outPoint
    rw [e7, e8]
    exact hr
  · simp [StreamRec.orphan]
  · simp [StreamRec.orphan]
  · exact fun _ => e12
  · simp [StreamRec.orphan]
  · show -64 ≤ (x.cue e.now none).s ∧ (x.cue e.now none).s ≤ 64
    rw [e12]
    simp
  · simp [StreamRec.orphan]
  · intro _
    simp only [StreamRec.orphan]
    split
    · rename_i g
      exact ⟨x.s, h.handover g, h.factor⟩
    · exact ⟨x.s, rfl, h.factor⟩
  · simp [StreamRec.orphan]
  · simp [StreamRec.orphan]
  · simp [StreamRec.orphan]

theorem StreamRec.adopt_legal {x : StreamRec} (h : x.Legal) (st : x.state = .orphaned) (e : Env) (p : Head) (resume : Bool) :
    (x.adopt e p resume).Legal := by
  obtain ⟨v, hv, hv1⟩ := h.orphaned st
  have ht : x.handoverTimer = none := by
    by_contra hn
    have := h.handoverTimer hn
    rw [st] at this
    cases this
  have hn := h.index (by simp [st])
  unfold StreamRec.adopt
  simp only [hv, Option.getD_some]
  split
  · rename_i hr
    simp only [Bool.and_eq_true, decide_eq_true_eq] at hr
    exact StreamRec.playFromCued_legal (x := { x with
        owner := p, ownerAbsent := false, orphanTimer := none, savedS := none, passPending := true })
      ⟨h.outbox, h.credit, h.settings, h.depth, h.indices, h.range⟩ rfl ht rfl hn _ _ hr.2 hv1
  · exact StreamRec.Sound.cued ⟨h.outbox, h.credit, h.settings, h.depth, h.indices, h.range⟩ rfl rfl ht rfl
      (h.stopped (by simp [st, StreamState.stopped])) hn

theorem StreamRec.clearOutbox_legal {x : StreamRec} (h : x.Legal) : x.clearOutbox.Legal := by
  refine h.of_notices (by simp [StreamRec.clearOutbox, StreamRec.giveBack]) ?_ fun hc => ?_
  · exact le_trans (List.length_filter_le _ _) h.outbox
  · simp [StreamRec.clearOutbox, (h.closed hc).2.2]

/-! ### OPEN, SET_WINDOW, EXTEND_CLIP -/

theorem openedStream_legal (x : Clip) (p : Head) (a : OpenArgs) (now : Time) (h : a.inPoint ≤ x.clampOut a.outPoint) :
    (openedStream x p a now).Legal := by
  have hn := clampNat_range a.start h
  have h1 := clampNat_range (lo := 1) (hi := 48) a.w (by omega)
  have h2 := clampNat_range (lo := 1) (hi := 8) a.c (by omega)
  refine StreamRec.Sound.cued ⟨by simp [openedStream, StreamRec.reset], by simp [openedStream, StreamRec.reset], ?_,
    by simp [openedStream, StreamRec.reset], by simp [openedStream, StreamRec.reset], h⟩ rfl rfl rfl rfl rfl fun _ => ?_
  · simp only [openedStream]
    omega
  · simp only [openedStream]
    omega

theorem StreamRec.Legal.of_settings {x : StreamRec} (h : x.Legal) {w c seat : Nat} {l : List WinEntry}
    (sub : l.Sublist x.window) (hw : 1 ≤ w ∧ w ≤ 48 ∧ l.length ≤ w) (hc : 1 ≤ c ∧ c ≤ 8 ∧ x.delivery.length ≤ c)
    (hs : seat ≤ 3) (f : Bool) : ({ x with w := w, c := c, seat := seat, window := l, passPending := f } : StreamRec).Legal :=
  { h with
    credit := hc.2.2
    settings := ⟨hc.1, hc.2.1, hw.1, hw.2.1, hs⟩
    depth := hw.2.2
    indices := h.indices.sublist (sub.map _)
    closed := fun g => ⟨List.sublist_nil.1 ((h.closed g).1 ▸ sub), (h.closed g).2⟩
    closing := fun g => List.sublist_nil.1 (h.closing g ▸ sub) }

/-- A window cut to its depth by SET_WINDOW holds no more than `w` entries. -/
theorem withinDepth_length {window : List WinEntry} (nd : (window.map (·.u)).Nodup) (w : Nat) :
    (window.filter (withinDepth w window)).length ≤ w := by
  have h1 : ((window.filter (withinDepth w window)).map (·.u)).Nodup := nd.sublist (List.filter_sublist.map _)
  have h2 : (window.filter (withinDepth w window)).map (·.u) ⊆ (window.take w).map (·.u) := by
    intro u hu
    simp only [List.mem_map, List.mem_filter, withinDepth, List.any_eq_true, decide_eq_true_eq] at hu ⊢
    obtain ⟨e, ⟨-, x, hx, hxe⟩, rfl⟩ := hu
    exact ⟨x, hx, hxe⟩
  have := (h1.subperm h2).length_le
  simp only [List.length_map, List.length_take] at this
  omega

/-- The window that SET_WINDOW leaves. -/
theorem StreamRec.setWindow_legal {x : StreamRec} (h : x.Legal) (w c seat : Nat) :
    ({ x.setWindow w c seat with
        window := x.window.filter (withinDepth (x.setWindow w c seat).w (x.setWindow w c seat).window) } : StreamRec).Legal := by
  have h1 := clampNat_range (lo := 1) (hi := 48) w (by omega)
  have h2 := clampNat_range (lo := 1) (hi := 8) c (by omega)
  have h3 := h.credit
  have h4 := h.settings
  exact h.of_settings (c := max (clampNat 1 8 c) x.delivery.length) List.filter_sublist
    ⟨h1.1, h1.2, withinDepth_length h.indices _⟩ ⟨by omega, by omega, by omega⟩ (Nat.min_le_right _ _) true

theorem StreamRec.extended_legal {x : StreamRec} (h : x.Legal) {out : Nat} (hout : x.outPoint ≤ out) :
    ({ x with outPoint := out, passPending := true } : StreamRec).Legal :=
  { h with
    range := le_trans h.range hout
    index := fun a b => by
      have := h.index a b
      show (x.inPoint : Int) ≤ x.n ∧ x.n ≤ (out : Int)
      omega }

/-! ### The window of a pass -/

theorem StreamRec.targets_length (x : StreamRec) : x.targets.length ≤ x.w := by
  unfold StreamRec.targets
  simp only
  split
  · simp
  · simp
  · split
    · simp
    · exact le_trans (List.takeWhile_sublist _).length_le (by simp)

theorem StreamRec.targets_nodup (x : StreamRec) : x.targets.Nodup := by
  have hst := strideOf_pos x.s
  have all : ∀ first : Int, ((List.range x.w).map fun (i : Nat) => first + (i : Int) * x.stride * x.dir).Nodup := by
    intro first
    refine List.Nodup.map (fun i j hij => ?_) List.nodup_range
    simp only [StreamRec.stride] at hij
    have hne : (strideOf x.s : Int) * x.dir ≠ 0 := by
      rcases x.dir_cases with hd | hd <;> rw [hd] <;> omega
    have : ((i : Int) - j) * ((strideOf x.s : Int) * x.dir) = 0 := by linarith
    rcases mul_eq_zero.1 this with g | g
    · omega
    · contradiction
  unfold StreamRec.targets
  simp only
  split
  · simp
  · simp
  · split
    · exact all _
    · exact (all _).sublist (List.takeWhile_sublist _)

/-- A window rebuilt from the targets holds exactly their indices. -/
theorem StreamRec.rebuilt_indices (x : StreamRec) (lead : Nat) : (x.rebuilt lead).map (·.u) = x.targets := by
  unfold StreamRec.rebuilt
  rw [List.map_map]
  conv_rhs => rw [← List.map_id x.targets]
  refine List.map_congr_left fun u _ => ?_
  simp only [Function.comp, id]
  split
  · rename_i w hw
    simpa [StreamRec.retimed] using List.find?_some hw
  · rfl

theorem StreamRec.rebuilt_legal {x : StreamRec} (h : x.Legal) (lead : Nat) :
    ({ x with window := x.rebuilt lead, seatReported := x.seat } : StreamRec).Legal := by
  have hi := x.rebuilt_indices lead
  have hl : (x.rebuilt lead).length = x.targets.length := by rw [← hi, List.length_map]
  have empty : x.targets = [] → x.rebuilt lead = [] := fun g => by
    rw [← List.length_eq_zero_iff, hl, g]; rfl
  exact { h with
    depth := hl ▸ x.targets_length
    indices := by show ((x.rebuilt lead).map (·.u)).Nodup; rw [hi]; exact x.targets_nodup
    closed := fun g => ⟨empty (by change x.state = .closed at g; simp [StreamRec.targets, g]), (h.closed g).2⟩
    closing := fun g => empty (by change x.state = .closing at g; simp [StreamRec.targets, g]) }

end Sys2Proof.Machine
end

