-- ==== Sys2Proof/Laws/Loose.lean ====
section
/-! SUPPORT. The legal changes of a port, and `Loose`: a property of the part that every kind of change of the blocks
keeps, if stream records stay legal, ports keep their bounds and the Hau stays legal. Every operation of the blocks keeps
such a property. -/

namespace Sys2Proof.Machine

/-! ### Ports -/

/-- A change of a port that keeps its event state legal, its notice ring legal and its completion places in bounds. -/
structure Port.Keeps (x y : Port) : Prop where
  ev : x.ev.Legal → y.ev.Legal
  ring : x.RingLegal → y.RingLegal
  places : x.places ≤ 16 → y.places ≤ 16
  states : x.StatesLegal → y.StatesLegal

theorem Port.Keeps.refl (x : Port) : Port.Keeps x x := ⟨id, id, id, id⟩

theorem Port.Keeps.trans {x y z : Port} (h : Port.Keeps x y) (g : Port.Keeps y z) : Port.Keeps x z :=
  ⟨fun a => g.ev (h.ev a), fun a => g.ring (h.ring a), fun a => g.places (h.places a),
    fun a => g.states (h.states a)⟩

/-- A change that leaves the coalescing state, the notice ring, the write and the places as they are. -/
theorem Port.Keeps.of_same {x y : Port}
    (e : y.ev.coalCount = x.ev.coalCount ∧ y.ev.coalExpiryUs = x.ev.coalExpiryUs ∧ y.ev.unsignalled = x.ev.unsignalled)
    (r : y.ntcRing = x.ntcRing ∧ y.write = x.write) (p : y.places = x.places ∧ y.stateQueue = x.stateQueue) :
    Port.Keeps x y := by
  obtain ⟨e1, e2, e3⟩ := e
  obtain ⟨r1, r2⟩ := r
  refine ⟨fun h => ?_, fun h => ?_, fun h => ?_, fun h => ?_⟩
  · unfold Events.Legal at *
    rw [e1, e2, e3]
    exact h
  · unfold Port.RingLegal at *
    rw [r1, r2]
    exact h
  · rw [p.1]
    exact h
  · unfold Port.StatesLegal at *
    rw [r2, p.2]
    exact h

theorem Port.StatesLegal.tail {x : Port} (h : x.StatesLegal) : (x.stateQueue.tail.map (·.stream)).Nodup := by
  unfold Port.StatesLegal at h
  split at h
  · exact h
  · exact h.sublist ((List.tail_sublist _).map _)

/-- A change of the write in progress alone, to one that is running only where one ran before. -/
theorem Port.Keeps.of_write {x y : Port} (e : y.ev = x.ev) (r : y.ntcRing = x.ntcRing)
    (w : y.write ≠ none → x.write ≠ none) (p : y.places ≤ x.places) (q : x.StatesLegal → y.StatesLegal) :
    Port.Keeps x y := by
  refine ⟨fun h => e ▸ h, fun h => ?_, fun h => le_trans p h, q⟩
  unfold Port.RingLegal at *
  rw [r]
  refine ⟨fun z => ?_, fun z => ⟨(h.2 z).1, fun g => (h.2 z).2 (w g)⟩⟩
  by_contra g
  exact w g (h.1 z)

theorem Events.Legal.signal {v : Events} (h : v.Legal) : v.signal.Legal := by
  obtain ⟨h1, h2, h3, h4, -⟩ := h
  exact ⟨h1, h2, h3, h4, by simp only [Events.signal, Events.raise]; omega⟩

theorem Events.Legal.posted {v : Events} (h : v.Legal) (now : Time) : (v.posted now).Legal := by
  obtain ⟨h1, h2, h3, h4, h5⟩ := h
  unfold Events.posted
  simp only
  split
  · exact ⟨h1, h2, h3, h4, by simp only [Events.signal, Events.raise]; omega⟩
  · rename_i g
    exact ⟨h1, h2, h3, h4, by simp only at g ⊢; omega⟩

theorem Events.Legal.setCoalCount {v : Events} (h : v.Legal) (value : Nat) : (v.setCoalCount value).Legal := by
  obtain ⟨-, -, h3, h4, -⟩ := h
  have h1 := clampNat_range (lo := 1) (hi := 64) value (by omega)
  unfold Events.setCoalCount
  simp only
  split
  · exact ⟨h1.1, h1.2, h3, h4, by simp only [Events.signal, Events.raise]; omega⟩
  · rename_i g
    exact ⟨h1.1, h1.2, h3, h4, by simp only at g ⊢; omega⟩

theorem Events.Legal.coalExpired {v : Events} (h : v.Legal) : v.coalExpired.Legal := by
  unfold Events.coalExpired
  split
  · exact h.signal
  · exact h

theorem Events.reset_legal : Events.reset.Legal := by unfold Events.Legal; decide

/-! ### Rings -/

theorem RingRegs.diff_lt (r : RingRegs) (h : r.size ≠ 0) (x y : Nat) : r.diff x y < 2 * r.size := by
  unfold RingRegs.diff
  have := Int.emod_lt_of_pos ((x : Int) - y) (show (0 : Int) < (2 * r.size : Nat) by omega)
  have := Int.emod_nonneg ((x : Int) - y) (show ((2 * r.size : Nat) : Int) ≠ 0 by omega)
  omega

/-- The producer moved on by one: the ring holds one record more, where it was not full. -/
theorem RingRegs.count_next (r : RingRegs) (h : r.count < r.size) :
    ({ r with producer := r.next r.producer } : RingRegs).count = r.count + 1 := by
  have h0 : r.size ≠ 0 := by omega
  have hl := r.diff_lt h0 r.producer r.consumer
  unfold RingRegs.count RingRegs.diff RingRegs.next at *
  simp only at *
  have hs : (0 : Int) < (2 * r.size : Nat) := by omega
  have e : (((r.producer + 1) % (2 * r.size) : Nat) : Int) = ((r.producer : Int) + 1) % (2 * r.size : Nat) := by
    push_cast
    rfl
  rw [e, Int.emod_sub_emod]
  have e2 : (r.producer : Int) + 1 - r.consumer = ((r.producer : Int) - r.consumer) + 1 := by ring
  rw [e2, ← Int.emod_add_emod]
  have hn := Int.emod_nonneg ((r.producer : Int) - r.consumer) (show ((2 * r.size : Nat) : Int) ≠ 0 by omega)
  rw [Int.emod_eq_of_lt (by omega) (by omega)]
  omega

theorem Port.posted_ring {x : Port} (now : Time) (w : x.write ≠ none) (h : x.RingLegal) : (x.posted now).RingLegal := by
  unfold Port.RingLegal at *
  refine ⟨fun _ => rfl, fun z => ?_⟩
  change x.ntcRing.size ≠ 0 at z
  obtain ⟨-, h2⟩ := h.2 z
  exact ⟨(RingRegs.count_next _ (h2 w)).trans_le (h2 w), fun g => absurd rfl g⟩

/-- A write that is no STATE notice's is over. -/
theorem Port.StatesLegal.unwritten {x y : Port} (h : x.StatesLegal) (w : x.write ≠ some .state)
    (e : y.stateQueue = x.stateQueue) (z : y.write ≠ some .state) : y.StatesLegal := by
  unfold Port.StatesLegal at *
  rw [if_neg w] at h
  rw [if_neg z, e]
  exact h

/-- A posting keeps a legal port legal where a write was in progress, not of a STATE notice. -/
theorem Port.posted_keeps {x : Port} (now : Time) (w : x.write ≠ none) (ns : x.write ≠ some .state) :
    Port.Keeps x (x.posted now) :=
  ⟨fun h => h.posted now, Port.posted_ring now w, id, fun h => h.unwritten ns rfl (by simp [Port.posted])⟩

theorem Port.postedState_keeps {x : Port} (now : Time) (w : x.write = some .state) : Port.Keeps x (x.postedState now) :=
  ⟨fun h => h.posted now, Port.posted_ring now (by simp [w]), id, fun h => by
    have := h.tail
    unfold Port.StatesLegal
    rw [if_neg (by simp [Port.postedState, Port.posted])]
    exact this⟩

/-! ### STATE queues -/

theorem supersede_streams (x : StateNotice) (l : List StateNotice) : (supersede x l).map (·.stream) = l.map (·.stream) := by
  induction l with
  | nil => rfl
  | cons y l ih =>
    unfold supersede
    split
    · rfl
    · simp [ih]

theorem joinState_nodup (x : StateNotice) (l : List StateNotice) (h : (l.map (·.stream)).Nodup) :
    ((joinState x l).map (·.stream)).Nodup := by
  unfold joinState
  split
  · rw [supersede_streams]
    exact h
  · rename_i g
    simp only [List.any_eq_true, decide_eq_true_eq, not_exists, not_and] at g
    rw [List.map_append, List.nodup_append]
    refine ⟨h, by simp, ?_⟩
    simp only [List.mem_map, List.map_cons, List.map_nil, List.mem_singleton]
    rintro a ⟨y, hy, rfl⟩ b rfl
    exact g y hy

theorem unmarkState_nodup (l : List StateNotice) (h : (l.tail.map (·.stream)).Nodup) :
    ((unmarkState l).map (·.stream)).Nodup := by
  cases l with
  | nil => simp [unmarkState]
  | cons y l =>
    rw [List.tail_cons] at h
    simp only [unmarkState]
    split
    · rename_i g
      rw [List.map_cons, List.nodup_cons]
      refine ⟨fun hm => ?_, h⟩
      obtain ⟨z, hz, e⟩ := List.mem_map.1 hm
      simpa [e] using List.find?_eq_none.1 g z hz
    · rw [List.map_cons, List.nodup_cons]
      refine ⟨fun hm => ?_, h.sublist (List.filter_sublist.map _)⟩
      obtain ⟨z, hz, e⟩ := List.mem_map.1 hm
      have := (List.mem_filter.1 hz).2
      simp_all

theorem Port.writeDropped_keeps (x : Port) : Port.Keeps x x.writeDropped :=
  .of_write rfl rfl (fun g => absurd rfl g) le_rfl fun h => by
    unfold Port.StatesLegal at *
    rw [if_neg (by simp [Port.writeDropped])]
    simp only [Port.writeDropped]
    split
    · rename_i w
      rw [if_pos w] at h
      exact unmarkState_nodup _ h
    · rename_i w
      rw [if_neg w] at h
      exact h

theorem Port.discarded_keeps (x : Port) : Port.Keeps x x.discarded := .of_same ⟨rfl, rfl, rfl⟩ ⟨rfl, rfl⟩ ⟨rfl, rfl⟩

theorem Port.writeBase_keeps (x : Port) (r : RingId) (value : BitVec 64) : Port.Keeps x (x.writeBase r value) := by
  unfold Port.writeBase
  split
  · exact x.discarded_keeps
  · cases r
    · exact .of_same ⟨rfl, rfl, rfl⟩ ⟨rfl, rfl⟩ ⟨rfl, rfl⟩
    · exact ⟨id, id, id, id⟩

theorem ringSize_pos (r : RingId) (value : Nat) : 1 ≤ ringSize r value := Nat.one_le_two_pow

theorem Port.writeSize_keeps (x : Port) (r : RingId) (value : BitVec 32) : Port.Keeps x (x.writeSize r value) := by
  unfold Port.writeSize
  split
  · exact x.discarded_keeps
  · rename_i hc
    cases r
    · exact .of_same ⟨rfl, rfl, rfl⟩ ⟨rfl, rfl⟩ ⟨rfl, rfl⟩
    · refine ⟨id, fun h => ?_, id, id⟩
      have hp := ringSize_pos .notice value.toNat
      have hw := h.1 (not_not.1 fun g => hc (decide_eq_true g))
      refine ⟨fun _ => hw, fun _ => ⟨?_, fun g => absurd hw g⟩⟩
      show RingRegs.count { base := _, size := ringSize .notice value.toNat, producer := 0, consumer := 0 } ≤ _
      simp [RingRegs.count, RingRegs.diff]

theorem Port.writeProducer_keeps (x : Port) (value : BitVec 32) : Port.Keeps x (x.writeProducer value) := by
  unfold Port.writeProducer
  simp only
  split
  · exact .of_same ⟨rfl, rfl, rfl⟩ ⟨rfl, rfl⟩ ⟨rfl, rfl⟩
  · exact x.discarded_keeps

theorem Port.writeConsumer_keeps (x : Port) (value : BitVec 32) : Port.Keeps x (x.writeConsumer value) := by
  unfold Port.writeConsumer
  simp only
  split
  · rename_i hc
    simp only [Bool.and_eq_true, decide_eq_true_eq] at hc
    refine ⟨id, fun h => ⟨h.1, fun z => ?_⟩, id, id⟩
    obtain ⟨h1, h2⟩ := h.2 z
    refine ⟨le_trans hc.2 h1, fun g => lt_of_le_of_lt hc.2 (h2 g)⟩
  · exact x.discarded_keeps

theorem Port.reset_keeps (x : Port) : Port.Keeps x Port.reset :=
  ⟨fun _ => Events.reset_legal, fun _ => ⟨fun _ => rfl, fun h => absurd rfl h⟩, fun _ => by decide,
    fun _ => by simp [Port.StatesLegal, Port.reset]⟩

theorem Port.cleared_keeps (x : Port) (n : Nat) (h : n ≤ 16) : Port.Keeps x (x.cleared n) := by
  refine ⟨id, fun r => ?_, fun _ => h, fun _ => by simp [Port.StatesLegal, Port.cleared]⟩
  exact ⟨fun _ => rfl, fun z => ⟨(r.2 z).1, fun g => absurd rfl g⟩⟩

/-- A legal stream with S not 0 runs. -/
theorem StreamRec.Legal.running_of_s {x : StreamRec} (l : x.Legal) (h : x.s ≠ 0) : x.Running := by
  refine ⟨?_, h⟩
  cases hs : x.state <;> simp <;> exact absurd (l.stopped (by simp [hs, StreamState.stopped])) h

/-! ### The property -/

/-- A property that every change of clips, channels and outputs keeps, and every change of slots, stream records, ports
and the HAU that keeps them legal; `P` is the number of pages of the pool. -/
structure Loose (P : Nat) (I : Device → Prop) : Prop extends Stable I where
  clip : ∀ m k v, I m → I (Device.setClip m k v)
  anyChannel : ∀ m c v, I m → I (Device.setChannel m c v)
  legal : ∀ m k v, ((Device.stream m k).Legal → StreamRec.Legal v) → I m → I (Device.setStream m k v)
  port : ∀ m p v, Port.Keeps (Device.port m p) v → I m → I (Device.setPort m p v)
  hau : ∀ (m : Device) h, (m.hau.Legal → Hau.Legal h) → I m → I { m with hau := h }
  emptied : ∀ (m : Device), I m → I { m with slots := [], freePages := List.range' 0 P, reclaim := [], reqs := [] }

variable {P : Nat} {I : Device → Prop} {m : Device}

namespace Loose

variable (q : Loose P I)
include q

theorem onLegal (k : Nat) (f : StreamRec → StreamRec) (s : (m.stream k).Legal → (f (m.stream k)).Legal) (h : I m) :
    I (m.onStream k f) := q.legal _ _ _ s h

theorem onAny (c : Nat) (f : Channel → Channel) (h : I m) : I (m.onChannel c f) := q.anyChannel _ _ _ h

theorem onPort (p : Head) (f : Port → Port) (s : Port.Keeps (m.port p) (f (m.port p))) (h : I m) : I (m.onPort p f) :=
  q.port _ _ _ s h

theorem begin_ (h : I m) : I m.begin_ :=
  q.agenda { m with out := [] } _ (q.out _ _ h)

/-! #### Notices, completions, events -/

theorem raise (p : Head) (x : Source) (h : I m) : I (m.raise p x) :=
  q.onPort _ _ (.of_same ⟨rfl, rfl, rfl⟩ ⟨rfl, rfl⟩ ⟨rfl, rfl⟩) h

theorem raiseBoth (x : Source) (h : I m) : I (m.raiseBoth x) := q.raise _ _ (q.raise _ _ h)

theorem complete (p : Head) (x : Completion) (h : I m) : I (m.complete p x) :=
  q.onPort _ _ (.of_same ⟨rfl, rfl, rfl⟩ ⟨rfl, rfl⟩ ⟨rfl, rfl⟩) h

theorem answer (p : Head) (x : Handed) (st : Status) (results : List Word) (h : I m) : I (m.answer p x st results) :=
  q.complete _ _ (q.onPort _ _ (.of_same ⟨rfl, rfl, rfl⟩ ⟨rfl, rfl⟩ ⟨rfl, rfl⟩) h)

theorem makeState (p : Head) (k : Nat) (ev : StateEvent) (h : I m) : I (m.makeState p k ev) := by
  unfold Device.makeState
  refine q.onPort _ _ ?_ h
  split
  · rename_i y l hw hq
    refine .of_write rfl rfl id le_rfl fun l => ?_
    unfold Port.StatesLegal at *
    rw [if_pos hw, hq] at l
    simp only [hw, if_true, List.tail_cons] at l ⊢
    exact joinState_nodup _ _ l
  · rename_i hn
    refine .of_write rfl rfl id le_rfl fun l => ?_
    unfold Port.StatesLegal at *
    by_cases hw : (m.port p).write = some .state
    · simp only [hw, if_true] at l ⊢
      have : (m.port p).stateQueue = [] := by
        cases hq : (m.port p).stateQueue with
        | nil => rfl
        | cons y t => exact absurd hq (hn y t hw)
      simp [this, joinState]
    · simp only [hw, if_false] at l ⊢
      exact joinState_nodup _ _ l

theorem makeStateBoth (k : Nat) (ev : StateEvent) (h : I m) : I (m.makeStateBoth k ev) :=
  q.makeState _ _ _ (q.makeState _ _ _ h)

theorem detach (k : Nat) (h : I m) : I (m.detach k) := by
  have f : ∀ x : Port, Port.Keeps x (if x.write = some (.stream k) then { x with write := some .detached } else x) := by
    intro x
    split
    · rename_i g
      exact .of_write rfl rfl (fun _ => by simp [g]) le_rfl fun l => l.unwritten (by simp [g]) rfl (by simp)
    · exact .refl x
  exact q.port (m.setPort .a _) .b _ (f _) (q.port m .a _ (f _) h)

theorem decideInterrupt (p : Head) (h : I m) : I (m.decideInterrupt p) := by
  unfold Device.decideInterrupt
  split
  · exact h
  · exact q.emit _ (q.onPort _ _ (.of_same ⟨rfl, rfl, rfl⟩ ⟨rfl, rfl⟩ ⟨rfl, rfl⟩) h)

theorem fetch (now : Time) (p : Head) (h : I m) : I (m.fetch now p) := by
  unfold Device.fetch
  split
  · rename_i g
    simp only [Device.mayFetch, Bool.and_eq_true, decide_eq_true_eq] at g
    exact q.emit _ (q.onPort p (fun port => { port with progress := .reading now, places := port.places + 1 })
      ⟨id, id, fun _ => g.2, id⟩ h)
  · exact h

theorem post (p : Head) (h : I m) : I (m.post p) := by
  unfold Device.post
  simp only
  split
  · rename_i g
    simp only [Bool.and_eq_true, decide_eq_true_eq] at g
    split
    · exact h
    · split
      · rename_i hc
        refine q.emit _ (q.onPort p (fun port => { port with write := some _, stall := false }) ⟨id, fun r => ?_, id, fun l => ?_⟩ h)
        swap
        · have := l.tail
          unfold Port.StatesLegal at *
          rw [if_neg (by simp [g.2])] at l
          split
          · exact this
          · exact l
        refine ⟨fun z => ?_, fun z => ⟨(r.2 z).1, fun _ => hc⟩⟩
        change (m.port p).ntcRing.size = 0 at z
        omega
      · split
        · exact h
        · exact q.raise _ _ (q.onPort _ _ (.of_same ⟨rfl, rfl, rfl⟩ ⟨rfl, rfl⟩ ⟨rfl, rfl⟩) h)
  · exact h

theorem settlePorts (now : Time) (h : I m) : I (m.settlePorts now) :=
  q.decideInterrupt _ (q.decideInterrupt _ (q.fetch _ _ (q.fetch _ _ (q.post _ (q.post _ h)))))

theorem settle (e : Env) (h : I m) : I (m.settle e) := q.settlePorts _ (q.settleTables e h)

/-! #### Closing and retirement -/

theorem endTransfer (p : Head) (st : Status) (h : I m) : I (m.endTransfer p st) := by
  unfold Device.endTransfer
  split
  · exact h
  · exact q.complete _ _ (q.onPort _ _ (.of_same ⟨rfl, rfl, rfl⟩ ⟨rfl, rfl⟩ ⟨rfl, rfl⟩) h)

theorem endTransferOn (clip g : Nat) (p : Head) (h : I m) : I (m.endTransferOn clip g p) := by
  unfold Device.endTransferOn
  split
  · split
    · exact q.endTransfer _ _ h
    · exact h
  · exact h

theorem retire (clip : Nat) (h : I m) : I (m.retire clip) := by
  unfold Device.retire
  exact q.endTransferOn _ _ _ (q.endTransferOn _ _ _ (q.clip _ _ _ (foldl_keeps (fun _ n h => q.freeSlot n h) _ _ h)))

theorem dropRef (clip : Nat) (h : I m) : I (m.dropRef clip) := by
  unfold Device.dropRef
  simp only
  split
  · exact q.retire _ (q.clip _ _ _ h)
  · exact q.clip _ _ _ h

theorem closeStream (k : Nat) (h : I m) : I (m.closeStream k) :=
  q.dropRef _ (q.detach _ (q.onLegal _ _ (fun l => StreamRec.closed_legal l) h))

theorem closeIfEmpty (k : Nat) (h : I m) : I (m.closeIfEmpty k) := by
  unfold Device.closeIfEmpty
  split
  · exact q.closeStream _ h
  · exact h

theorem dropDelivery (now : Time) (k : Nat) (h : I m) : I (m.dropDelivery now k) := by
  unfold Device.dropDelivery
  exact q.releasePins now DelEntry.slot _
    (q.onLegal k (fun x => { x with delivery := [] }) (fun l => l.of_delivery (by simp)) h)

/-! #### Misses -/

theorem missHead (now : Time) (k : Nat) (w : WinEntry) (run : (m.stream k).running = true) (h : I m) :
    I (m.missHead now k w) := by
  unfold Device.missHead
  refine q.onLegal _ _ (fun l => ?_) (q.releasePin _ _ (q.onLegal k (fun x => { x with window := x.window.tail })
    (fun l => l.of_window (List.tail_sublist _)) h))
  rw [Device.releasePin_stream] at l ⊢
  rw [Device.onStream, Device.stream_setStream_same] at l ⊢
  refine StreamRec.stepN_legal (StreamRec.countMiss_legal l _ _) now ?_
  obtain ⟨e1, e2⟩ := ({ m.stream k with window := (m.stream k).window.tail } : StreamRec).countMiss_same (m.marked k) w.frame
  unfold StreamRec.Running
  rw [e1, e2]
  unfold StreamRec.running at run
  split at run
  · rename_i st
    exact ⟨.inl st, l.playing st⟩
  · rename_i st
    exact ⟨.inr st, of_decide_eq_true run⟩
  · cases run

theorem expireLoop (now : Time) (k fuel : Nat) (h : I m) : I (m.expireLoop now k fuel) := by
  induction fuel generalizing m with
  | zero => exact h
  | succ fuel ih =>
    unfold Device.expireLoop
    split
    · rename_i t w l ht hw
      split
      · have run : (m.stream k).running = true := by
          unfold StreamRec.displayTimer at ht
          rw [hw] at ht
          simp only at ht
          split at ht
          · rename_i g
            simp only [Bool.and_eq_true] at g
            exact g.1.1
          · cases ht
        simp only
        split
        · exact ih (q.check _ _ (q.missHead now k w run h))
        · exact q.missHead now k w run h
      · exact h
    · exact h

end Loose

end Sys2Proof.Machine
end

