-- ==== Sys2Proof/Laws/Blocks.lean ====
section
/-! SUPPORT. Every operation of the blocks keeps a `Loose` property: the read-ahead pass, the channel controllers, the
Head Arbitration Unit, and the effects of the commands. -/

namespace Sys2Proof.Machine

variable {P : Nat} {I : Device → Prop} {m : Device}

/-- A failed record read takes no further completion place. -/
theorem Port.readFailed_places (x : Port) : x.readFailed.places ≤ x.places := by
  unfold Port.readFailed
  split <;> simp

namespace Loose

variable (q : Loose P I)
include q

/-! ### The read-ahead pass -/

theorem missPast (now : Time) (k : Nat) (h : I m) (past : (m.stream k).display (m.stream k).n = .past) :
    I (m.missPast now k) := by
  have hs : (m.stream k).s ≠ 0 := by
    intro g
    simp [StreamRec.display, g] at past
  unfold Device.missPast
  simp only
  refine q.onLegal _ _ (fun l => ?_) (q.dropEntries _ _ _ h)
  have same : ((m.dropEntries now k fun w => decide (w.u ≠ (m.stream k).n)).stream k).s = (m.stream k).s := by
    unfold Device.dropEntries
    simp only
    split
    · rfl
    · have : Quiet fun m' => (m'.stream k).s = (m.stream k).s := by
        constructor <;> intros <;>
          simp_all [Device.stream, Device.setSlot, Device.setReq, Device.setChannel, Device.freeSlot, Device.askRetry]
      exact this.releasePins now WinEntry.slot _ (by simp [Device.onStream])
  refine StreamRec.stepOn_legal (StreamRec.countMiss_legal l _ _) now ?_
  obtain ⟨e1, e2⟩ := ((m.dropEntries now k fun w => decide (w.u ≠ (m.stream k).n)).stream k).countMiss_same
    (m.marked k) (m.stream k).frameN
  have run := l.running_of_s (same ▸ hs)
  unfold StreamRec.Running at run ⊢
  rw [e1, e2]
  exact run

theorem pastLoop (now : Time) (k fuel : Nat) (h : I m) : I (m.pastLoop now k fuel) := by
  induction fuel generalizing m with
  | zero => exact h
  | succ fuel ih =>
    unfold Device.pastLoop
    split
    · rename_i g
      exact ih (q.missPast now k h g)
    · exact h

theorem rebuild (e : Env) (k : Nat) (h : I m) : I (m.rebuild e k) := by
  unfold Device.rebuild
  simp only
  refine foldl_keeps (fun _ n h => q.recompute n h) _ _ (q.legal _ _ _ (fun l => ?_) (q.grantAll _ (q.dropEntries _ _ _ h)))
  exact StreamRec.rebuilt_legal l _

theorem placeNew (e : Env) (k : Nat) (us : List Int) (h : I m) : I (m.placeNew e k us) := by
  unfold Device.placeNew
  refine foldl_keeps (fun m u h => ?_) _ _ h
  split
  · exact q.place _ _ _ _ h
  · exact h

theorem placeAndCheck (e : Env) (k : Nat) (us : List Int) (h : I m) : I (m.placeAndCheck e k us) := by
  unfold Device.placeAndCheck
  simp only
  have h1 : I (if (m.placeNew e k us).leftUnplaced k us = true then (m.placeNew e k us).askRetry else m.placeNew e k us) := by
    split
    · exact q.askRetry (q.placeNew e k us h)
    · exact q.placeNew e k us h
  generalize (if (m.placeNew e k us).leftUnplaced k us = true then _ else _ : Device) = m2 at h1 ⊢
  split
  · exact q.agenda _ _ (q.check _ _ (q.retry e h1))
  · exact q.check _ _ h1

theorem pass (e : Env) (k : Nat) (h : I m) : I (m.pass e k) := by
  have h1 : I (m.onStream k fun x => { x with passPending := false }) :=
    q.onLegal _ _ (fun l => l.of_notices (by simp) l.outbox (fun hc => (l.closed hc).2.2)) h
  unfold Device.pass
  simp only
  split
  · exact h1
  · exact h1
  · exact q.placeAndCheck _ _ _ (q.rebuild _ _ (q.pastLoop _ _ _ h1))

/-! ### Reads and channels -/

theorem finalFailure (r : Nat) (cause : Cause) (st : (m.slot (m.req r).slot).state ≠ .free) (h : I m) : I (m.finalFailure r cause) :=
  q.failSlot _ _ (by rwa [Device.onChannel, Device.setChannel_slot, Device.spend_state]) (q.onAny _ _ (q.spend _ _ h))

theorem goodRead (now : Time) (r : Nat) (st : (m.slot (m.req r).slot).state ≠ .free) (h : I m) : I (m.goodRead now r) := by
  unfold Device.goodRead
  simp only
  split
  · exact q.stageSlot _ _ (by rwa [Device.onChannel, Device.setChannel_slot, Device.spend_state])
      (q.onAny _ _ (q.spend _ _ h))
  · exact q.onAny _ _ (q.spend _ _ h)

theorem readOutcome (now : Time) (r : Nat) (o : ReadOutcome) (h : I m) : I (m.readOutcome now r o) := by
  unfold Device.readOutcome
  simp only
  split
  · rename_i g
    have st : (m.slot (m.req r).slot).state ≠ .free := by simp [g]
    split
    · exact q.goodRead _ _ st h
    · split
      · exact q.finalFailure _ _ st h
      · split
        · exact q.finalFailure _ _ st h
        · exact q.requeue _ _ _ h
        · split
          · exact q.onAny _ _ (q.requeue _ _ _ h)
          · exact q.finalFailure _ _ st h
  · exact q.endedRead _ (q.spend _ _ h)

theorem endChar (c : Nat) (o : CharOutcome) (h : I m) : I (m.endChar c o) := by
  unfold Device.endChar
  split
  · exact h
  · rename_i x _
    have h1 : I (((m.onChannel c (·.endChar x o)).raiseBoth .characterised).askChoice c) :=
      q.askChoice _ (q.raiseBoth _ (q.onAny _ _ h))
    simp only
    split
    · exact h1
    · exact q.complete _ _ h1

theorem sendProbe (now : Time) (c : Nat) (h : I m) : I (m.sendProbe now c) := by
  unfold Device.sendProbe
  split
  · exact h
  · exact q.send _ _ (q.onAny _ _ h)

theorem drained (now : Time) (c : Nat) (h : I m) : I (m.drained now c) := by
  unfold Device.drained
  split
  · split
    · exact q.sendProbe _ _ h
    · exact h
  · exact h

theorem failQueue (c : Nat) (h : I m) : I (m.failQueue c) := by
  unfold Device.failQueue
  refine foldl_keeps (fun m n h => ?_) _ _ h
  split
  · rename_i g
    exact q.failSlot _ _ (by simp [Device.onChannel, g.1]) (q.onAny _ _ h)
  · exact h

theorem fault (c : Nat) (why : FaultReason) (h : I m) : I (m.fault c why) :=
  q.failQueue _ (q.endChar _ _ (q.raiseBoth _ (q.onAny _ _ h)))

theorem countTimeout (c : Nat) (h : I m) : I (m.countTimeout c) := by
  unfold Device.countTimeout
  simp only
  split
  · exact q.fault _ _ (q.onAny _ _ h)
  · exact q.onAny _ _ h

theorem learn (c : Nat) (err : Int) (h : I m) : I (m.learn c err) := by
  unfold Device.learn
  simp only
  generalize (if ((m.onChannel c (·.learn err)).channel c).driftMs * Config.ms < err.natAbs then _ else _ : Nat) = run
  split
  · exact q.raiseBoth _ (q.onAny _ _ (q.onAny _ _ h))
  · exact q.onAny _ _ (q.onAny _ _ h)

theorem returnAll (now : Time) (rs : List Nat) (h : I m) : I (m.returnAll now rs) :=
  foldl_keeps (fun _ r h => q.readOutcome now r _ h) _ _ h

theorem linkLoss (now : Time) (c : Nat) (h : I m) : I (m.linkLoss now c) :=
  q.raiseBoth _ (q.endChar _ _ (q.returnAll _ _ (q.onAny _ _ h)))

theorem resetChannel (now : Time) (c : Nat) (h : I m) : I (m.resetChannel now c) :=
  q.raiseBoth _ (q.endChar _ _ (q.returnAll _ _ (q.emit _ (q.onAny _ _ h))))

theorem helloOffline (c : Nat) (h : I m) : I (m.helloOffline c) := by
  unfold Device.helloOffline
  split
  · exact q.fault _ _ h
  · exact q.askChoice _ (q.raiseBoth _ (q.onAny _ _ h))

theorem hello (now : Time) (c largest : Nat) (h : I m) : I (m.hello now c largest) := by
  unfold Device.hello
  simp only
  split
  · exact q.helloOffline _ (q.onAny _ _ h)
  · exact q.onAny _ _ (q.linkLoss _ _ h)
  all_goals exact q.helloOffline _ (q.onAny _ _ (q.linkLoss _ _ h))

theorem goodEnd (now : Time) (c r dispatched est : Nat) (h : I m) : I (m.goodEnd now c r dispatched est) :=
  q.onAny _ _ (q.learn _ _ (q.readOutcome _ _ _ h))

theorem endedOn (now : Time) (c r dispatched est next : Nat) (st : EndStatus) (h : I m) :
    I (m.endedOn now c r dispatched est next st) := by
  unfold Device.endedOn
  split
  · split
    · exact q.goodEnd _ _ _ _ _ h
    · exact q.readOutcome _ _ _ (q.onAny _ _ h)
  · exact q.readOutcome _ _ _ h
  · exact q.readOutcome _ _ _ h

theorem probeEnd (now : Time) (c : Nat) (x : Characterisation) (sent next : Nat) (st : EndStatus) (h : I m) :
    I (m.probeEnd now c x sent next st) := by
  unfold Device.probeEnd
  split
  · simp only
    split
    · exact q.sendProbe _ _ (q.onAny _ _ h)
    · exact q.endChar _ _ (q.onAny _ _ h)
  · exact q.endChar _ _ h

theorem tagEnd (now : Time) (c t : Nat) (st : EndStatus) (h : I m) : I (m.tagEnd now c t st) := by
  unfold Device.tagEnd
  split
  · exact q.drained _ _ (q.endedOn _ _ _ _ _ _ _ (q.releaseTag _ _ h))
  · exact q.drained _ _ (q.onAny _ _ (q.releaseTag _ _ h))
  · exact q.onAny _ _ h

theorem endMessage (now : Time) (c t : Nat) (st : EndStatus) (h : I m) : I (m.endMessage now c t st) := by
  unfold Device.endMessage
  split
  · exact q.onAny _ _ h
  · split
    · split
      · split
        · exact q.probeEnd _ _ _ _ _ _ h
        · exact q.endChar _ _ (q.onAny _ _ h)
        · exact q.tagEnd _ _ _ _ h
      · exact q.tagEnd _ _ _ _ h
    · exact q.tagEnd _ _ _ _ h

theorem abortDone (now : Time) (c t : Nat) (h : I m) : I (m.abortDone now c t) := by
  unfold Device.abortDone
  split
  · exact q.onAny _ _ h
  · split
    · exact q.drained _ _ (q.releaseTag _ _ h)
    · split
      · exact q.endChar _ _ h
      · exact q.onAny _ _ h

theorem parked (now : Time) (c : Nat) (h : I m) : I (m.parked now c) := by
  unfold Device.parked
  split
  · simp only
    split
    · exact q.onAny _ _ h
    · exact q.wake _ _ (q.onAny _ _ h)
  · exact q.onAny _ _ h

theorem awake (now : Time) (c : Nat) (h : I m) : I (m.awake now c) := by
  unfold Device.awake
  split
  · exact q.askChoice _ (q.onAny _ _ h)
  · exact q.onAny _ _ h

theorem idleExpired (now : Time) (c : Nat) (h : I m) : I (m.idleExpired now c) := q.send _ _ (q.onAny _ _ h)

theorem requestTimedOut (now : Time) (c t r : Nat) (h : I m) : I (m.requestTimedOut now c t r) :=
  q.readOutcome now r .retryable (q.countTimeout c
    (q.send c (.abort t) (q.onAny c (·.setTag t (.aborting (now + Config.sec))) h)))

theorem abortGuardExpired (now : Time) (c t : Nat) (h : I m) : I (m.abortGuardExpired now c t) :=
  q.drained _ _ (q.countTimeout _ (q.releaseTag _ _ h))

theorem probeTimedOut (now : Time) (c : Nat) (x : Characterisation) (h : I m) : I (m.probeTimedOut now c x) := by
  unfold Device.probeTimedOut
  simp only
  split
  · exact q.onAny _ _ (q.countTimeout _ (q.send _ _ (q.onAny _ _ h)))
  · exact q.countTimeout _ (q.send _ _ (q.onAny _ _ h))

/-! ### Ports -/

theorem fetchFailed (p : Head) (h : I m) : I (m.fetchFailed p) :=
  q.raise _ _ (q.onPort p (fun port => { port with halt := some .fetchRead }) (.of_same ⟨rfl, rfl, rfl⟩ ⟨rfl, rfl⟩ ⟨rfl, rfl⟩)
    (q.onPort p Port.readFailed (.of_write rfl rfl id (Port.readFailed_places _) id) h))

theorem recordArrived (p : Head) (record : List Byte) (h : I m) : I (m.onPort p (·.recordArrived record)) :=
  q.onPort _ _ (.of_same ⟨rfl, rfl, rfl⟩ ⟨rfl, rfl⟩ ⟨rfl, rfl⟩) h

theorem recordPassed (p : Head) (h : I m) : I (m.onPort p Port.recordPassed) :=
  q.onPort _ _ (.of_same ⟨rfl, rfl, rfl⟩ ⟨rfl, rfl⟩ ⟨rfl, rfl⟩) h

theorem moverRead (now : Time) (p : Head) (v : Mover) (h : I m) : I (m.moverRead now p v) :=
  q.emit _ (q.onPort p (fun port => { port with mover := some (v.startRead now) })
    (.of_same ⟨rfl, rfl, rfl⟩ ⟨rfl, rfl⟩ ⟨rfl, rfl⟩) h)

theorem entryHandled (now : Time) (p : Head) (v : Mover) (o : EntryOutcome) (h : I m) : I (m.entryHandled now p v o) := by
  have h1 : I (m.onPort p fun port => { port with mover := some (v.handled o) }) :=
    q.onPort _ _ (.of_same ⟨rfl, rfl, rfl⟩ ⟨rfl, rfl⟩ ⟨rfl, rfl⟩) h
  unfold Device.entryHandled
  simp only
  split
  · exact q.endTransfer _ _ h1
  · split
    · exact q.moverRead _ _ _ h1
    · exact h1

theorem moverFailed (p : Head) (h : I m) : I (m.moverFailed p) := q.endTransfer _ _ (q.raise _ _ h)

theorem postedStream (now : Time) (p : Head) (k : Nat) (w : (m.port p).write = some (.stream k))
    (b : m.belongs p k = true) (h : I m) : I (m.postedStream now p k) := by
  simp only [Device.belongs, Bool.and_eq_true, decide_eq_true_eq] at b
  unfold Device.postedStream
  refine q.check _ _ (q.onLegal k _ (fun l => ?_) (q.onPort _ _ (Port.posted_keeps now (by simp [w]) (by simp [w])) h))
  simp only [Device.onPort, Device.setPort_stream] at l ⊢
  refine StreamRec.joinPending_step _ (l.of_notices (by simp) ?_ fun hc => absurd hc b.1) b.1
  have := l.outbox
  simp only [List.length_tail]
  omega

theorem writeEnded (now : Time) (p : Head) (src : WriteSource) (w : (m.port p).write = some src) (h : I m) :
    I (m.writeEnded now p src) := by
  unfold Device.writeEnded
  split
  · exact q.onPort p (·.postedCompletion now) ((Port.posted_keeps now (by simp [w]) (by simp [w])).trans
      (.of_write rfl rfl id (Nat.sub_le _ _) id)) h
  · exact q.onPort p (·.postedState now) (Port.postedState_keeps now w) h
  · split
    · rename_i b
      exact q.postedStream now p _ w b h
    · exact q.onPort _ _ (.of_write rfl rfl (fun g => absurd rfl g) le_rfl fun l => l.unwritten (by simp [w]) rfl (by simp)) h
  · exact q.onPort _ _ (.of_write rfl rfl (fun g => absurd rfl g) le_rfl fun l => l.unwritten (by simp [w]) rfl (by simp)) h

theorem writeFailed (p : Head) (h : I m) : I ((m.onPort p (·.writeDropped)).halt p .noticeWrite) :=
  q.raise _ _ (q.onPort p (fun port => { port with halt := some .noticeWrite })
    (.of_same ⟨rfl, rfl, rfl⟩ ⟨rfl, rfl⟩ ⟨rfl, rfl⟩) (q.onPort p (·.writeDropped) (Port.writeDropped_keeps _) h))

/-! ### Heads -/

theorem setPrimary (new : Option Head) (h : I m)
    (ok : m.hau.Legal → ({ m.hau with primary := new } : Hau).Legal) : I (m.setPrimary new) := by
  have h1 : I { m with hau := { m.hau with primary := new } } := q.hau _ _ ok h
  have tell : ∀ (m1 : Device) (p : Head), I m1 → I (if decide (m.hau.primary = some p) = decide (new = some p) then m1
      else m1.raise p .role) := by
    intro m1 p h1
    split
    · exact h1
    · exact q.raise _ _ h1
  exact tell _ _ (tell _ _ h1)

/-- Resolution leaves the HAU legal, whatever it was. -/
theorem resolved (h0 : Hau) (h : I { m with hau := h0 }) : I m.resolve := by
  have legal : ({ m.hau with primary := m.hau.winner m.hau.headA.present m.hau.headB.present } : Hau).Legal := by
    intro p hp
    simp only [Hau.winner] at hp
    left
    revert hp
    cases ha : m.hau.headA.present <;> cases hb : m.hau.headB.present <;> cases p <;> simp [Hau.head, ha, hb]
  have h1 : I { m with hau := { m.hau with primary := m.hau.winner m.hau.headA.present m.hau.headB.present } } :=
    q.hau { m with hau := h0 } _ (fun _ => legal) h
  have tell : ∀ (m1 : Device) (p : Head) (new : Option Head), I m1 →
      I (if decide (m.hau.primary = some p) = decide (new = some p) then m1 else m1.raise p .role) := by
    intro m1 p new h1
    split
    · exact h1
    · exact q.raise _ _ h1
  exact tell _ _ _ (tell _ _ _ h1)

theorem resolve (h : I m) : I m.resolve := q.resolved m.hau h

theorem loseOwner (now : Time) (k : Nat) (h : I m) : I (m.loseOwner now k) := by
  unfold Device.loseOwner
  refine q.closeIfEmpty _ (q.dropDelivery _ _ (q.detach _ (q.onLegal k _ (fun l => ?_) h)))
  have l1 := StreamRec.clearOutbox_legal l
  exact l1.of_notices (by simp) l1.outbox fun hc => (l1.closed hc).2.2

theorem loseHead (e : Env) (p : Head) (h : I m) : I (m.loseHead e p) := by
  unfold Device.loseHead
  split
  · refine foldl_keeps (fun m k h => q.loseOwner _ _ h) _ _ (q.raise _ _ (q.hau _ _ (fun l => ?_) h))
    intro r hr
    rw [Hau.setHead_primary] at hr
    rw [Hau.head_setHead]
    split
    · exact .inr (by simp)
    · exact l r hr
  · exact h

theorem regainOwner (now : Time) (k : Nat) (h : I m) : I (m.regainOwner now k) := by
  have h1 : I (m.onStream k fun x => { x with ownerAbsent := false }) :=
    q.onLegal _ _ (fun l => l.of_notices (by simp) l.outbox fun hc => (l.closed hc).2.2) h
  unfold Device.regainOwner
  simp only
  split
  · exact h1
  · exact q.check _ _ (q.trigger _ h1)

theorem arrive (e : Env) (p : Head) (weight nonce : Nat) (h : I m) : I (m.arrive e p weight nonce) := by
  have h1 : I { m with hau := m.hau.setHead p { present := true, weight, nonce, hold := none } } := by
    refine q.hau _ _ (fun l => ?_) h
    intro r hr
    rw [Hau.setHead_primary] at hr
    rw [Hau.head_setHead]
    split
    · exact .inl rfl
    · exact l r hr
  unfold Device.arrive
  simp only
  generalize hm2 : List.foldl _ _ _ = m2
  have h2 : I m2 := by
    rw [← hm2]
    exact foldl_keeps (fun m k h => q.regainOwner _ _ h) _ _ h1
  split
  · exact q.hau _ _ (fun l => l) h2
  · split
    · exact h2
    · exact q.resolve (q.hau _ _ (fun l => l) h2)
  · split
    · exact q.resolve h2
    · exact h2

theorem announced (e : Env) (p : Head) (weight nonce : Nat) (h : I m) : I (m.announced e p weight nonce) := by
  unfold Device.announced
  split
  · rename_i g
    refine q.hau _ _ (fun l => ?_) h
    intro r hr
    rw [Hau.setHead_primary] at hr
    rw [Hau.head_setHead]
    split
    · exact .inl g
    · exact l r hr
  · exact q.arrive _ _ _ _ h

theorem orphan (e : Env) (k : Nat) (h : I m) : I (m.orphan e k) :=
  q.makeStateBoth _ _ (q.onLegal _ _ (fun l => StreamRec.orphan_legal l e) (q.dropDelivery _ _ h))

theorem lapse (e : Env) (k : Nat) (st : (m.stream k).Legal → (m.stream k).state = .handover) (h : I m) :
    I (m.lapse e k) := by
  unfold Device.lapse
  split
  · exact q.check _ _ (q.makeStateBoth _ _ (q.onLegal _ _
      (fun l => StreamRec.restore_legal l (st l) (m.stream k).owner (m.stream k).ownerAbsent) h))
  · exact q.orphan _ _ h

theorem discardChars (fitted : Nat) (p : Head) (h : I m) : I (m.discardChars fitted p) := by
  unfold Device.discardChars
  refine foldl_keeps (fun m c h => ?_) _ _ h
  split
  · split
    · exact q.onAny _ _ h
    · exact h
  · exact h

theorem resetPort (e : Env) (p : Head) (h : I m) : I (m.resetPort e p) :=
  q.loseHead _ _ (q.discardChars _ _ (q.port _ _ _ (Port.reset_keeps _) h))

/-- The property with the HAU held at `h0` is `Loose` too. -/
theorem held (h0 : Hau) : Loose P fun m' => I { m' with hau := h0 } where
  slot := fun m n v h => q.slot { m with hau := h0 } n v h
  req := fun m n v h => q.req { m with hau := h0 } n v h
  channel := fun m n v s h => q.channel { m with hau := h0 } n v s h
  freed := fun m n h => q.freed { m with hau := h0 } n h
  taken := fun m n v l a b c d h => q.taken { m with hau := h0 } n v l a b c d h
  reclaim := fun m l h => q.reclaim { m with hau := h0 } l h
  grants := fun m l h => q.grants { m with hau := h0 } l h
  out := fun m l h => q.out { m with hau := h0 } l h
  agenda := fun m l h => q.agenda { m with hau := h0 } l h
  stream := fun m n v s h => q.stream { m with hau := h0 } n v s h
  clip := fun m n v h => q.clip { m with hau := h0 } n v h
  anyChannel := fun m n v h => q.anyChannel { m with hau := h0 } n v h
  legal := fun m n v s h => q.legal { m with hau := h0 } n v s h
  port := fun m p v s h => by
    cases p
    · exact q.port { m with hau := h0 } .a v s h
    · exact q.port { m with hau := h0 } .b v s h
  hau := fun _ _ _ h => h
  emptied := fun m h => q.emptied { m with hau := h0 } h

theorem holdExpired (e : Env) (p : Head) (h : I m) : I (m.holdExpired e p) := by
  unfold Device.holdExpired
  simp only
  split
  · exact q.resolved m.hau (foldl_keeps (I := fun m' => I { m' with hau := m.hau })
      (fun _ k h => (q.held m.hau).orphan e k h) _ _ h)
  · rename_i g
    refine foldl_keeps (fun _ k h => q.orphan e k h) _ _ (q.hau _ _ (fun l => ?_) h)
    intro r hr
    rw [Hau.setHead_primary] at hr
    rw [Hau.head_setHead, if_neg (by rintro rfl; exact g hr)]
    exact l r hr

theorem orphanExpired (now : Time) (k : Nat) (h : I m) : I (m.orphanExpired now k) := by
  have tell : ∀ (m1 : Device) (p : Head), I m1 → I (if (m1.hau.head p).present then m1.makeState p k .closed else m1) := by
    intro m1 p h1
    split
    · exact q.makeState _ _ _ h1
    · exact h1
  unfold Device.orphanExpired
  exact tell _ _ (tell _ _ (q.closeStream _ (q.dropEntries _ _ _ h)))

end Loose

/-! ### The record of an orphaned stream -/

theorem Device.makeStateBoth_stream (k j : Nat) (ev : StateEvent) (m : Device) :
    (m.makeStateBoth k ev).stream j = m.stream j := rfl

/-- What orphaning does to the record of its stream: the delivery list is dropped, the rest is as R178 gives. -/
theorem Device.orphan_stream (e : Env) (k : Nat) (m : Device) :
    (m.orphan e k).stream k = StreamRec.orphan { m.stream k with delivery := [] } e := by
  unfold Device.orphan
  rw [Device.makeStateBoth_stream, Device.onStream, Device.stream_setStream_same, Device.dropDelivery_stream]

/-- An orphaned stream holds no delivery entry (R179) and its owner-absent flag is set (R178). -/
theorem Device.orphan_empty (e : Env) (k : Nat) (m : Device) :
    ((m.orphan e k).stream k).delivery = [] ∧ ((m.orphan e k).stream k).ownerAbsent = true := by
  rw [Device.orphan_stream]
  exact ⟨(StreamRec.cue_same { m.stream k with delivery := [] } e.now none).2.1, rfl⟩

end Sys2Proof.Machine
end

