-- ==== Sys2Proof/Laws/Commands.lean ====
section
/-! SUPPORT. Every command keeps a `Loose` property of the part: what each effect of a command does to the part, and
what its answer can be. -/

namespace Sys2Proof.Machine

/-- Every next state an answer gives has `P`. -/
def Yields (P : State → Prop) (a : Answer) : Prop := ∀ t, a = .next t → P t

theorem yields_next {P : State → Prop} {s : State} (h : P s) : Yields P (.next s) := by
  rintro t ⟨⟩
  exact h

variable {P : Nat} {I : Device → Prop} {m : Device}

namespace Loose

variable (q : Loose P I)
include q

/-! ### Answers -/

theorem event (s : State) (f : Device → Device) (h : I s.part) (step : I s.part.begin_ → I (f s.part.begin_)) :
    Yields (fun t => I t.part) (s.event f) := yields_next (q.settle _ (step (q.begin_ h)))

theorem portEvent (s : State) (f : Device → Device) (h : I s.part) (step : ∀ m, I m → I (f m)) :
    Yields (fun t => I t.part) (s.portEvent f) := yields_next (q.settlePorts _ (step _ (q.begin_ h)))

omit q in
theorem onReachable (s : State) (p : Head) (a : Answer) (h : I s.part) (y : Yields (fun t => I t.part) a) :
    Yields (fun t => I t.part) (s.onReachable p a) := by
  unfold State.onReachable
  split
  · exact y
  · exact yields_next h

omit q in
theorem onFitted (s : State) (c : Nat) (a : Answer) (h : I s.part) (y : Yields (fun t => I t.part) a) :
    Yields (fun t => I t.part) (s.onFitted c a) := by
  unfold State.onFitted
  split
  · exact y
  · exact yields_next h

omit q in
theorem onLink (s : State) (c : Nat) (a : Answer) (h : I s.part) (y : Yields (fun t => I t.part) a) :
    Yields (fun t => I t.part) (s.onLink c a) := by
  refine onFitted s c _ h ?_
  split
  · exact y
  · exact yields_next h

theorem take (s : State) (p : Head) (cmd : Command) (f : Handed → Device → Device) (h : I s.part)
    (step : ∀ x, I (f x s.part.begin_)) : Yields (fun t => I t.part) (s.take p cmd f) := by
  unfold State.take
  split
  · exact q.event s _ h fun _ => step _
  · exact yields_next h

theorem takeReply (s : State) (p : Head) (cmd : Command) (f : Device → Reply) (h : I s.part)
    (step : I s.part.begin_ → I (f s.part.begin_).part) : Yields (fun t => I t.part) (s.takeReply p cmd f) :=
  q.take s p cmd _ h fun _ => q.answer _ _ _ _ (step (q.begin_ h))

omit q in
theorem primaryOnly (p : Head) (f : Device → Reply) (h : I m) (step : I (f m).part) : I (m.primaryOnly p f).part := by
  unfold Device.primaryOnly
  split
  · exact step
  · exact h

/-! ### Clip commands -/

theorem defineClip (straps : Straps) (p : Head) (a : DefineClipArgs) (h : I m) : I (m.defineClip straps p a).part := by
  unfold Device.defineClip
  split
  · exact h
  · split
    · exact h
    · exact q.clip _ _ _ h

omit q in
theorem extended_step {x : StreamRec} (l : x.Legal) (clip g old new : Nat) (h : old < new) :
    (x.extended clip g old new).Legal := by
  unfold StreamRec.extended
  split
  · rename_i f
    simp only [StreamRec.follows, Bool.and_eq_true, decide_eq_true_eq] at f
    exact StreamRec.extended_legal l (by omega)
  · exact l

theorem extendClip (clip count : Nat) (h : I m) : I (m.extendClip clip count).part := by
  unfold Device.extendClip
  split
  · exact h
  · rename_i g
    unfold Device.extendRefusal at g
    simp only at g
    split at g
    · cases g
    · split at g
      · cases g
      · rename_i g1
        push Not at g1
        exact foldl_keeps (fun _ k h => q.onLegal k _ (fun l => extended_step l _ _ _ _ g1.2) h) _ _ (q.clip _ _ _ h)

theorem retireClip (p : Head) (clip g : Nat) (h : I m) : I (m.retireClip p clip g).part := by
  unfold Device.retireClip
  split
  · exact h
  · simp only
    split
    · exact h
    · split
      · exact q.retire _ (q.clip _ _ _ h)
      · exact q.clip _ _ _ h

/-! ### Stream commands -/

omit q in
theorem streamCommand (p : Head) (k : Nat) (g : Admission) (f : Reply) (h : I m)
    (step : g.admits (m.stream k).state = true → (m.stream k).state ≠ .closed → I f.part) :
    I (m.streamCommand p k g f).part := by
  unfold Device.streamCommand
  split
  · exact h
  · rename_i g0
    unfold Device.streamRefusal at g0
    split at g0
    · cases g0
    · rename_i g1
      split at g0
      · cases g0
      · split at g0
        · rename_i g2
          exact step g2 (by
            intro g3
            exact g1 (by simp [Device.noStream, g3]))
        · cases g0

theorem openStream (now : Time) (p : Head) (a : OpenArgs) (h : I m) : I (m.openStream now p a).part := by
  unfold Device.openStream
  split
  · exact h
  · exact h
  · rename_i k hr hk
    refine q.legal _ _ _ (fun _ => openedStream_legal _ _ _ _ ?_) (q.clip _ _ _ h)
    unfold Device.openRefusal at hr
    simp only at hr
    split at hr
    · cases hr
    · split at hr
      · cases hr
      · split at hr
        · cases hr
        · rename_i g
          push Not at g
          exact g.2.2

theorem transport (now : Time) (k : Nat) (drop : Bool) (f : StreamRec → StreamRec) (results : StreamRec → List Word)
    (h : I m) (legal : (m.stream k).Legal → (f (m.stream k)).Legal) : I (m.transport now k drop f results).part := by
  have h1 := q.onLegal k f legal h
  unfold Device.transport
  refine q.check _ _ ?_
  split
  · exact q.dropEntries _ _ _ h1
  · exact h1

theorem cueStream (now : Time) (k : Nat) (locate : Option Nat) (h : I m)
    (st : (m.stream k).state = .cued ∨ (m.stream k).state = .playing) : I (m.cueStream now k locate).part :=
  q.transport _ _ _ _ _ h fun l => StreamRec.cue_legal l st _ _

theorem playStream (e : Env) (k : Nat) (shuttle : Int) (locate : Option Nat) (h : I m)
    (st : (m.stream k).state = .cued ∨ (m.stream k).state = .playing) : I (m.playStream e k shuttle locate).part := by
  unfold Device.playStream
  simp only
  split
  · exact q.cueStream _ _ _ h st
  · rename_i g
    exact q.transport _ _ _ _ _ h fun l =>
      StreamRec.play_legal l st _ _ g (clampInt_range (lo := -64) (hi := 64) shuttle (by omega)) _

theorem setRange (e : Env) (k i o : Nat) (loop openEnd : Bool) (h : I m)
    (st : (m.stream k).state = .cued ∨ (m.stream k).state = .playing) : I (m.setRange e k i o loop openEnd).part := by
  unfold Device.setRange
  simp only
  split
  · exact h
  · rename_i g
    exact q.transport _ _ _ _ _ h fun l => StreamRec.setRange_legal l st _ _ (by omega) _ _

omit q in
theorem setStream_setStream (k : Nat) (v w : StreamRec) : (m.setStream k v).setStream k w = m.setStream k w := by
  simp only [Device.setStream, Table.set_set]

/-- A change of a stream record followed by a cut of its window: only the record after both has to be legal. -/
theorem cutWindow (now : Time) (k : Nat) (f : StreamRec → StreamRec) (keep : WinEntry → Bool) (h : I m)
    (legal : (m.stream k).Legal →
      ({ f (m.stream k) with window := (f (m.stream k)).window.filter keep } : StreamRec).Legal) :
    I ((m.onStream k f).dropEntries now k keep) := by
  have cut := q.legal m k { f (m.stream k) with window := (f (m.stream k)).window.filter keep } legal h
  have hx : (m.onStream k f).stream k = f (m.stream k) := by simp [Device.onStream]
  have e1 : (m.onStream k f).onStream k (fun y => { y with window := y.window.filter keep }) =
      m.setStream k { f (m.stream k) with window := (f (m.stream k)).window.filter keep } := by
    show ((m.onStream k f).setStream k _) = _
    rw [hx]
    exact setStream_setStream _ _ _
  unfold Device.dropEntries
  simp only
  split
  · rename_i g
    rw [hx, List.isEmpty_iff, List.filter_eq_nil_iff] at g
    rw [List.filter_eq_self.2 fun e he => by simpa using g e he] at cut
    exact cut
  · refine q.releasePins now WinEntry.slot _ ?_
    rw [e1]
    exact cut

theorem setWindow (now : Time) (k w c seat : Nat) (h : I m) : I (m.setWindow now k w c seat).part := by
  unfold Device.setWindow
  refine q.check _ _ (q.cutWindow now k _ _ h fun l => ?_)
  simp only [Device.onStream, Device.stream_setStream_same]
  exact StreamRec.setWindow_legal l w c seat

theorem releaseFirst (now : Time) (k count : Nat) (h : I m) : I (m.releaseFirst now k count) := by
  unfold Device.releaseFirst
  exact q.releasePins now DelEntry.slot _
    (q.onLegal k (fun x => { x with delivery := x.delivery.drop count }) (fun l => l.of_delivery (by simp)) h)

theorem release (now : Time) (k n : Nat) (h : I m) : I (m.release now k n).part := by
  unfold Device.release
  simp only
  split
  · exact q.closeIfEmpty _ (q.releaseFirst _ _ _ h)
  · exact q.check _ _ (q.releaseFirst _ _ _ h)

theorem handOver (e : Env) (k : Nat) (h : I m)
    (st : (m.stream k).state = .cued ∨ (m.stream k).state = .playing) : I (m.handOver e k).part :=
  q.makeStateBoth _ _ (q.onLegal _ _ (fun l => StreamRec.handOver_legal l st e) h)

theorem tookOver (e : Env) (p : Head) (k : Nat) (h : I m) : I (m.tookOver e p k).part :=
  q.check _ _ (q.makeState _ _ _ h)

theorem takeOver (e : Env) (p : Head) (k : Nat) (resume : Bool) (h : I m) : I (m.takeOver e p k resume).part := by
  unfold Device.takeOver
  simp only
  split
  · rename_i st
    split
    · exact q.lapse _ _ (fun _ => st) h
    · exact q.tookOver _ _ _ (q.dropDelivery _ _ (q.onLegal _ _ (fun l => StreamRec.restore_legal l st p false) h))
  · rename_i st
    exact q.tookOver _ _ _ (q.onLegal _ _ (fun l => StreamRec.adopt_legal l st e p resume) h)
  all_goals exact h

theorem closeCommand (now : Time) (k : Nat) (h : I m) (open_ : (m.stream k).state ≠ .closed) :
    I (m.closeCommand now k).part := by
  have cut : I ((m.onStream k (·.close now)).dropWindow now k) :=
    q.cutWindow now k _ _ h fun l => by simpa using StreamRec.close_legal l open_ now
  have closed : I ((((m.onStream k (·.close now)).dropWindow now k).missedAlone k).closeIfEmpty k) :=
    q.closeIfEmpty _ (q.onStream _ _ (StreamRec.missedAlone_step _) cut)
  unfold Device.closeCommand
  simp only
  by_cases c : (m.stream k).state = .closing
  · rw [if_pos c]; exact h
  · rw [if_neg c]; exact closed

/-! ### Channel and device commands -/

theorem setChannelCommand (fitted : Nat) (a : SetChannelArgs) (h : I m) : I (m.setChannelCommand fitted a).part := by
  unfold Device.setChannelCommand
  split
  · exact h
  · simp only
    split
    · exact q.anyChannel _ _ _ h
    · exact q.askChoice _ (q.anyChannel _ _ _ h)

theorem beginChar (now : Time) (p : Head) (x : Handed) (c s1 s2 address : Nat) (h : I m) :
    I (m.beginChar now p x c s1 s2 address) :=
  q.drained _ _ (q.onAny _ _ (q.onPort _ _ (.of_same ⟨rfl, rfl, rfl⟩ ⟨rfl, rfl⟩ ⟨rfl, rfl⟩) h))

theorem channelReset (now : Time) (fitted c : Nat) (h : I m) : I (m.channelReset now fitted c).part := by
  unfold Device.channelReset
  split
  · exact h
  · exact q.resetChannel _ _ h

theorem settingsChanged (fitted : Nat) (old new : DeviceSettings) (h : I m) : I (m.settingsChanged fitted old new) := by
  have h1 : I (if new.lead = old.lead then m else m.triggerWindows) := by
    split
    · exact h
    · exact foldl_keeps (fun _ k h => q.trigger k h) _ _ h
  unfold Device.settingsChanged
  simp only
  generalize (if new.lead = old.lead then m else m.triggerWindows) = m1 at h1 ⊢
  split
  · exact h1
  · exact foldl_keeps (fun _ c h => q.askChoice c h) _ _ h1

theorem clear (straps : Straps) (pool : straps.poolPages = P) (p : Head) (h : I m) : I (m.clear straps p) := by
  unfold Device.clear
  simp only
  have h1 : I m.clearStreams.clearClips := by
    refine foldl_keeps (fun _ k h => q.clip _ _ _ h) _ _ (foldl_keeps (fun _ k h => q.onLegal k _ (fun l => ?_) h) _ _ h)
    have l1 := StreamRec.closed_legal l
    exact l1.of_notices (by simp) l1.outbox fun hc => (l1.closed hc).2.2
  refine q.onPort _ _ (Port.cleared_keeps _ 0 (by omega)) (q.onPort _ _ (Port.cleared_keeps _ 1 (by omega)) ?_)
  refine foldl_keeps (fun _ c h => q.emit _ (q.onAny _ _ h)) _ _ ?_
  rw [pool]
  exact q.emptied _ h1

theorem yieldRole (p : Head) (h : I m) : I (m.yieldRole p).part := by
  unfold Device.yieldRole
  simp only
  split
  · rename_i g
    refine q.setPrimary _ h fun _ r hr => ?_
    simp only [Option.some.injEq] at hr
    subst hr
    exact .inl g
  · exact h

/-! ### Every command -/

theorem eventWrite (s : State) (p : Head) (f : Events → Events) (h : I s.part) (legal : ∀ v, Events.Legal v → (f v).Legal) :
    Yields (fun t => I t.part) (s.eventWrite p f) :=
  onReachable s p _ h (q.portEvent s _ h fun _ h => q.onPort _ _ ⟨legal _, id, id, id⟩ h)

theorem denied (p : Head) (address : Nat) (h : I m) : I (m.denied p address) :=
  q.raise _ _ (q.onPort p (fun x => { x with deniedAccesses := count32 x.deniedAccesses, lastDenied := address })
    (.of_same ⟨rfl, rfl, rfl⟩ ⟨rfl, rfl⟩ ⟨rfl, rfl⟩) h)

theorem windowRead (s : State) (p : Head) (base offset length : Nat) (byte : Nat → Byte) (ok : Nat → Bool)
    (h : I s.part) : Yields (fun t => I t.part) (s.windowRead p base offset length byte ok) := by
  refine onReachable s p _ h (q.portEvent s _ h fun m h => ?_)
  simp only
  split
  · exact q.denied _ _ (q.emit _ h)
  · exact q.emit _ h

omit q in
theorem cuedPlaying {x : StreamState} (h : Admission.cuedPlaying.admits x = true) : x = .cued ∨ x = .playing := by
  simpa [Admission.admits] using h

omit q in
theorem cuedOnly {x : StreamState} (h : Admission.cuedOnly.admits x = true) : x = .cued := by
  simpa [Admission.admits] using h

theorem defineClip_keeps (s : State) (h : I s.part) : ∀ p a, Yields (fun t => I t.part) (exec (.defineClip p a) s) := by
  intro p a
  have hb := q.begin_ h
  unfold exec execDefineClip
  simp only
  split
  · exact yields_next h
  · exact yields_next (q.settle _ (q.answer _ _ _ _ (q.defineClip _ _ _ hb)))

theorem loadIndex_keeps (s : State) (h : I s.part) : ∀ p clip first count address, Yields (fun t => I t.part) (exec (.loadIndex p clip first count address) s) := by
  intro p clip first count address
  have hb := q.begin_ h
  refine q.take s p _ _ h fun x => ?_
  split
  · exact q.answer _ _ _ _ hb
  · exact q.moverRead _ _ _ (q.onPort p (fun port => { port with progress := .loading })
      (.of_same ⟨rfl, rfl, rfl⟩ ⟨rfl, rfl⟩ ⟨rfl, rfl⟩) hb)

theorem extendClip_keeps (s : State) (h : I s.part) : ∀ p clip count, Yields (fun t => I t.part) (exec (.extendClip p clip count) s) := by
  intro p clip count
  exact q.takeReply s p _ _ h (q.extendClip clip count)

theorem retireClip_keeps (s : State) (h : I s.part) : ∀ p clip g, Yields (fun t => I t.part) (exec (.retireClip p clip g) s) := by
  intro p clip g
  exact q.takeReply s p _ _ h (q.retireClip p clip g)

theorem openStream_keeps (s : State) (h : I s.part) : ∀ p a, Yields (fun t => I t.part) (exec (.openStream p a) s) := by
  intro p a
  exact q.takeReply s p _ _ h (q.openStream _ p a)

theorem play_keeps (s : State) (h : I s.part) : ∀ p k x l, Yields (fun t => I t.part) (exec (.play p k x l) s) := by
  intro p k x l
  exact q.takeReply s p _ _ h fun h => streamCommand p k _ _ h fun g _ => q.playStream _ _ _ _ h (cuedPlaying g)

theorem cue_keeps (s : State) (h : I s.part) : ∀ p k l, Yields (fun t => I t.part) (exec (.cue p k l) s) := by
  intro p k l
  exact q.takeReply s p _ _ h fun h => streamCommand p k _ _ h fun g _ => q.cueStream _ _ _ h (cuedPlaying g)

theorem jog_keeps (s : State) (h : I s.part) : ∀ p k n, Yields (fun t => I t.part) (exec (.jog p k n) s) := by
  intro p k n
  exact q.takeReply s p _ _ h fun h => streamCommand p k _ _ h fun g _ =>
    q.transport _ _ _ _ _ h fun l => StreamRec.jog_legal l (cuedOnly g) _ _

theorem setRange_keeps (s : State) (h : I s.part) : ∀ p k i o lp oe, Yields (fun t => I t.part) (exec (.setRange p k i o lp oe) s) := by
  intro p k i o lp oe
  exact q.takeReply s p _ _ h fun h => streamCommand p k _ _ h fun g _ => q.setRange _ _ _ _ _ _ h (cuedPlaying g)

theorem setWindow_keeps (s : State) (h : I s.part) : ∀ p k w c x, Yields (fun t => I t.part) (exec (.setWindow p k w c x) s) := by
  intro p k w c x
  exact q.takeReply s p _ _ h fun h => streamCommand p k _ _ h fun _ _ => q.setWindow _ _ _ _ _ h

theorem queryStream_keeps (s : State) (h : I s.part) : ∀ p k, Yields (fun t => I t.part) (exec (.queryStream p k) s) := by
  intro p k
  exact q.takeReply s p _ _ h fun h => streamCommand p k _ _ h fun _ _ => h

theorem release_keeps (s : State) (h : I s.part) : ∀ p k n, Yields (fun t => I t.part) (exec (.release p k n) s) := by
  intro p k n
  exact q.takeReply s p _ _ h fun h => streamCommand p k _ _ h fun _ _ => q.release _ _ _ h

theorem closeStream_keeps (s : State) (h : I s.part) : ∀ p k, Yields (fun t => I t.part) (exec (.closeStream p k) s) := by
  intro p k
  exact q.takeReply s p _ _ h fun h => streamCommand p k _ _ h fun _ o => q.closeCommand _ _ h o

theorem handOver_keeps (s : State) (h : I s.part) : ∀ p k, Yields (fun t => I t.part) (exec (.handOver p k) s) := by
  intro p k
  exact q.takeReply s p _ _ h fun h => streamCommand p k _ _ h fun g _ => q.handOver _ _ h (cuedPlaying g)

theorem takeOver_keeps (s : State) (h : I s.part) : ∀ p k r, Yields (fun t => I t.part) (exec (.takeOver p k r) s) := by
  intro p k r
  refine q.takeReply s p _ _ h fun h => ?_
  split
  · exact h
  · exact q.takeOver _ _ _ _ h

theorem setChannel_keeps (s : State) (h : I s.part) : ∀ p a, Yields (fun t => I t.part) (exec (.setChannel p a) s) := by
  intro p a
  exact q.takeReply s p _ _ h fun h => primaryOnly p _ h (q.setChannelCommand _ _ h)

theorem characterise_keeps (s : State) (h : I s.part) : ∀ p c s1 s2 address, Yields (fun t => I t.part) (exec (.characterise p c s1 s2 address) s) := by
  intro p c s1 s2 address
  have hb := q.begin_ h
  refine q.take s p _ _ h fun x => ?_
  split
  · exact q.answer _ _ _ _ hb
  · split
    · exact q.answer _ _ _ _ hb
    · exact q.beginChar _ _ _ _ _ _ _ hb

theorem channelReset_keeps (s : State) (h : I s.part) : ∀ p c, Yields (fun t => I t.part) (exec (.channelReset p c) s) := by
  intro p c
  exact q.takeReply s p _ _ h fun h => primaryOnly p _ h (q.channelReset _ _ _ h)

theorem setDevice_keeps (s : State) (h : I s.part) : ∀ p a, Yields (fun t => I t.part) (exec (.setDevice p a) s) := by
  intro p a
  have hb := q.begin_ h
  unfold exec execSetDevice
  simp only
  split
  · exact yields_next h
  · split
    · exact yields_next (q.settle _ (q.answer _ _ _ _ (q.settingsChanged _ _ _ hb)))
    · exact yields_next (q.settle _ (q.answer _ _ _ _ hb))

theorem deviceClear_keeps (s : State) (pool : s.env.straps.poolPages = P) (h : I s.part) : ∀ p, Yields (fun t => I t.part) (exec (.deviceClear p) s) := by
  intro p
  exact q.takeReply s p _ _ h fun h => primaryOnly p _ h (q.clear _ pool _ h)

theorem yieldRole_keeps (s : State) (h : I s.part) : ∀ p, Yields (fun t => I t.part) (exec (.yieldRole p) s) := by
  intro p
  exact q.takeReply s p _ _ h fun h => primaryOnly p _ h (q.yieldRole _ h)

theorem unknownCommand_keeps (s : State) (h : I s.part) : ∀ p code, Yields (fun t => I t.part) (exec (.unknownCommand p code) s) := by
  intro p code
  exact q.takeReply s p _ _ h id

theorem commandFetchDone_keeps (s : State) (h : I s.part) : ∀ p record, Yields (fun t => I t.part) (exec (.commandFetchDone p record) s) := by
  intro p record
  unfold exec execCommandFetchDone
  simp only
  split
  · exact q.event s _ h (q.recordArrived p record)
  · exact q.event s _ h (q.recordPassed p)
  · exact yields_next h

theorem fetchReadError_keeps (s : State) (h : I s.part) : ∀ p, Yields (fun t => I t.part) (exec (.fetchReadError p) s) := by
  intro p
  unfold exec execFetchReadError
  simp only
  split
  · exact q.event s _ h (q.fetchFailed p)
  · exact q.event s _ h (q.fetchFailed p)
  · exact yields_next h

theorem fetchReadTimeout_keeps (s : State) (h : I s.part) : ∀ p, Yields (fun t => I t.part) (exec (.fetchReadTimeout p) s) := by
  intro p
  unfold exec execFetchReadTimeout
  simp only
  split
  · split
    · exact q.event s _ h (q.fetchFailed p)
    · exact yields_next h
  · split
    · exact q.event s _ h (q.fetchFailed p)
    · exact yields_next h
  · exact yields_next h

theorem indexEntryArrival_keeps (s : State) (h : I s.part) : ∀ p entry, Yields (fun t => I t.part) (exec (.indexEntryArrival p entry) s) := by
  intro p entry
  have hb := q.begin_ h
  unfold exec execIndexEntryArrival
  simp only
  split
  · exact yields_next h
  · exact yields_next (q.settle _ (q.entryHandled _ _ _ _ hb))

theorem moverReadError_keeps (s : State) (h : I s.part) : ∀ p, Yields (fun t => I t.part) (exec (.moverReadError p) s) := by
  intro p
  unfold exec execMoverReadError
  simp only
  split
  · exact q.event s _ h (q.moverFailed p)
  · exact yields_next h

theorem moverReadTimeout_keeps (s : State) (h : I s.part) : ∀ p, Yields (fun t => I t.part) (exec (.moverReadTimeout p) s) := by
  intro p
  unfold exec execMoverReadTimeout
  simp only
  split
  · split
    · exact q.event s _ h (q.moverFailed p)
    · exact yields_next h
  · exact yields_next h

theorem noticeWriteEnd_keeps (s : State) (h : I s.part) : ∀ p, Yields (fun t => I t.part) (exec (.noticeWriteEnd p) s) := by
  intro p
  unfold exec execNoticeWriteEnd
  simp only
  split
  · rename_i src hw
    refine q.event s _ h (q.writeEnded _ p src ?_)
    rw [show (s.part.begin_.port p).write = (s.part.port p).write by cases p <;> rfl, hw]
  · exact yields_next h

theorem noticeWriteFail_keeps (s : State) (h : I s.part) : ∀ p, Yields (fun t => I t.part) (exec (.noticeWriteFail p) s) := by
  intro p
  unfold exec execNoticeWriteFail
  simp only
  split
  · exact q.event s _ h (q.writeFailed p)
  · exact yields_next h

theorem deadlinePass_keeps (s : State) (h : I s.part) : Yields (fun t => I t.part) (exec .deadlinePass s) := by
  unfold exec execDeadlinePass
  simp only
  split
  · exact q.event s _ h (q.pass _ _)
  · exact yields_next h

theorem announce_keeps (s : State) (h : I s.part) : ∀ p weight nonce, Yields (fun t => I t.part) (exec (.announce p weight nonce) s) := by
  intro p weight nonce
  exact onReachable s p _ h (q.event s _ h fun h => q.announced _ _ _ _
    (q.onPort _ _ (.of_same ⟨rfl, rfl, rfl⟩ ⟨rfl, rfl⟩ ⟨rfl, rfl⟩) h))

theorem withdraw_keeps (s : State) (h : I s.part) : ∀ p, Yields (fun t => I t.part) (exec (.withdraw p) s) := by
  intro p
  refine onReachable s p _ h (q.event s _ h fun h => q.loseHead _ _ (q.onPort _ _ ?_ h))
  unfold Port.abandonStreamWrite
  split
  · rename_i g
    exact .of_write rfl rfl (fun g => absurd rfl g) le_rfl fun l => l.unwritten (by simp [g]) rfl (by simp)
  · rename_i g
    exact .of_write rfl rfl (fun g => absurd rfl g) le_rfl fun l => l.unwritten (by simp [g]) rfl (by simp)
  · exact .of_same ⟨rfl, rfl, rfl⟩ ⟨rfl, rfl⟩ ⟨rfl, rfl⟩

theorem ringBaseWrite_keeps (s : State) (h : I s.part) : ∀ p r value, Yields (fun t => I t.part) (exec (.ringBaseWrite p r value) s) := by
  intro p r value
  exact onReachable s p _ h (q.portEvent s _ h fun _ h => q.onPort _ _ (Port.writeBase_keeps _ _ _) h)

theorem ringSizeWrite_keeps (s : State) (h : I s.part) : ∀ p r value, Yields (fun t => I t.part) (exec (.ringSizeWrite p r value) s) := by
  intro p r value
  exact onReachable s p _ h (q.portEvent s _ h fun _ h => q.onPort _ _ (Port.writeSize_keeps _ _ _) h)

theorem cmdProducerWrite_keeps (s : State) (h : I s.part) : ∀ p value, Yields (fun t => I t.part) (exec (.cmdProducerWrite p value) s) := by
  intro p value
  exact onReachable s p _ h (q.portEvent s _ h fun _ h => q.onPort _ _ (Port.writeProducer_keeps _ _) h)

theorem ntcConsumerWrite_keeps (s : State) (h : I s.part) : ∀ p value, Yields (fun t => I t.part) (exec (.ntcConsumerWrite p value) s) := by
  intro p value
  exact onReachable s p _ h (q.portEvent s _ h fun _ h => q.onPort _ _ (Port.writeConsumer_keeps _ _) h)

theorem evRequestWrite_keeps (s : State) (h : I s.part) : ∀ p value, Yields (fun t => I t.part) (exec (.evRequestWrite p value) s) := by
  intro p value
  unfold exec execEvRequestWrite
  simp only
  exact q.eventWrite s p _ h fun _ l => l

theorem evMaskWrite_keeps (s : State) (h : I s.part) : ∀ p value, Yields (fun t => I t.part) (exec (.evMaskWrite p value) s) := by
  intro p value
  unfold exec execEvMaskWrite
  simp only
  exact q.eventWrite s p _ h fun _ l => l

theorem evLevelWrite_keeps (s : State) (h : I s.part) : ∀ p value, Yields (fun t => I t.part) (exec (.evLevelWrite p value) s) := by
  intro p value
  unfold exec execEvLevelWrite
  simp only
  exact q.eventWrite s p _ h fun _ l => l

theorem endOfService_keeps (s : State) (h : I s.part) : ∀ p, Yields (fun t => I t.part) (exec (.endOfService p) s) := by
  intro p
  unfold exec execEndOfService
  simp only
  refine q.eventWrite s p _ h fun v l => ?_
  unfold Events.endService
  split
  · exact l
  · exact l

theorem coalCountWrite_keeps (s : State) (h : I s.part) : ∀ p value, Yields (fun t => I t.part) (exec (.coalCountWrite p value) s) := by
  intro p value
  unfold exec execCoalCountWrite
  simp only
  exact q.eventWrite s p _ h fun _ l => l.setCoalCount _

theorem coalExpiryWrite_keeps (s : State) (h : I s.part) : ∀ p value, Yields (fun t => I t.part) (exec (.coalExpiryWrite p value) s) := by
  intro p value
  unfold exec execCoalExpiryWrite
  simp only
  refine q.eventWrite s p _ h fun v l => ?_
  have := clampNat_range (lo := 50) (hi := 2000) value.toNat (by omega)
  exact ⟨l.1, l.2.1, this.1, this.2, l.2.2.2.2⟩

theorem tbLowRead_keeps (s : State) (h : I s.part) : ∀ p, Yields (fun t => I t.part) (exec (.tbLowRead p) s) := by
  intro p
  exact onReachable s p _ h (q.portEvent s _ h fun _ h => q.emit _
    (q.onPort _ _ (.of_same ⟨rfl, rfl, rfl⟩ ⟨rfl, rfl⟩ ⟨rfl, rfl⟩) h))

theorem taSelectWrite_keeps (s : State) (h : I s.part) : ∀ p value, Yields (fun t => I t.part) (exec (.taSelectWrite p value) s) := by
  intro p value
  refine onReachable s p _ h (q.portEvent s _ h fun _ h => q.onPort _ _ ?_ h)
  unfold Port.writeSelect
  split
  · exact Port.discarded_keeps _
  · exact .of_same ⟨rfl, rfl, rfl⟩ ⟨rfl, rfl⟩ ⟨rfl, rfl⟩

theorem taIndexWrite_keeps (s : State) (h : I s.part) : ∀ p value, Yields (fun t => I t.part) (exec (.taIndexWrite p value) s) := by
  intro p value
  exact onReachable s p _ h (q.portEvent s _ h fun _ h => q.onPort _ _ (.of_same ⟨rfl, rfl, rfl⟩ ⟨rfl, rfl⟩ ⟨rfl, rfl⟩) h)

theorem taModeWrite_keeps (s : State) (h : I s.part) : ∀ p value, Yields (fun t => I t.part) (exec (.taModeWrite p value) s) := by
  intro p value
  refine onReachable s p _ h (q.portEvent s _ h fun _ h => q.onPort _ _ ?_ h)
  unfold Port.writeMode
  split
  · exact Port.discarded_keeps _
  · exact .of_same ⟨rfl, rfl, rfl⟩ ⟨rfl, rfl⟩ ⟨rfl, rfl⟩

theorem taDataRead_keeps (s : State) (h : I s.part) : ∀ p, Yields (fun t => I t.part) (exec (.taDataRead p) s) := by
  intro p
  exact onReachable s p _ h (q.portEvent s _ h fun _ h => q.emit _
    (q.onPort _ _ (.of_same ⟨rfl, rfl, rfl⟩ ⟨rfl, rfl⟩ ⟨rfl, rfl⟩) h))

theorem portReset_keeps (s : State) (h : I s.part) : ∀ p, Yields (fun t => I t.part) (exec (.portReset p) s) := by
  intro p
  exact onReachable s p _ h (q.event s _ h (q.resetPort _ _))

theorem discardedWrite_keeps (s : State) (h : I s.part) : ∀ p, Yields (fun t => I t.part) (exec (.discardedWrite p) s) := by
  intro p
  exact onReachable s p _ h (q.portEvent s _ h fun _ h => q.onPort _ _ (Port.discarded_keeps _) h)

theorem portLinkLoss_keeps (s : State) (h : I s.part) : ∀ p, Yields (fun t => I t.part) (exec (.portLinkLoss p) s) := by
  intro p
  exact onReachable s p _ h (q.event s _ h (q.resetPort _ _))

theorem stagingPageRead_keeps (s : State) (h : I s.part) : ∀ p offset length, Yields (fun t => I t.part) (exec (.stagingPageRead p offset length) s) := by
  intro p offset length
  exact q.windowRead s p _ _ _ _ _ h

theorem descriptorRead_keeps (s : State) (h : I s.part) : ∀ p offset length, Yields (fun t => I t.part) (exec (.descriptorRead p offset length) s) := by
  intro p offset length
  exact q.windowRead s p _ _ _ _ _ h

theorem stagingWrite_keeps (s : State) (h : I s.part) : ∀ p offset, Yields (fun t => I t.part) (exec (.stagingWrite p offset) s) := by
  intro p offset
  exact onReachable s p _ h (q.portEvent s _ h fun _ h => q.denied _ _ h)

theorem linkUp_keeps (s : State) (h : I s.part) : ∀ c, Yields (fun t => I t.part) (exec (.linkUp c) s) := by
  intro c
  exact onFitted s c _ h (q.event s _ h fun h => q.onAny _ _ h)

theorem channelLinkLoss_keeps (s : State) (h : I s.part) : ∀ c, Yields (fun t => I t.part) (exec (.channelLinkLoss c) s) := by
  intro c
  exact onFitted s c _ h (q.event s _ h fun h => q.linkLoss _ _ (q.onAny _ _ h))

theorem hello_keeps (s : State) (h : I s.part) : ∀ c largest, Yields (fun t => I t.part) (exec (.hello c largest) s) := by
  intro c largest
  exact onLink s c _ h (q.event s _ h (q.hello _ _ _))

theorem dataBlock_keeps (s : State) (h : I s.part) : ∀ c tag offset payload, Yields (fun t => I t.part) (exec (.dataBlock c tag offset payload) s) := by
  intro c tag offset payload
  have hb := q.begin_ h
  exact onLink s c _ h (yields_next (q.settle _ (q.onAny _ _ hb)))

theorem readEnd_keeps (s : State) (h : I s.part) : ∀ c tag status, Yields (fun t => I t.part) (exec (.readEnd c tag status) s) := by
  intro c tag status
  exact onLink s c _ h (q.event s _ h (q.endMessage _ _ _ _))

theorem abortDone_keeps (s : State) (h : I s.part) : ∀ c tag, Yields (fun t => I t.part) (exec (.abortDone c tag) s) := by
  intro c tag
  exact onLink s c _ h (q.event s _ h (q.abortDone _ _ _))

theorem parked_keeps (s : State) (h : I s.part) : ∀ c, Yields (fun t => I t.part) (exec (.parked c) s) := by
  intro c
  exact onLink s c _ h (q.event s _ h (q.parked _ _))

theorem awake_keeps (s : State) (h : I s.part) : ∀ c, Yields (fun t => I t.part) (exec (.awake c) s) := by
  intro c
  exact onLink s c _ h (q.event s _ h (q.awake _ _))

theorem strayMessage_keeps (s : State) (h : I s.part) : ∀ c code, Yields (fun t => I t.part) (exec (.strayMessage c code) s) := by
  intro c code
  refine onLink s c _ h ?_
  split
  · exact yields_next h
  · exact q.event s _ h fun h => q.onAny _ _ h

theorem idleTimerExpiry_keeps (s : State) (h : I s.part) : ∀ c, Yields (fun t => I t.part) (exec (.idleTimerExpiry c) s) := by
  intro c
  unfold exec execIdleTimerExpiry
  simp only
  split
  · exact q.event s _ h (q.idleExpired _ _)
  · exact yields_next h

theorem parkGuardExpiry_keeps (s : State) (h : I s.part) : ∀ c, Yields (fun t => I t.part) (exec (.parkGuardExpiry c) s) := by
  intro c
  unfold exec execParkGuardExpiry
  simp only
  split
  · exact q.event s _ h (q.fault _ _)
  · exact yields_next h

theorem wakeGuardExpiry_keeps (s : State) (h : I s.part) : ∀ c, Yields (fun t => I t.part) (exec (.wakeGuardExpiry c) s) := by
  intro c
  unfold exec execWakeGuardExpiry
  simp only
  split
  · exact q.event s _ h (q.fault _ _)
  · exact yields_next h

theorem requestTimeout_keeps (s : State) (h : I s.part) : ∀ c t, Yields (fun t => I t.part) (exec (.requestTimeout c t) s) := by
  intro c t
  unfold exec execRequestTimeout
  simp only
  split
  · split
    · exact q.event s _ h (q.requestTimedOut _ _ _ _)
    · exact yields_next h
  · exact yields_next h

theorem abortGuardExpiry_keeps (s : State) (h : I s.part) : ∀ c t, Yields (fun t => I t.part) (exec (.abortGuardExpiry c t) s) := by
  intro c t
  unfold exec execAbortGuardExpiry
  simp only
  split
  · split
    · exact q.event s _ h (q.abortGuardExpired _ _ _)
    · exact yields_next h
  · exact yields_next h

theorem probeTimeout_keeps (s : State) (h : I s.part) : ∀ c, Yields (fun t => I t.part) (exec (.probeTimeout c) s) := by
  intro c
  unfold exec execProbeTimeout
  simp only
  split
  · split
    · split
      · exact q.event s _ h (q.probeTimedOut _ _ _)
      · exact yields_next h
    · exact yields_next h
  · exact yields_next h

theorem settlingGuardExpiry_keeps (s : State) (h : I s.part) : ∀ c, Yields (fun t => I t.part) (exec (.settlingGuardExpiry c) s) := by
  intro c
  unfold exec execSettlingGuardExpiry
  simp only
  split
  · split
    · split
      · exact q.event s _ h fun h => q.endChar _ _ (q.countTimeout _ h)
      · exact yields_next h
    · exact yields_next h
  · exact yields_next h

theorem recheckTimerExpiry_keeps (s : State) (h : I s.part) : ∀ c, Yields (fun t => I t.part) (exec (.recheckTimerExpiry c) s) := by
  intro c
  unfold exec execRecheckTimerExpiry
  simp only
  split
  · exact q.event s _ h fun h => q.askChoice _ (q.onAny _ _ h)
  · exact yields_next h

theorem displayExpiry_keeps (s : State) (h : I s.part) : ∀ k, Yields (fun t => I t.part) (exec (.displayExpiry k) s) := by
  intro k
  unfold exec execDisplayExpiry
  simp only
  split
  · exact q.event s _ h (q.expireLoop _ _ _)
  · exact yields_next h

theorem holdTimerExpiry_keeps (s : State) (h : I s.part) : ∀ p, Yields (fun t => I t.part) (exec (.holdTimerExpiry p) s) := by
  intro p
  unfold exec execHoldTimerExpiry
  simp only
  split
  · exact q.event s _ h (q.holdExpired _ _)
  · exact yields_next h

theorem settleTimerExpiry_keeps (s : State) (h : I s.part) : Yields (fun t => I t.part) (exec .settleTimerExpiry s) := by
  unfold exec execSettleTimerExpiry
  simp only
  split
  · exact q.event s _ h fun h => q.resolve (q.hau _ _ (fun l => l) h)
  · exact yields_next h

theorem orphanTimerExpiry_keeps (s : State) (h : I s.part) : ∀ k, Yields (fun t => I t.part) (exec (.orphanTimerExpiry k) s) := by
  intro k
  unfold exec execOrphanTimerExpiry
  simp only
  split
  · exact q.event s _ h (q.orphanExpired _ _)
  · exact yields_next h

theorem handoverLapse_keeps (s : State) (h : I s.part) : ∀ k, Yields (fun t => I t.part) (exec (.handoverLapse k) s) := by
  intro k
  unfold exec execHandoverLapse
  simp only
  split
  · rename_i d
    refine q.event s _ h (q.lapse _ _ fun l => l.handoverTimer ?_)
    intro g
    change (s.part.stream k).handoverTimer = none at g
    simp [due, g] at d
  · exact yields_next h

theorem coalescingTimerExpiry_keeps (s : State) (h : I s.part) : ∀ p, Yields (fun t => I t.part) (exec (.coalescingTimerExpiry p) s) := by
  intro p
  unfold exec execCoalescingTimerExpiry
  simp only
  split
  · split
    · exact q.portEvent s _ h fun _ h => q.onPort _ _ ⟨fun l => l.coalExpired, id, id, id⟩ h
    · exact yields_next h
  · exact yields_next h

/-- Every command keeps the property, where every reset state has it. -/
theorem exec_keeps (i : Instr) (s : State) (pool : s.env.straps.poolPages = P)
    (reset : ∀ straps, i = .hardReset straps → I (Device.reset straps)) (h : I s.part) :
    Yields (fun t => I t.part) (exec i s) := by
  cases i with
  | hardReset straps => exact yields_next (reset straps rfl)
  | defineClip p a => exact q.defineClip_keeps s h p a
  | loadIndex p clip first count address => exact q.loadIndex_keeps s h p clip first count address
  | extendClip p clip count => exact q.extendClip_keeps s h p clip count
  | retireClip p clip g => exact q.retireClip_keeps s h p clip g
  | openStream p a => exact q.openStream_keeps s h p a
  | play p k x l => exact q.play_keeps s h p k x l
  | cue p k l => exact q.cue_keeps s h p k l
  | jog p k n => exact q.jog_keeps s h p k n
  | setRange p k i o lp oe => exact q.setRange_keeps s h p k i o lp oe
  | setWindow p k w c x => exact q.setWindow_keeps s h p k w c x
  | queryStream p k => exact q.queryStream_keeps s h p k
  | release p k n => exact q.release_keeps s h p k n
  | closeStream p k => exact q.closeStream_keeps s h p k
  | handOver p k => exact q.handOver_keeps s h p k
  | takeOver p k r => exact q.takeOver_keeps s h p k r
  | setChannel p a => exact q.setChannel_keeps s h p a
  | characterise p c s1 s2 address => exact q.characterise_keeps s h p c s1 s2 address
  | channelReset p c => exact q.channelReset_keeps s h p c
  | setDevice p a => exact q.setDevice_keeps s h p a
  | deviceClear p => exact q.deviceClear_keeps s pool h p
  | yieldRole p => exact q.yieldRole_keeps s h p
  | unknownCommand p code => exact q.unknownCommand_keeps s h p code
  | commandFetchDone p record => exact q.commandFetchDone_keeps s h p record
  | fetchReadError p => exact q.fetchReadError_keeps s h p
  | fetchReadTimeout p => exact q.fetchReadTimeout_keeps s h p
  | indexEntryArrival p entry => exact q.indexEntryArrival_keeps s h p entry
  | moverReadError p => exact q.moverReadError_keeps s h p
  | moverReadTimeout p => exact q.moverReadTimeout_keeps s h p
  | noticeWriteEnd p => exact q.noticeWriteEnd_keeps s h p
  | noticeWriteFail p => exact q.noticeWriteFail_keeps s h p
  | deadlinePass => exact q.deadlinePass_keeps s h
  | announce p weight nonce => exact q.announce_keeps s h p weight nonce
  | withdraw p => exact q.withdraw_keeps s h p
  | ringBaseWrite p r value => exact q.ringBaseWrite_keeps s h p r value
  | ringSizeWrite p r value => exact q.ringSizeWrite_keeps s h p r value
  | cmdProducerWrite p value => exact q.cmdProducerWrite_keeps s h p value
  | ntcConsumerWrite p value => exact q.ntcConsumerWrite_keeps s h p value
  | evRequestWrite p value => exact q.evRequestWrite_keeps s h p value
  | evMaskWrite p value => exact q.evMaskWrite_keeps s h p value
  | evLevelWrite p value => exact q.evLevelWrite_keeps s h p value
  | endOfService p => exact q.endOfService_keeps s h p
  | coalCountWrite p value => exact q.coalCountWrite_keeps s h p value
  | coalExpiryWrite p value => exact q.coalExpiryWrite_keeps s h p value
  | tbLowRead p => exact q.tbLowRead_keeps s h p
  | taSelectWrite p value => exact q.taSelectWrite_keeps s h p value
  | taIndexWrite p value => exact q.taIndexWrite_keeps s h p value
  | taModeWrite p value => exact q.taModeWrite_keeps s h p value
  | taDataRead p => exact q.taDataRead_keeps s h p
  | portReset p => exact q.portReset_keeps s h p
  | discardedWrite p => exact q.discardedWrite_keeps s h p
  | portLinkLoss p => exact q.portLinkLoss_keeps s h p
  | stagingPageRead p offset length => exact q.stagingPageRead_keeps s h p offset length
  | descriptorRead p offset length => exact q.descriptorRead_keeps s h p offset length
  | stagingWrite p offset => exact q.stagingWrite_keeps s h p offset
  | linkUp c => exact q.linkUp_keeps s h c
  | channelLinkLoss c => exact q.channelLinkLoss_keeps s h c
  | hello c largest => exact q.hello_keeps s h c largest
  | dataBlock c tag offset payload => exact q.dataBlock_keeps s h c tag offset payload
  | readEnd c tag status => exact q.readEnd_keeps s h c tag status
  | abortDone c tag => exact q.abortDone_keeps s h c tag
  | parked c => exact q.parked_keeps s h c
  | awake c => exact q.awake_keeps s h c
  | strayMessage c code => exact q.strayMessage_keeps s h c code
  | idleTimerExpiry c => exact q.idleTimerExpiry_keeps s h c
  | parkGuardExpiry c => exact q.parkGuardExpiry_keeps s h c
  | wakeGuardExpiry c => exact q.wakeGuardExpiry_keeps s h c
  | requestTimeout c t => exact q.requestTimeout_keeps s h c t
  | abortGuardExpiry c t => exact q.abortGuardExpiry_keeps s h c t
  | probeTimeout c => exact q.probeTimeout_keeps s h c
  | settlingGuardExpiry c => exact q.settlingGuardExpiry_keeps s h c
  | recheckTimerExpiry c => exact q.recheckTimerExpiry_keeps s h c
  | displayExpiry k => exact q.displayExpiry_keeps s h k
  | holdTimerExpiry p => exact q.holdTimerExpiry_keeps s h p
  | settleTimerExpiry => exact q.settleTimerExpiry_keeps s h
  | orphanTimerExpiry k => exact q.orphanTimerExpiry_keeps s h k
  | handoverLapse k => exact q.handoverLapse_keeps s h k
  | coalescingTimerExpiry p => exact q.coalescingTimerExpiry_keeps s h p

end Loose

end Sys2Proof.Machine
end

