-- ==== Sys2Proof/Laws/Invariants.lean ====
section
/-! SUPPORT. The properties of the part that are `Loose`: canonical tables, legal streams, legal ports. What a command
leaves of staging memory and house time, and what the end of an event leaves of the part. -/

namespace Sys2Proof.Machine

/-- The sparse tables are in canonical form. -/
def Device.Canonical (m : Device) : Prop :=
  Table.wf Clip.reset m.clips = true ∧ Table.wf StreamRec.reset m.streams = true ∧ Table.wf Slot.free m.slots = true ∧
  Table.wf Request.free m.reqs = true ∧ Table.wf Channel.reset m.channels = true

theorem loose_canonical (P : Nat) : Loose P Device.Canonical where
  slot := fun _ _ _ _ h => ⟨h.1, h.2.1, Table.wf_set _ _ _ h.2.2.1, h.2.2.2⟩
  freed := fun m n h => ⟨h.1, h.2.1, Table.wf_set m.slots n Slot.free h.2.2.1, h.2.2.2⟩
  taken := fun m n v _ _ _ _ _ h => ⟨h.1, h.2.1, Table.wf_set m.slots n v h.2.2.1, h.2.2.2⟩
  req := fun _ _ _ h => ⟨h.1, h.2.1, h.2.2.1, Table.wf_set _ _ _ h.2.2.2.1, h.2.2.2.2⟩
  channel := fun _ _ _ _ h => ⟨h.1, h.2.1, h.2.2.1, h.2.2.2.1, Table.wf_set _ _ _ h.2.2.2.2⟩
  reclaim := fun _ _ h => h
  grants := fun _ _ h => h
  out := fun _ _ h => h
  agenda := fun _ _ h => h
  stream := fun _ _ _ _ h => ⟨h.1, Table.wf_set _ _ _ h.2.1, h.2.2⟩
  clip := fun _ _ _ h => ⟨Table.wf_set _ _ _ h.1, h.2⟩
  anyChannel := fun _ _ _ h => ⟨h.1, h.2.1, h.2.2.1, h.2.2.2.1, Table.wf_set _ _ _ h.2.2.2.2⟩
  legal := fun _ _ _ _ h => ⟨h.1, Table.wf_set _ _ _ h.2.1, h.2.2⟩
  port := fun _ p _ _ h => by cases p <;> exact h
  hau := fun _ _ _ h => h
  emptied := fun _ h => ⟨h.1, h.2.1, by rfl, by rfl, h.2.2.2.2⟩

/-- Every stream record of the part is legal. -/
def Device.StreamsLegal (m : Device) : Prop := ∀ k, (m.stream k).Legal

theorem Device.StreamsLegal.setStream {m : Device} (h : m.StreamsLegal) (k : Nat) (v : StreamRec)
    (l : (m.stream k).Legal → v.Legal) : (m.setStream k v).StreamsLegal := by
  intro j
  rw [Device.stream_setStream]
  split
  · exact l (h k)
  · exact h j

theorem loose_streams (P : Nat) : Loose P Device.StreamsLegal where
  slot := fun _ _ _ _ h => h
  freed := fun _ _ h => h
  taken := fun _ _ _ _ _ _ _ _ h => h
  req := fun _ _ _ h => h
  channel := fun _ _ _ _ h => h
  reclaim := fun _ _ h => h
  grants := fun _ _ h => h
  out := fun _ _ h => h
  agenda := fun _ _ h => h
  stream := fun _ k v s h => h.setStream k v s.2
  clip := fun _ _ _ h => h
  anyChannel := fun _ _ _ h => h
  legal := fun _ k v l h => h.setStream k v l
  port := fun _ p _ _ h => by cases p <;> exact h
  hau := fun _ _ _ h => h
  emptied := fun _ h => h

/-- The ports and the HAU of the part are legal. -/
def Device.PortsLegal (m : Device) : Prop :=
  m.hau.Legal ∧ ∀ p, (m.port p).ev.Legal ∧ (m.port p).RingLegal ∧ (m.port p).places ≤ 16 ∧
    (m.port p).StatesLegal

theorem loose_ports (P : Nat) : Loose P Device.PortsLegal where
  slot := fun m n v _ h => ⟨h.1, fun p => by rw [Device.setSlot_port]; exact h.2 p⟩
  freed := fun _ _ h => ⟨h.1, fun p => by cases p; exacts [h.2 .a, h.2 .b]⟩
  taken := fun _ _ _ _ _ _ _ _ h => ⟨h.1, fun p => by cases p; exacts [h.2 .a, h.2 .b]⟩
  req := fun m n v h => ⟨h.1, fun p => by rw [Device.setReq_port]; exact h.2 p⟩
  channel := fun m n v _ h => ⟨h.1, fun p => by rw [Device.setChannel_port]; exact h.2 p⟩
  reclaim := fun _ _ h => ⟨h.1, fun p => by cases p; exacts [h.2 .a, h.2 .b]⟩
  grants := fun _ _ h => ⟨h.1, fun p => by cases p; exacts [h.2 .a, h.2 .b]⟩
  out := fun _ _ h => ⟨h.1, fun p => by cases p; exacts [h.2 .a, h.2 .b]⟩
  agenda := fun _ _ h => ⟨h.1, fun p => by cases p; exacts [h.2 .a, h.2 .b]⟩
  stream := fun m n v _ h => ⟨h.1, fun p => by rw [Device.setStream_port]; exact h.2 p⟩
  clip := fun m n v h => ⟨h.1, fun p => by rw [Device.setClip_port]; exact h.2 p⟩
  anyChannel := fun m n v h => ⟨h.1, fun p => by rw [Device.setChannel_port]; exact h.2 p⟩
  legal := fun m n v _ h => ⟨h.1, fun p => by rw [Device.setStream_port]; exact h.2 p⟩
  port := fun m p v k h => by
    have hp := h.2 p
    have hv := And.intro (k.ev hp.1) (And.intro (k.ring hp.2.1) (And.intro (k.places hp.2.2.1) (k.states hp.2.2.2)))
    cases p
    · exact ⟨h.1, fun r => by cases r; exacts [hv, h.2 .b]⟩
    · exact ⟨h.1, fun r => by cases r; exacts [h.2 .a, hv]⟩
  hau := fun _ _ l h => ⟨l h.1, fun p => by cases p; exacts [h.2 .a, h.2 .b]⟩
  emptied := fun _ h => ⟨h.1, fun p => by cases p; exacts [h.2 .a, h.2 .b]⟩

/-! ### The frame pool and the directory -/

/-- The frame pool of a part with `P` pages, and the canonical form of its slots (R78). -/
structure Device.PoolLegal (P : Nat) (m : Device) : Prop where
  wf : Table.wf Slot.free m.slots = true
  pages : (m.freePages ++ m.slots.flatMap fun e => e.2.pages).Perm (List.range P)
  free : ∀ n, (m.slot n).state = .free → (m.slot n).pages = []

theorem Device.PoolLegal.of_same {P : Nat} {m m' : Device} (h : m.PoolLegal P)
    (e : m'.slots = m.slots ∧ m'.freePages = m.freePages) : m'.PoolLegal P := by
  obtain ⟨e1, e2⟩ := e
  refine ⟨e1 ▸ h.wf, by rw [e1, e2]; exact h.pages, ?_⟩
  unfold Device.slot
  rw [e1]
  exact h.free

theorem Device.PoolLegal.set {P : Nat} {m : Device} (h : m.PoolLegal P) (n : Nat) (v : Slot) (l : List Nat)
    (x : (v.pages ++ l).Perm (m.freePages ++ (m.slot n).pages)) (f : v.state = .free → v.pages = []) :
    (Device.setSlot { m with freePages := l } n v).PoolLegal P := by
  refine ⟨Table.wf_set _ _ _ h.wf, ?_, fun j hj => ?_⟩
  · have p := Table.flatMap_set (fun s : Slot => s.pages) rfl m.slots n v h.wf
    refine (List.perm_append_left_iff (m.slot n).pages).1 ?_
    change ((m.slot n).pages ++ (l ++ (Table.set Slot.free m.slots n v).flatMap fun e => e.2.pages)).Perm _
    refine List.Perm.trans ?_ (h.pages.append_left (m.slot n).pages)
    rw [← List.append_assoc, ← List.append_assoc]
    refine (List.perm_append_comm.append_right _).trans ?_
    rw [List.append_assoc]
    refine (p.append_left l).trans ?_
    rw [← List.append_assoc]
    exact (List.perm_append_comm.trans (x.trans List.perm_append_comm)).append_right _
  · rw [Device.slot_setSlot] at hj ⊢
    split at hj
    · rename_i g
      rw [if_pos g]
      exact f hj
    · rename_i g
      rw [if_neg g]
      exact h.free j hj

theorem loose_pool (P : Nat) : Loose P (Device.PoolLegal P) where
  slot := fun m n v s h => h.set n v m.freePages (by rw [s.pages]; exact List.perm_append_comm) fun hv => by
    rw [s.pages]
    exact h.free n (s.free.1 hv)
  freed := fun m n h => (h.set n Slot.free (m.freePages ++ (m.slot n).pages) (by exact .refl _) fun _ => rfl).of_same ⟨rfl, rfl⟩
  taken := fun m n v l hn hv _ e h => h.set n v l (by rw [e, h.free n hn, List.append_nil]) fun hf => absurd hf hv
  req := fun _ _ _ h => h.of_same ⟨rfl, rfl⟩
  channel := fun _ _ _ _ h => h.of_same ⟨rfl, rfl⟩
  reclaim := fun _ _ h => h.of_same ⟨rfl, rfl⟩
  grants := fun _ _ h => h.of_same ⟨rfl, rfl⟩
  out := fun _ _ h => h.of_same ⟨rfl, rfl⟩
  agenda := fun _ _ h => h.of_same ⟨rfl, rfl⟩
  stream := fun _ _ _ _ h => h.of_same ⟨rfl, rfl⟩
  clip := fun _ _ _ h => h.of_same ⟨rfl, rfl⟩
  anyChannel := fun _ _ _ h => h.of_same ⟨rfl, rfl⟩
  legal := fun _ _ _ _ h => h.of_same ⟨rfl, rfl⟩
  port := fun _ p _ _ h => by cases p <;> exact h.of_same ⟨rfl, rfl⟩
  hau := fun _ _ _ h => h.of_same ⟨rfl, rfl⟩
  emptied := fun _ _ => ⟨rfl, by simp [List.range_eq_range'], fun _ _ => rfl⟩

/-- No two slots that are not FREE hold one key (R75). -/
def Device.KeysLegal (m : Device) : Prop :=
  ∀ i j, (m.slot i).state ≠ .free → (m.slot j).state ≠ .free → (m.slot i).clip = (m.slot j).clip →
    (m.slot i).generation = (m.slot j).generation → (m.slot i).frame = (m.slot j).frame → i = j

theorem Device.KeysLegal.set {m : Device} (h : m.KeysLegal) (n : Nat) (v : Slot)
    (f : v.state ≠ .free → ∀ j, j ≠ n → (m.slot j).state ≠ .free → ¬ ((m.slot j).clip = v.clip ∧
      (m.slot j).generation = v.generation ∧ (m.slot j).frame = v.frame)) : (m.setSlot n v).KeysLegal := by
  intro i j
  rw [Device.slot_setSlot, Device.slot_setSlot]
  split
  · rename_i gi
    split
    · rename_i gj
      intros
      rw [gi, gj]
    · rename_i gj
      intro h1 h2 c g fr
      exact absurd ⟨c.symm, g.symm, fr.symm⟩ (f h1 j gj h2)
  · rename_i gi
    split
    · intro h1 h2 c g fr
      exact absurd ⟨c, g, fr⟩ (f h2 i gi h1)
    · exact h i j

theorem loose_keys (P : Nat) : Loose P Device.KeysLegal where
  slot := fun m n v s h => h.set n v fun hv j hj hf k => by
    obtain ⟨e1, e2, e3⟩ := s.key
    rw [e1, e2, e3] at k
    exact hj (h j n hf (fun g => hv (s.free.2 g)) k.1 k.2.1 k.2.2)
  freed := fun _ n h => h.set n Slot.free fun hv => absurd rfl hv
  taken := fun m n v _ _ _ f _ h => Device.KeysLegal.set (m := m) h n v fun _ j _ hf => f j hf
  req := fun _ _ _ h => h
  channel := fun _ _ _ _ h => h
  reclaim := fun _ _ h => h
  grants := fun _ _ h => h
  out := fun _ _ h => h
  agenda := fun _ _ h => h
  stream := fun _ _ _ _ h => h
  clip := fun _ _ _ h => h
  anyChannel := fun _ _ _ h => h
  legal := fun _ _ _ _ h => h
  port := fun _ p _ _ h => by cases p <;> exact h
  hau := fun _ _ _ h => h
  emptied := fun _ _ i j hi => absurd rfl hi

/-! ### The reset states -/

theorem Device.reset_poolLegal (straps : Straps) : (Device.reset straps).PoolLegal straps.poolPages :=
  ⟨rfl, by simp [Device.reset, List.range_eq_range'], fun _ _ => rfl⟩

theorem Device.reset_keysLegal (straps : Straps) : (Device.reset straps).KeysLegal := fun _ _ hi => absurd rfl hi

theorem StreamRec.reset_legal : StreamRec.reset.Legal := by
  constructor <;> simp [StreamRec.reset, StreamState.stopped]

theorem Device.reset_canonical (straps : Straps) : (Device.reset straps).Canonical := ⟨rfl, rfl, rfl, rfl, rfl⟩

theorem Device.reset_streamsLegal (straps : Straps) : (Device.reset straps).StreamsLegal := fun _ => StreamRec.reset_legal

theorem Device.reset_portsLegal (straps : Straps) : (Device.reset straps).PortsLegal := by
  refine ⟨fun p hp => by simp [Device.reset, Hau.reset] at hp, fun p => ?_⟩
  have : (Device.reset straps).port p = Port.reset := by cases p <;> rfl
  rw [this]
  exact ⟨Events.reset_legal, ⟨fun _ => rfl, fun h => absurd rfl h⟩, by decide, by simp [Port.StatesLegal, Port.reset]⟩

/-! ### Staging memory and house time -/

/-- What every command but a hard reset leaves: house time, the straps, and memory in canonical form. -/
def EnvKept (s t : State) : Prop :=
  (s.env.mem.wf = true → t.env.mem.wf = true) ∧ t.env.now = s.env.now ∧ t.env.straps = s.env.straps

theorem EnvKept.same {s t : State} (h : t.env = s.env) : EnvKept s t := by
  unfold EnvKept
  rw [h]
  exact ⟨id, rfl, rfl⟩

theorem State.event_env (s : State) (f : Device → Device) : Yields (EnvKept s) (s.event f) :=
  yields_next (.same rfl)

theorem State.portEvent_env (s : State) (f : Device → Device) : Yields (EnvKept s) (s.portEvent f) :=
  yields_next (.same rfl)

theorem State.onReachable_env (s : State) (p : Head) (a : Answer) (h : Yields (EnvKept s) a) :
    Yields (EnvKept s) (s.onReachable p a) := by
  unfold State.onReachable
  split
  · exact h
  · exact yields_next (.same rfl)

theorem State.onFitted_env (s : State) (c : Nat) (a : Answer) (h : Yields (EnvKept s) a) :
    Yields (EnvKept s) (s.onFitted c a) := by
  unfold State.onFitted
  split
  · exact h
  · exact yields_next (.same rfl)

theorem State.onLink_env (s : State) (c : Nat) (a : Answer) (h : Yields (EnvKept s) a) :
    Yields (EnvKept s) (s.onLink c a) := by
  refine s.onFitted_env c _ ?_
  split
  · exact h
  · exact yields_next (.same rfl)

theorem State.take_env (s : State) (p : Head) (cmd : Command) (f : Handed → Device → Device) :
    Yields (EnvKept s) (s.take p cmd f) := by
  unfold State.take
  split
  · exact s.event_env _
  · exact yields_next (.same rfl)

theorem State.quiet_env (s : State) : Yields (EnvKept s) (.next s) := yields_next (.same rfl)

theorem execDefineClip_env (p : Head) (a : DefineClipArgs) (s : State) : Yields (EnvKept s) (execDefineClip p a s) := by
  unfold execDefineClip
  split
  · exact s.quiet_env
  · refine yields_next ⟨fun h => ?_, rfl, rfl⟩
    simp only
    split
    · rename_i loc _ _ _
      cases loc
      · exact h
      · exact Memory.wf_clear _ _ _ h
    · exact h

theorem execIndexEntryArrival_env (p : Head) (entry : List Byte) (s : State) :
    Yields (EnvKept s) (execIndexEntryArrival p entry s) := by
  unfold execIndexEntryArrival
  split
  · exact s.quiet_env
  · refine yields_next ⟨fun h => ?_, rfl, rfl⟩
    simp only [Device.entryMemory]
    split
    · split
      · exact h
      · exact Memory.wf_write _ _ _ h
    · exact h

theorem execDataBlock_env (c : Fin 8) (tag : BitVec 8) (offset : BitVec 16) (payload : List Byte) (s : State) :
    Yields (EnvKept s) (execDataBlock c tag offset payload s) := by
  refine s.onLink_env _ _ (yields_next ⟨fun h => ?_, rfl, rfl⟩)
  simp only
  split
  · exact Memory.wf_write _ _ _ h
  · exact h

theorem execSetDevice_env (p : Head) (a : SetDeviceArgs) (s : State) : Yields (EnvKept s) (execSetDevice p a s) := by
  unfold execSetDevice
  split
  · exact s.quiet_env
  · simp only
    split
    · exact yields_next ⟨id, rfl, rfl⟩
    · exact yields_next ⟨id, rfl, rfl⟩

theorem exec_env (i : Instr) (s : State) (h : ∀ straps, i ≠ .hardReset straps) : Yields (EnvKept s) (exec i s) := by
  cases i with
  | hardReset straps => exact absurd rfl (h straps)
  | defineClip p a => exact execDefineClip_env p a s
  | setDevice p a => exact execSetDevice_env p a s
  | indexEntryArrival p entry => exact execIndexEntryArrival_env p entry s
  | dataBlock c tag offset payload => exact execDataBlock_env c tag offset payload s
  | commandFetchDone p r =>
    unfold exec execCommandFetchDone
    simp only
    repeat' split
    all_goals first | exact s.event_env _ | exact s.quiet_env
  | fetchReadError p =>
    unfold exec execFetchReadError
    simp only
    repeat' split
    all_goals first | exact s.event_env _ | exact s.quiet_env
  | fetchReadTimeout p =>
    unfold exec execFetchReadTimeout
    simp only
    repeat' split
    all_goals first | exact s.event_env _ | exact s.quiet_env
  | moverReadError p =>
    unfold exec execMoverReadError
    simp only
    split
    · exact s.event_env _
    · exact s.quiet_env
  | moverReadTimeout p =>
    unfold exec execMoverReadTimeout
    simp only
    repeat' split
    all_goals first | exact s.event_env _ | exact s.quiet_env
  | noticeWriteEnd p =>
    unfold exec execNoticeWriteEnd
    simp only
    split
    · exact s.event_env _
    · exact s.quiet_env
  | noticeWriteFail p =>
    unfold exec execNoticeWriteFail
    simp only
    split
    · exact s.event_env _
    · exact s.quiet_env
  | deadlinePass =>
    unfold exec execDeadlinePass
    simp only
    split
    · exact s.event_env _
    · exact s.quiet_env
  | announce p weight nonce => exact s.onReachable_env _ _ (s.event_env _)
  | withdraw p => exact s.onReachable_env _ _ (s.event_env _)
  | portReset p => exact s.onReachable_env _ _ (s.event_env _)
  | portLinkLoss p => exact s.onReachable_env _ _ (s.event_env _)
  | linkUp c => exact s.onFitted_env _ _ (s.event_env _)
  | channelLinkLoss c => exact s.onFitted_env _ _ (s.event_env _)
  | hello c largest => exact s.onLink_env _ _ (s.event_env _)
  | readEnd c tag status => exact s.onLink_env _ _ (s.event_env _)
  | abortDone c tag => exact s.onLink_env _ _ (s.event_env _)
  | parked c => exact s.onLink_env _ _ (s.event_env _)
  | awake c => exact s.onLink_env _ _ (s.event_env _)
  | strayMessage c code =>
    refine s.onLink_env _ _ ?_
    split
    · exact s.quiet_env
    · exact s.event_env _
  | idleTimerExpiry c =>
    unfold exec execIdleTimerExpiry
    simp only
    split
    · exact s.event_env _
    · exact s.quiet_env
  | parkGuardExpiry c =>
    unfold exec execParkGuardExpiry
    simp only
    split
    · exact s.event_env _
    · exact s.quiet_env
  | wakeGuardExpiry c =>
    unfold exec execWakeGuardExpiry
    simp only
    split
    · exact s.event_env _
    · exact s.quiet_env
  | requestTimeout c t =>
    unfold exec execRequestTimeout
    simp only
    repeat' split
    all_goals first | exact s.event_env _ | exact s.quiet_env
  | abortGuardExpiry c t =>
    unfold exec execAbortGuardExpiry
    simp only
    repeat' split
    all_goals first | exact s.event_env _ | exact s.quiet_env
  | probeTimeout c =>
    unfold exec execProbeTimeout
    simp only
    repeat' split
    all_goals first | exact s.event_env _ | exact s.quiet_env
  | settlingGuardExpiry c =>
    unfold exec execSettlingGuardExpiry
    simp only
    repeat' split
    all_goals first | exact s.event_env _ | exact s.quiet_env
  | recheckTimerExpiry c =>
    unfold exec execRecheckTimerExpiry
    simp only
    split
    · exact s.event_env _
    · exact s.quiet_env
  | displayExpiry k =>
    unfold exec execDisplayExpiry
    simp only
    split
    · exact s.event_env _
    · exact s.quiet_env
  | holdTimerExpiry p =>
    unfold exec execHoldTimerExpiry
    simp only
    split
    · exact s.event_env _
    · exact s.quiet_env
  | settleTimerExpiry =>
    unfold exec execSettleTimerExpiry
    simp only
    split
    · exact s.event_env _
    · exact s.quiet_env
  | orphanTimerExpiry k =>
    unfold exec execOrphanTimerExpiry
    simp only
    split
    · exact s.event_env _
    · exact s.quiet_env
  | handoverLapse k =>
    unfold exec execHandoverLapse
    simp only
    split
    · exact s.event_env _
    · exact s.quiet_env
  | coalescingTimerExpiry p =>
    unfold exec execCoalescingTimerExpiry
    simp only
    repeat' split
    all_goals first | exact s.portEvent_env _ | exact s.quiet_env
  | ringBaseWrite p r value => exact s.onReachable_env _ _ (s.portEvent_env _)
  | ringSizeWrite p r value => exact s.onReachable_env _ _ (s.portEvent_env _)
  | cmdProducerWrite p value => exact s.onReachable_env _ _ (s.portEvent_env _)
  | ntcConsumerWrite p value => exact s.onReachable_env _ _ (s.portEvent_env _)
  | evRequestWrite p value => exact s.onReachable_env _ _ (s.portEvent_env _)
  | evMaskWrite p value => exact s.onReachable_env _ _ (s.portEvent_env _)
  | evLevelWrite p value => exact s.onReachable_env _ _ (s.portEvent_env _)
  | endOfService p => exact s.onReachable_env _ _ (s.portEvent_env _)
  | coalCountWrite p value => exact s.onReachable_env _ _ (s.portEvent_env _)
  | coalExpiryWrite p value => exact s.onReachable_env _ _ (s.portEvent_env _)
  | tbLowRead p => exact s.onReachable_env _ _ (s.portEvent_env _)
  | taSelectWrite p value => exact s.onReachable_env _ _ (s.portEvent_env _)
  | taIndexWrite p value => exact s.onReachable_env _ _ (s.portEvent_env _)
  | taModeWrite p value => exact s.onReachable_env _ _ (s.portEvent_env _)
  | taDataRead p => exact s.onReachable_env _ _ (s.portEvent_env _)
  | discardedWrite p => exact s.onReachable_env _ _ (s.portEvent_env _)
  | stagingPageRead p offset length => exact s.onReachable_env _ _ (s.portEvent_env _)
  | descriptorRead p offset length => exact s.onReachable_env _ _ (s.portEvent_env _)
  | stagingWrite p offset => exact s.onReachable_env _ _ (s.portEvent_env _)
  | loadIndex p clip first count address => exact s.take_env _ _ _
  | extendClip p clip count => exact s.take_env _ _ _
  | retireClip p clip g => exact s.take_env _ _ _
  | openStream p a => exact s.take_env _ _ _
  | play p k x l => exact s.take_env _ _ _
  | cue p k l => exact s.take_env _ _ _
  | jog p k n => exact s.take_env _ _ _
  | setRange p k i o lp oe => exact s.take_env _ _ _
  | setWindow p k w c x => exact s.take_env _ _ _
  | queryStream p k => exact s.take_env _ _ _
  | release p k n => exact s.take_env _ _ _
  | closeStream p k => exact s.take_env _ _ _
  | handOver p k => exact s.take_env _ _ _
  | takeOver p k r => exact s.take_env _ _ _
  | setChannel p a => exact s.take_env _ _ _
  | characterise p c s1 s2 address => exact s.take_env _ _ _
  | channelReset p c => exact s.take_env _ _ _
  | deviceClear p => exact s.take_env _ _ _
  | yieldRole p => exact s.take_env _ _ _
  | unknownCommand p code => exact s.take_env _ _ _

/-! ### The end of an event -/

/-- The part is `m` but for slots, requests, pages, what was sent, and what the end of an event may change of channels
and streams. -/
structure Device.TablesSettled (m m' : Device) : Prop where
  clips : m'.clips = m.clips
  hau : m'.hau = m.hau
  ports : m'.portA = m.portA ∧ m'.portB = m.portB
  stream : ∀ k, (m.stream k).Settled (m'.stream k)
  channel : ∀ c, (m.channel c).Settled (m'.channel c)

theorem stable_settled (m : Device) : Stable (Device.TablesSettled m) where
  slot := fun _ _ _ _ h => ⟨h.clips, h.hau, h.ports, h.stream, h.channel⟩
  freed := fun _ _ h => ⟨h.clips, h.hau, h.ports, h.stream, h.channel⟩
  taken := fun _ _ _ _ _ _ _ _ h => ⟨h.clips, h.hau, h.ports, h.stream, h.channel⟩
  req := fun _ _ _ h => ⟨h.clips, h.hau, h.ports, h.stream, h.channel⟩
  channel := fun m' c v s h => ⟨h.clips, h.hau, h.ports, h.stream, fun j => by
    rw [Device.channel_setChannel]
    split
    · rename_i g
      rw [g]
      exact (h.channel c).trans s
    · exact h.channel j⟩
  reclaim := fun _ _ h => ⟨h.clips, h.hau, h.ports, h.stream, h.channel⟩
  grants := fun _ _ h => ⟨h.clips, h.hau, h.ports, h.stream, h.channel⟩
  out := fun _ _ h => ⟨h.clips, h.hau, h.ports, h.stream, h.channel⟩
  agenda := fun _ _ h => ⟨h.clips, h.hau, h.ports, h.stream, h.channel⟩
  stream := fun m' k v s h => ⟨h.clips, h.hau, h.ports, fun j => by
    rw [Device.stream_setStream]
    split
    · rename_i g
      rw [g]
      exact (h.stream k).trans s.1
    · exact h.stream j, h.channel⟩

theorem Device.settleTables_settled (m : Device) (e : Env) : m.TablesSettled (m.settleTables e) :=
  (stable_settled m).settleTables e
    ⟨rfl, rfl, ⟨rfl, rfl⟩, fun _ => StreamRec.Settled.refl _, fun _ => Channel.Settled.refl _⟩

/-! ### The ports at the end of an event -/

/-- Only the ports differ, each but for what its own work at the end of an event changes. -/
def Device.PortsSettled (m m' : Device) : Prop := m.OnlyPorts m' ∧ ∀ p, (m.port p).Settled (m'.port p)

theorem Device.PortsSettled.refl (m : Device) : m.PortsSettled m :=
  ⟨⟨rfl, rfl, rfl, rfl, rfl, rfl, rfl, rfl, rfl⟩, fun _ => Port.Settled.refl _⟩

theorem Device.PortsSettled.trans {m n k : Device} (h : m.PortsSettled n) (g : n.PortsSettled k) : m.PortsSettled k := by
  obtain ⟨⟨a1, a2, a3, a4, a5, a6, a7, a8, a9⟩, hp⟩ := h
  obtain ⟨⟨b1, b2, b3, b4, b5, b6, b7, b8, b9⟩, gp⟩ := g
  exact ⟨⟨b1.trans a1, b2.trans a2, b3.trans a3, b4.trans a4, b5.trans a5, b6.trans a6, b7.trans a7, b8.trans a8,
    b9.trans a9⟩, fun p => (hp p).trans (gp p)⟩

theorem Device.onPort_portsSettled (m : Device) (p : Head) (f : Port → Port) (s : (m.port p).Settled (f (m.port p))) :
    m.PortsSettled (m.onPort p f) := by
  refine ⟨by cases p <;> exact ⟨rfl, rfl, rfl, rfl, rfl, rfl, rfl, rfl, rfl⟩, fun r => ?_⟩
  cases p <;> cases r <;> first | exact s | exact Port.Settled.refl _

theorem Device.emit_portsSettled (m : Device) (o : Output) : m.PortsSettled (m.emit o) :=
  ⟨⟨rfl, rfl, rfl, rfl, rfl, rfl, rfl, rfl, rfl⟩, fun p => by cases p <;> exact Port.Settled.refl _⟩

theorem Device.post_portsSettled (m : Device) (p : Head) : m.PortsSettled (m.post p) := by
  unfold Device.post
  simp only
  split
  · split
    · exact .refl m
    · split
      · exact (m.onPort_portsSettled p _ (by constructor <;> simp)).trans (Device.emit_portsSettled _ _)
      · split
        · exact .refl m
        · exact (m.onPort_portsSettled p _ (by constructor <;> simp)).trans
            (Device.onPort_portsSettled _ p _ (by constructor <;> simp [Events.raise]))
  · exact .refl m

theorem Device.fetch_portsSettled (m : Device) (now : Time) (p : Head) : m.PortsSettled (m.fetch now p) := by
  unfold Device.fetch
  split
  · exact (m.onPort_portsSettled p _ (by constructor <;> simp)).trans (Device.emit_portsSettled _ _)
  · exact .refl m

theorem Device.decideInterrupt_portsSettled (m : Device) (p : Head) : m.PortsSettled (m.decideInterrupt p) := by
  unfold Device.decideInterrupt
  split
  · exact .refl m
  · exact (m.onPort_portsSettled p _ (by constructor <;> simp [Events.serve])).trans (Device.emit_portsSettled _ _)

theorem Device.settlePorts_portsSettled (m : Device) (now : Time) : m.PortsSettled (m.settlePorts now) :=
  ((((m.post_portsSettled .a).trans (Device.post_portsSettled _ .b)).trans (Device.fetch_portsSettled _ now .a)).trans
    (Device.fetch_portsSettled _ now .b)).trans
    ((Device.decideInterrupt_portsSettled _ .a).trans (Device.decideInterrupt_portsSettled _ .b))

end Sys2Proof.Machine
end

