-- ==== Sys2Proof/Laws/PerInstr.lean ====
section
/-! SUPPORT. The per-command family `Formed`: how each command's operands are checked. A row of a command kind is
checked by the checks of the record it takes and by nothing else; any other row by its own operand check, and it is neither a
command on a stream (R19) nor a primary-only one (R175). -/

namespace Sys2Proof.Laws

/-- The checks on a command's operands are those of its record, for a row of a command kind, and its own otherwise. -/
def Formed.Statement (i : Instr) : Prop :=
  (∀ cmd, i.command = some cmd → i.wellFormed = cmd.wellFormed) ∧
  (i.command = none → i.wellFormed = i.operandsFit ∧ i.onStream = none ∧ i.primaryOnly = none)

/-- For a row of a command kind. -/
theorem Formed.of_record {i : Instr} {cmd : Command} (h : i.command = some cmd) (g : i.operandsFit = true) :
    Formed.Statement i := by
  refine ⟨fun cmd' e => ?_, fun e => absurd (h.symm.trans e) (by simp)⟩
  simp [Instr.wellFormed, e, g]

/-- For any other row. -/
theorem Formed.of_event {i : Instr} (h : i.command = none) (g : i.onStream = none) (k : i.primaryOnly = none) :
    Formed.Statement i :=
  ⟨fun _ e => absurd (h.symm.trans e) (by simp), fun _ => ⟨by simp [Instr.wellFormed, h], g, k⟩⟩

theorem Formed.hardReset (straps : Straps) : Formed.Statement (.hardReset straps) := Formed.of_event rfl rfl rfl
theorem Formed.defineClip (p : Head) (args : DefineClipArgs) : Formed.Statement (.defineClip p args) :=
  Formed.of_record rfl rfl
theorem Formed.loadIndex (p : Head) (clip first count address : Nat) :
    Formed.Statement (.loadIndex p clip first count address) := Formed.of_record rfl rfl
theorem Formed.extendClip (p : Head) (clip count : Nat) : Formed.Statement (.extendClip p clip count) :=
  Formed.of_record rfl rfl
theorem Formed.retireClip (p : Head) (clip generation : Nat) : Formed.Statement (.retireClip p clip generation) :=
  Formed.of_record rfl rfl
theorem Formed.openStream (p : Head) (args : OpenArgs) : Formed.Statement (.openStream p args) :=
  Formed.of_record rfl rfl
theorem Formed.play (p : Head) (stream : Nat) (shuttle : Int) (locate : Option Nat) :
    Formed.Statement (.play p stream shuttle locate) := Formed.of_record rfl rfl
theorem Formed.cue (p : Head) (stream : Nat) (locate : Option Nat) :
    Formed.Statement (.cue p stream locate) := Formed.of_record rfl rfl
theorem Formed.jog (p : Head) (stream : Nat) (n : Int) : Formed.Statement (.jog p stream n) :=
  Formed.of_record rfl rfl
theorem Formed.setRange (p : Head) (stream inPoint outPoint : Nat) (loop openEnd : Bool) :
    Formed.Statement (.setRange p stream inPoint outPoint loop openEnd) := Formed.of_record rfl rfl
theorem Formed.setWindow (p : Head) (stream w c seat : Nat) : Formed.Statement (.setWindow p stream w c seat) :=
  Formed.of_record rfl rfl
theorem Formed.queryStream (p : Head) (stream : Nat) : Formed.Statement (.queryStream p stream) :=
  Formed.of_record rfl rfl
theorem Formed.release (p : Head) (stream sequence : Nat) : Formed.Statement (.release p stream sequence) :=
  Formed.of_record rfl rfl
theorem Formed.closeStream (p : Head) (stream : Nat) : Formed.Statement (.closeStream p stream) :=
  Formed.of_record rfl rfl
theorem Formed.handOver (p : Head) (stream : Nat) : Formed.Statement (.handOver p stream) := Formed.of_record rfl rfl
theorem Formed.takeOver (p : Head) (stream : Nat) (resume : Bool) :
    Formed.Statement (.takeOver p stream resume) := Formed.of_record rfl rfl
theorem Formed.setChannel (p : Head) (args : SetChannelArgs) : Formed.Statement (.setChannel p args) :=
  Formed.of_record rfl rfl
theorem Formed.characterise (p : Head) (channel s1 s2 address : Nat) : Formed.Statement (.characterise p channel s1 s2 address) :=
  Formed.of_record rfl rfl
theorem Formed.channelReset (p : Head) (channel : Nat) : Formed.Statement (.channelReset p channel) :=
  Formed.of_record rfl rfl
theorem Formed.setDevice (p : Head) (args : SetDeviceArgs) : Formed.Statement (.setDevice p args) :=
  Formed.of_record rfl rfl
theorem Formed.deviceClear (p : Head) : Formed.Statement (.deviceClear p) := Formed.of_record rfl rfl
theorem Formed.yieldRole (p : Head) : Formed.Statement (.yieldRole p) := Formed.of_record rfl rfl
theorem Formed.unknownCommand (p : Head) (code : Nat) : Formed.Statement (.unknownCommand p code) :=
  Formed.of_record rfl rfl
theorem Formed.commandFetchDone (p : Head) (record : List Byte) : Formed.Statement (.commandFetchDone p record) :=
  Formed.of_event rfl rfl rfl
theorem Formed.fetchReadError (p : Head) : Formed.Statement (.fetchReadError p) := Formed.of_event rfl rfl rfl
theorem Formed.fetchReadTimeout (p : Head) : Formed.Statement (.fetchReadTimeout p) := Formed.of_event rfl rfl rfl
theorem Formed.indexEntryArrival (p : Head) (entry : List Byte) : Formed.Statement (.indexEntryArrival p entry) :=
  Formed.of_event rfl rfl rfl
theorem Formed.moverReadError (p : Head) : Formed.Statement (.moverReadError p) := Formed.of_event rfl rfl rfl
theorem Formed.moverReadTimeout (p : Head) : Formed.Statement (.moverReadTimeout p) := Formed.of_event rfl rfl rfl
theorem Formed.noticeWriteEnd (p : Head) : Formed.Statement (.noticeWriteEnd p) := Formed.of_event rfl rfl rfl
theorem Formed.noticeWriteFail (p : Head) : Formed.Statement (.noticeWriteFail p) := Formed.of_event rfl rfl rfl
theorem Formed.deadlinePass : Formed.Statement (.deadlinePass) := Formed.of_event rfl rfl rfl
theorem Formed.announce (p : Head) (weight : BitVec 4) (nonce : BitVec 32) :
    Formed.Statement (.announce p weight nonce) := Formed.of_event rfl rfl rfl
theorem Formed.withdraw (p : Head) : Formed.Statement (.withdraw p) := Formed.of_event rfl rfl rfl
theorem Formed.ringBaseWrite (p : Head) (ring : RingId) (value : BitVec 64) :
    Formed.Statement (.ringBaseWrite p ring value) := Formed.of_event rfl rfl rfl
theorem Formed.ringSizeWrite (p : Head) (ring : RingId) (value : BitVec 32) :
    Formed.Statement (.ringSizeWrite p ring value) := Formed.of_event rfl rfl rfl
theorem Formed.cmdProducerWrite (p : Head) (value : BitVec 32) : Formed.Statement (.cmdProducerWrite p value) :=
  Formed.of_event rfl rfl rfl
theorem Formed.ntcConsumerWrite (p : Head) (value : BitVec 32) : Formed.Statement (.ntcConsumerWrite p value) :=
  Formed.of_event rfl rfl rfl
theorem Formed.evRequestWrite (p : Head) (value : BitVec 32) : Formed.Statement (.evRequestWrite p value) :=
  Formed.of_event rfl rfl rfl
theorem Formed.evMaskWrite (p : Head) (value : BitVec 32) : Formed.Statement (.evMaskWrite p value) :=
  Formed.of_event rfl rfl rfl
theorem Formed.evLevelWrite (p : Head) (value : BitVec 32) : Formed.Statement (.evLevelWrite p value) :=
  Formed.of_event rfl rfl rfl
theorem Formed.endOfService (p : Head) : Formed.Statement (.endOfService p) := Formed.of_event rfl rfl rfl
theorem Formed.coalCountWrite (p : Head) (value : BitVec 32) : Formed.Statement (.coalCountWrite p value) :=
  Formed.of_event rfl rfl rfl
theorem Formed.coalExpiryWrite (p : Head) (value : BitVec 32) : Formed.Statement (.coalExpiryWrite p value) :=
  Formed.of_event rfl rfl rfl
theorem Formed.tbLowRead (p : Head) : Formed.Statement (.tbLowRead p) := Formed.of_event rfl rfl rfl
theorem Formed.taSelectWrite (p : Head) (value : BitVec 32) : Formed.Statement (.taSelectWrite p value) :=
  Formed.of_event rfl rfl rfl
theorem Formed.taIndexWrite (p : Head) (value : BitVec 32) : Formed.Statement (.taIndexWrite p value) :=
  Formed.of_event rfl rfl rfl
theorem Formed.taModeWrite (p : Head) (value : BitVec 32) : Formed.Statement (.taModeWrite p value) :=
  Formed.of_event rfl rfl rfl
theorem Formed.taDataRead (p : Head) : Formed.Statement (.taDataRead p) := Formed.of_event rfl rfl rfl
theorem Formed.portReset (p : Head) : Formed.Statement (.portReset p) := Formed.of_event rfl rfl rfl
theorem Formed.discardedWrite (p : Head) : Formed.Statement (.discardedWrite p) := Formed.of_event rfl rfl rfl
theorem Formed.portLinkLoss (p : Head) : Formed.Statement (.portLinkLoss p) := Formed.of_event rfl rfl rfl
theorem Formed.stagingPageRead (p : Head) (offset length : Nat) : Formed.Statement (.stagingPageRead p offset length) :=
  Formed.of_event rfl rfl rfl
theorem Formed.descriptorRead (p : Head) (offset length : Nat) : Formed.Statement (.descriptorRead p offset length) :=
  Formed.of_event rfl rfl rfl
theorem Formed.stagingWrite (p : Head) (offset : Nat) : Formed.Statement (.stagingWrite p offset) :=
  Formed.of_event rfl rfl rfl
theorem Formed.linkUp (c : Fin 8) : Formed.Statement (.linkUp c) := Formed.of_event rfl rfl rfl
theorem Formed.channelLinkLoss (c : Fin 8) : Formed.Statement (.channelLinkLoss c) := Formed.of_event rfl rfl rfl
theorem Formed.hello (c : Fin 8) (largest : BitVec 16) : Formed.Statement (.hello c largest) :=
  Formed.of_event rfl rfl rfl
theorem Formed.dataBlock (c : Fin 8) (tag : BitVec 8) (offset : BitVec 16) (payload : List Byte) :
    Formed.Statement (.dataBlock c tag offset payload) := Formed.of_event rfl rfl rfl
theorem Formed.readEnd (c : Fin 8) (tag : BitVec 8) (status : BitVec 8) :
    Formed.Statement (.readEnd c tag status) := Formed.of_event rfl rfl rfl
theorem Formed.abortDone (c : Fin 8) (tag : BitVec 8) : Formed.Statement (.abortDone c tag) :=
  Formed.of_event rfl rfl rfl
theorem Formed.parked (c : Fin 8) : Formed.Statement (.parked c) := Formed.of_event rfl rfl rfl
theorem Formed.awake (c : Fin 8) : Formed.Statement (.awake c) := Formed.of_event rfl rfl rfl
theorem Formed.strayMessage (c : Fin 8) (code : BitVec 8) : Formed.Statement (.strayMessage c code) :=
  Formed.of_event rfl rfl rfl
theorem Formed.idleTimerExpiry (c : Fin 8) : Formed.Statement (.idleTimerExpiry c) := Formed.of_event rfl rfl rfl
theorem Formed.parkGuardExpiry (c : Fin 8) : Formed.Statement (.parkGuardExpiry c) := Formed.of_event rfl rfl rfl
theorem Formed.wakeGuardExpiry (c : Fin 8) : Formed.Statement (.wakeGuardExpiry c) := Formed.of_event rfl rfl rfl
theorem Formed.requestTimeout (c : Fin 8) (t : Fin 4) : Formed.Statement (.requestTimeout c t) :=
  Formed.of_event rfl rfl rfl
theorem Formed.abortGuardExpiry (c : Fin 8) (t : Fin 4) : Formed.Statement (.abortGuardExpiry c t) :=
  Formed.of_event rfl rfl rfl
theorem Formed.probeTimeout (c : Fin 8) : Formed.Statement (.probeTimeout c) := Formed.of_event rfl rfl rfl
theorem Formed.settlingGuardExpiry (c : Fin 8) : Formed.Statement (.settlingGuardExpiry c) :=
  Formed.of_event rfl rfl rfl
theorem Formed.recheckTimerExpiry (c : Fin 8) : Formed.Statement (.recheckTimerExpiry c) :=
  Formed.of_event rfl rfl rfl
theorem Formed.displayExpiry (k : Fin 128) : Formed.Statement (.displayExpiry k) := Formed.of_event rfl rfl rfl
theorem Formed.holdTimerExpiry (p : Head) : Formed.Statement (.holdTimerExpiry p) := Formed.of_event rfl rfl rfl
theorem Formed.settleTimerExpiry : Formed.Statement (.settleTimerExpiry) := Formed.of_event rfl rfl rfl
theorem Formed.orphanTimerExpiry (k : Fin 128) : Formed.Statement (.orphanTimerExpiry k) :=
  Formed.of_event rfl rfl rfl
theorem Formed.handoverLapse (k : Fin 128) : Formed.Statement (.handoverLapse k) := Formed.of_event rfl rfl rfl
theorem Formed.coalescingTimerExpiry (p : Head) : Formed.Statement (.coalescingTimerExpiry p) :=
  Formed.of_event rfl rfl rfl

end Sys2Proof.Laws
end

