-- ==== Sys2Proof/Laws/Windows.lean ====
section
/-! SUPPORT. What the Directory does to the windows of the streams: the entries that pin a slot changed together
(`setEntries`), entries dropped, and the entries of the placement backlog. -/

namespace Sys2Proof.Machine

/-- A number that no entry has reads as the reset record. -/
theorem Table.get_eq_of_not_mem {α : Type} [DecidableEq α] {d : α} (t : Table α) (k : Nat) (h : ∀ e ∈ t, e.1 ≠ k) :
    Table.get d t k = d := by
  rcases Table.get_mem_or (d := d) t k with g | g
  · exact g
  · exact absurd rfl (h _ g)

/-- The window of a record with the entries that pin slot `n` changed. -/
def StreamRec.mark (x : StreamRec) (n : Nat) (f : WinEntry → WinEntry) : StreamRec :=
  { x with window := x.window.map fun w => if w.slot = some n then f w else w }

/-- The head entry of a window pins slot `n`. -/
def StreamRec.headPins (x : StreamRec) (n : Nat) : Prop := ∃ w l, x.window = w :: l ∧ w.slot = some n

theorem StreamRec.mark_of_not_pinned {x : StreamRec} {n : Nat} (f : WinEntry → WinEntry)
    (h : x.window.any (fun w => decide (w.slot = some n)) = false) : x.mark n f = x := by
  have : x.window.map (fun w => if w.slot = some n then f w else w) = x.window := by
    rw [List.map_congr_left (g := id), List.map_id]
    intro w hw
    simp only [List.any_eq_false, decide_eq_true_eq] at h
    exact if_neg (h w hw)
  unfold StreamRec.mark
  rw [this]

/-- One round of `setEntries`. -/
def Device.markEntry (n : Nat) (f : WinEntry → WinEntry) (m : Device) (e : Nat × StreamRec) : Device :=
  if e.2.window.any (fun w => decide (w.slot = some n)) then
    let m1 := m.onStream e.1 fun x => { x with window := x.window.map fun w => if w.slot = some n then f w else w }
    if (e.2.window.head?.bind (·.slot)) = some n then m1.askCheck e.1 else m1
  else m

theorem Device.mem_askCheck (m : Device) (k j : Nat) :
    j ∈ (m.askCheck k).agenda.checks ↔ j ∈ m.agenda.checks ∨ j = k := by
  unfold Device.askCheck
  simp only
  split
  · rename_i h
    constructor
    · exact .inl
    · rintro (g | rfl)
      exacts [g, h]
  · simp

theorem StreamRec.headPins_iff {x : StreamRec} {n : Nat} : (x.window.head?.bind (·.slot)) = some n ↔ x.headPins n := by
  unfold StreamRec.headPins
  cases x.window with
  | nil => simp
  | cons w l => simp

theorem StreamRec.headPins_any {x : StreamRec} {n : Nat} (h : x.headPins n) :
    x.window.any (fun w => decide (w.slot = some n)) = true := by
  obtain ⟨w, l, e, g⟩ := h
  rw [e]; simp [g]

theorem Device.markEntry_effect (n : Nat) (f : WinEntry → WinEntry) (m : Device) (e : Nat × StreamRec)
    (h : m.stream e.1 = e.2) :
    (∀ k, (m.markEntry n f e).stream k = if k = e.1 then (m.stream k).mark n f else m.stream k) ∧
    (∀ k, k ∈ (m.markEntry n f e).agenda.checks ↔ k ∈ m.agenda.checks ∨ (k = e.1 ∧ e.2.headPins n)) ∧
    m.markEntry n f e = { m with streams := (m.markEntry n f e).streams,
                                 agenda := { m.agenda with checks := (m.markEntry n f e).agenda.checks } } := by
  unfold Device.markEntry
  simp only
  split
  · rename_i a
    refine ⟨fun k => ?_, fun k => ?_, ?_⟩
    · have key : ∀ k, (m.onStream e.1 fun x => x.mark n f).stream k =
          if k = e.1 then (m.stream k).mark n f else m.stream k := by
        intro k
        rw [Device.onStream, Device.stream_setStream]
        split
        · rename_i g; rw [g]
        · rfl
      split
      · exact key k
      · exact key k
    · split
      · rename_i g
        rw [Device.mem_askCheck]
        have := StreamRec.headPins_iff.1 g
        simp only [this, and_true]
        rfl
      · rename_i g
        have : ¬ e.2.headPins n := fun c => g (StreamRec.headPins_iff.2 c)
        simp only [this, and_false, or_false]
        rfl
    · split <;> rfl
  · rename_i a
    rw [Bool.not_eq_true] at a
    refine ⟨fun k => ?_, fun k => ?_, rfl⟩
    · split
      · rename_i g
        rw [g, h]
        exact (StreamRec.mark_of_not_pinned f a).symm
      · rfl
    · have : ¬ e.2.headPins n := fun c => by rw [StreamRec.headPins_any c] at a; cases a
      simp [this]

/-- What `setEntries` can do: every entry that pins slot `n` is changed, a delivery check is asked for each stream whose
head entry pins it, and nothing else changes (R63, R91, R92). -/
theorem Device.setEntries_effect (n : Nat) (f : WinEntry → WinEntry) (m : Device)
    (wf : Table.wf StreamRec.reset m.streams = true) :
    (∀ k, (m.setEntries n f).stream k = (m.stream k).mark n f) ∧
    (∀ k, k ∈ (m.setEntries n f).agenda.checks ↔ k ∈ m.agenda.checks ∨ (m.stream k).headPins n) ∧
    m.setEntries n f = { m with streams := (m.setEntries n f).streams,
                                agenda := { m.agenda with checks := (m.setEntries n f).agenda.checks } } := by
  have key : ∀ (l : List (Nat × StreamRec)) (m : Device), l.Pairwise (fun x y => x.1 < y.1) →
      (∀ e ∈ l, m.stream e.1 = e.2) →
      let t := l.foldl (Device.markEntry n f) m
      (∀ k, t.stream k = if ∃ e ∈ l, e.1 = k then (m.stream k).mark n f else m.stream k) ∧
      (∀ k, k ∈ t.agenda.checks ↔ k ∈ m.agenda.checks ∨ ((∃ e ∈ l, e.1 = k) ∧ (m.stream k).headPins n)) ∧
      t = { m with streams := t.streams, agenda := { m.agenda with checks := t.agenda.checks } } := by
    intro l
    induction l with
    | nil => intro m _ _; simp
    | cons e l ih =>
      intro m p h
      rw [List.pairwise_cons] at p
      obtain ⟨a1, a2, a3⟩ := m.markEntry_effect n f e (h e (by simp))
      have hl : ∀ e' ∈ l, (m.markEntry n f e).stream e'.1 = e'.2 := by
        intro e' he'
        rw [a1, if_neg (by have := p.1 e' he'; omega)]
        exact h e' (by simp [he'])
      obtain ⟨b1, b2, b3⟩ := ih (m.markEntry n f e) p.2 hl
      have out : ∀ k, (∃ e' ∈ l, e'.1 = k) → k ≠ e.1 := by
        rintro k ⟨e', he', rfl⟩
        have := p.1 e' he'; omega
      refine ⟨fun k => ?_, fun k => ?_, ?_⟩
      · rw [List.foldl_cons, b1 k, a1 k]
        by_cases g : ∃ e' ∈ l, e'.1 = k
        · rw [if_pos g, if_neg (out k g), if_pos (by obtain ⟨x, y, z⟩ := g; exact ⟨x, by simp [y], z⟩)]
        · rw [if_neg g]
          by_cases c : k = e.1
          · rw [if_pos c, if_pos ⟨e, by simp, c.symm⟩]
          · rw [if_neg c, if_neg]
            rintro ⟨x, y, z⟩
            rcases List.mem_cons.1 y with rfl | y
            · exact c z.symm
            · exact g ⟨x, y, z⟩
      · rw [List.foldl_cons, b2 k, a2 k, a1 k]
        by_cases c : k = e.1
        · subst c
          have : ¬ ∃ e' ∈ l, e'.1 = e.1 := fun g => out _ g rfl
          simp [this, h e (by simp)]
        · rw [if_neg c]
          have : (∃ e' ∈ e :: l, e'.1 = k) ↔ ∃ e' ∈ l, e'.1 = k := by
            simp only [List.mem_cons, exists_eq_or_imp]
            exact or_iff_right (fun g => c g.symm)
          rw [this]
          simp [c]
      · rw [List.foldl_cons]
        rw [b3, a3]
  obtain ⟨k1, k2, k3⟩ := key m.streams m ((Table.wf_iff _).1 wf).1 (fun e he => Table.get_of_mem _ wf e he)
  have absent : ∀ k, (¬ ∃ e ∈ m.streams, e.1 = k) → m.stream k = StreamRec.reset := fun k h =>
    Table.get_eq_of_not_mem _ _ fun e he hk => h ⟨e, he, hk⟩
  refine ⟨fun k => (k1 k).trans ?_, fun k => (k2 k).trans ?_, k3⟩
  · split
    · rfl
    · rename_i g
      rw [absent k g]
      rfl
  · constructor
    · rintro (h | h)
      exacts [.inl h, .inr h.2]
    · rintro (h | h)
      · exact .inl h
      · by_cases g : ∃ e ∈ m.streams, e.1 = k
        · exact .inr ⟨g, h⟩
        · rw [absent k g] at h
          obtain ⟨w, l, e, -⟩ := h
          exact absurd e (by simp [StreamRec.reset])

theorem Device.withdraw_same (m : Device) (n : Nat) :
    (m.withdraw n).streams = m.streams ∧ (m.withdraw n).agenda = m.agenda := by
  unfold Device.withdraw
  simp only
  refine foldl_keeps (I := fun t => t.streams = m.streams ∧ t.agenda = m.agenda) (fun t e h => ?_) _ _ ?_
  · split
    · exact h
    · exact h
  · exact foldl_keeps (I := fun t => t.streams = m.streams ∧ t.agenda = m.agenda)
      (f := fun t (e : Nat × Request) => t.setReq e.1 Request.free) (fun t e h => h) _ _ ⟨rfl, rfl⟩

/-- Every entry that pins slot `n` is changed by `f`, and a check is asked for each stream whose head entry pins it. -/
structure Device.Marks (m : Device) (n : Nat) (f : WinEntry → WinEntry) (t : Device) : Prop where
  stream : ∀ k, t.stream k = (m.stream k).mark n f
  checks : ∀ k, k ∈ t.agenda.checks ↔ k ∈ m.agenda.checks ∨ (m.stream k).headPins n

theorem Device.setEntries_marks (n : Nat) (f : WinEntry → WinEntry) {m m' : Device}
    (wf : Table.wf StreamRec.reset m.streams = true) (s : m'.streams = m.streams)
    (a : m'.agenda.checks = m.agenda.checks) : m.Marks n f (m'.setEntries n f) := by
  have st : ∀ k, m'.stream k = m.stream k := fun k => by unfold Device.stream; rw [s]
  obtain ⟨h1, h2, -⟩ := m'.setEntries_effect n f (by rw [s]; exact wf)
  exact ⟨fun k => by rw [h1, st], fun k => by rw [h2, st, a]⟩

theorem Device.failSlot_marks (n : Nat) (cause : Cause) {m m' : Device}
    (wf : Table.wf StreamRec.reset m.streams = true) (s : m'.streams = m.streams)
    (a : m'.agenda.checks = m.agenda.checks) :
    m.Marks n (fun w => { w with state := .failed }) (m'.failSlot n cause) :=
  Device.setEntries_marks n _ wf (((m'.withdraw_same n).1).trans s)
    ((congrArg Agenda.checks (m'.withdraw_same n).2).trans a)

theorem Device.finalFailure_marks (r : Nat) (cause : Cause) (m : Device)
    (wf : Table.wf StreamRec.reset m.streams = true) :
    m.Marks (m.req r).slot (fun w => { w with state := .failed }) (m.finalFailure r cause) :=
  Device.failSlot_marks _ _ wf rfl rfl

theorem Device.setEntries_wf (n : Nat) (f : WinEntry → WinEntry) (m : Device)
    (wf : Table.wf StreamRec.reset m.streams = true) :
    Table.wf StreamRec.reset (m.setEntries n f).streams = true := by
  unfold Device.setEntries
  refine foldl_keeps (I := fun t => Table.wf StreamRec.reset t.streams = true) (fun t e h => ?_) _ _ wf
  split
  · dsimp only
    split <;> exact Table.wf_set _ _ _ h
  · exact h

/-! ### Dropping, and the placement backlog -/

/-- Entries dropped from a window change nothing else of the stream's record. -/
theorem Device.dropEntries_stream (now : Time) (k : Nat) (keep : WinEntry → Bool) (m : Device) :
    (m.dropEntries now k keep).stream k = { m.stream k with window := (m.stream k).window.filter keep } := by
  unfold Device.dropEntries
  simp only
  split
  · rename_i h
    rw [List.isEmpty_iff, List.filter_eq_nil_iff] at h
    have : (m.stream k).window.filter keep = (m.stream k).window :=
      List.filter_eq_self.2 fun a ha => by simpa using h a ha
    rw [this]
  · have h : ∀ b : Device, b.streams = (m.onStream k fun x => { x with window := x.window.filter keep }).streams →
        b.stream k = { m.stream k with window := (m.stream k).window.filter keep } := fun b h => by
      unfold Device.stream
      rw [h]
      exact (Device.stream_setStream ..).trans (if_pos rfl)
    exact h _ (foldl_keeps (I := fun b => b.streams = _)
      (fun b a h => (quiet_streams _).releasePin now a.slot h) _ _ rfl)

/-- The backlog items of a window that starts at place `p` are those of its UNPLACED entries. -/
theorem mem_unplacedFrom (k : Nat) (l : List WinEntry) (p : Nat) (x : BacklogItem) :
    x ∈ unplacedFrom k p l ↔ ∃ i w, l[i]? = some w ∧ w.state = .unplaced ∧
      x = { due := w.due, stream := k, place := p + i, u := w.u } := by
  induction l generalizing p with
  | nil => simp [unplacedFrom]
  | cons a l ih =>
    have e : (∃ i w, (a :: l)[i]? = some w ∧ w.state = .unplaced ∧
        x = { due := w.due, stream := k, place := p + i, u := w.u }) ↔
        (a.state = .unplaced ∧ x = { due := a.due, stream := k, place := p, u := a.u }) ∨
        ∃ i w, l[i]? = some w ∧ w.state = .unplaced ∧
          x = { due := w.due, stream := k, place := (p + 1) + i, u := w.u } := by
      constructor
      · rintro ⟨i, w, h1, h2, h3⟩
        cases i with
        | zero => left; simp at h1; subst h1; exact ⟨h2, h3⟩
        | succ i => right; refine ⟨i, w, by simpa using h1, h2, ?_⟩; rw [h3]; congr 1; omega
      · rintro (⟨h1, h2⟩ | ⟨i, w, h1, h2, h3⟩)
        · exact ⟨0, a, rfl, h1, h2⟩
        · refine ⟨i + 1, w, by simpa using h1, h2, ?_⟩; rw [h3]; congr 1; omega
    rw [e, ← ih, unplacedFrom.eq_2]
    split <;> rename_i g <;> simp [g]

/-- The backlog holds exactly the UNPLACED entries of the windows (R87). -/
theorem Device.mem_backlog {m : Device} (wf : Table.wf StreamRec.reset m.streams = true) (x : BacklogItem) :
    x ∈ m.backlog ↔ ∃ w, (m.stream x.stream).window[x.place]? = some w ∧ w.state = .unplaced ∧
      w.due = x.due ∧ w.u = x.u := by
  unfold Device.backlog
  rw [List.mem_flatMap]
  constructor
  · rintro ⟨e, he, h⟩
    obtain ⟨i, w, h1, h2, h3⟩ := (mem_unplacedFrom ..).1 h
    have : m.stream e.1 = e.2 := Table.get_of_mem _ wf e he
    subst h3
    exact ⟨w, by simp only [Nat.zero_add]; rw [this]; exact h1, h2, rfl, rfl⟩
  · rintro ⟨w, h1, h2, h3, h4⟩
    refine ⟨(x.stream, m.stream x.stream), ?_, ?_⟩
    · rcases Table.get_mem_or (d := StreamRec.reset) m.streams x.stream with h | h
      · exfalso
        change m.stream x.stream = StreamRec.reset at h
        rw [h] at h1
        cases h1
      · exact h
    · exact (mem_unplacedFrom ..).2 ⟨x.place, w, h1, h2, by rw [h3, h4, Nat.zero_add]⟩

/-- A placement leaves the stream records as they were, or gives the stream's entries at that index a slot and a state
other than UNPLACED (R80–R83). -/
theorem Device.place_streams (e : Env) (byPass : Bool) (k : Nat) (w : WinEntry) (m : Device) :
    (m.place e byPass k w).streams = m.streams ∨ ∃ n st, st ≠ EntryState.unplaced ∧
      (m.place e byPass k w).streams = (m.onEntry k w.u fun v => { v with slot := some n, state := st }).streams := by
  have pe : ∀ (b : Device) n st, b.streams = m.streams → (b.pinEntry k w.u n st).streams =
      (m.onEntry k w.u fun v => { v with slot := some n, state := st }).streams := by
    intro b n st h
    unfold Device.pinEntry
    rw [(quiet_streams _).recompute n rfl]
    unfold Device.onEntry Device.onStream Device.setStream Device.stream
    simp only
    rw [show (b.onSlot n _).streams = m.streams from h]
  have of : ∀ (b : Device) now n, (b.offer now n).streams = b.streams :=
    fun b now n => (quiet_streams b).offer now n rfl
  have rc : ∀ need l, (Device.reclaimFor need l m).streams = m.streams :=
    fun need l => (quiet_streams m).reclaimFor need l rfl
  unfold Device.place; simp only
  split
  · split
    · exact Or.inr ⟨_, _, by simp, pe _ _ .staged rfl⟩
    · exact Or.inr ⟨_, _, by simp, pe _ _ .filling rfl⟩
    · exact Or.inr ⟨_, _, by simp, pe _ _ .failed rfl⟩
    · unfold Device.revive; simp only; split
      · exact Or.inr ⟨_, _, by simp, pe _ _ .failed rfl⟩
      · exact Or.inr ⟨_, _, by simp, (of _ _ _).trans (pe _ _ .filling rfl)⟩
    · exact Or.inl rfl
  · split
    · unfold Device.placeFailed; simp only
      have : (if m.freeRecord.isSome = true ∨ byPass = true ∧ m.rankedAhead k w.u = true then m
          else Device.reclaimFor 0 m.reclaim m).streams = m.streams := by
        split
        · rfl
        · exact rc _ _
      split
      · exact Or.inl this
      · exact Or.inr ⟨_, _, by simp, pe _ _ .failed this⟩
    · unfold Device.placeMiss; simp only
      split
      · exact Or.inl rfl
      · split
        · exact Or.inl (rc _ _)
        · split
          · exact Or.inr ⟨_, _, by simp, (of _ _ _).trans (pe _ _ .filling (rc _ _))⟩
          · exact Or.inl (rc _ _)

end Sys2Proof.Machine
end

