-- ==== Sys2Proof/Tests/Slice0.lean ====
section
/-! SUPPORT. The tests of this slice: ill-formed terms that the checks refuse, command records written out from section
12.1, single steps whose results the spec states, and for every statement with hypotheses a state that meets them. -/

namespace Sys2Proof.Tests

open Sys2Proof Sys2Proof.Machine

/-! ### Ill-formed terms -/

/-- Every term of the list is refused. -/
def refused (l : List Instr) : Bool := l.all fun i => !i.wellFormed

def goodDefine : DefineClipArgs :=
  { locatorKind := 0, openEnd := false, stripeCount := 1, frameCount := 100, frameBlocks := 8, frameBytes := 32768,
    indexBase := 32768, indexCapacity := 0, stripes := List.replicate 8 ⟨0, 0⟩ }

def goodOpen : OpenArgs :=
  { loop := false, openEnd := false, clip := 4, generation := 1, w := 8, c := 4, seat := 0, inPoint := 0,
    outPoint := 99, period := 40000000, start := 0 }

def goodChannel : SetChannelArgs := { channel := 0, retryLimit := 2, tagLimit := 2, parkMs := 0, wakeMs := 8000, driftMs := 25 }

def noDevice : SetDeviceArgs :=
  { urgentUs := none, horizonUs := none, leadUs := none, prerollUs := none, holdMs := none, orphanMs := none }

theorem test_good_terms :
    ([.defineClip .a goodDefine, .openStream .a goodOpen, .setChannel .a goodChannel, .setDevice .a noDevice,
      .play .a 255 (-128) (some 4294967295), .jog .a 0 (-2147483648), .unknownCommand .a 0x40,
      .commandFetchDone .a (List.replicate 64 0), .announce .a 0 1, .stagingPageRead .a 34359738367 1,
      .stagingWrite .a 68719476735, .strayMessage 0 0x01] : List Instr).all (·.wellFormed) = true := by decide

theorem test_ill_defineClip :
    refused ([{ goodDefine with locatorKind := 4 }, { goodDefine with stripeCount := 16 },
      { goodDefine with frameCount := 16777216 }, { goodDefine with frameBlocks := 65536 },
      { goodDefine with frameBytes := 4294967296 }, { goodDefine with indexBase := 4294967296 },
      { goodDefine with indexCapacity := 4294967296 }, { goodDefine with stripes := [⟨0, 0⟩] },
      { goodDefine with stripes := List.replicate 8 ⟨16, 0⟩ },
      { goodDefine with stripes := List.replicate 8 ⟨0, 281474976710656⟩ }].map (.defineClip .a)) = true := by decide

theorem test_ill_clip_commands :
    refused [.loadIndex .a 256 0 1 0, .loadIndex .a 0 4294967296 1 0, .loadIndex .a 0 0 4294967296 0,
      .loadIndex .a 0 0 1 18446744073709551616, .extendClip .a 256 1, .extendClip .a 0 4294967296, .retireClip .a 256 0,
      .retireClip .a 0 256] = true := by decide

theorem test_ill_open :
    refused ([{ goodOpen with clip := 256 }, { goodOpen with generation := 256 }, { goodOpen with w := 256 },
      { goodOpen with c := 256 }, { goodOpen with seat := 256 }, { goodOpen with inPoint := 4294967296 },
      { goodOpen with outPoint := 4294967296 }, { goodOpen with period := 4294967296 },
      { goodOpen with start := 4294967296 }].map (.openStream .a)) = true := by decide

theorem test_ill_transport :
    refused [.play .a 256 0 none, .play .a 0 128 none, .play .a 0 (-129) none, .play .a 0 0 (some 4294967296),
      .cue .a 256 none, .cue .a 0 (some 4294967296), .jog .a 256 0, .jog .a 0 2147483648, .jog .a 0 (-2147483649),
      .setRange .a 256 0 0 false false, .setRange .a 0 4294967296 0 false false, .setRange .a 0 0 4294967296 false false,
      .setWindow .a 256 1 1 0, .setWindow .a 0 256 1 0, .setWindow .a 0 1 256 0, .setWindow .a 0 1 1 256,
      .queryStream .a 256, .release .a 256 0, .release .a 0 65536, .closeStream .a 256, .handOver .a 256,
      .takeOver .a 256 true] = true := by decide

theorem test_ill_channel_device :
    refused ([{ goodChannel with channel := 256 }, { goodChannel with retryLimit := 256 },
        { goodChannel with tagLimit := 256 }, { goodChannel with parkMs := 4294967296 },
        { goodChannel with wakeMs := 4294967296 }, { goodChannel with driftMs := 4294967296 }].map (.setChannel .a) ++
      [.characterise .a 256 1 2 0, .characterise .a 0 65536 2 0, .characterise .a 0 1 65536 0,
        .characterise .a 0 1 2 18446744073709551616, .channelReset .a 256] ++
      [{ noDevice with urgentUs := some 4294967296 }, { noDevice with horizonUs := some 4294967296 },
        { noDevice with leadUs := some 4294967296 }, { noDevice with prerollUs := some 4294967296 },
        { noDevice with holdMs := some 4294967296 }, { noDevice with orphanMs := some 4294967296 }].map (.setDevice .a)) =
      true := by decide

/-- A listed kind is no unknown command; 32 GiB bounds a read of the page and descriptor areas, 64 GiB a write. -/
theorem test_ill_operands :
    refused [.unknownCommand .a 256, .unknownCommand .a 0x1A, .commandFetchDone .a [], .indexEntryArrival .a [],
      .dataBlock 0 0 0 [], .announce .a 0 0, .stagingPageRead .a 34359738368 1, .descriptorRead .a 34359738367 2,
      .stagingWrite .a 68719476736, .strayMessage 0 0x0A] = true := by decide

/-! ### Command records written out from section 12.1 -/

/-- A 64-byte record with the bytes given, then zeros. -/
def record (l : List Byte) : List Byte := l ++ List.replicate (64 - l.length) 0

/-- PLAY, tag 7: locate present, stream 5, S = −8 (F8h), locate frame 258. -/
theorem test_record_play :
    Command.ofRecord (record [0x11, 7, 0x01, 5, 0xF8, 0, 0, 0, 2, 1]) = .play 5 (-8) (some 258) := by decide

/-- The same record with the flag clear and bit 1 set: the locate frame and the unassigned bit are ignored (R184). -/
theorem test_record_ignored :
    Command.ofRecord (record [0x11, 7, 0x02, 5, 0xF8, 0, 0, 0, 2, 1]) = .play 5 (-8) none := by decide

/-- JOG by −2 on stream 127. -/
theorem test_record_jog :
    Command.ofRecord (record [0x13, 1, 0, 127, 0, 0, 0, 0, 0xFE, 0xFF, 0xFF, 0xFF]) = .jog 127 (-2) := by decide

/-- LOAD_INDEX on clip 3: first frame 256, count 2, address 4096. -/
theorem test_record_loadIndex :
    Command.ofRecord (record [0x02, 0, 0, 3, 0, 1, 0, 0, 2, 0, 0, 0, 0, 0, 0, 0, 0, 16]) = .loadIndex 3 256 2 4096 := by
  decide

/-- OPEN: loop, clip 4, generation 9, W 8, C 2, seat 1, range 1 to 2, p = 40,000,000, start 3. -/
theorem test_record_open :
    Command.ofRecord (record [0x10, 0, 0x01, 4, 9, 8, 2, 1, 1, 0, 0, 0, 2, 0, 0, 0, 0, 0x5A, 0x62, 2, 3]) =
      .openStream { loop := true, openEnd := false, clip := 4, generation := 9, w := 8, c := 2, seat := 1, inPoint := 1,
                    outPoint := 2, period := 40000000, start := 3 } := by decide

/-- DEFINE_CLIP, STRIDE with two stripes (channels 3 and 4), open-end, 257 frames of 3 blocks and 12288 bytes, bases
1 and 2^40. -/
theorem test_record_define :
    Command.ofRecord (record [0x01, 0, 0x24, 1, 1, 0, 3, 0, 0, 0x30, 0, 0, 0x43, 0, 0, 0, 1, 0, 0, 0, 0, 0,
      0, 0, 0, 0, 0, 1]) =
      .defineClip { locatorKind := 0, openEnd := true, stripeCount := 2, frameCount := 257, frameBlocks := 3,
                    frameBytes := 12288, indexBase := 12288, indexCapacity := 0x43,
                    stripes := [⟨3, 1⟩, ⟨4, 1099511627776⟩] ++ List.replicate 6 ⟨0, 0⟩ } := by decide

/-- SET_DEVICE that carries the horizon and the orphan time only. -/
theorem test_record_setDevice :
    Command.ofRecord (record ([0x30, 0, 0x22, 0] ++ List.replicate 8 0 ++ [0x40, 0x42, 0x0F, 0] ++ List.replicate 12 0 ++
      [5])) = .setDevice { noDevice with horizonUs := some 1000000, orphanMs := some 5 } := by decide

/-- SET_RANGE, RELEASE, CHARACTERISE, TAKE_OVER with RESUME, and a code that is not listed. -/
theorem test_records_rest :
    Command.ofRecord (record [0x14, 0, 0x02, 6, 0, 0, 0, 0, 5, 0, 0, 0, 9]) = .setRange 6 5 9 false true ∧
    Command.ofRecord (record [0x17, 0, 0, 6, 0x34, 0x12]) = .release 6 0x1234 ∧
    Command.ofRecord (record [0x21, 0, 0, 7, 64, 0, 0, 4, 1]) = .characterise 7 64 1024 1 ∧
    Command.ofRecord (record [0x1A, 0, 0x01, 6]) = .takeOver 6 true ∧
    Command.ofRecord (record [0x40]) = .unknown 0x40 := by decide


/-! ### Worked examples of the spec -/

/-- Clip 4 of section 1.2. -/
def clip4 : Clip :=
  { state := .defined, generation := 1, definer := .a, frameCount := 2400, openEnd := false, refCount := 0,
    locator := .stride [⟨0, 1000000⟩, ⟨3, 2000000⟩, ⟨5, 500000⟩] 3112 12441600 }

/-- Section 1.2: frames 1003, 1004 and 1005 of clip 4, and their 12 pages. -/
theorem test_locate_stride :
    [1003, 1004, 1005].map (clip4.locate []) =
      [some ⟨[⟨3, 3039408, 3112⟩], 12441600⟩, some ⟨[⟨5, 1539408, 3112⟩], 12441600⟩,
       some ⟨[⟨0, 2042520, 3112⟩], 12441600⟩] ∧ pagesFor 12441600 = 12 := by decide

/-- Section 1.3: frame 17 of clip 9, read from its index entry laid out by section 12.3. -/
theorem test_locate_indexed :
    let entry : List Byte := [1, 2, 0, 0, 0, 0xD8, 0xBD, 0, 2, 0, 0, 8, 0, 0, 0x70, 0, 0, 0, 0, 0, 6, 0, 0x28, 4, 120]
    ({ clip4 with locator := .indexed 40960 20000 } : Clip).locate (Memory.write [] (40977 * 64) (record entry)) 17 =
      some ⟨[⟨2, 7340032, 2048⟩, ⟨6, 120, 1064⟩], 12441600⟩ := by decide

/-- Section 6.1: the segments of that frame. -/
theorem test_segments :
    (cutExtents 0 [⟨2, 7340032, 2048⟩, ⟨6, 120, 1064⟩]).map (fun g => (g.channel, g.block, g.count, g.offset)) =
      [(2, 7340032, 1024, 0), (2, 7341056, 1024, 1024), (6, 120, 1024, 2048), (6, 1144, 40, 3072)] := by decide

/-- Stream 12 of section 2.6, CUED on frame 100, which has been delivered. -/
def stream12 : StreamRec :=
  { StreamRec.reset with
      state := .cued, clip := 4, generation := 1, outPoint := 249, f0q := 6553600, t0 := 2000000000,
      period := 40000000, w := 4, c := 4, n := 100, stillDelivered := true }

/-- Section 2.6: the first PLAY. -/
theorem test_play :
    stream12.play 2050000000 100000000 8 none =
      { stream12 with state := .playing, s := 8, t0 := 2150000000, n := 101, stillDelivered := false,
                      passPending := true } := by decide

/-- Stream 12 in forward play at frame 124. -/
def stream12forward : StreamRec :=
  { stream12 with state := .playing, s := 8, t0 := 2150000000, n := 124, stillDelivered := false }

/-- Section 2.6: the reversal, the CUE after it, and the last PLAY. -/
theorem test_reverse_cue_play :
    let x := stream12forward.play 2960000000 100000000 (-16) none
    let y := x.cue 3010000000 none
    let z := { y with stillDelivered := true }.play 3500000000 100000000 8 none
    (x.s, x.f0q, x.t0, x.n, x.lastForward) = (-16, 7880704, 2960000000, 120, false) ∧
    (y.state, y.s, y.f0q, y.t0, y.n, y.lastForward) = (.cued, 0, 7716864, 3010000000, 117, false) ∧
    (z.state, z.s, z.f0q, z.t0, z.n, z.lastForward) = (.playing, 8, 7667712, 3600000000, 118, true) := by decide

/-- Section 3.9: the window of the reversal, its display times, and frame 121 behind the anchor. -/
theorem test_display_reverse :
    let x := stream12forward.play 2960000000 100000000 (-16) none
    x.targets = [120, 118, 116, 114] ∧ x.targets.map x.display =
      [.time 2965000000, .time 3005000000, .time 3045000000, .time 3085000000] ∧ x.display 121 = .past := by decide

/-- Section 3.10: two and a half times speed, and the playhead at 20,050,000,000. -/
theorem test_display_shuttle :
    let x := ({ stream12 with outPoint := 2399, period := 41708333, w := 5 } : StreamRec).play 19900000000 100000000 20
      (some 500)
    x.targets = [500, 502, 504, 506, 508] ∧
    x.targets.map x.entryDisplay = [20000000000, 20033366666, 20066733332, 20100099999, 20133466665] ∧
    x.playhead 20050000000 = 32964411 := by decide

/-- Stream 30 of sections 2.8 and 3.11: a loop over frames 10 to 19 located at 18. -/
def stream30 : StreamRec :=
  { StreamRec.reset with
      state := .playing, inPoint := 10, outPoint := 19, loop := true, f0q := 1179648, t0 := 7000000000, s := 8,
      period := 40000000, w := 12, c := 4, n := 18 }

/-- Section 3.11: the window across the wrap; indices down to −1; the playhead and its reported frame. -/
theorem test_loop_window :
    stream30.targets.map stream30.clipFrame = [18, 19, 10, 11, 12, 13, 14, 15, 16, 17, 18, 19] ∧
    stream30.entryDisplay 28 = 7400000000 ∧ [9, 0, -1].map stream30.clipFrame = [19, 10, 19] ∧
    stream30.playhead 7300000000 = 1671168 ∧ stream30.position 7300000000 = 15 := by decide

/-- Section 2.8: the CUE across the wrap, and the PLAY at S = −8 after it. -/
theorem test_loop_cue :
    let x := ({ stream30 with n := 25 } : StreamRec).cue 7300000000 none
    let y := { x with stillDelivered := true }.play 7300000000 100000000 (-8) none
    (x.n, x.f0q) = (15, 1015808) ∧ (y.f0q, y.n) = (983040, 14) ∧
    (y.targets.take 6).map y.clipFrame = [14, 13, 12, 11, 10, 19] := by decide

/-- Section 3.8: the anchor at frame 1000½ and frame 1003. -/
theorem test_display_forward :
    let x := { StreamRec.reset with
      state := .playing, outPoint := 2399, f0q := 65568768, t0 := 5000000000, s := 8, period := 41708333, w := 6, n := 1003 }
    x.entryDisplay 1003 = 5104270832 ∧ dueTime 8000000 5104270832 = 5096270832 ∧ x.playhead 5060000000 = 65663045 := by
  decide

/-- Section 3.8: estimates, issue times and classes on channel 3. -/
theorem test_issue_class :
    let ch := { Channel.reset with state := .active, setup := 4500, cost := 900 }
    let parked := { ch with state := .parked }
    ch.estimate 0 1024 = 8186400 ∧ ch.estimate 0 40 = 4644000 ∧ parked.estimate 0 1024 = 8008186400 ∧
    issueTime 5096270832 8186400 = 5088084432 ∧ issueTime 5096270832 8008186400 = 0 ∧
    [5060000000, 5069000000, 5089000000].map (fun now => classOf DeviceSettings.reset now 5088084432) = [2, 1, 0] ∧
    [5060000000, 5069000000, 5089000000].map (fun now => classOf DeviceSettings.reset now 5091626832) = [2, 2, 1] := by
  decide

/-- Section 7.7: Setup following the channel. -/
theorem test_learn :
    let x := { Channel.reset with setup := 4500, cost := 900 }
    let y := x.learn (9000000 - 8186400)
    let z := y.learn (7900000 - 8236400)
    y.setup = 4550 ∧ z.setup = 4529 ∧ (z.learn (40000000 - 8215400)).setup = 6515 := by decide

/-- Section 7.8: the Cost and Setup that the probes give. -/
theorem test_fit :
    let x : Characterisation :=
      { issuer := .a, tag := 0, consumer := 0, discard := false, s1 := 64, s2 := 1024, address := 0, phase := .draining,
        times := [4730512, 4733208, 4729870, 4730811, 8186004, 8184377, 8187650, 8185571] }
    let y := Channel.endChar Channel.reset x .done
    x.averages = (4731100, 8185900) ∧ (y.setup, y.cost) = (4501, 900) := by decide

/-! ### Single steps -/

/-- A field of the state a command leaves. -/
def after {α : Type} (i : Instr) (s : State) (f : State → α) : Option α :=
  match exec i s with
  | .next t => some (f t)
  | _ => none

/-- Reset with no page in the pool, so that states are small, at a house time. -/
def quiet (now : Time) : State :=
  { State.reset with env := { State.reset.env with now }, part := { State.reset.part with freePages := [] } }

/-- R150: 100 becomes 64 for either ring, 10 becomes 16, 5000 becomes 4096. -/
theorem test_ring_sizes :
    after (.ringSizeWrite .a .command 100) (quiet 0) (·.part.portA.cmdRing.size) = some 64 ∧
    after (.ringSizeWrite .b .notice 100) (quiet 0) (·.part.portB.ntcRing.size) = some 64 ∧
    after (.ringSizeWrite .a .command 10) (quiet 0) (·.part.portA.cmdRing.size) = some 16 ∧
    after (.ringSizeWrite .a .notice 5000) (quiet 0) (·.part.portA.ntcRing.size) = some 4096 := by decide

/-- Section 9.2: a ring of 16, producer 14, consumer 9; producer 34 is discarded, 25 is taken. -/
def ring16 : State :=
  { quiet 0 with part := { (quiet 0).part with portA := { Port.reset with
      cmdRing := { base := 0, size := 16, producer := 14, consumer := 9 } } } }

theorem test_producer :
    after (.cmdProducerWrite .a 34) ring16 (fun t => (t.part.portA.cmdRing.producer, t.part.portA.discardedWrites)) =
      some (14, 1) ∧
    after (.cmdProducerWrite .a 25) ring16 (fun t => (t.part.portA.cmdRing.producer, t.part.portA.discardedWrites)) =
      some (25, 0) := by decide

/-- Section 10.3: CHANNEL is raised while level 2 is in service: level 1 is sent; END_OF_SERVICE then leaves level 2. -/
theorem test_nested_levels :
    let levels (request : BitVec 9) (inService : BitVec 4) : State :=
      { quiet 0 with part := { (quiet 0).part with portA := { Port.reset with
          ev := { Events.reset with mask := 0, request, inService } } } }
    after (.evMaskWrite .a 0) (levels 0x52 0x4) (fun t => (t.part.portA.ev.inService, t.part.out)) =
      some (0x6, [.interrupt .a 1]) ∧
    after (.endOfService .a) (levels 0x50 0x6) (fun t => (t.part.portA.ev.inService, t.part.out)) = some (0x4, []) := by
  decide

/-! ### Hypotheses that are met: the world of the witnesses -/

def clipOf (state : ClipState) (definer : Head) (openEnd : Bool) (refCount : Nat) (locator : Locator) : Clip :=
  { state, generation := 1, definer, frameCount := 10, openEnd, refCount, locator }

def strideOne : Locator := .stride [⟨0, 0⟩] 8 32768

def streamOf (state : StreamState) (owner : Head) (s : Int) (savedS : Option Int) : StreamRec :=
  { StreamRec.reset with
      state, owner, s, savedS, clip := 3, generation := 1, outPoint := 9, period := 40000000, w := 4, c := 4, n := 4,
      f0q := 262144 }

def entryAt (u : Int) (display : Time) (state : EntryState) (slot : Option Nat) : WinEntry :=
  { u, frame := u.toNat, display, due := display - 8000000, state, slot, late := false }

def slotOf (state : SlotState) (frame pins : Nat) (segs : List Segment) : Slot :=
  { Slot.free with state, clip := 3, generation := 1, frame, frameBytes := 32768, segs, pins }

def segment (status : SegStatus) : Segment := { channel := 4, block := 0, count := 8, offset := 0, status }

def request0 : Request :=
  { state := .dispatched, slot := 1, seg := 0, channel := 4, block := 0, count := 8, offset := 0, retries := 0, seq := 0,
    cls := some 0, tag := some 0 }

def probing (phase : CharPhase) : Characterisation :=
  { issuer := .a, tag := 9, consumer := 0, discard := false, s1 := 1, s2 := 2, address := 0, times := [], phase }

def up : Channel := { Channel.reset with state := .active, link := true, largestRead := 1024 }

/-- A part with records in every state. House time is 10^9 and timers stand at 5. -/
def parts : Device :=
  { Device.reset Config.resetStraps with
      freePages := []
      clips := [(0, clipOf .defined .a false 0 (.indexed 0 100)), (1, clipOf .defined .a true 0 strideOne),
                (2, clipOf .retiring .a false 1 strideOne), (3, clipOf .defined .b false 9 strideOne)]
      streams :=
        [(1, { streamOf .cued .a 0 none with n := 9, stillDelivered := true, passPending := true,
                                             delivery := [⟨0, some 0⟩], nextSeq := 1 }),
         (2, { streamOf .playing .a 8 none with window := [entryAt 4 1000000 .unplaced none] }),
         (3, { streamOf .handover .a 8 (some 8) with handoverTimer := some 5 }),
         (4, { streamOf .orphaned .b 0 (some 8) with orphanTimer := some 5 }),
         (5, { streamOf .closing .a 0 none with delivery := [⟨65535, none⟩, ⟨0, none⟩] }),
         (6, { streamOf .handover .b 0 (some 0) with handoverTimer := some 5 }),
         (7, streamOf .orphaned .b 0 (some 0)),
         (8, { streamOf .playing .a (-8) none with loop := true }),
         (9, { streamOf .cued .b 0 none with passPending := true, seat := 1 })]
      slots := [(0, slotOf .staged 9 1 [segment .done]), (1, slotOf .filling 5 1 [segment .inFlight])]
      reqs := [(0, request0)]
      channels :=
        [(0, up), (1, { Channel.reset with state := .faulted, fault := some .timeouts }),
         (2, { up with state := .parking, parkGuard := some 5 }), (3, { up with state := .waking, wakeGuard := some 5 }),
         (4, { up with tags := [(0, .inFlight 0 0 10 8 5), (1, .aborting 5)] }),
         (5, { up with char := some (probing (.probing 0 0 5)) }), (6, { up with char := some (probing (.settling 5)) }),
         (7, { up with idleTimer := some 5, recheck := some 5 })]
      hau := { Hau.reset with headA := { present := true, weight := 1, nonce := 0, hold := none }, primary := some .a,
                              first := some .a } }

/-- The part without a head present. -/
def alone : Device := { parts with hau := Hau.reset }

/-- The part with slot 0 alone: clip 3, frame 9. -/
def oneSlot (state : SlotState) (segs : List Segment) : Device := { parts with slots := [(0, slotOf state 9 0 segs)] }

theorem oneSlot_only (state : SlotState) (segs : List Segment) (j : Nat) (h : ((oneSlot state segs).slot j).state ≠ .free) :
    j = 0 := by
  by_cases e : j = 0
  · exact e
  · exact absurd ((if_neg fun e' => e e'.symm) |> congrArg Slot.state) h

/-- The part without slots, and records QUEUED for slot 5, on channel 0. -/
def waiting : Device :=
  { parts with
      slots := [(5, { slotOf .filling 4 1 [segment .queued] with due := 2000000000 })]
      reqs := [(0, { request0 with state := .queued, slot := 5, channel := 0, cls := none, tag := none })] }

/-- The state of the witnesses. -/
def world : State := { quiet 1000000000 with part := parts }

/-- What `handing` hands: tag 7, kind 0, consumer index 3. -/
def ticket (c : Command) : Handed := { tag := 7, kind := 0, consumer := 3, command := c }

/-- The world with a record handed on port `p`. -/
def handing (p : Head) (c : Command) (m : Device := parts) : State :=
  { world with part := m.onPort p fun x => { x with progress := .handed (ticket c) } }

theorem hands (p : Head) (c : Command) (m : Device := parts) : (handing p c m).Hands p (ticket c) c := by
  cases p <;> exact ⟨rfl, rfl⟩

/-- Head A owns streams 1, 2, 3, 5 and 8 of the world. -/
theorem owns (c : Command) (k : Nat) (h : k = 1 ∨ k = 2 ∨ k = 3 ∨ k = 5 ∨ k = 8) : (handing .a c).Owns .a k := by
  rcases h with rfl | rfl | rfl | rfl | rfl <;> exact ⟨by decide, nofun, rfl⟩

theorem moves (c : Command) (k : Nat) (h : k = 1 ∨ k = 2 ∨ k = 8) : (handing .a c).Moves .a k := by
  rcases h with rfl | rfl | rfl
  exacts [⟨owns c _ (by decide), .inl rfl⟩, ⟨owns c _ (by decide), .inr rfl⟩, ⟨owns c _ (by decide), .inr rfl⟩]

/-- The primary of the world is head A. -/
theorem primary (c : Command) (p : Head) (m : Device) (h : m.hau.primary = some .a) :
    (handing p c m).part.hau.primary = some .a := by cases p <;> exact h

theorem world_canonical : world.Canonical := by
  refine ⟨by decide, by decide, by decide, by decide, by decide, by decide⟩

/-! ### Witnesses -/

theorem witness_idle : world.pending = [] ∧ world.env.now < maxTime := by decide

/-- SET_DEVICE from the primary changes the settings. -/
theorem witness_environmentFrame :
    let a := { noDevice with leadUs := some 200001 }
    after (.setDevice .a a) (handing .a (.setDevice a)) (fun t => decide (t.env.dev ≠ world.env.dev)) = some true := by
  decide

theorem witness_invariants :
    State.reset.StreamsLegal ∧ State.reset.Canonical ∧ State.reset.PoolLegal ∧ State.reset.KeysLegal ∧
    State.reset.PortsLegal ∧ ∃ t, step { State.reset with pending := [.deadlinePass] } = .next t := by
  have pool := Device.reset_poolLegal Config.resetStraps
  have ports := Device.reset_portsLegal Config.resetStraps
  exact ⟨Device.reset_streamsLegal _, ⟨rfl, Device.reset_canonical _⟩, ⟨pool.pages, pool.free⟩,
    Device.reset_keysLegal _, ⟨Nat.zero_le _, ports.1, fun p => (ports.2 p).1, fun p => (ports.2 p).2.1,
      fun p => (ports.2 p).2.2.1, fun p => (ports.2 p).2.2.2⟩, ⟨_, rfl⟩⟩

theorem witness_resetIsLegal : world.env.mem.wf = true ∧ ∃ t, exec (.hardReset Config.resetStraps) world = .next t :=
  ⟨by decide, _, rfl⟩

/-- A definition of no frames is neither; one stripe that reaches the last block and one entry at the end of the index
region are accepted; and a table with no FREE record. -/
theorem witness_defineClip :
    let none_ := { goodDefine with frameCount := 0 }
    let full : Device := { parts with clips := (List.range 256).map fun k => (k, clip4) }
    (handing .a (.defineClip none_)).Hands .a (ticket (.defineClip none_)) (.defineClip none_) ∧ none_.stripes.length = 8 ∧
    (∀ straps m, ¬ (none_.StrideOk straps ∨ none_.IndexedOk straps m)) ∧
    { goodDefine with stripes := List.replicate 8 ⟨7, 281474976709856⟩ }.StrideOk Config.resetStraps ∧
    { goodDefine with locatorKind := 1, frameCount := 1, indexBase := 2097151, indexCapacity := 1 }.IndexedOk
      Config.resetStraps (Device.reset Config.resetStraps) ∧
    (∀ k < 256, (full.clip k).state ≠ .free) ∧ (parts.clip 4).state = .free ∧ (∀ j < 4, (parts.clip j).state ≠ .free) ∧
    Table.wf Clip.reset parts.clips = true := by
  refine ⟨hands .a _, rfl, fun _ _ h => ?_, ⟨rfl, by decide, by decide, by decide, by decide, by decide, by decide⟩,
    ⟨rfl, by decide, by decide, by decide, fun _ _ _ h => absurd rfl h⟩, by decide +kernel, by decide, by decide, by decide⟩
  rcases h with h | h
  · exact absurd h.frames.1 (by decide)
  · exact absurd h.kind (by decide)

theorem witness_loadIndex :
    (handing .a (.loadIndex 0 0 100 64)).Hands .a (ticket (.loadIndex 0 0 100 64)) (.loadIndex 0 0 100 64) ∧
    (parts.clip 4).state ≠ .defined ∧ ((parts.clip 1).state = .defined ∧ (parts.clip 1).locator = strideOne) ∧
    ((parts.clip 0).state = .defined ∧ (parts.clip 0).locator = .indexed 0 100) :=
  ⟨hands .a _, by decide⟩

theorem witness_extendClip :
    (handing .a (.extendClip 1 11)).Hands .a (ticket (.extendClip 1 11)) (.extendClip 1 11) ∧
    (parts.clip 4).state ≠ .defined ∧ ((parts.clip 0).state = .defined ∧ (parts.clip 0).openEnd = false) ∧
    ((parts.clip 1).state = .defined ∧ (parts.clip 1).openEnd = true ∧ (parts.clip 1).frameCount < 11 ∧
      (parts.clip 1).locator = .stride [⟨0, 0⟩] 8 32768) ∧
    Table.wf StreamRec.reset parts.streams = true :=
  ⟨hands .a _, by decide⟩

theorem witness_retireClip :
    (handing .b (.retireClip 0 1)).Hands .b (ticket (.retireClip 0 1)) (.retireClip 0 1) ∧
    (parts.clip 4).state = .free ∧ (parts.clip 0).generation ≠ 2 ∧
    ((parts.clip 0).definer ≠ .b ∧ parts.hau.primary ≠ some .b) ∧
    ((parts.clip 2).state = .retiring ∧ (parts.clip 2).definer = .a) ∧
    ((parts.clip 3).state = .defined ∧ (parts.clip 3).refCount ≠ 0 ∧ (parts.clip 3).definer = .b) ∧
    ((parts.clip 0).state = .defined ∧ (parts.clip 0).refCount = 0) :=
  ⟨hands .b _, by decide⟩

/-- A transfer on clip 3 with its generation, one on another clip, and a STAGED slot of clip 3. -/
theorem witness_retirement :
    let v : Mover := { address := 0, remaining := 1, inRead := 1, since := 0, clip := 3, generation := 1, frame := 0, stored := 0, invalid := 0,
                       skipped := 0, tag := 0, consumer := 0 }
    let m := { parts with portA := { Port.reset with mover := some v },
                          portB := { Port.reset with mover := some { v with clip := 0 } } }
    Table.wf Slot.free m.slots = true ∧ (m.port .a).mover = some v ∧ v.generation = (m.clip 3).generation ∧
    (∃ w, (m.port .b).mover = some w ∧ w.clip ≠ 3) ∧ (m.slot 0).state = .staged ∧ (m.slot 0).clip = 3 ∧
    (m.slot 0).generation = (m.clip 3).generation := by
  refine ⟨by decide, rfl, rfl, ⟨_, rfl, by decide⟩, rfl, rfl, rfl⟩

theorem witness_streamCommandRefused :
    let s := handing .a (.jog 2 0)
    (Instr.jog .a 2 0).onStream = some (.a, 2, .cuedOnly) ∧ (Instr.jog .a 2 0).command = some (ticket (.jog 2 0)).command ∧
    (s.part.port .a).progress = .handed (ticket (.jog 2 0)) ∧ (s.part.stream 0).state = .closed ∧
    ((s.part.stream 9).state ≠ .closed ∧ (s.part.stream 9).owner ≠ .a) ∧ s.Owns .a 2 ∧ s.Owns .a 3 ∧
    (s.part.stream 2).state ≠ .cued ∧ ((s.part.stream 3).state ≠ .cued ∧ (s.part.stream 3).state ≠ .playing) :=
  ⟨rfl, rfl, rfl, by decide, by decide, owns _ _ (by decide), owns _ _ (by decide), by decide, by decide⟩

/-- The bounds of the frame period, an out-point above the clip's, and a table with no CLOSED stream. -/
theorem witness_openStream :
    let a := { goodOpen with clip := 3, period := 1000000, inPoint := 9 }
    let full : Device := { parts with streams := (List.range 128).map fun k => (k, streamOf .cued .a 0 none) }
    (handing .a (.openStream a)).Hands .a (ticket (.openStream a)) (.openStream a) ∧
    (parts.clip 2).state ≠ .defined ∧ (parts.clip 3).state = .defined ∧ (parts.clip 3).generation = a.generation ∧
    min a.outPoint ((parts.clip 3).frameCount - 1) = 9 ∧ (parts.clip 3).generation ≠ 2 ∧
    (∀ k < 128, (full.stream k).state ≠ .closed) ∧ (parts.stream 0).state = .closed :=
  ⟨hands .a _, by decide, by decide, by decide, by decide, by decide, by decide +kernel, by decide⟩

theorem witness_play :
    (handing .a (.play 1 65 (some 10))).Hands .a (ticket (.play 1 65 (some 10))) (.play 1 65 (some 10)) ∧
    (handing .a (.play 1 65 (some 10))).Moves .a 1 ∧ max (-64) (min (65 : Int) 64) ≠ 0 ∧
    (parts.stream 1).state = .cued ∧ (parts.stream 1).stillDelivered = true ∧
    (handing .a (.play 2 (-8) none)).Moves .a 2 ∧ (parts.stream 2).state = .playing ∧
    (8 : Int).sign = (parts.stream 2).s.sign ∧ (-8 : Int).sign ≠ (parts.stream 2).s.sign :=
  ⟨hands .a _, moves _ _ (by decide), by decide, by decide, by decide, moves _ _ (by decide), by decide, by decide,
    by decide⟩

theorem witness_cueStops :
    let s := handing .a (.play 8 0 none)
    max (-64) (min (0 : Int) 64) = 0 ∧ (Instr.play .a 8 0 none).command = some (ticket (.play 8 0 none)).command ∧
    (s.part.port .a).progress = .handed (ticket (.play 8 0 none)) ∧ s.Moves .a 8 ∧
    (Instr.cue .a 8 (some 3)).command = some (ticket (.cue 8 (some 3))).command :=
  ⟨by decide, rfl, rfl, moves _ _ (by decide), rfl⟩

theorem witness_jog :
    (handing .a (.jog 1 1)).Hands .a (ticket (.jog 1 1)) (.jog 1 1) ∧ (handing .a (.jog 1 1)).Owns .a 1 ∧
    (parts.stream 1).state = .cued :=
  ⟨hands .a _, owns _ _ (by decide), by decide⟩

/-- An in-point beyond the clamped out-point, and one equal to it. -/
theorem witness_setRange :
    (handing .a (.setRange 2 10 99 false false)).Hands .a (ticket (.setRange 2 10 99 false false))
      (.setRange 2 10 99 false false) ∧
    (handing .a (.setRange 2 10 99 false false)).Moves .a 2 ∧
    min 99 ((parts.clip (parts.stream 2).clip).frameCount - 1) < 10 ∧
    9 ≤ min 99 ((parts.clip (parts.stream 2).clip).frameCount - 1) :=
  ⟨hands .a _, moves _ _ (by decide), by decide, by decide⟩

theorem witness_setWindow :
    (handing .a (.setWindow 1 0 0 4)).Hands .a (ticket (.setWindow 1 0 0 4)) (.setWindow 1 0 0 4) ∧
    (handing .a (.setWindow 1 0 0 4)).Moves .a 1 :=
  ⟨hands .a _, moves _ _ (by decide)⟩

theorem witness_queryStream :
    (handing .a (.queryStream 5)).Hands .a (ticket (.queryStream 5)) (.queryStream 5) ∧
    (handing .a (.queryStream 5)).Owns .a 5 :=
  ⟨hands .a _, owns _ _ (by decide)⟩

theorem witness_closeStream :
    (handing .a (.closeStream 5)).Hands .a (ticket (.closeStream 5)) (.closeStream 5) ∧
    (handing .a (.closeStream 5)).Owns .a 5 ∧ (parts.stream 5).state = .closing ∧
    ((parts.stream 1).state ≠ .closing ∧ (parts.stream 1).delivery ≠ []) ∧
    ((parts.stream 2).state ≠ .closing ∧ (parts.stream 2).delivery = []) :=
  ⟨hands .a _, owns _ _ (by decide), by decide⟩

theorem witness_transportFrame :
    (Instr.queryStream .a 5).onStream = some (.a, 5, .everyState) ∧
    (∀ q, Instr.queryStream .a 5 ≠ .release .a 5 q) ∧ Instr.queryStream .a 5 ≠ .closeStream .a 5 ∧
    Instr.queryStream .a 5 ≠ .handOver .a 5 ∧ ∃ t, exec (.queryStream .a 5) (handing .a (.queryStream 5)) = .next t :=
  ⟨rfl, nofun, nofun, nofun, _, rfl⟩

/-- A delivery list that wraps in the sequence numbers, of a stream in CLOSING, and one of a CUED stream. -/
theorem witness_release :
    (handing .a (.release 5 0)).Hands .a (ticket (.release 5 0)) (.release 5 0) ∧ (handing .a (.release 5 0)).Owns .a 5 ∧
    (parts.stream 5).delivery.head? = some ⟨65535, none⟩ ∧ (parts.stream 5).delivery.getLast? = some ⟨0, none⟩ ∧
    (((0 : Int) - 65535) % 65536).toNat < (parts.stream 5).delivery.length ∧ (parts.stream 1).state ≠ .closing :=
  ⟨hands .a _, owns _ _ (by decide), by decide⟩

theorem witness_handOverTakeOver :
    (handing .a (.handOver 2)).Hands .a (ticket (.handOver 2)) (.handOver 2) ∧ (handing .a (.handOver 2)).Moves .a 2 ∧
    (handing .a (.takeOver 3 true)).Hands .a (ticket (.takeOver 3 true)) (.takeOver 3 true) ∧
    ((handing .a (.takeOver 3 true) alone).Hands .a (ticket (.takeOver 3 true)) (.takeOver 3 true) ∧
      (alone.stream 3).state = .handover ∧ (alone.stream 3).owner = .a ∧ (alone.hau.head .a).present = false) ∧
    (parts.stream 0).state = .closed ∧ (parts.stream 5).state = .closing ∧
    ((parts.stream 3).state = .handover ∧ (parts.stream 3).owner = .a ∧ (parts.hau.head .a).present = true) ∧
    ((parts.stream 6).state = .handover ∧ (parts.stream 6).owner ≠ .a) ∧
    ((parts.stream 7).state = .orphaned ∧ (parts.stream 7).savedS = some 0) ∧
    ((parts.stream 4).state = .orphaned ∧ (parts.stream 4).savedS = some 8) :=
  ⟨hands .a _, moves _ _ (by decide), hands .a _, ⟨hands .a _ _, by decide⟩, by decide⟩

theorem witness_targets :
    (parts.stream 2).loop = false ∧ (parts.stream 2).targets = [4, 5, 6, 7] ∧ (parts.stream 5).state = .closing ∧
    ({ streamOf .playing .a 8 none with n := 8 } : StreamRec).targets = [8, 9] := by decide

theorem witness_deadlinePass :
    Table.wf StreamRec.reset parts.streams = true ∧ (parts.stream 1).passPending = true ∧
    (∀ j < 128, (parts.stream j).passPending = true → (parts.stream 1).seat < (parts.stream j).seat ∨
      ((parts.stream 1).seat = (parts.stream j).seat ∧ 1 ≤ j)) ∧
    ∀ j, 128 ≤ j → (parts.stream j).passPending = false := by
  refine ⟨by decide, by decide, by decide, fun j h => ?_⟩
  have : parts.stream j = StreamRec.reset := by
    show Table.get _ _ _ = _
    simp only [parts, Table.get]
    repeat rw [if_neg (by omega)]
  rw [this]; rfl

/-- Frame 9 of clip 3 is held by one slot of each state; an ABANDONED one on a FAULTED channel and on another. -/
theorem witness_placementHeld :
    (parts.stream 2).clip = 3 ∧ (parts.stream 2).generation = 1 ∧ (entryAt 9 0 .unplaced none).frame = 9 ∧
    (∀ st ∈ [SlotState.filling, .staged, .failed, .abandoned],
      let m := oneSlot st [segment .withdrawn]
      Table.wf Slot.free m.slots = true ∧ (m.slot 0).state = st ∧ (m.slot 0).clip = 3 ∧ (m.slot 0).generation = 1 ∧
      (m.slot 0).frame = 9) ∧
    (∀ st segs j, ((oneSlot st segs).slot j).state ≠ .free → j = 0) ∧
    ({ segment .withdrawn with channel := 1 }.status = .withdrawn ∧ (parts.channel 1).state = .faulted) ∧
    (parts.channel (segment .withdrawn).channel).state ≠ .faulted :=
  ⟨rfl, rfl, rfl, by decide, oneSlot_only, by decide⟩

/-- A frame that no slot holds: without a location, on a FAULTED channel, and with a location for which there is room,
and none; with a better window entry that waits for a page, and without one. -/
theorem witness_placementNew :
    let empty := { parts with slots := [] }
    let room := { empty with freePages := [7] }
    let index := { empty with streams := [(2, { parts.stream 2 with clip := 0 })] }
    let lost := { empty with clips := [(3, clipOf .defined .b false 9 (.stride [⟨1, 0⟩] 8 32768))] }
    let behind := { empty with streams := [(2, { parts.stream 2 with
      window := [entryAt 4 1000000 .unplaced none, entryAt 5 2000000 .unplaced none] })] }
    (∀ n, (empty.slot n).state = .free) ∧ (index.clip 0).locate [] 4 = none ∧
    (lost.clip 3).locate [] 4 = some ⟨[⟨1, 32, 8⟩], 32768⟩ ∧ (lost.channel 1).state = .faulted ∧
    (room.clip 3).locate [] 4 = some ⟨[⟨0, 32, 8⟩], 32768⟩ ∧ (room.channel 0).state ≠ .faulted ∧
    empty.freeRecord = some 0 ∧ (room.reclaimFor 1 room.reclaim).freeRecord = some 0 ∧
    1 ≤ (room.reclaimFor 1 room.reclaim).freePages.length ∧ (empty.reclaimFor 1 empty.reclaim).freePages.length < 1 ∧
    room.rankedAhead 2 4 = false ∧ behind.rankedAhead 2 5 = true :=
  ⟨fun _ => rfl, by decide⟩

/-- A frame at N that is PAST, with an entry at N and without one, and one that is just not; a cause of a backlog retry
that an event brought, one that a new entry brings, and none; an empty backlog. -/
theorem witness_passStages :
    let x : StreamRec := { streamOf .playing .a 8 none with n := 3 }
    let m := { parts with agenda := { parts.agenda with retry := true } }
    (x.state ≠ .closed ∧ x.state ≠ .closing) ∧ (x.s ≠ 0 ∧ (x.n * 65536 - x.f0q) * x.s.sign < 0) ∧
    ¬ ({ x with n := 4 }.n * 65536 - x.f0q) * x.s.sign < 0 ∧
    ({ x with window := [entryAt 3 0 .staged (some 0)] }.window = [] ++ entryAt 3 0 .staged (some 0) :: [] ∧
      (entryAt 3 0 .staged (some 0)).u = x.n) ∧
    m.agenda.retry = true ∧ parts.agenda.retry = false ∧ parts.backlog ≠ [] ∧ { parts with streams := [] }.backlog = [] ∧
    (parts.entry 2 4).map (·.state) = some .unplaced := by decide

/-- The head of the backlog, which a retry leaves UNPLACED where no page is free and places where one is; the same
entry behind another one. -/
theorem witness_backlog :
    let w := entryAt 4 1000000 .unplaced none
    let x : BacklogItem := { due := 0, stream := 2, place := 0, u := 4 }
    Table.wf StreamRec.reset parts.streams = true ∧ parts.backlogHead = some x ∧
    ((parts.stream 2).window[0]? = some w ∧ w.state = .unplaced ∧ ((parts.stream 2).window.map (·.u)).Nodup) ∧
    ((parts.place world.env false 2 w).entry 2 4).map (·.state) = some .unplaced ∧
    ((({ parts with freePages := [7] } : Device).place world.env false 2 w).entry 2 4).map (·.state) = some .filling ∧
    { parts with streams := [] }.backlogHead = none := by decide

/-- The first `b` slot records, each STAGED with a frame that no window asks for. -/
def crowd (b : Nat) : Table Slot := (List.range b).map fun n => (n, slotOf .staged 99 0 [])

theorem crowd_wf (b : Nat) : Table.wf Slot.free (crowd b) = true := by
  refine (Table.wf_iff _).2 ⟨List.pairwise_map.2 List.pairwise_lt_range, fun e h => ?_⟩
  obtain ⟨n, -, rfl⟩ := List.mem_map.1 h
  show slotOf .staged 99 0 [] ≠ Slot.free
  decide

theorem crowd_get (b n : Nat) :
    Table.get Slot.free (crowd b) n = if n < b then slotOf .staged 99 0 [] else Slot.free := by
  split
  · rename_i h
    exact Table.get_of_mem _ (crowd_wf b) (n, _) (List.mem_map.2 ⟨n, List.mem_range.2 h, rfl⟩)
  · rename_i h
    rcases Table.get_mem_or (d := Slot.free) (crowd b) n with e | e
    · exact e
    · obtain ⟨j, hj, e⟩ := List.mem_map.1 e
      rw [Prod.mk.injEq] at e
      exact absurd (e.1 ▸ List.mem_range.1 hj) h

/-- A part without a FREE slot record; clip 0 has no location for any frame. -/
def full (b : Nat) (reclaim : List Nat) : Device :=
  { parts with streams := [(2, { parts.stream 2 with clip := 0 })], reclaim, slots := crowd b }

theorem full_slot (b : Nat) (l : List Nat) (n : Nat) :
    (full b l).slot n = if n < b then slotOf .staged 99 0 [] else Slot.free := crowd_get b n

theorem full_wf (b : Nat) (l : List Nat) : Table.wf Slot.free (full b l).slots = true := crowd_wf b

theorem full_index (b : Nat) (l : List Nat) : ((full b l).clip ((full b l).stream 2).clip).locate [] 4 = none := by
  have h : ((full b l).clip ((full b l).stream 2).clip).locate [] 4 = (parts.clip 0).locate [] 4 := rfl
  rw [h]
  decide

theorem full_freed (b : Nat) (l : List Nat) : ((full b l).freeSlot 0).slot 0 = Slot.free :=
  (Table.get_set (crowd b) 0 0 Slot.free).trans (if_pos rfl)

theorem full_lowest (b : Nat) (l : List Nat) :
    (lowest b fun n => decide (((full b l).slot n).state = .free)) = none := by
  unfold lowest
  rw [List.find?_eq_none]
  intro n h
  rw [full_slot, if_pos (by simpa using (List.mem_range'_1.1 h).2)]
  decide

/-- A failing placement that finds no FREE record: with a slot to reclaim, and with none. -/
theorem witness_placementFull (l : List Nat) :
    let m := full Config.numSlots
    Table.wf Slot.free (m l).slots = true ∧ (m l).freeRecord = none ∧
    ((m l).clip ((m l).stream 2).clip).locate [] 4 = none ∧
    (∀ n, ¬ (((m l).slot n).state ≠ .free ∧ ((m l).slot n).frame = 4)) ∧
    (m []).reclaimFor 0 [] = m [] ∧ (m [0]).reclaimFor 0 [0] = (m [0]).freeSlot 0 ∧
    ((m [0]).freeSlot 0).slot 0 = Slot.free := by
  refine ⟨full_wf Config.numSlots l, full_lowest Config.numSlots l, full_index Config.numSlots l, fun n h => ?_,
    by rw [Device.reclaimFor], ?_, full_freed Config.numSlots [0]⟩
  · rw [full_slot] at h
    split at h
    · exact absurd h.2 (by decide)
    · exact h.1 rfl
  · rw [Device.reclaimFor, show (full Config.numSlots [0]).freeRecord = none from full_lowest Config.numSlots [0]]
    simp [Device.reclaimFor]

theorem witness_passRebuildsWindow :
    ((parts.rebuild world.env 2).stream 2).window.map (fun w => (w.u, w.state)) =
      [(4, .unplaced), (5, .unplaced), (6, .unplaced), (7, .unplaced)] ∧
    ((parts.stream 2).window.map (·.u)).Nodup ∧ entryAt 4 1000000 .unplaced none ∈ (parts.stream 2).window ∧
    4 ∈ (parts.stream 2).targets ∧ (parts.stream 2).clipFrame 4 = 4 := by decide

/-- A head entry that is STAGED and one that is FAILED; nothing to deliver with a missed count and without one. -/
theorem witness_delivery :
    let x := { streamOf .playing .a 8 none with window := [entryAt 4 2000000000 .staged (some 0)] }
    let y := { x with window := [entryAt 4 2000000000 .failed (some 0)] }
    let missed := { x with window := [], missedCount := 1 }
    x.deliverable = some (entryAt 4 2000000000 .staged (some 0)) ∧ x.missable = false ∧
    y.deliverable = some (entryAt 4 2000000000 .failed (some 0)) ∧ { Slot.free with cause := some .medium }.cause = some .medium ∧
    (missed.deliverable = none ∧ missed.outbox = [] ∧ missed.missable = true) ∧
    { x with window := [] }.deliverable = none := by decide

/-- A step onto the out-point and one past it; the same in reverse; a full outbox; a MISSED notice at the tail. -/
theorem witness_stepAndMiss :
    let x : StreamRec := { streamOf .playing .a 8 none with n := 8 }
    let y : StreamRec := { streamOf .playing .a (-8) none with n := 0 }
    (x.state = .playing ∧ x.s ≠ 0 ∧ x.n + 1 ≤ x.outPoint) ∧ (x.outPoint : Int) < ({ x with n := 9 } : StreamRec).n + 1 ∧
    y.n - 1 < y.inPoint ∧ (x.outbox.length < 12 ∧ x.endPending = none ∧ x.missable = false) ∧
    12 ≤ (List.replicate 12 (Notice.ended 9)).length ∧
    (let missed := { x with missedCount := 1, outbox := List.replicate 10 (.ended 9) }
     missed.missable = true ∧ missed.outbox.length ≤ 10 ∧
     { missed with outbox := List.replicate 11 (.ended 9) }.outbox.length = 11) ∧
    ((parts.stream 3).state = .handover ∧ (parts.stream 3).s ≠ 0) ∧
    (∀ c f, x.outbox.getLast? ≠ some (.missed c f)) ∧
    ({ x with outbox := [.missed 65535 3] } : StreamRec).outbox = [] ++ [.missed 65535 3] := by
  refine ⟨by decide, by decide, by decide, by decide, by decide, by decide, by decide, fun _ _ => nofun, rfl⟩

theorem witness_displayExpiry :
    (parts.stream 2).window = entryAt 4 1000000 .unplaced none :: [] ∧ (parts.stream 2).running = true ∧
    (entryAt 4 1000000 .unplaced none).u = (parts.stream 2).n ∧ (1000000 : Nat) ≠ never ∧ 1000000 ≤ world.env.now := by
  decide

theorem witness_lastPin :
    ((parts.slot 0).pins = 1 ∧ 1 < (slotOf .staged 9 2 []).pins) ∧
    ((parts.slot 0).state = .staged) ∧ ((parts.slot 1).state = .filling ∧ (parts.slot 1).count .inFlight ≠ 0) ∧
    (slotOf .filling 5 1 [segment .queued]).count .inFlight = 0 ∧ (slotOf .failed 5 0 []).count .inFlight = 0 ∧
    (slotOf .failed 5 0 [segment .inFlight]).count .inFlight ≠ 0 ∧
    (Table.wf Request.free waiting.reqs = true ∧ Table.wf StreamRec.reset waiting.streams = true ∧
      (waiting.slot 5).state = .filling ∧ (waiting.slot 5).pins = 1) := by decide

/-- The queue of channel 0 that slot 5 alone holds, and the queue of channel 2, which is empty. -/
theorem witness_withdraw :
    ((waiting.req 0).state = .queued ∧ (waiting.req 0).slot = 5 ∧ (waiting.req 0).channel = 0) ∧
    (∀ r, (waiting.req r).state = .queued → r = 0) := by
  refine ⟨by decide, fun r h => ?_⟩
  by_cases e : r = 0
  · exact e
  · have free : waiting.req r = Request.free := if_neg fun e' => e e'.symm
    rw [free] at h
    cases h

theorem witness_segments :
    (let m := oneSlot .filling [segment .queued, segment .unissued]
     (cutExtents 0 [⟨0, 0, 1025⟩])[1]? = some ⟨0, 1024, 1, 1024, .unissued⟩ ∧
     ((parts.clip 1).locator = .stride [⟨0, 0⟩] 8 32768 ∧ [(⟨0, 0⟩ : Stripe)][4 % 1]? = some ⟨0, 0⟩) ∧
     (parts.clip 0).locator = .indexed 0 100 ∧ ((m.req 1).state = .free ∧ (m.req 0).state ≠ .free) ∧
     Table.wf Slot.free m.slots = true ∧ m.waitingSlot = some 0 ∧ (m.slot 0).segs[1]? = some (segment .unissued) ∧
     (oneSlot .staged []).waitingSlot = none) ∧
    (oneSlot .filling []).freeReq ≠ none := ⟨by decide, nofun⟩

/-- Issue times on both sides of every class bound; a channel with an eligible record. -/
theorem witness_dispatchChoice :
    let dev := DeviceSettings.reset
    let m := { parts with reqs := [(0, { request0 with state := .queued, channel := 0, cls := none, tag := none })] }
    dev.urgent ≤ dev.horizon ∧ classOf dev 1000 999 = 0 ∧ classOf dev 1000 1000 = 1 ∧ classOf dev 1000 20000999 = 1 ∧
    classOf dev 1000 20001000 = 2 ∧ classOf dev 1000 400000999 = 2 ∧ classOf dev 1000 400001000 = 3 ∧
    (m.choose world.env 0).isSome = true := by decide

/-- A channel that may choose, with a record eligible and with none: its tag limit of lookahead reads is 0. -/
theorem witness_runChoice :
    let none_ := { waiting with channels := [(0, { up with tagLimit := 0 })], slots := [] }
    Table.wf Request.free waiting.reqs = true ∧
    ((waiting.channel 0).state = .active ∧ (waiting.channel 0).char = none ∧ (waiting.channel 0).tag 0 = .free ∧
      waiting.queue 0 ≠ [] ∧ (waiting.choose world.env 0).isSome = true) ∧
    ((none_.channel 0).state = .active ∧ (none_.channel 0).char = none ∧ (none_.channel 0).tag 0 = .free ∧
      none_.queue 0 ≠ [] ∧ none_.choose world.env 0 = none) ∧ (waiting.channel 2).state ≠ .active := by decide

theorem witness_primaryOnly :
    let s := handing .b .yieldRole
    (Instr.yieldRole .b).primaryOnly = some .b ∧ (Instr.yieldRole .b).command = some (ticket .yieldRole).command ∧
    (s.part.port .b).progress = .handed (ticket .yieldRole) ∧ s.part.hau.primary ≠ some .b ∧
    (Instr.unknownCommand .b 0x40).command = some (ticket (.unknown 0x40)).command ∧
    ((handing .b (.unknown 0x40)).part.port .b).progress = .handed (ticket (.unknown 0x40)) := by
  refine ⟨rfl, rfl, rfl, by decide, rfl, rfl⟩

theorem witness_setDevice :
    let a := { noDevice with urgentUs := some 999, horizonUs := some 500 }
    (handing .a (.setDevice a)).Hands .a (ticket (.setDevice a)) (.setDevice a) ∧
    (handing .a (.setDevice a)).part.hau.primary = some .a ∧ Table.wf StreamRec.reset parts.streams = true :=
  ⟨hands .a _, primary _ _ _ rfl, by decide⟩

/-- Channel 8 is not fitted; channel 0 is free for CHARACTERISE, 5 is taken, 4 has tags in use. -/
theorem witness_channelCommands :
    (handing .a (.channelReset 8)).Hands .a (ticket (.channelReset 8)) (.channelReset 8) ∧
    (handing .a (.setChannel goodChannel)).Hands .a (ticket (.setChannel goodChannel)) (.setChannel goodChannel) ∧
    (handing .a (.characterise 0 1 1024 281474976709632)).Hands .a (ticket (.characterise 0 1 1024 281474976709632))
      (.characterise 0 1 1024 281474976709632) ∧
    (handing .a .yieldRole).part.hau.primary = some .a ∧ world.env.straps.fitted = 8 ∧
    ¬ (8 ≤ 0 ∨ (1 : Nat) = 0 ∨ 1024 ≤ 1 ∨ 1024 < 1024 ∨ 281474976710656 < 281474976709632 + 1024) ∧
    ((parts.channel 0).state = .active ∧ (parts.channel 0).char = none ∧ (parts.channel 0).tagsFree = true ∧
      (parts.channel 0).link = true) ∧
    ({ up with link := false }.state = .active ∧ { up with link := false }.link = false) ∧
    (parts.channel 5).char ≠ none ∧ (parts.channel 2).state ≠ .active ∧
    ((parts.channel 4).state = .active ∧ (parts.channel 4).char = none ∧ (parts.channel 4).tagsFree = false) :=
  ⟨hands .a _, hands .a _, hands .a _, primary _ _ _ rfl, by decide⟩

theorem witness_characterisationEnds : (parts.channel 5).char = some (probing (.probing 0 0 5)) := by decide

theorem witness_deviceClear :
    (handing .a .deviceClear).Hands .a (ticket .deviceClear) .deviceClear ∧
    (handing .a .deviceClear).part.hau.primary = some .a :=
  ⟨hands .a _, primary _ _ _ rfl⟩

/-- A head already present; the first head after reset; the first and the second head while the settle timer runs; a
head after settling, without and with a primary. -/
theorem witness_announce :
    let settling : Hau := { Hau.reset with settleTimer := some 5, first := some .a }
    world.env.reachable .a = true ∧ world.env.reachable .b = true ∧ (parts.hau.head .a).present = true ∧
    (parts.hau.head .b).present = false ∧ (parts.hau.first ≠ none ∧ parts.hau.settleTimer = none ∧ parts.hau.primary ≠ none) ∧
    ((Hau.reset.head .a).present = false ∧ Hau.reset.first = none) ∧
    ((settling.head .a).present = false ∧ settling.first = some .a ∧ settling.settleTimer ≠ none) ∧
    ((settling.head .b).present = false ∧ settling.first = some Head.b.other ∧ settling.settleTimer ≠ none) ∧
    ({ settling with settleTimer := none } : Hau).primary = none ∧
    ((parts.stream 4).state = .orphaned ∧ (parts.stream 4).owner = .b) := by decide

/-- A write of ANNOUNCE with weight 5, nonce 9 and a bit above the weight; one whose weight and nonce are 0; a narrow
one (section 12.5). -/
theorem test_announce_write :
    commandOfWrite .a 0x010 8 0x1500000009 = .announce .a 5 9 ∧ commandOfWrite .a 0x010 8 0x1000000000 = .withdraw .a ∧
    commandOfWrite .a 0x010 4 9 = .discardedWrite .a := by decide

/-- Messages of an adapter, byte by byte (section 12.4). -/
theorem test_messages :
    commandOfMessage 2 [0x03, 1, 2] = .readEnd 2 1 2 ∧ commandOfMessage 2 [0x0A, 0x00, 0x04] = .hello 2 1024 ∧
    commandOfMessage 2 [0x02, 3, 5, 1, 0xAA] = .dataBlock 2 3 261 [0xAA] ∧
    commandOfMessage 2 [0x01, 0] = .strayMessage 2 1 ∧
    (LinkMessage.read 2 0x010203040506 0x0708 false).bytes = [1, 2, 8, 7, 6, 5, 4, 3, 2, 1] := by decide

/-- A stream of a lost head in CLOSING and one that is not, with MISSED notices that leave its outbox; entries of its
delivery list with and without a pin. -/
theorem witness_ownerLost :
    let x := { parts.stream 1 with outbox := [.missed 65535 3, .ended 9, .missed 2 4], missedCount := 1 }
    (parts.stream 5).state = .closing ∧ x.state ≠ .closing ∧ x.delivery.map (·.slot) = [some 0] ∧
    (parts.stream 5).delivery.map (·.slot) = [none, none] ∧
    let m := { parts with streams := [(1, x)] }
    ((m.loseOwner 0 1).stream 1).missedCount = 65535 ∧ ((m.loseOwner 0 1).stream 1).lastMissed = 0 ∧
    ((m.loseOwner 0 1).stream 1).outbox = [.ended 9] ∧ ((m.loseOwner 0 1).slot 0).pins = 0 ∧
    ((parts.loseOwner 0 5).stream 5).state = .closed := by decide

theorem witness_headLost :
    world.env.reachable .a = true ∧ world.env.reachable .b = true ∧ (parts.hau.head .a).present = true ∧
    (parts.hau.head .b).present = false ∧ (parts.stream 2).state ≠ .closing := by decide

theorem witness_roles :
    let m := { parts with hau := { parts.hau with settleTimer := some 5, headB := { HeadRecord.reset with hold := some 5 } } }
    (handing .a .yieldRole).Hands .a (ticket .yieldRole) .yieldRole ∧
    (handing .a .yieldRole).part.hau.primary = some .a ∧ (parts.hau.head Head.a.other).present = false ∧
    (({ parts.hau with headB := { parts.hau.headA with weight := 2 } } : Hau).head Head.a.other).present = true ∧
    m.hau.settleTimer = some 5 ∧ (m.hau.head .b).hold = some 5 ∧ (parts.stream 4).orphanTimer = some 5 ∧
    ((parts.stream 3).handoverTimer = some 5 ∧ (parts.hau.head (parts.stream 3).owner).present = true) ∧
    ((parts.stream 6).handoverTimer = some 5 ∧ (parts.hau.head (parts.stream 6).owner).present = false) ∧
    5 ≤ world.env.now :=
  ⟨hands .a _, primary _ _ _ rfl, by decide⟩

theorem witness_fetch :
    let x := { Port.reset with progress := .reading 950000000 }
    let may := { Port.reset with cmdRing := { base := 0, size := 16, producer := 1, consumer := 0 },
                                  ntcRing := { base := 0, size := 64, producer := 0, consumer := 0 } }
    x.progress = .reading 950000000 ∧ (record []).length = 64 ∧ 950000000 + 50000000 ≤ world.env.now ∧
    { x with progress := .discarding 950000000 }.progress = .discarding 950000000 ∧
    ((parts.hau.head .a).present = true ∧ may.cmdRing.size ≠ 0 ∧ may.ntcRing.size ≠ 0 ∧ may.halt = none ∧
      may.progress = .idle ∧ may.places < 16) := by decide

/-- An entry that is held, one that passes R10, and one that does not. -/
theorem witness_mover :
    let v : Mover := { address := 0, remaining := 2, inRead := 2, since := 950000000, clip := 0, generation := 1,
                       frame := 99, stored := 0, invalid := 0, skipped := 0, tag := 0, consumer := 0 }
    let good : List Byte := record [1, 1, 0, 0, 0, 0x10, 0, 0, 7, 0, 1, 0]
    let m := { parts with portA := { Port.reset with mover := some v }, slots := [(4095, { slotOf .staged 9 1 [] with clip := 0 })] }
    (m.port .a).mover = some v ∧ Table.wf Slot.free m.slots = true ∧ good.length = 64 ∧
    (m.clip v.clip).locator = .indexed 0 100 ∧ (IndexEntry.ofBytes good).Accepted Config.resetStraps ∧
    ¬ (IndexEntry.ofBytes (record [])).Accepted Config.resetStraps ∧
    (∃ n, (m.slot n).state ≠ .free ∧ (m.slot n).clip = v.clip ∧ (m.slot n).generation = v.generation ∧
      (m.slot n).frame = ({ v with frame := 9 } : Mover).frame) ∧
    (1 < v.remaining ∧ 1 < v.inRead ∧ { v with inRead := 1 }.inRead ≤ 1 ∧ { v with remaining := 1 }.remaining ≤ 1) ∧
    v.since + 50000000 ≤ world.env.now ∧ 999999999 < v.since + 50000000 ∧
    ¬ ∃ n, (m.slot n).state ≠ .free ∧ (m.slot n).frame = v.frame := by
  refine ⟨rfl, by decide, by decide, by decide, ⟨by decide, by decide, by decide, by decide, by decide⟩,
    fun h => absurd h.valid (by decide), ⟨4095, by decide⟩, by decide, by decide, by decide, fun ⟨n, h, g⟩ => ?_⟩
  by_cases e : n = 4095
  · subst e; revert g; decide
  · exact h (if_neg (fun e' => e e'.symm) |> congrArg Slot.state)

/-- A write in progress of each kind; a stream that belongs to the ring, and two that do not. -/
theorem witness_noticeWrites :
    let writing (w : WriteSource) : Port := { Port.reset with write := some w }
    (writing .completion).write = some .completion ∧ (writing .state).write = some .state ∧
    (writing (.stream 2)).write = some (.stream 2) ∧ (writing .detached).write ≠ none ∧
    ((parts.stream 2).state ≠ .closed ∧ (parts.stream 2).owner = .a) ∧ (parts.stream 0).state = .closed ∧
    (parts.stream 9).owner ≠ .a := by decide

/-- STATE queues: a notice of the stream that waits, behind another one, one that is being written, and none; what the
end of a write that posts nothing makes of the notice in front. -/
theorem witness_stateQueue :
    let y (k : Nat) : StateNotice := { stream := k, event := .handover, owner := .a, superseded := false }
    let writing := { Port.reset with write := some .state, stateQueue := [y 2, y 3] }
    let m (port : Port) := { parts with portA := port }
    writing.stateQueue.drop 1 = [] ++ y 3 :: [] ∧ (∀ z ∈ writing.stateQueue.drop 1, z.stream ≠ 2) ∧
    ((m writing).makeState .a 2 .handover).portA.stateQueue.map (fun z => (z.stream, z.superseded)) =
      [(2, false), (3, false), (2, false)] ∧
    ((m writing).makeState .a 3 .handover).portA.stateQueue.map (fun z => (z.stream, z.superseded)) =
      [(2, false), (3, true)] ∧
    (∀ z ∈ [y 3] ++ [], z.stream ≠ (y 2).stream) ∧
    (unmarkState (y 2 :: ([y 3] ++ y 2 :: []))).map (fun z => (z.stream, z.superseded)) = [(2, true), (3, false)] := by
  decide

/-- A port that may write: a completion, a STATE notice or an outbox waits; a ring with room, and a full one. -/
theorem witness_posting :
    let port := { Port.reset with ntcRing := { base := 0, size := 64, producer := 0, consumer := 0 } }
    let m := { parts with portA := port, streams := [(2, { parts.stream 2 with outbox := [.ended 9] })] }
    let done : Completion := { tag := 0, kind := 0, consumer := 0, status := .ok, results := [] }
    Table.wf StreamRec.reset m.streams = true ∧ port.ntcRing.size ≠ 0 ∧ port.halt = none ∧ port.write = none ∧
    { port with completions := [done] }.completions = done :: [] ∧ port.completions = [] ∧ port.stateQueue = [] ∧
    ((m.stream 2).state ≠ .closed ∧ (m.stream 2).owner = .a ∧ (m.stream 2).ownerAbsent = false ∧
      (m.stream 2).state ≠ .handover ∧ (m.stream 2).outbox = .ended 9 :: []) ∧
    ((0 : Int) - 0) % (2 * 64 : Nat) < (64 : Nat) ∧ ¬ ((64 : Int) - 0) % (2 * 64 : Nat) < (64 : Nat) := by decide

/-- A configured ring and an unconfigured one; sizes at and beside the bounds; indices at the bounds. -/
theorem witness_ringWrites :
    world.env.reachable .a = true ∧ (ring16.part.portA.ring .command).size ≠ 0 ∧ (Port.reset.ring .command).size = 0 ∧
    (15 < 16 ∧ 1024 < 1025 ∧ 63 < 64 ∧ 4096 < 4097) ∧
    ((25 % 32 : Int) - 9) % (2 * 16 : Nat) ≤ (16 : Nat) ∧ ((16 : Nat) : Int) < ((26 % 32 : Int) - 9) % (2 * 16 : Nat) ∧
    (((5 : Int) - 3) % (2 * 64 : Nat) ≤ ((5 : Int) - 3) % (2 * 64 : Nat)) ∧
    (((5 : Int) - 3) % (2 * 64 : Nat) < ((5 : Int) - 6) % (2 * 64 : Nat)) := by decide

theorem witness_eventWrites :
    let v := { Events.reset with unsignalled := 1, coalTimer := some 5, inService := 0x4 }
    world.env.reachable .a = true ∧ Events.reset.inService = 0 ∧
    (v.inService.getLsbD 2 = true ∧ ∀ j < 2, v.inService.getLsbD j = false) ∧ v.unsignalled < max 1 (min 2 64) ∧
    max 1 (min 0 64) ≤ v.unsignalled ∧ v.coalTimer = some 5 ∧ 5 ≤ world.env.now ∧ 0 < v.unsignalled ∧
    Events.reset.unsignalled = 0 ∧
    (let asks := { Events.reset with mask := 0, request := 1 }
     asks.level.toNat / 2 ^ (2 * 0) % 4 = 0 ∧ asks.request.getLsbD 0 = true ∧ asks.mask.getLsbD 0 = false ∧
     asks.inService.getLsbD 0 = false) := by decide

theorem witness_tableWindow :
    world.env.reachable .b = true ∧ 4 < (5#32).toNat ∧ (4#32).toNat ≤ 4 ∧ 1 < (2#32).toNat ∧ (1#32).toNat ≤ 1 ∧
    0 + 1 < (parts.viewWords world.env 0 1).length ∧
    (parts.viewWords world.env 0 1).length ≤ ((parts.viewWords world.env 0 1).length - 1) + 1 ∧
    (parts.clip 1).locator = .stride [⟨0, 0⟩] 8 32768 ∧ (parts.clip 0).locator = .indexed 0 100 ∧
    (parts.stream 3).savedS = some 8 ∧ (parts.stream 2).displayTimer = some 1000000 ∧
    (parts.stream 3).handoverTimer = some 5 ∧ (parts.stream 4).orphanTimer = some 5 := by decide

/-- Page 3 is admitted to head A when slot 0 holds it; pages beyond the pool and pages of no delivery entry are not. -/
theorem witness_stagingWindow :
    let m := { parts with slots := [(0, { slotOf .staged 9 1 [] with pages := [3] })] }
    world.env.reachable .a = true ∧ Table.wf StreamRec.reset m.streams = true ∧
    (3 * 1048576 / 1048576 < world.env.straps.poolPages ∧ m.Admitted .a (3 * 1048576 / 1048576)) ∧
    ¬ (16256 * 1048576 / 1048576 < world.env.straps.poolPages) ∧ 4194300 + 4 ≤ 4194304 ∧ 4194304 < 4194304 + 1 :=
  ⟨by decide, by decide, ⟨by decide, 1, by decide, ⟨0, some 0⟩, by decide, 0, rfl, by decide⟩, by decide, by decide,
    by decide⟩

/-- Record 0's slot is FILLING; slots in other states; a faulted channel; retry counts at the limit. -/
theorem witness_readOutcomes :
    (parts.slot (parts.req 0).slot).state = .filling ∧ (parts.channel (parts.req 0).channel).state ≠ .faulted ∧
    (parts.req 0).retries < (parts.channel (parts.req 0).channel).retryLimit ∧
    (parts.channel 4).retryLimit ≤ ({ request0 with retries := 2 } : Request).retries ∧
    (slotOf .abandoned 5 0 [segment .inFlight]).state ≠ .filling ∧ (parts.channel 1).state = .faulted := by decide

/-- A slot whose last segment is done and one with a segment left; entries that pin it, before and after their due time,
and entries that do not. -/
theorem witness_readEntries :
    let w : List WinEntry := [entryAt 4 (world.env.now + 8000000) .filling (some 1),
      entryAt 5 (world.env.now + 7999999) .filling (some 1), entryAt 6 9 .unplaced none]
    let m := { parts with streams := [(2, { parts.stream 2 with window := w })] }
    let marks (o : ReadOutcome) :=
      ((m.readOutcome world.env.now 0 o).stream 2).window.map fun w => (w.state, w.late)
    Table.wf StreamRec.reset m.streams = true ∧ (∀ g ∈ ((m.slot 1).setSeg 0 .done).segs, g.status = .done) ∧
    (∃ g ∈ ((slotOf .filling 5 1 [segment .inFlight, segment .queued]).setSeg 0 .done).segs, g.status ≠ .done) ∧
    marks .good = [(.staged, false), (.staged, true), (.unplaced, false)] ∧
    marks .address = [(.failed, false), (.failed, false), (.unplaced, false)] ∧
    marks .retryable = [(.filling, false), (.filling, false), (.unplaced, false)] := by decide

theorem witness_linkMessages :
    (4 : Nat) < world.env.straps.fitted ∧ (parts.channel 1).link = false ∧
    ({ Channel.reset with link := true }.state = .offline ∧ { Channel.reset with link := true, state := .faulted }.link = true) ∧
    ((parts.channel 0).state ≠ .offline ∧ (parts.channel 0).state ≠ .faulted ∧ (parts.channel 0).link = true) ∧
    ((parts.channel 4).tag 0 = .inFlight 0 0 10 8 5 ∧ (parts.channel 4).probe = none ∧ (parts.channel 4).link = true) ∧
    (8 < { request0 with count := 9 }.count ∧ [7][(0 + 8) / 256]? = some 7 ∧ (parts.req 0).count ≤ 8) ∧
    ((parts.channel 4).tag 1 = .aborting 5 ∧ (parts.channel 4).tag 2 = .free) ∧
    ((parts.channel 5).probe = some (probing (.probing 0 0 5)) ∧ (parts.channel 5).link = true) ∧ 3 < (4#8).toNat ∧
    (0x08#8) ∉ [0x02#8, 0x03#8, 0x05#8, 0x07#8, 0x09#8, 0x0A#8] := by decide

/-- Tags of channel 4, which does not characterise; a drift run on both sides of its limit; a channel that drains, with
its tags free and with one in use; probes that are short and complete, and the last one. -/
theorem witness_readEnds :
    let drain := { up with char := some (probing .draining) }
    (parts.channel 4).char = none ∧ (4 : Nat) < world.env.straps.fitted ∧ (parts.channel 1).link = false ∧
    ((parts.channel 4).tag 0 = .inFlight 0 0 10 8 5 ∧ (parts.req 0).count ≤ 8 ∧ 7 < (parts.req 0).count) ∧
    (parts.channel 4).tag 1 = .aborting 5 ∧ (parts.channel 4).tag 2 = .free ∧ 3 < (4#8).toNat ∧
    (5 ≤ world.env.now ∧ (parts.channel 4).link = true) ∧
    (up.driftMs * 1000000 < (25000001 : Int).natAbs ∧ ¬ up.driftMs * 1000000 < (25000000 : Int).natAbs) ∧
    (drain.char = some (probing .draining) ∧ (∀ t < 4, drain.tag t = .free) ∧ { drain with tags := [(0, .aborting 5)] }.tag 0 ≠ .free) ∧
    ((parts.channel 5).char = some (probing (.probing 0 0 5)) ∧ (parts.channel 5).link = true ∧
      (0 : Nat) < (probing (.probing 0 0 5)).s1 ∧ (probing (.probing 0 0 5)).s1 ≤ 1 ∧
      (probing (.probing 0 0 5)).times.length + 1 < 8 ∧
      8 ≤ { probing (.probing 0 0 5) with times := List.replicate 7 1 }.times.length + 1) ∧
    (parts.channel 6).char = some (probing (.settling 5)) ∧ (parts.channel 6).tag 0 = .free := by decide

/-- The channels of the world by state and timer; a queue that is empty and one that is not. -/
theorem witness_powerAndTimers :
    let m := { parts with reqs := [(0, { request0 with state := .queued, channel := 2 })] }
    (2 : Nat) < world.env.straps.fitted ∧ (parts.channel 0).state ≠ .parking ∧
    ((parts.channel 2).state = .parking ∧ parts.queue 2 = [] ∧ m.queue 2 ≠ [] ∧ (m.channel 2).link = true) ∧
    (parts.channel 0).state ≠ .waking ∧ (parts.channel 3).state = .waking ∧
    ((parts.channel 7).idleTimer = some 5 ∧ (parts.channel 7).link = true ∧ (parts.channel 7).recheck = some 5) ∧
    (parts.channel 2).parkGuard = some 5 ∧ (parts.channel 3).wakeGuard = some 5 ∧
    ((parts.channel 5).char = some (probing (.probing 0 0 5)) ∧ (parts.channel 5).state ≠ .faulted ∧
      (parts.channel 5).consecutive < 2) ∧
    ((parts.channel 6).char = some (probing (.settling 5)) ∧ (parts.channel 6).consecutive < 2) ∧
    5 ≤ world.env.now ∧ ((parts.channel 1).state = .faulted ∧ (parts.channel 1).link = false) ∧
    2 ≤ { parts.channel 5 with consecutive := 2 }.consecutive := by decide

/-- Slots that a fault of their channel fails and spares; a channel that characterises and one that does not. -/
theorem witness_faultAndIdle :
    let m := { parts with
      slots := [(0, slotOf .staged 9 1 [segment .done]), (5, slotOf .filling 4 1 [segment .queued, segment .unissued])]
      reqs := [(0, { request0 with state := .queued, slot := 5, cls := none, tag := none })] }
    let t := m.fault 4 .timeouts
    (Table.wf StreamRec.reset m.streams = true ∧ Table.wf Slot.free m.slots = true ∧
      Table.wf Request.free m.reqs = true) ∧
    ((t.slot 5).cause = some .channelFault ∧ t.slot 0 = m.slot 0 ∧ t.queue 4 = [] ∧ m.queue 4 ≠ [] ∧
      (t.channel 4).failedChannel = 1 ∧ ((m.fault 0 .timeouts).channel 0).failedChannel = 0) ∧
    ((parts.channel 5).char ≠ none ∧ (parts.channel 4).char = none) := by decide

/-- Channels that the end of an event finds not idle, and idle with a park time, with neither, and with a timer. -/
def idlers : Device :=
  { parts with channels := [(0, { up with state := .parking, parkMs := 5 }), (1, { up with parkMs := 5 }), (2, up),
                            (7, { up with idleTimer := some 5 })] }

theorem witness_idleTimer :
    (7 : Nat) < world.env.straps.fitted ∧
    [0, 1, 2, 7].map (fun c => ((idlers.settle world.env).channel c).idleTimer) =
      [none, some (world.env.now + 5000000), none, some 5] := ⟨by decide, by decide +kernel⟩

/-- Orphaning a stream with a delivery entry unpins the slot that the entry names, which joins the reclaim list (R72, R76,
R90; log 47). -/
theorem test_orphan_unpins :
    let m := parts.orphan world.env 1
    (parts.slot 0).pins = 1 ∧ (m.slot 0).pins = 0 ∧ m.reclaim = [0] ∧ (m.stream 1).delivery = [] := by decide

/-! ### Words -/

/-- No row of the table has bits, so no word spells a command (log 2). -/
theorem test_no_words : decodeTableWord 8 0 = none ∧ State.reset.withFetchWord 8 0 = State.reset := ⟨rfl, rfl⟩

end Sys2Proof.Tests
end

section
/-! PROOFS. The clip commands (chapter 1): the end of a command that makes its completion at once, the locator that
DEFINE_CLIP's arguments describe, and the streams that an EXTEND_CLIP moves. -/

namespace Sys2Proof.Machine

/-! ### A command and its completion -/

theorem State.Hands.handedAs {s : State} {p : Head} {h : Handed} {cmd : Command} (hands : s.Hands p h cmd) :
    (s.part.port p).handedAs cmd = some h := by
  simp [Port.handedAs, hands.handed, hands.spells]

theorem Device.answer_eq_completed (m : Device) (p : Head) (h : Handed) (status : Status) (results : List Word) :
    m.answer p h status results = m.completed p (h.completion status results) := by
  cases p <;> rfl

/-- A handed command that makes its completion at once: its reply is completed, and the event ends. -/
theorem State.Hands.takeReply {s : State} {p : Head} {h : Handed} {cmd : Command} (hands : s.Hands p h cmd)
    (f : Device → Reply) {r : Reply} (reply : f s.part.begin_ = r) :
    s.takeReply p cmd f = s.ends (r.part.completed p (h.completion r.status r.results)) := by
  subst reply
  rw [← Device.answer_eq_completed]
  simp [State.takeReply, State.take, hands.handedAs, State.event, State.ends]

/-! ### Tables -/

/-- What holds of the reset record holds of every listed record exactly if it holds of every number's record. -/
theorem Table.forall_mem_iff {α : Type} [DecidableEq α] {d : α} {t : Table α} (wf : Table.wf d t = true)
    {P : α → Prop} (reset : P d) : (∀ e ∈ t, P e.2) ↔ ∀ k, P (Table.get d t k) := by
  constructor
  · intro listed k
    rcases Table.get_mem_or (d := d) t k with g | g
    · exact g.symm ▸ reset
    · exact listed _ g
  · intro every e he
    exact Table.get_of_mem t wf e he ▸ every e.1

theorem lowest_eq_none {bound : Nat} {f : Nat → Bool} (h : ∀ k < bound, f k = false) : lowest bound f = none := by
  simpa [lowest] using h

theorem lowest_eq_some {bound k : Nat} {f : Nat → Bool} (lt : k < bound) (found : f k = true)
    (least : ∀ j < k, f j = false) : lowest bound f = some k := by
  rw [lowest, List.find?_range'_eq_some]
  simpa [lt, found] using least

/-- A change made to each of several stream records changes nothing but stream records. -/
theorem Device.foldl_onStream_frame (f : StreamRec → StreamRec) (l : List Nat) (m : Device) :
    let t := l.foldl (fun m k => m.onStream k f) m
    t = { m with streams := t.streams } :=
  foldl_keeps (I := fun t => t = { m with streams := t.streams })
    (fun t k same => by rw [same]; rfl) l m rfl

/-- A change made to each of several stream records, each listed once: those are changed and no other is. -/
theorem Device.stream_foldl_onStream (f : StreamRec → StreamRec) {l : List Nat} (nodup : l.Nodup) (m : Device) (j : Nat) :
    (l.foldl (fun m k => m.onStream k f) m).stream j = if j ∈ l then f (m.stream j) else m.stream j := by
  induction l generalizing m with
  | nil => rfl
  | cons k l ih =>
    obtain ⟨fresh, nodup⟩ := List.nodup_cons.1 nodup
    rw [List.foldl_cons, ih nodup, Device.onStream, Device.stream_setStream]
    by_cases same : j = k
    · subst same; simp [fresh]
    · simp [same]

/-- A change that leaves the reset record as it is, made to every listed stream, is made to every stream. -/
theorem Device.stream_foldl_listed {f : StreamRec → StreamRec} (reset : f StreamRec.reset = StreamRec.reset) (m : Device)
    (wf : Table.wf StreamRec.reset m.streams = true) (j : Nat) :
    ((m.streams.map (·.1)).foldl (fun m k => m.onStream k f) m).stream j = f (m.stream j) := by
  have nodup : (m.streams.map (·.1)).Nodup :=
    (List.pairwise_map.2 ((Table.wf_iff _).1 wf).1).imp fun lt => Nat.ne_of_lt lt
  rw [Device.stream_foldl_onStream f nodup]
  split
  · rfl
  · rename_i absent
    have unlisted : m.stream j = StreamRec.reset :=
      Table.get_eq_of_not_mem _ _ fun e he g => absent (List.mem_map.2 ⟨e, he, g⟩)
    rw [unlisted, reset]

/-! ### The reach of a STRIDE clip -/

theorem strideFits_iff {stripes : List Stripe} {frames blocks : Nat} :
    strideFits stripes frames blocks = true ↔
      ∀ t ∈ stripes, t.base + ((frames - 1) / stripes.length + 1) * blocks ≤ 281474976710656 := by
  simp [strideFits]

/-! ### EXTEND_CLIP -/

section Extend
variable {m : Device} {clip count : Nat}

theorem Device.extendRefusal_noClip (h : (m.clip clip).state ≠ .defined) :
    m.extendRefusal clip count = some .noClip := if_pos h

/-- R12's three checks on the arguments. -/
theorem Device.extendRefusal_badArg (defined : (m.clip clip).state = .defined)
    (bad : (m.clip clip).openEnd = false ∨ count ≤ (m.clip clip).frameCount ∨
      (∃ base capacity, (m.clip clip).locator = .indexed base capacity ∧ capacity < count) ∨
      (∃ stripes blocks bytes, (m.clip clip).locator = .stride stripes blocks bytes ∧
        (16777215 < count ∨
          ∃ t ∈ stripes, 281474976710656 < t.base + ((count - 1) / stripes.length + 1) * blocks))) :
    m.extendRefusal clip count = some .badArg := by
  unfold Device.extendRefusal
  simp only [defined, ne_eq, not_true_eq_false, if_false]
  split
  · rfl
  · rename_i basic
    rcases bad with closed | few | ⟨base, capacity, loc, above⟩ | ⟨stripes, blocks, bytes, loc, above⟩
    · exact absurd (.inl closed) basic
    · exact absurd (.inr few) basic
    · simp [loc, above]
    · simp only [loc]
      refine if_pos (above.imp_right fun ⟨t, ht, far⟩ => ?_)
      rw [← Bool.not_eq_true, strideFits_iff]
      exact fun fits => absurd (fits t ht) (Nat.not_le.2 far)

theorem Device.extendRefusal_none (defined : (m.clip clip).state = .defined) (openEnd : (m.clip clip).openEnd = true)
    (more : (m.clip clip).frameCount < count)
    (indexed : ∀ base capacity, (m.clip clip).locator = .indexed base capacity → count ≤ capacity)
    (stride : ∀ stripes blocks bytes, (m.clip clip).locator = .stride stripes blocks bytes →
      count ≤ 16777215 ∧ ∀ t ∈ stripes, t.base + ((count - 1) / stripes.length + 1) * blocks ≤ 281474976710656) :
    m.extendRefusal clip count = none := by
  unfold Device.extendRefusal
  simp only [defined, openEnd, Nat.not_le.2 more, ne_eq, not_true_eq_false, if_false, Bool.true_eq_false, or_self]
  split
  · rename_i base capacity loc
    exact if_neg (Nat.not_lt.2 (indexed _ _ loc))
  · rename_i stripes blocks bytes loc
    obtain ⟨frames, fits⟩ := stride _ _ _ loc
    refine if_neg ?_
    rw [strideFits_iff.2 fits]
    simpa using frames

/-- What an EXTEND_CLIP that is taken completes with: the count and the number of streams moved (R12, R13). -/
theorem Device.extendClip_accept (taken : m.extendRefusal clip count = none) :
    m.extendClip clip count = (m.extendClip clip count).part.accept [word count, word (m.streams.countP fun e =>
      e.2.follows clip (m.clip clip).generation (m.clip clip).frameCount)] := by
  unfold Device.extendClip
  rw [taken]
  rfl

/-- An EXTEND_CLIP that is taken changes the clip's frame count and stream records only. -/
theorem Device.extendClip_frame (taken : m.extendRefusal clip count = none) :
    (m.extendClip clip count).part =
      { m.setClip clip { m.clip clip with frameCount := count } with
          streams := (m.extendClip clip count).part.streams } := by
  unfold Device.extendClip
  rw [taken]
  exact Device.foldl_onStream_frame ..

/-- Every stream that follows the clip is moved, and no other (R13). -/
theorem Device.extendClip_stream (taken : m.extendRefusal clip count = none)
    (wf : Table.wf StreamRec.reset m.streams = true) (k : Nat) :
    (m.extendClip clip count).part.stream k =
      (m.stream k).extended clip (m.clip clip).generation (m.clip clip).frameCount count := by
  unfold Device.extendClip
  rw [taken]
  exact Device.stream_foldl_listed
    (f := (·.extended clip (m.clip clip).generation (m.clip clip).frameCount count)) rfl (m.setClip ..) wf k

end Extend

theorem exec_extendClip (p : Head) (clip count : Nat) (s : State) :
    exec (.extendClip p clip count) s = s.takeReply p (.extendClip clip count) (Device.extendClip clip count) := rfl

/-- A refusal of an EXTEND_CLIP is its completion and nothing else (R12, R154). -/
theorem exec_extendClip_refused {s : State} {p : Head} {h : Handed} {clip count : Nat} {status : Status}
    (hands : s.Hands p h (.extendClip clip count)) (refused : s.part.begin_.extendRefusal clip count = some status) :
    exec (.extendClip p clip count) s = s.ends (s.part.begin_.completed p (h.completion status [])) :=
  (exec_extendClip ..).trans
    (hands.takeReply _ (r := s.part.begin_.refuse status) (by rw [Device.extendClip, refused]))

/-- Settles O15: the refusals by `extendRefusal`, and of a command taken its completion, its streams and its frame. -/
theorem extendClip : Obligations.ExtendClip := by
  intro s p h clip count hands
  refine ⟨fun free => exec_extendClip_refused hands (Device.extendRefusal_noClip free),
    fun defined bad => exec_extendClip_refused hands (Device.extendRefusal_badArg defined bad),
    fun defined openEnd more indexed stride wf => ?_⟩
  have taken : s.part.begin_.extendRefusal clip count = none :=
    Device.extendRefusal_none defined openEnd more indexed stride
  have frame := Device.extendClip_frame taken
  have clips : ∀ j, (s.part.begin_.extendClip clip count).part.clip j =
      if j = clip then { s.part.clip clip with frameCount := count } else s.part.clip j := fun j =>
    (congrArg (fun m => Device.clip m j) frame).trans (Device.clip_setClip s.part.begin_ ..)
  refine ⟨(s.part.begin_.extendClip clip count).part, _, ?_, (clips clip).trans (if_pos rfl),
    fun j other => (clips j).trans (if_neg other), Device.extendClip_stream taken wf, rfl, ?_⟩
  · rw [exec_extendClip, hands.takeReply _ (Device.extendClip_accept taken)]
    rfl
  · rw [frame]
    rfl

/-! ### DEFINE_CLIP -/

section Define
variable {straps : Straps} {m : Device} {a : DefineClipArgs}

/-- A run shares no entry with a run in use exactly if it ends before or starts after each of them (R7). -/
theorem Device.runOverlaps_eq_false (wf : Table.wf Clip.reset m.clips = true) {base capacity : Nat} :
    m.runOverlaps base capacity = false ↔ ∀ k b n, (m.clip k).state ≠ .free → (m.clip k).locator = .indexed b n →
      b + n ≤ base ∨ base + capacity ≤ b := by
  have listed := Table.forall_mem_iff wf (P := fun x => ∀ b n, x.state ≠ .free → x.locator = .indexed b n →
    b + n ≤ base ∨ base + capacity ≤ b) (fun _ _ used => absurd rfl used)
  refine Iff.trans ?_ listed
  simp only [Device.runOverlaps, List.any_eq_false]
  refine forall₂_congr fun e _ => ?_
  cases e.2.locator with
  | stride stripes blocks bytes => simp
  | indexed b n =>
    simp only [Bool.and_eq_true, decide_eq_true_eq, Locator.indexed.injEq, ne_eq]
    grind

theorem DefineClipArgs.length_stripes_take (eight : a.stripes.length = 8) (count : a.stripeCount ≤ 8) :
    (a.stripes.take a.stripeCount).length = a.stripeCount := by
  simp [eight, count]

theorem defineLocator_of_strideOk (eight : a.stripes.length = 8) (ok : a.StrideOk straps) :
    defineLocator straps m a = some a.locator := by
  obtain ⟨kind, frames, count, channels, blocks, bytes, reach⟩ := ok
  have fits : strideFits (a.stripes.take a.stripeCount) a.frameCount a.frameBlocks = true := by
    rwa [strideFits_iff, DefineClipArgs.length_stripes_take eight count.2]
  have fitted : (a.stripes.take a.stripeCount).any (fun t => decide (straps.fitted ≤ t.channel)) = false := by
    simpa only [List.any_eq_false, decide_eq_true_eq, Nat.not_le] using channels
  rw [defineLocator, if_neg (not_or.2 (by grind)), if_pos kind, DefineClipArgs.locator, if_pos kind]
  exact if_neg (by rw [fits, fitted]; grind)

theorem defineLocator_of_indexedOk (wf : Table.wf Clip.reset m.clips = true) (ok : a.IndexedOk straps m) :
    defineLocator straps m a = some a.locator := by
  obtain ⟨kind, frames, capacity, region, apart⟩ := ok
  have other : a.locatorKind ≠ 0 := by omega
  have apart := (Device.runOverlaps_eq_false wf).2 apart
  rw [defineLocator, if_neg (not_or.2 (by grind)), if_neg other, if_pos kind, DefineClipArgs.locator, if_neg other]
  exact if_neg (by rw [apart]; grind)

/-- Arguments that describe a locator pass R7's checks of their kind. -/
theorem ok_of_defineLocator (wf : Table.wf Clip.reset m.clips = true) (eight : a.stripes.length = 8) {loc : Locator}
    (described : defineLocator straps m a = some loc) : a.StrideOk straps ∨ a.IndexedOk straps m := by
  unfold defineLocator at described
  split at described
  · cases described
  rename_i frames
  have frames : 1 ≤ a.frameCount ∧ a.frameCount ≤ 16777215 := by grind
  split at described
  · rename_i kind
    dsimp only at described
    split at described
    · cases described
    rename_i checks
    simp only [not_or, Nat.not_lt, Bool.not_eq_true, Bool.not_eq_false, strideFits_iff, List.any_eq_false,
      decide_eq_true_eq, Nat.not_le] at checks
    obtain ⟨nonzero, most, fitted, blocks, mostBlocks, bytes, room, fits⟩ := checks
    rw [DefineClipArgs.length_stripes_take eight most] at fits
    exact .inl ⟨kind, frames, ⟨Nat.pos_of_ne_zero nonzero, most⟩, fitted, ⟨Nat.pos_of_ne_zero blocks, mostBlocks⟩,
      ⟨Nat.pos_of_ne_zero bytes, room⟩, fits⟩
  · split at described
    · rename_i kind
      split at described
      · cases described
      rename_i checks
      simp only [not_or, Nat.not_lt, Bool.not_eq_true, Device.runOverlaps_eq_false wf] at checks
      obtain ⟨nonzero, most, covers, region, apart⟩ := checks
      exact .inr ⟨kind, frames, ⟨Nat.pos_of_ne_zero nonzero, most, covers⟩, region, apart⟩
    · cases described

theorem defineLocator_none (wf : Table.wf Clip.reset m.clips = true) (eight : a.stripes.length = 8)
    (bad : ¬ (a.StrideOk straps ∨ a.IndexedOk straps m)) : defineLocator straps m a = none :=
  Option.eq_none_iff_forall_ne_some.2 fun _ g => bad (ok_of_defineLocator wf eight g)

theorem defineLocator_some (wf : Table.wf Clip.reset m.clips = true) (eight : a.stripes.length = 8)
    (ok : a.StrideOk straps ∨ a.IndexedOk straps m) : defineLocator straps m a = some a.locator :=
  ok.elim (defineLocator_of_strideOk eight) (defineLocator_of_indexedOk wf)

theorem Device.freeClip_none (full : ∀ k < 256, (m.clip k).state ≠ .free) : m.freeClip = none :=
  lowest_eq_none fun k lt => decide_eq_false (full k lt)

theorem Device.freeClip_some {k : Nat} (lt : k < 256) (free : (m.clip k).state = .free)
    (least : ∀ j < k, (m.clip j).state ≠ .free) : m.freeClip = some k :=
  lowest_eq_some lt (decide_eq_true free) fun j below => decide_eq_false (least j below)

/-- What the definition does to staging memory: the run of an INDEXED clip is cleared (R4). -/
theorem DefineClipArgs.clearRun_locator (a : DefineClipArgs) (mem : Memory) :
    a.locator.clearRun mem =
      if a.locatorKind = 0 then mem else mem.clear (a.indexBase * 64) (a.indexCapacity * 64) := by
  unfold DefineClipArgs.locator
  split <;> rfl

end Define

section DefineExec
variable {s : State} {p : Head} {h : Handed} {a : DefineClipArgs}

theorem exec_defineClip : exec (.defineClip p a) s = execDefineClip p a s := rfl

/-- A definition that fails R7's checks is refused and changes nothing. -/
theorem exec_defineClip_badArg (hands : s.Hands p h (.defineClip a))
    (bad : defineLocator s.env.straps s.part.begin_ a = none) :
    exec (.defineClip p a) s = s.ends (s.part.begin_.completed p (h.completion .badArg [])) := by
  simp only [exec_defineClip, execDefineClip, hands.handedAs, Device.defineClip, bad, Device.answer_eq_completed]
  rfl

/-- A definition is refused where no record is FREE (R8). -/
theorem exec_defineClip_noRoom (hands : s.Hands p h (.defineClip a)) {loc : Locator}
    (ok : defineLocator s.env.straps s.part.begin_ a = some loc) (full : s.part.begin_.freeClip = none) :
    exec (.defineClip p a) s = s.ends (s.part.begin_.completed p (h.completion .noRoom [])) := by
  simp only [exec_defineClip, execDefineClip, hands.handedAs, Device.defineClip, ok, full, Device.answer_eq_completed]
  rfl

/-- A definition that is taken writes the FREE record and clears the clip's run (R4, R8). -/
theorem exec_defineClip_taken (hands : s.Hands p h (.defineClip a)) {loc : Locator} {k : Nat}
    (ok : defineLocator s.env.straps s.part.begin_ a = some loc) (free : s.part.begin_.freeClip = some k) :
    let clip := (s.part.clip k).define p a loc
    exec (.defineClip p a) s = { s with env := { s.env with mem := loc.clearRun s.env.mem } }.ends
      ((s.part.begin_.setClip k clip).completed p (h.completion .ok [word k, word clip.generation])) := by
  simp only [exec_defineClip, execDefineClip, hands.handedAs, Device.defineClip, ok, free, Device.answer_eq_completed]
  rfl

end DefineExec

/-- Settles O13: R7's checks by `defineLocator`, the record by `freeClip`, the run by the reading rule of `clear`. -/
theorem defineClip : Obligations.DefineClip := by
  intro s p h a hands wf eight
  refine ⟨fun bad => exec_defineClip_badArg hands (defineLocator_none (m := s.part) wf eight bad),
    fun ok full => exec_defineClip_noRoom hands (defineLocator_some (m := s.part) wf eight ok) (Device.freeClip_none full),
    fun ok k lt free least => ⟨?_, fun b => ?_⟩⟩
  · rw [exec_defineClip_taken hands (defineLocator_some (m := s.part) wf eight ok) (Device.freeClip_some lt free least),
      DefineClipArgs.clearRun_locator]
    rfl
  · split
    · rename_i stride
      rw [if_neg fun g => g.1 stride]
    · rename_i indexed
      rw [Memory.read_clear, Nat.add_mul]
      simp only [ne_eq, indexed, not_false_eq_true, true_and]
      rfl

end Sys2Proof.Machine
end

section
/-! PROOFS. The machine: what a step does, what commands change outside the part, and the invariants that every step
keeps (Laws/Commands and Laws/Invariants say what one command keeps). -/

namespace Sys2Proof.Machine

/-! ### A step -/

/-- Settles O1: the step of a queue with a front command is by definition that command's. -/
theorem stepTakesFront : Obligations.StepTakesFront := fun _ _ => rfl

/-- Settles O2: house time stops at its greatest value, R40. -/
theorem idleStepTicks : Obligations.IdleStepTicks := by
  intro s idle
  have count : ∀ a b : Nat, min (a + 1) b = if a < b then a + 1 else b := by
    intro a b
    split <;> omega
  simp only [step, idle, State.tick, count]

/-- A property that neither a tick nor the queue touches is kept by every step, if every command keeps it. -/
theorem kept_of_exec {I : State → Prop} (tick : ∀ s, I s → I s.tick) (queue : ∀ s l, I s → I { s with pending := l })
    (run : ∀ i s, I s → Yields I (exec i s)) : Kept I := by
  intro s t h taken
  unfold step at taken
  split at taken
  · cases taken
    exact tick s h
  · exact run _ _ (queue s _ h) t taken

/-! ### The invariants, for one command -/

/-- A property of the part that is kept at every size of the pool, and that every reset part has, is kept by every
command. -/
theorem exec_keeps_part {I : Device → Prop} (q : ∀ P, Loose P I) (reset : ∀ straps, I (Device.reset straps)) (i : Instr)
    (s : State) (h : I s.part) : Yields (fun t => I t.part) (exec i s) :=
  (q s.env.straps.poolPages).exec_keeps i s rfl (fun straps _ => reset straps) h

/-- A command leaves canonical memory canonical; HARD_RESET keeps it (log 6). -/
theorem exec_keeps_memory (i : Instr) (s : State) (h : s.env.mem.wf = true) :
    Yields (fun t => t.env.mem.wf = true) (exec i s) := by
  by_cases hard : ∃ straps, i = .hardReset straps
  · obtain ⟨straps, rfl⟩ := hard
    exact yields_next h
  · exact fun t taken => (exec_env i s (not_exists.1 hard) t taken).1 h

/-- A command leaves the pool whole, at the size that its straps give: HARD_RESET alone changes the straps, and gives the
part the pool of the new ones. -/
theorem exec_keeps_pool (i : Instr) (s : State) (h : s.part.PoolLegal s.env.straps.poolPages) :
    Yields (fun t => t.part.PoolLegal t.env.straps.poolPages) (exec i s) := by
  by_cases hard : ∃ straps, i = .hardReset straps
  · obtain ⟨straps, rfl⟩ := hard
    exact yields_next (Device.reset_poolLegal straps)
  · intro t taken
    obtain ⟨-, -, straps⟩ := exec_env i s (not_exists.1 hard) t taken
    rw [straps]
    exact (loose_pool _).exec_keeps i s rfl (fun straps g => absurd ⟨straps, g⟩ hard) h t taken

/-- House time stands still during a command, but that HARD_RESET sets it to 0 (log 1). -/
theorem exec_time (i : Instr) (s : State) (h : s.env.now ≤ maxTime) : Yields (fun t => t.env.now ≤ maxTime) (exec i s) := by
  by_cases hard : ∃ straps, i = .hardReset straps
  · obtain ⟨straps, rfl⟩ := hard
    exact yields_next (Nat.zero_le _)
  · intro t taken
    obtain ⟨-, now, -⟩ := exec_env i s (not_exists.1 hard) t taken
    exact now ▸ h

theorem State.portsLegal_iff (s : State) : s.PortsLegal ↔ s.env.now ≤ maxTime ∧ s.part.PortsLegal := by
  constructor
  · intro ⟨time, hau, events, ring, places, states⟩
    exact ⟨time, hau, fun p => ⟨events p, ring p, places p, states p⟩⟩
  · intro ⟨time, hau, port⟩
    exact ⟨time, hau, fun p => (port p).1, fun p => (port p).2.1, fun p => (port p).2.2.1, fun p => (port p).2.2.2⟩

/-- With canonical slots the pool is whole as Safety.lean says it and as Laws/Invariants does. -/
theorem State.poolLegal_iff (s : State) (wf : Table.wf Slot.free s.part.slots = true) :
    s.PoolLegal ↔ s.part.PoolLegal s.env.straps.poolPages :=
  ⟨fun ⟨pages, free⟩ => ⟨wf, pages, free⟩, fun ⟨_, pages, free⟩ => ⟨pages, free⟩⟩

/-! ### The invariants, for a step -/

/-- Settles O7. -/
theorem stepKeepsStreamsLegal : Obligations.StepKeepsStreamsLegal :=
  kept_of_exec (fun _ h => h) (fun _ _ h => h) (exec_keeps_part loose_streams Device.reset_streamsLegal)

/-- Memory and tables of a state, each canonical by its own lemma about a command. -/
theorem exec_keeps_canonical (i : Instr) (s : State) (h : s.Canonical) : Yields State.Canonical (exec i s) :=
  fun t taken => ⟨exec_keeps_memory i s h.1 t taken,
    exec_keeps_part loose_canonical Device.reset_canonical i s h.2 t taken⟩

/-- Settles O8. -/
theorem stepKeepsCanonical : Obligations.StepKeepsCanonical :=
  kept_of_exec (fun _ h => h) (fun _ _ h => h) exec_keeps_canonical

/-- Settles O9: on canonical slots a page list that changes hands is the same multiset of pages. -/
theorem stepKeepsPoolLegal : Obligations.StepKeepsPoolLegal := by
  have slots : ∀ {s : State}, s.Canonical → Table.wf Slot.free s.part.slots = true := by
    rintro s ⟨-, -, -, wf, -⟩
    exact wf
  refine kept_of_exec (fun s h => ⟨h.1, ⟨h.2.pages, h.2.free⟩⟩) (fun s l h => ⟨h.1, ⟨h.2.pages, h.2.free⟩⟩) ?_
  intro i s ⟨canonical, pool⟩ t taken
  have canonical' := exec_keeps_canonical i s canonical t taken
  exact ⟨canonical', (t.poolLegal_iff (slots canonical')).2
    (exec_keeps_pool i s ((s.poolLegal_iff (slots canonical)).1 pool) t taken)⟩

/-- Settles O10. -/
theorem stepKeepsKeysLegal : Obligations.StepKeepsKeysLegal :=
  kept_of_exec (fun _ h => h) (fun _ _ h => h) (exec_keeps_part loose_keys Device.reset_keysLegal)

/-- Settles O11: a tick stops at the greatest house time, and a command lets house time stand still. -/
theorem stepKeepsPortsLegal : Obligations.StepKeepsPortsLegal := by
  simp only [Obligations.StepKeepsPortsLegal, Kept, State.portsLegal_iff]
  refine kept_of_exec (I := fun s => s.env.now ≤ maxTime ∧ s.part.PortsLegal)
    (fun s h => ⟨Nat.min_le_right .., h.2⟩) (fun _ _ h => h) ?_
  intro i s ⟨time, legal⟩ t taken
  exact ⟨exec_time i s time t taken, exec_keeps_part loose_ports Device.reset_portsLegal i s legal t taken⟩

/-! ### Reset -/

/-- Settles O6. -/
theorem hardReset : Obligations.HardReset := by
  intro straps s
  refine ⟨_, rfl, rfl, rfl, rfl, rfl, rfl, fun _ => rfl, fun _ => rfl, fun _ => rfl, ?_, rfl, fun _ => rfl, rfl,
    fun _ => rfl, fun p => by cases p <;> rfl, fun p => by cases p <;> rfl, rfl, rfl, rfl, rfl, rfl⟩
  exact List.range_eq_range'.symm

/-- A state whose part is at reset is legal in every respect, if its memory is canonical. -/
theorem State.legal_of_reset {t : State} (mem : t.env.mem.wf = true) (time : t.env.now ≤ maxTime)
    (part : t.part = Device.reset t.env.straps) :
    t.StreamsLegal ∧ t.Canonical ∧ t.PoolLegal ∧ t.KeysLegal ∧ t.PortsLegal := by
  have pool : t.part.PoolLegal t.env.straps.poolPages := part ▸ Device.reset_poolLegal _
  have streams : t.part.StreamsLegal := part ▸ Device.reset_streamsLegal _
  have canonical : t.part.Canonical := part ▸ Device.reset_canonical _
  have keys : t.part.KeysLegal := part ▸ Device.reset_keysLegal _
  have ports : t.part.PortsLegal := part ▸ Device.reset_portsLegal _
  exact ⟨streams, ⟨mem, canonical⟩, (t.poolLegal_iff pool.wf).2 pool, keys, t.portsLegal_iff.2 ⟨time, ports⟩⟩

/-- Settles O12. -/
theorem resetIsLegal : Obligations.ResetIsLegal := by
  intro s t straps mem reset
  rcases reset with rfl | taken
  · exact State.legal_of_reset rfl (Nat.zero_le _) rfl
  · cases taken
    exact State.legal_of_reset mem (Nat.zero_le _) rfl

/-! ### What a command answers -/

/-- The answer is a next state that differs in the part alone. -/
def State.Answers (s : State) (a : Answer) : Prop := ∃ m, a = .next { s with part := m }

@[simp] theorem State.answers_next (s : State) : s.Answers (.next s) := ⟨s.part, rfl⟩

@[simp] theorem State.answers_event (s : State) (f : Device → Device) : s.Answers (s.event f) := ⟨_, rfl⟩

@[simp] theorem State.answers_portEvent (s : State) (f : Device → Device) : s.Answers (s.portEvent f) := ⟨_, rfl⟩

/-- An event that happens under a condition only. -/
theorem State.answers_guard {s : State} {c : Prop} [Decidable c] {a : Answer} (h : s.Answers a) :
    s.Answers (if c then a else .next s) := by
  split
  · exact h
  · exact s.answers_next

theorem State.answers_take (s : State) (p : Head) (cmd : Command) (f : Handed → Device → Device) :
    s.Answers (s.take p cmd f) := by
  unfold State.take
  split
  · exact s.answers_event _
  · exact s.answers_next

theorem State.answers_onLink {s : State} {c : Nat} {a : Answer} (h : s.Answers a) : s.Answers (s.onLink c a) :=
  State.answers_guard (State.answers_guard h)

/-- The five commands that change time, straps, settings or staging memory. -/
def ChangesEnv (i : Instr) : Prop :=
  (∃ straps, i = .hardReset straps) ∨ (∃ p a, i = .setDevice p a) ∨ (∃ p a, i = .defineClip p a) ∨
  (∃ p e, i = .indexEntryArrival p e) ∨ ∃ c t o d, i = .dataBlock c t o d

/-- Every other command answers a next state that differs in the part alone. -/
theorem exec_answers (i : Instr) (s : State) (other : ¬ ChangesEnv i) : s.Answers (exec i s) := by
  cases i with
  | hardReset | setDevice | defineClip | indexEntryArrival | dataBlock => simp [ChangesEnv] at other
  | loadIndex | extendClip | retireClip | openStream | play | cue | jog | setRange | setWindow | queryStream | release
  | closeStream | handOver | takeOver | setChannel | characterise | channelReset | deviceClear | yieldRole
  | unknownCommand => exact s.answers_take ..
  | announce | withdraw | portReset | portLinkLoss => exact State.answers_guard (s.answers_event _)
  | ringBaseWrite | ringSizeWrite | cmdProducerWrite | ntcConsumerWrite | evRequestWrite | evMaskWrite | evLevelWrite
  | endOfService | coalCountWrite | coalExpiryWrite | tbLowRead | taSelectWrite | taIndexWrite | taModeWrite
  | taDataRead | discardedWrite | stagingPageRead | descriptorRead | stagingWrite =>
    exact State.answers_guard (s.answers_portEvent _)
  | linkUp | channelLinkLoss => exact State.answers_guard (s.answers_event _)
  | hello | readEnd | abortDone | parked | awake => exact State.answers_onLink (s.answers_event _)
  | strayMessage c code =>
    refine State.answers_onLink ?_
    split
    · exact s.answers_next
    · exact s.answers_event _
  | moverReadError | noticeWriteFail | idleTimerExpiry | parkGuardExpiry | wakeGuardExpiry | recheckTimerExpiry
  | displayExpiry | holdTimerExpiry | settleTimerExpiry | orphanTimerExpiry | handoverLapse =>
    exact State.answers_guard (s.answers_event _)
  | commandFetchDone | fetchReadError | fetchReadTimeout | moverReadTimeout | noticeWriteEnd | deadlinePass
  | requestTimeout | abortGuardExpiry | probeTimeout | settlingGuardExpiry | coalescingTimerExpiry =>
    simp only [exec, execCommandFetchDone, execFetchReadError, execFetchReadTimeout, execMoverReadTimeout,
      execNoticeWriteEnd, execDeadlinePass, execRequestTimeout, execAbortGuardExpiry, execProbeTimeout,
      execSettlingGuardExpiry, execCoalescingTimerExpiry]
    repeat' split
    all_goals simp

/-- A DATA message changes staging memory and the part alone. -/
theorem exec_dataBlock_answers (c : Fin 8) (tag : BitVec 8) (offset : BitVec 16) (payload : List Byte) (s : State) :
    ∃ mem m, exec (.dataBlock c tag offset payload) s = .next { s with env := { s.env with mem }, part := m } := by
  by_cases taken : (c : Nat) < s.env.straps.fitted ∧ (s.part.channel c).link = true
  · exact ⟨_, _, State.onLink_up _ taken.1 taken.2⟩
  · refine ⟨s.env.mem, s.part, ?_⟩
    simp only [exec, execDataBlock, State.onLink, State.onFitted]
    split
    · exact if_neg fun link => taken ⟨‹_›, link⟩
    · rfl

/-- An entry brought in from head memory changes staging memory and the part alone. -/
theorem exec_indexEntryArrival_answers (p : Head) (entry : List Byte) (s : State) :
    ∃ mem m, exec (.indexEntryArrival p entry) s = .next { s with env := { s.env with mem }, part := m } := by
  simp only [exec, execIndexEntryArrival]
  split
  · exact ⟨s.env.mem, s.part, rfl⟩
  · exact ⟨_, _, rfl⟩

/-- A definition changes staging memory and the part alone. -/
theorem exec_defineClip_answers (p : Head) (a : DefineClipArgs) (s : State) :
    ∃ mem m, exec (.defineClip p a) s = .next { s with env := { s.env with mem }, part := m } := by
  simp only [exec, execDefineClip]
  split
  · exact ⟨s.env.mem, s.part, rfl⟩
  · exact ⟨_, _, rfl⟩

/-- SET_DEVICE changes the part and, from the primary, the device settings. -/
theorem exec_setDevice_answers (p : Head) (a : SetDeviceArgs) (s : State) :
    ∃ dev m, exec (.setDevice p a) s = .next { s with env := { s.env with dev }, part := m } ∧
      (dev ≠ s.env.dev → s.part.hau.primary = some p) := by
  simp only [exec, execSetDevice]
  split
  · exact ⟨s.env.dev, s.part, rfl, fun h => absurd rfl h⟩
  · split
    · exact ⟨_, _, rfl, fun _ => ‹_›⟩
    · exact ⟨s.env.dev, _, rfl, fun h => absurd rfl h⟩

/-- Settles O3. -/
theorem everyCommandAnswersNext : Obligations.EveryCommandAnswersNext := by
  intro i s
  by_cases changes : ChangesEnv i
  · rcases changes with ⟨straps, rfl⟩ | ⟨p, a, rfl⟩ | ⟨p, a, rfl⟩ | ⟨p, e, rfl⟩ | ⟨c, t, o, d, rfl⟩
    · exact ⟨_, rfl⟩
    · obtain ⟨_, _, answer, -⟩ := exec_setDevice_answers p a s
      exact ⟨_, answer⟩
    · obtain ⟨_, _, answer⟩ := exec_defineClip_answers p a s
      exact ⟨_, answer⟩
    · obtain ⟨_, _, answer⟩ := exec_indexEntryArrival_answers p e s
      exact ⟨_, answer⟩
    · obtain ⟨_, _, answer⟩ := exec_dataBlock_answers c t o d s
      exact ⟨_, answer⟩
  · obtain ⟨m, answer⟩ := exec_answers i s changes
    exact ⟨_, answer⟩

/-- Settles O4: the five commands that change the environment, each with its own field, and all others. -/
theorem environmentFrame : Obligations.EnvironmentFrame := by
  intro i s t taken
  by_cases changes : ChangesEnv i
  · rcases changes with ⟨straps, rfl⟩ | ⟨p, a, rfl⟩ | ⟨p, a, rfl⟩ | ⟨p, e, rfl⟩ | ⟨c, k, o, d, rfl⟩
    · cases taken
      exact ⟨rfl, fun other => absurd rfl (other straps), fun _ _ _ => rfl⟩
    · obtain ⟨dev, m, answer, primary⟩ := exec_setDevice_answers p a s
      cases answer.symm.trans taken
      exact ⟨rfl, fun _ => ⟨rfl, rfl, fun changed => ⟨p, a, rfl, primary changed⟩⟩, fun _ _ _ => rfl⟩
    · obtain ⟨mem, m, answer⟩ := exec_defineClip_answers p a s
      cases answer.symm.trans taken
      exact ⟨rfl, fun _ => ⟨rfl, rfl, fun changed => absurd rfl changed⟩, fun other _ _ => absurd rfl (other p a)⟩
    · obtain ⟨mem, m, answer⟩ := exec_indexEntryArrival_answers p e s
      cases answer.symm.trans taken
      exact ⟨rfl, fun _ => ⟨rfl, rfl, fun changed => absurd rfl changed⟩, fun _ other _ => absurd rfl (other p e)⟩
    · obtain ⟨mem, m, answer⟩ := exec_dataBlock_answers c k o d s
      cases answer.symm.trans taken
      exact ⟨rfl, fun _ => ⟨rfl, rfl, fun changed => absurd rfl changed⟩, fun _ _ other => absurd rfl (other c k o d)⟩
  · obtain ⟨m, answer⟩ := exec_answers i s changes
    cases answer.symm.trans taken
    exact ⟨rfl, fun _ => ⟨rfl, rfl, fun changed => absurd rfl changed⟩, fun _ _ _ => rfl⟩

/-- Settles O5: the tables' part of the end of an event touches no port, and the ports' part nothing but the ports. -/
theorem eventEndFrame : Obligations.EventEndFrame := by
  refine ⟨fun m e => ?_, fun m now => m.settlePorts_portsSettled now⟩
  have tables := m.settleTables_settled e
  obtain ⟨only, ports⟩ := (m.settleTables e).settlePorts_portsSettled e.now
  have port : ∀ p, (m.settleTables e).port p = m.port p := fun p => by
    cases p
    · exact tables.ports.1
    · exact tables.ports.2
  have stream : ∀ k, (m.settle e).stream k = (m.settleTables e).stream k := fun k =>
    congrArg (Table.get StreamRec.reset · k) only.streams
  have channel : ∀ c, (m.settle e).channel c = (m.settleTables e).channel c := fun c =>
    congrArg (Table.get Channel.reset · c) only.channels
  exact ⟨only.clips.trans tables.clips, only.hau.trans tables.hau, fun p => port p ▸ ports p,
    fun k => stream k ▸ tables.stream k, fun c => channel c ▸ tables.channel c⟩

end Sys2Proof.Machine
end

section
/-! PROOFS. LOAD_INDEX, RETIRE_CLIP and the retirement of a clip (chapter 1), and the rules about ports and tables that
the proofs of the other commands use too. -/

namespace Sys2Proof.Machine

/-! ### Ports and records -/

theorem Device.setPort_port (m : Device) (p : Head) : m.setPort p (m.port p) = m := by cases p <;> rfl

@[simp] theorem Device.begin_port (m : Device) (p : Head) : m.begin_.port p = m.port p := by cases p <;> rfl

@[simp] theorem Head.other_other (p : Head) : p.other.other = p := by cases p <;> rfl

theorem Head.other_ne (p : Head) : p.other ≠ p := by cases p <;> simp [Head.other]

/-- A record that is listed in a canonical table is that number's record, and a number whose record is not the reset one
is listed. -/
theorem Table.mem_iff {α : Type} [DecidableEq α] {d : α} {t : Table α} (wf : Table.wf d t = true) (k : Nat) (v : α) :
    (k, v) ∈ t ↔ Table.get d t k = v ∧ v ≠ d := by
  constructor
  · intro listed
    exact ⟨Table.get_of_mem t wf (k, v) listed, ((Table.wf_iff t).1 wf).2 _ listed⟩
  · rintro ⟨rfl, used⟩
    exact (Table.get_mem_or t k).resolve_left used

/-- The numbers that a filter of a canonical table lists are those whose records pass it, if the reset record does not. -/
theorem Table.mem_numbers_iff {α : Type} [DecidableEq α] {d : α} {t : Table α} (wf : Table.wf d t = true)
    {f : Nat × α → Bool} {k : Nat} (reset : f (k, d) = false) :
    k ∈ (t.filter f).map (·.1) ↔ f (k, Table.get d t k) = true := by
  simp only [List.mem_map, List.mem_filter]
  constructor
  · rintro ⟨⟨j, v⟩, ⟨listed, passes⟩, rfl⟩
    rwa [((Table.mem_iff wf j v).1 listed).1]
  · intro passes
    refine ⟨_, ⟨(Table.mem_iff wf k _).2 ⟨rfl, fun unused => ?_⟩, passes⟩, rfl⟩
    rw [unused, reset] at passes
    cases passes

/-! ### Handed commands -/

theorem State.Hands.take {s : State} {p : Head} {h : Handed} {cmd : Command} (hands : s.Hands p h cmd)
    (f : Handed → Device → Device) : s.take p cmd f = s.ends (f h s.part.begin_) := by
  simp [State.take, hands.handedAs, State.event, State.ends]

/-! ### LOAD_INDEX -/

section Load
variable {s : State} {p : Head} {h : Handed} {clip first count address : Nat}

theorem exec_loadIndex_refused {status : Status} (hands : s.Hands p h (.loadIndex clip first count address))
    (refused : s.part.loadRefusal clip first count address = some status) :
    exec (.loadIndex p clip first count address) s = s.ends (s.part.begin_.completed p (h.completion status [])) := by
  have refused : s.part.begin_.loadRefusal clip first count address = some status := refused
  refine (hands.take _).trans ?_
  simp only [refused, Device.answer_eq_completed]

/-- A LOAD_INDEX that is taken starts the mover with its first read (R9, R156). -/
theorem exec_loadIndex_taken (hands : s.Hands p h (.loadIndex clip first count address))
    (taken : s.part.loadRefusal clip first count address = none) :
    exec (.loadIndex p clip first count address) s = s.ends ((s.part.begin_.setPort p
      { s.part.port p with
          progress := .loading,
          mover := some { address, remaining := count, inRead := readEntries address count, since := s.env.now, clip,
                          generation := (s.part.clip clip).generation, frame := first, stored := 0, invalid := 0,
                          skipped := 0, tag := h.tag, consumer := h.consumer } }).emit
      (.indexRead p address (readEntries address count))) := by
  have taken : s.part.begin_.loadRefusal clip first count address = none := taken
  refine (hands.take _).trans ?_
  simp only [taken]
  cases p <;> rfl

/-- Settles O14. -/
theorem loadIndex : Obligations.LoadIndex := by
  intro s p h clip first count address hands
  refine ⟨fun undefined => ?_, fun defined stripes blocks bytes stride => ?_,
    fun defined base capacity indexed => ⟨fun bad => ?_, fun some_ room aligned => ?_⟩⟩
  · exact exec_loadIndex_refused hands (if_pos undefined)
  · exact exec_loadIndex_refused hands (by simp [Device.loadRefusal, defined, stride])
  · exact exec_loadIndex_refused hands (by simp [Device.loadRefusal, defined, indexed, bad])
  · refine ⟨readEntries address count, readEntries_pos address, readEntries_le address (Nat.pos_of_ne_zero some_),
      exec_loadIndex_taken hands ?_⟩
    simp [Device.loadRefusal, defined, indexed, some_, Nat.not_lt.2 room, aligned]

end Load

/-! ### RETIRE_CLIP -/

theorem exec_retireClip (p : Head) (clip g : Nat) (s : State) :
    exec (.retireClip p clip g) s = s.takeReply p (.retireClip clip g) (Device.retireClip p clip g) := rfl

theorem Device.retireClip_refused {m : Device} {p : Head} {clip g : Nat} {status : Status}
    (refused : m.retireRefusal p clip g = some status) : m.retireClip p clip g = m.refuse status := by
  simp [Device.retireClip, refused]

/-- A clip that is not FREE, of the generation given, is retired by its definer and by the primary (R14). -/
theorem Device.retireRefusal_none {m : Device} {p : Head} {clip g : Nat} (used : (m.clip clip).state ≠ .free)
    (generation : (m.clip clip).generation = g) (may : (m.clip clip).definer = p ∨ m.hau.primary = some p) :
    m.retireRefusal p clip g = none := by
  have owner : ¬ ((m.clip clip).definer ≠ p ∧ m.hau.primary ≠ some p) := fun ⟨d, h⟩ => may.elim d h
  simp only [Device.retireRefusal, used, generation, owner, ne_eq, not_true_eq_false, if_false]

section Retire
variable {m : Device} {p : Head} {clip g : Nat}

theorem Device.retireClip_retiring (st : (m.clip clip).state = .retiring) (generation : (m.clip clip).generation = g)
    (may : (m.clip clip).definer = p ∨ m.hau.primary = some p) :
    m.retireClip p clip g = m.accept [word (m.clip clip).refCount, 0] := by
  rw [Device.retireClip, Device.retireRefusal_none (by rw [st]; decide) generation may]
  exact if_pos st

theorem Device.retireClip_held (st : (m.clip clip).state = .defined) (held : (m.clip clip).refCount ≠ 0)
    (generation : (m.clip clip).generation = g) (may : (m.clip clip).definer = p ∨ m.hau.primary = some p) :
    m.retireClip p clip g = (m.setClip clip { m.clip clip with state := .retiring }).accept
      [word (m.clip clip).refCount, 0] := by
  rw [Device.retireClip, Device.retireRefusal_none (by rw [st]; decide) generation may]
  exact (if_neg (by rw [st]; decide)).trans (if_neg held)

theorem Device.retireClip_last (st : (m.clip clip).state = .defined) (last : (m.clip clip).refCount = 0)
    (generation : (m.clip clip).generation = g) (may : (m.clip clip).definer = p ∨ m.hau.primary = some p) :
    m.retireClip p clip g = ((m.setClip clip { m.clip clip with state := .retiring }).retire clip).accept [0, 1] := by
  rw [Device.retireClip, Device.retireRefusal_none (by rw [st]; decide) generation may]
  exact (if_neg (by rw [st]; decide)).trans (if_pos last)

end Retire

/-- Settles O16. -/
theorem retireClip : Obligations.RetireClip := by
  intro s p h clip g hands
  have answer := fun (r : Reply) (reply : s.part.begin_.retireClip p clip g = r) =>
    (exec_retireClip p clip g s).trans (hands.takeReply _ reply)
  have refused := fun (status : Status) (why : s.part.begin_.retireRefusal p clip g = some status) =>
    answer _ (Device.retireClip_refused why)
  refine ⟨fun free => refused .noClip (if_pos free), fun used stale => refused .stale ?_,
    fun used same definer role => refused .notOwner ?_,
    fun same may => ⟨fun retiring => ?_, fun defined held => ?_, fun defined last => ?_⟩⟩
  · exact (if_neg used).trans (if_pos stale)
  · exact (if_neg used).trans ((if_neg (not_not.2 same)).trans (if_pos ⟨definer, role⟩))
  · exact answer (s.part.begin_.accept _) (Device.retireClip_retiring (m := s.part.begin_) retiring same may)
  · exact answer (Device.accept _ _) (Device.retireClip_held (m := s.part.begin_) defined held same may)
  · exact answer (Device.accept _ _) (Device.retireClip_last (m := s.part.begin_) defined last same may)

/-! ### The end of a transfer -/

/-- A port whose LOAD_INDEX transfer `v` has ended (R11, R156). -/
def Port.transferred (x : Port) (v : Mover) (status : Status) : Port :=
  { x with mover := none, progress := .idle, completions := x.completions ++ [v.completion status] }

theorem Device.endTransfer_eq {m : Device} {p : Head} {v : Mover} (running : (m.port p).mover = some v) (status : Status) :
    m.endTransfer p status = m.setPort p ((m.port p).transferred v status) := by
  rw [Device.endTransfer, running]
  cases p <;> rfl

/-- The end of a transfer on a clip changes the port that runs one alone. -/
theorem Device.endTransferOn_eq (m : Device) (clip g : Nat) (p : Head) :
    m.endTransferOn clip g p = m.setPort p ((m.endTransferOn clip g p).port p) := by
  unfold Device.endTransferOn
  split
  · split
    · rename_i v running same
      rw [Device.endTransfer_eq running, Device.port_setPort_same]
    · exact (m.setPort_port p).symm
  · exact (m.setPort_port p).symm

theorem Device.endTransferOn_port {m : Device} {clip g : Nat} {p : Head} {v : Mover}
    (running : (m.port p).mover = some v) (on : v.clip = clip ∧ v.generation = g) :
    (m.endTransferOn clip g p).port p = (m.port p).transferred v .noClip := by
  rw [Device.endTransferOn, running]
  simp only [on, and_self, if_true]
  rw [Device.endTransfer_eq running, Device.port_setPort_same]

theorem Device.endTransferOn_of_other {m : Device} {clip g : Nat} {p : Head}
    (other : ∀ v, (m.port p).mover = some v → ¬ (v.clip = clip ∧ v.generation = g)) :
    m.endTransferOn clip g p = m := by
  unfold Device.endTransferOn
  split
  · rename_i v running
    exact if_neg (other v running)
  · rfl

/-! ### Retirement -/

/-- The slots that a retirement frees (R15, R94). -/
def Device.retiredSlots (m : Device) (clip : Nat) : List Nat :=
  (m.slots.filter fun e => decide (e.2.state = .staged) && decide (e.2.clip = clip) &&
    decide (e.2.generation = (m.clip clip).generation)).map (·.1)

theorem Device.mem_retiredSlots {m : Device} (wf : Table.wf Slot.free m.slots = true) (clip n : Nat) :
    n ∈ m.retiredSlots clip ↔ (m.slot n).state = .staged ∧ (m.slot n).clip = clip ∧
      (m.slot n).generation = (m.clip clip).generation := by
  rw [Device.retiredSlots, Table.mem_numbers_iff wf rfl]
  simp only [Bool.and_eq_true, decide_eq_true_eq, and_assoc]
  rfl

/-- Slots freed one after another: those listed are FREE and no other changes. -/
theorem Device.slot_foldl_freeSlot (l : List Nat) (m : Device) (n : Nat) :
    (l.foldl (fun m n => m.freeSlot n) m).slot n = if n ∈ l then Slot.free else m.slot n := by
  induction l generalizing m with
  | nil => rfl
  | cons j l ih =>
    rw [List.foldl_cons, ih, Stable.freeSlot_slot]
    by_cases same : n = j <;> simp [same]

/-- What a freed slot leaves as it is: everything but slots, the free page list, the reclaim list and the backlog's
retry. -/
structure Device.SlotsFreed (m m' : Device) : Prop where
  clips : m'.clips = m.clips
  streams : m'.streams = m.streams
  reqs : m'.reqs = m.reqs
  channels : m'.channels = m.channels
  port : ∀ p, m'.port p = m.port p

theorem Device.foldl_freeSlot_frame (l : List Nat) (m : Device) :
    m.SlotsFreed (l.foldl (fun m n => m.freeSlot n) m) :=
  foldl_keeps (I := m.SlotsFreed) (f := fun m n => m.freeSlot n) (fun _ _ h => ⟨h.clips, h.streams, h.reqs, h.channels, fun p => by
    rw [← h.port p]
    cases p <;> rfl⟩) l m ⟨rfl, rfl, rfl, rfl, fun _ => rfl⟩

/-- Retirement in its stages. -/
theorem Device.retire_eq (m : Device) (clip : Nat) :
    m.retire clip = ((((m.retiredSlots clip).foldl (fun m n => m.freeSlot n) m).setClip clip
      (Clip.freeWith (m.clip clip).generation)).endTransferOn clip (m.clip clip).generation .a).endTransferOn clip
      (m.clip clip).generation .b := rfl

/-- The tables after the end of two transfers are those before it. -/
theorem Device.retire_tables (m : Device) (clip : Nat) :
    (∀ j, (m.retire clip).clip j = if j = clip then Clip.freeWith (m.clip clip).generation else m.clip j) ∧
    (∀ n, (m.retire clip).slot n = if n ∈ m.retiredSlots clip then Slot.free else m.slot n) ∧
    (m.retire clip).streams = m.streams ∧ (m.retire clip).channels = m.channels ∧ (m.retire clip).reqs = m.reqs := by
  have freed := m.foldl_freeSlot_frame (m.retiredSlots clip)
  have clips : ∀ j, ((m.retiredSlots clip).foldl (fun m n => m.freeSlot n) m).clip j = m.clip j := fun j =>
    congrArg (Table.get Clip.reset · j) freed.clips
  rw [Device.retire_eq, Device.endTransferOn_eq, Device.endTransferOn_eq _ _ _ .a]
  simp only [Device.setPort_clip, Device.setPort_slot, Device.setPort_streams, Device.setPort_channels,
    Device.setPort_reqs, Device.clip_setClip, Device.setClip_slot, Device.setClip_streams, Device.setClip_channels,
    Device.setClip_reqs, Device.slot_foldl_freeSlot, clips]
  exact ⟨fun _ => trivial, fun _ => trivial, freed.streams, freed.channels, freed.reqs⟩

/-- A retirement makes of a port what the end of its transfer on the clip makes of it. -/
theorem Device.retire_port (m : Device) (clip : Nat) (p : Head) :
    (m.retire clip).port p = (m.endTransferOn clip (m.clip clip).generation p).port p := by
  have freed := m.foldl_freeSlot_frame (m.retiredSlots clip)
  have transfer : ∀ (t u : Device) (g : Nat), t.port p = u.port p →
      (t.endTransferOn clip g p).port p = (u.endTransferOn clip g p).port p := by
    intro t u g same
    by_cases on : ∃ v, (u.port p).mover = some v ∧ v.clip = clip ∧ v.generation = g
    · obtain ⟨v, running, on⟩ := on
      rw [Device.endTransferOn_port running on, Device.endTransferOn_port (same ▸ running) on, same]
    · have other : ∀ v, (u.port p).mover = some v → ¬ (v.clip = clip ∧ v.generation = g) :=
        fun v running both => on ⟨v, running, both⟩
      rw [Device.endTransferOn_of_other other, Device.endTransferOn_of_other (same ▸ other), same]
  rw [Device.retire_eq]
  cases p with
  | a =>
    rw [Device.endTransferOn_eq _ _ _ .b]
    exact transfer _ _ _ (freed.port .a)
  | b =>
    refine transfer _ _ _ ?_
    rw [Device.endTransferOn_eq _ _ _ .a]
    exact freed.port .b

/-- Settles O17. -/
theorem retirement : Obligations.Retirement := by
  intro m clip wf
  obtain ⟨clips, slots, streams, channels, reqs⟩ := m.retire_tables clip
  refine ⟨(clips clip).trans (if_pos rfl), fun j other => (clips j).trans (if_neg other), fun n => ?_,
    fun p v running c g => ?_, fun p idle => ?_, streams, channels, reqs⟩
  · simp only [slots, Device.mem_retiredSlots wf]
  · rw [Device.retire_port, Device.endTransferOn_port running ⟨c, g⟩]
    exact ⟨rfl, rfl, rfl⟩
  · refine (m.retire_port clip p).trans
      (congrArg (Device.port · p) (Device.endTransferOn_of_other fun v running ⟨c, g⟩ => ?_))
    rcases idle with none_ | ⟨w, running', other⟩
    · cases none_.symm.trans running
    · cases running'.symm.trans running
      exact other.elim (· c) (· g)

/-! ### The closing of a stream -/

/-- The reference count falls by one, and a RETIRING clip without references is FREE (R2, R15); no stream changes. -/
theorem Device.dropRef_clip (m : Device) (clip j : Nat) :
    (m.dropRef clip).clip j =
      if j = clip then
        (if (m.clip clip).state = .retiring ∧ (m.clip clip).refCount - 1 = 0 then Clip.freeWith (m.clip clip).generation
         else { m.clip clip with refCount := (m.clip clip).refCount - 1 })
      else m.clip j := by
  have lowered : (m.lowerRef clip).clip clip = { m.clip clip with refCount := (m.clip clip).refCount - 1 } :=
    m.clip_setClip_same clip _
  rw [Device.dropRef, lowered]
  split
  · rw [(Device.retire_tables _ clip).1 j, lowered]
    by_cases same : j = clip
    · rw [if_pos same, if_pos same]
    · rw [if_neg same, if_neg same]
      exact (m.clip_setClip ..).trans (if_neg same)
  · exact m.clip_setClip ..

theorem Device.dropRef_streams (m : Device) (clip : Nat) : (m.dropRef clip).streams = m.streams := by
  unfold Device.dropRef
  simp only
  split
  · rw [(Device.retire_tables _ clip).2.2.1]
    rfl
  · rfl

theorem Device.closeStream_stream (m : Device) (k j : Nat) :
    (m.closeStream k).stream j = if j = k then (m.stream k).closed else m.stream j :=
  (congrArg (Table.get StreamRec.reset · j) (Device.dropRef_streams ..)).trans (m.stream_setStream ..)

/-- Settles O29. -/
theorem streamBecomesClosed : Obligations.StreamBecomesClosed := by
  intro m k
  have clips : ∀ j, (m.closeStream k).clip j = _ := Device.dropRef_clip ((m.onStream k StreamRec.closed).detach k) _
  exact ⟨(m.closeStream_stream k k).trans (if_pos rfl), fun j other => (m.closeStream_stream k j).trans (if_neg other),
    fun j other => (clips j).trans (if_neg other), (clips _).trans (if_pos rfl)⟩

end Sys2Proof.Machine
end

section
/-! PROOFS. The stream commands (chapter 2): the checks of R19 and R20, OPEN, and the transport commands. -/

namespace Sys2Proof.Machine

/-! ### The checks of R19 and R20 -/

section Refusal
variable {m : Device} {p : Head} {k : Nat} {g : Admission}

theorem Device.streamRefusal_noStream (h : 127 < k ∨ (m.stream k).state = .closed) :
    m.streamRefusal p k g = some .noStream := by
  simp [Device.streamRefusal, Device.noStream, h]

theorem Device.streamRefusal_notOwner (range : k ≤ 127) (live : (m.stream k).state ≠ .closed)
    (owner : (m.stream k).owner ≠ p) : m.streamRefusal p k g = some .notOwner := by
  simp [Device.streamRefusal, Device.noStream, live, owner, Nat.not_lt.2 range]

theorem Device.streamRefusal_owned (range : k ≤ 127) (live : (m.stream k).state ≠ .closed)
    (owner : (m.stream k).owner = p) :
    m.streamRefusal p k g = if g.admits (m.stream k).state then none else some .busy := by
  simp [Device.streamRefusal, Device.noStream, live, owner, Nat.not_lt.2 range]

end Refusal

/-- The table of R20, read for the states in which a group is not taken. -/
theorem Admission.admits_eq_false {g : Admission} {x : StreamState}
    (h : g = .cuedPlaying ∧ x ≠ .cued ∧ x ≠ .playing ∨ g = .cuedOnly ∧ x ≠ .cued) : g.admits x = false := by
  rcases h with ⟨rfl, cued, playing⟩ | ⟨rfl, cued⟩
  · simp [Admission.admits, cued, playing]
  · simp [Admission.admits, cued]

theorem Admission.admits_cuedPlaying {x : StreamState} (h : x = .cued ∨ x = .playing) :
    Admission.cuedPlaying.admits x = true := by
  rcases h with rfl | rfl <;> rfl

section Commands
variable {s : State} {p : Head} {h : Handed} {cmd : Command} {k : Nat} {g : Admission}

/-- A stream command that a check of R19 or R20 refuses. -/
theorem State.Hands.streamRefused (hands : s.Hands p h cmd) {f : Device → Reply} {status : Status}
    (refused : s.part.streamRefusal p k g = some status) :
    s.takeReply p cmd (fun m => m.streamCommand p k g (f m)) =
      s.ends (s.part.begin_.completed p (h.completion status [])) := by
  refine hands.takeReply (r := s.part.begin_.refuse status) _ ?_
  rw [Device.streamCommand, show s.part.begin_.streamRefusal p k g = some status from refused]

/-- A stream command that passes them. -/
theorem State.Hands.streamTaken (hands : s.Hands p h cmd) (owns : s.Owns p k)
    (admitted : g.admits (s.part.stream k).state = true) {f : Device → Reply} {r : Reply}
    (reply : f s.part.begin_ = r) :
    s.takeReply p cmd (fun m => m.streamCommand p k g (f m)) =
      s.ends (r.part.completed p (h.completion r.status r.results)) := by
  refine hands.takeReply _ ?_
  have taken : s.part.begin_.streamRefusal p k g = none :=
    (Device.streamRefusal_owned (m := s.part) owns.inRange owns.live owns.owner).trans (if_pos admitted)
  rw [Device.streamCommand, taken, reply]

/-- Every command on a stream is its reply behind the checks of R19 and R20. -/
theorem exec_onStream {i : Instr} (on : i.onStream = some (p, k, g)) :
    ∃ (cmd : Command) (f : Device → Reply), i.command = some cmd ∧
      exec i s = s.takeReply p cmd fun m => m.streamCommand p k g (f m) := by
  cases i with
  | play | cue | jog | setRange | setWindow | queryStream | release | closeStream | handOver =>
    simp only [Instr.onStream, Option.some.injEq, Prod.mk.injEq] at on
    obtain ⟨rfl, rfl, rfl⟩ := on
    exact ⟨_, _, rfl, rfl⟩
  | _ => simp [Instr.onStream] at on

end Commands

/-- Settles O18. -/
theorem streamCommandRefused : Obligations.StreamCommandRefused := by
  intro s p h i k g on spells handed
  obtain ⟨cmd, f, command, run⟩ := exec_onStream (s := s) on
  have hands : s.Hands p h cmd := ⟨handed, Option.some.inj (spells.symm.trans command)⟩
  have refused := fun (status : Status) (why : s.part.streamRefusal p k g = some status) =>
    run.trans (hands.streamRefused why)
  refine ⟨fun none_ => refused _ (Device.streamRefusal_noStream none_),
    fun range live owner => refused _ (Device.streamRefusal_notOwner range live owner),
    fun owns barred => refused _ ?_⟩
  rw [Device.streamRefusal_owned owns.inRange owns.live owns.owner, Admission.admits_eq_false barred]
  rfl

/-! ### OPEN -/

section Open
variable {m : Device} {p : Head} {a : OpenArgs} {now : Time}

theorem Device.openStream_refused {status : Status} (refused : m.openRefusal a = some status) :
    m.openStream now p a = m.refuse status := by
  simp [Device.openStream, refused]

/-- An OPEN whose arguments pass is refused only for lack of a CLOSED record (R22). -/
theorem Device.openRefusal_of_args (defined : (m.clip a.clip).state = .defined)
    (generation : (m.clip a.clip).generation = a.generation)
    (args : ¬ (a.period < 1000000 ∨ 1000000000 < a.period ∨ (m.clip a.clip).clampOut a.outPoint < a.inPoint)) :
    m.openRefusal a = if m.closedStream = none then some .noRoom else none := by
  simp only [Device.openRefusal, defined, generation, args, ne_eq, not_true_eq_false, if_false]

theorem Device.openStream_taken (passes : m.openRefusal a = none) {k : Nat} (record : m.closedStream = some k) :
    m.openStream now p a =
      ((m.setClip a.clip { m.clip a.clip with refCount := (m.clip a.clip).refCount + 1 }).setStream k
        (openedStream (m.clip a.clip) p a now)).accept
      [word k, word (openedStream (m.clip a.clip) p a now).outPoint, wordInt (openedStream (m.clip a.clip) p a now).n,
       word (openedStream (m.clip a.clip) p a now).w, word (openedStream (m.clip a.clip) p a now).c,
       word (openedStream (m.clip a.clip) p a now).seat] := by
  simp [Device.openStream, passes, record]

end Open

theorem wordInt_natCast (n : Nat) : wordInt n = word n := BitVec.ofInt_natCast ..

theorem exec_openStream (p : Head) (a : OpenArgs) (s : State) :
    exec (.openStream p a) s = s.takeReply p (.openStream a) fun m => m.openStream s.env.now p a := rfl

/-- Settles O19. -/
theorem openStream : Obligations.OpenStream := by
  intro s p h a hands clip out refusedWith
  have refused : ∀ status, s.part.begin_.openRefusal a = some status → refusedWith status := fun status why =>
    (exec_openStream p a s).trans ((hands.takeReply _ (Device.openStream_refused why)).trans rfl)
  refine ⟨fun undefined => refused _ (if_pos undefined), fun defined stale => refused _ ?_,
    fun defined generation bad => refused _ ?_,
    fun defined generation least_ most range => ⟨fun full => refused _ ?_, fun k lt closed lowest_ => ?_⟩⟩
  · exact (if_neg (not_not.2 defined)).trans (if_pos stale)
  · exact (if_neg (not_not.2 defined)).trans ((if_neg (not_not.2 generation)).trans (if_pos bad))
  · have args : ¬ (a.period < 1000000 ∨ 1000000000 < a.period ∨ out < a.inPoint) := by omega
    have none_ : s.part.begin_.closedStream = none := lowest_eq_none fun k lt => decide_eq_false (full k lt)
    rw [Device.openRefusal_of_args (m := s.part.begin_) defined generation args, if_pos none_]
  · have args : ¬ (a.period < 1000000 ∨ 1000000000 < a.period ∨ out < a.inPoint) := by omega
    have record : s.part.begin_.closedStream = some k :=
      lowest_eq_some lt (decide_eq_true closed) fun j below => decide_eq_false (lowest_ j below)
    have passes : s.part.begin_.openRefusal a = none := by
      rw [Device.openRefusal_of_args (m := s.part.begin_) defined generation args, record]
      rfl
    refine (exec_openStream p a s).trans ((hands.takeReply _ (Device.openStream_taken passes record)).trans ?_)
    rw [show (openedStream (s.part.begin_.clip a.clip) p a s.env.now).n =
      ((max a.inPoint (min a.start out) : Nat) : Int) from rfl, wordInt_natCast]
    rfl

/-! ### Directions and bounds -/

theorem StreamRec.dir_of_ne {x : StreamRec} (h : x.s ≠ 0) : x.dir = x.s.sign := if_neg h

/-- N stands past a bound in the direction of a shuttle factor that is not 0 (R33). -/
theorem StreamRec.pastBound_iff {x : StreamRec} (h : x.s ≠ 0) :
    x.pastBound = true ↔ x.loop = false ∧ (0 < x.s ∧ (x.outPoint : Int) < x.n ∨ x.s < 0 ∧ x.n < x.inPoint) := by
  simp [StreamRec.pastBound, StreamRec.dir_of_ne h, Int.sign_pos_iff]

/-- The end of the range of a PLAYING or CUED stream (R33). -/
theorem StreamRec.endRange_of_ne_handover {x : StreamRec} (h : x.state ≠ .handover) (now : Time) {bound : Nat}
    (side : (if 0 < x.dir then x.outPoint else x.inPoint) = bound) :
    x.endRange now = { x with state := .cued, n := bound, f0q := (bound : Int) * 65536, t0 := now, s := 0,
                              stillDelivered := true, passPending := true }.queueEnd bound := by
  simp [StreamRec.endRange, h, side]

/-! ### Transport commands -/

theorem Device.transport_eq (m : Device) (now : Time) (k : Nat) (drop : Bool) (f : StreamRec → StreamRec)
    (results : StreamRec → List Word) :
    m.transport now k drop f results =
      { part := (if drop = true then (m.setStream k (f (m.stream k))).dropWindow now k
                 else m.setStream k (f (m.stream k))).check now k,
        status := .ok, results := results (f (m.stream k)) } := by
  simp only [Device.transport, Device.onStream, Device.stream_setStream_same]

section Transport
variable {s : State} {p : Head} {h : Handed} {k : Nat}

/-- PLAY with a clamped S that is not 0: `back` tells whether it reverses a PLAYING stream. -/
theorem exec_play_moving {shuttle v : Int} {locate : Option Nat} (hands : s.Hands p h (.play k shuttle locate))
    (moves : s.Moves p k) (clamped : clampInt (-64) 64 shuttle = v) (moving : v ≠ 0) {back : Bool}
    (reversal : (s.part.stream k).playReverses v = back) {y : StreamRec}
    (record : (s.part.stream k).play s.env.now s.env.dev.preroll v locate = y) :
    exec (.play p k shuttle locate) s =
      s.ends (((if back = true then (s.part.begin_.setStream k y).dropWindow s.env.now k
          else s.part.begin_.setStream k y).check s.env.now k).completed p (h.completion .ok (playResults y))) := by
  subst clamped reversal record
  have reply : s.part.begin_.playStream s.env k shuttle locate = _ :=
    (if_neg moving).trans (Device.transport_eq ..)
  exact (hands.streamTaken moves.owns (Admission.admits_cuedPlaying moves.state) reply).trans rfl

/-- Settles O20. -/
theorem playLocated : Obligations.PlayLocated := by
  intro s p h k shuttle frame hands moves v moving x f y m m1
  refine (exec_play_moving hands moves rfl moving rfl (y := y) rfl).trans ?_
  have reversal : (x.playReverses v = true) = (x.state = .playing ∧ v.sign ≠ x.s.sign) := by
    simp [StreamRec.playReverses]
  have dropped : m1 = if x.playReverses v = true then m.dropWindow s.env.now k else m := by
    simp only [reversal]
    rfl
  rw [dropped]
  rfl

/-- Where PLAY from CUED puts the record: one step on from a still frame that was delivered, and back at the bound where
that step leaves the range (R28, R33). -/
theorem StreamRec.playFromCued_eq (x : StreamRec) (now preroll : Time) {v : Int} (moving : v ≠ 0) {moved : StreamRec}
    (step : moved = { x with n := x.n + (if x.stillDelivered then strideOf v * v.sign else 0), f0q := x.n * 65536,
                             t0 := now + preroll, s := v, lastForward := decide (0 < v), stillDelivered := false,
                             state := .playing, passPending := true }) {past : Nat → StreamRec}
    (stop : ∀ bound, past bound = { moved with state := .cued, n := bound, f0q := (bound : Int) * 65536, t0 := now,
                                               s := 0, stillDelivered := true, passPending := true }.queueEnd bound) :
    x.playFromCued now preroll v =
      if x.stillDelivered = false ∨ x.loop = true then moved
      else if 0 < v ∧ (x.outPoint : Int) < moved.n then past x.outPoint
      else if v < 0 ∧ moved.n < x.inPoint then past x.inPoint
      else moved := by
  have unfolded : x.playFromCued now preroll v =
      if x.stillDelivered && moved.pastBound then moved.endRange now else moved := by
    subst step
    rfl
  have shuttle : moved.s = v := by rw [step]
  have speed : moved.s ≠ 0 := shuttle ▸ moving
  have loop : moved.loop = x.loop := by rw [step]
  have state : moved.state = .playing := by rw [step]
  have bounds : moved.outPoint = x.outPoint ∧ moved.inPoint = x.inPoint := by rw [step]; exact ⟨rfl, rfl⟩
  have stops : ∀ bound : Nat, (if 0 < v then x.outPoint else x.inPoint) = bound → moved.endRange now = past bound := by
    intro bound side
    rw [stop, StreamRec.endRange_of_ne_handover (by rw [state]; decide) now (bound := bound)]
    simpa only [StreamRec.dir_of_ne speed, Int.sign_pos_iff, bounds.1, bounds.2, shuttle] using side
  rw [unfolded]
  by_cases stays : x.stillDelivered = false ∨ x.loop = true
  · rw [if_pos stays, if_neg]
    rintro g
    obtain ⟨still, past_⟩ := Bool.and_eq_true_iff.1 g
    rw [StreamRec.pastBound_iff speed, loop] at past_
    simp [still, past_.1] at stays
  · obtain ⟨still, noLoop⟩ := not_or.1 stays
    have past_ := StreamRec.pastBound_iff speed
    rw [loop, shuttle, bounds.1, bounds.2] at past_
    simp only [Bool.not_eq_false, Bool.not_eq_true] at still noLoop
    rw [if_neg stays, still, Bool.true_and]
    split
    · rename_i out
      rcases (past_.1 out).2 with ⟨forward, above⟩ | ⟨backward, below⟩
      · rw [if_pos ⟨forward, above⟩, stops _ (if_pos forward)]
      · rw [if_neg (by omega), if_pos ⟨backward, below⟩, stops _ (if_neg (by omega))]
    · rename_i within
      rw [if_neg fun g => within (past_.2 ⟨noLoop, .inl g⟩), if_neg fun g => within (past_.2 ⟨noLoop, .inr g⟩)]

/-- Settles O21. -/
theorem playFromCued : Obligations.PlayFromCued := by
  intro s p h k shuttle hands owns cued v moving x stride n moved past y
  have place : moved.n = x.n + (if x.stillDelivered then strideOf v * v.sign else 0) := by
    change (if x.stillDelivered then x.n + stride * v.sign else x.n) = _
    split
    · rfl
    · exact (add_zero _).symm
  have step : moved = { moved with n := x.n + (if x.stillDelivered then strideOf v * v.sign else 0) } := by
    rw [← place]
  have record : x.play s.env.now s.env.dev.preroll v none = y :=
    (if_neg (by rw [cued]; decide)).trans
      (StreamRec.playFromCued_eq x s.env.now s.env.dev.preroll moving step fun _ => rfl)
  have onward : x.playReverses v = false := by simp [StreamRec.playReverses, x, cued]
  exact (exec_play_moving hands ⟨owns, .inl cued⟩ rfl moving onward record).trans rfl

/-- Settles O22. -/
theorem playOnPlaying : Obligations.PlayOnPlaying := by
  intro s p h k shuttle hands owns playing v moving x pos y words
  have state : x.state = .playing := playing
  have run := fun {back : Bool} {z : StreamRec} (reversal : x.playReverses v = back)
      (record : x.playOn s.env.now v = z) =>
    exec_play_moving hands ⟨owns, .inr playing⟩ rfl moving reversal ((if_pos state).trans record)
  have reverses : x.playReverses v = decide (v.sign ≠ x.s.sign) := by simp [StreamRec.playReverses, state]
  constructor
  · intro same
    have onward : x.playReverses v = false := reverses.trans (decide_eq_false (not_not.2 same))
    have record : x.playOn s.env.now v = y := by
      rw [StreamRec.playOn, if_pos same]
      simp only [StreamRec.reanchor, StreamRec.setPlay, y, state]
      rfl
    exact (run onward record).trans rfl
  · intro turned u z
    have back : x.playReverses v = true := reverses.trans (decide_eq_true turned)
    have record : x.playOn s.env.now v = z := by
      rw [StreamRec.playOn, if_neg turned]
      simp only [StreamRec.reanchor, StreamRec.setPlay, z, y, state]
      rfl
    exact (run back record).trans rfl

end Transport

end Sys2Proof.Machine
end

section
/-! PROOFS. The stream commands (chapters 2, 4 and 11) that move, close, hand over or ask about a stream. -/

namespace Sys2Proof.Machine

section Commands
variable {s : State} {p : Head} {h : Handed} {k : Nat}

/-! ### CUE, JOG, SET_RANGE -/

/-- A stop of a stream, as CUE and as PLAY at S = 0 (R26, R30). -/
theorem State.Hands.cueTaken {cmd : Command} (hands : s.Hands p h cmd) (moves : s.Moves p k) {f : Device → Reply}
    {locate : Option Nat} (stop : f s.part.begin_ = s.part.begin_.cueStream s.env.now k locate) :
    s.takeReply p cmd (fun m => m.streamCommand p k .cuedPlaying (f m)) =
      s.ends (((s.part.begin_.setStream k ((s.part.stream k).cue s.env.now locate)).check s.env.now k).completed p
        (h.completion .ok [word ((s.part.stream k).cue s.env.now locate).frameN])) :=
  (hands.streamTaken moves.owns (Admission.admits_cuedPlaying moves.state)
    (stop.trans (Device.transport_eq ..))).trans rfl

/-- Settles O23. -/
theorem cueStops : Obligations.CueStops := by
  intro s p h i k locate stops spells handed moves x pos under m place y
  have record : x.cue s.env.now locate = y := by cases locate <;> rfl
  rcases stops with rfl | ⟨shuttle, rfl, zero⟩
  · have hands : s.Hands p h (.cue k locate) := ⟨handed, (Option.some.inj spells).symm⟩
    exact record ▸ hands.cueTaken moves rfl
  · have hands : s.Hands p h (.play k shuttle locate) := ⟨handed, (Option.some.inj spells).symm⟩
    exact record ▸ hands.cueTaken (f := fun m => m.playStream s.env k shuttle locate) moves (if_pos zero)

/-- Settles O24. -/
theorem jogMoves : Obligations.JogMoves := by
  intro s p h k n hands owns cued x f y
  exact (hands.streamTaken owns (g := .cuedOnly) (by rw [cued]; rfl) (Device.transport_eq ..)).trans rfl

/-- Settles O25. -/
theorem setRangePlaces : Obligations.SetRangePlaces := by
  intro s p h k i o loop openEnd hands moves x out
  have run := fun {r : Reply} (reply : s.part.begin_.setRange s.env k i o loop openEnd = r) =>
    hands.streamTaken (f := fun m => m.setRange s.env k i o loop openEnd) moves.owns
      (Admission.admits_cuedPlaying moves.state) reply
  constructor
  · intro beyond
    have reply : s.part.begin_.setRange s.env k i o loop openEnd = s.part.begin_.refuse .badArg := if_pos beyond
    exact (run reply).trans rfl
  · intro fits f y z
    have record : x.setRange s.env.now s.env.dev.preroll i out loop openEnd = z := by
      have inRange : y.inRange f = decide ((i : Int) ≤ f ∧ f ≤ out) := (Bool.decide_and ..).symm
      change (if y.inRange f = true then _ else _) = z
      by_cases within : (i : Int) ≤ f ∧ f ≤ out
      · rw [inRange, if_pos (decide_eq_true within), show z = _ from if_pos within]
        rfl
      · have outside : y.inRange f = false := inRange.trans (decide_eq_false within)
        let m := if loop then i + (f - i) % ((out : Int) - i + 1) else max (i : Int) (min f out)
        have mapped : y.mapFrame f = m := if_neg (ne_true_of_eq_false outside)
        rw [if_neg (ne_true_of_eq_false outside), show z = _ from if_neg within]
        exact congrArg
          (fun m : Int =>
            { y with n := m, f0q := m * 65536, stillDelivered := false,
                     t0 := if x.state = StreamState.playing then s.env.now + s.env.dev.preroll else s.env.now }) mapped
    have reply : s.part.begin_.setRange s.env k i o loop openEnd = _ :=
      (if_neg (Nat.not_lt.2 fits)).trans (Device.transport_eq ..)
    refine (run reply).trans ?_
    rw [show (s.part.begin_.stream k).setRange s.env.now s.env.dev.preroll i
      ((s.part.begin_.clip (s.part.begin_.stream k).clip).clampOut o) loop openEnd = z from record]
    have kept : z.inPoint = i ∧ z.outPoint = out := by
      simp only [z]
      split <;> exact ⟨rfl, rfl⟩
    rw [kept.1, kept.2]
    rfl

/-! ### SET_WINDOW, QUERY_STREAM -/

theorem Device.setWindow_eq (m : Device) (now : Time) (k w c q : Nat) {y : StreamRec}
    (record : (m.stream k).setWindow w c q = y) :
    m.setWindow now k w c q =
      { part := ((m.setStream k y).dropEntries now k (withinDepth y.w y.window)).check now k, status := .ok,
        results := [word y.w, word y.c, word y.seat] } := by
  subst record
  simp only [Device.setWindow, Device.onStream, Device.stream_setStream_same]

/-- Settles O26. -/
theorem setWindowInForce : Obligations.SetWindowInForce := by
  intro s p h k w c q hands moves x y
  have record : x.setWindow w c q = y := rfl
  exact (hands.streamTaken moves.owns (Admission.admits_cuedPlaying moves.state)
    (s.part.begin_.setWindow_eq s.env.now k w c q record)).trans rfl

/-- Settles O27. -/
theorem queryStream : Obligations.QueryStream := by
  intro s p h k hands owns x
  have saved : x.savedS.getD x.s = match x.savedS with | some v => v | none => x.s := by cases x.savedS <;> rfl
  have words := (StreamRec.query.eq_1 x s.env.now).symm
  rw [saved] at words
  have reply := hands.streamTaken (f := fun m => m.accept ((m.stream k).query s.env.now)) owns (g := .everyState) rfl rfl
  refine reply.trans ?_
  change s.ends (s.part.begin_.completed p (h.completion .ok (x.query s.env.now))) = _
  rw [← words]
  rfl

/-! ### CLOSE -/

theorem Device.missedAlone_stream (m : Device) (k : Nat) : (m.missedAlone k).stream k = (m.stream k).missedAlone :=
  Device.stream_setStream_same ..

theorem StreamRec.missedAlone_same (x : StreamRec) :
    x.missedAlone.state = x.state ∧ x.missedAlone.delivery = x.delivery := by
  unfold StreamRec.missedAlone
  split <;> exact ⟨rfl, rfl⟩

/-- Settles O28. -/
theorem closeStream : Obligations.CloseStream := by
  intro s p h k hands owns x
  have run := fun {r : Reply} (reply : s.part.begin_.closeCommand s.env.now k = r) =>
    hands.streamTaken (g := .everyState) (f := fun m => m.closeCommand s.env.now k) owns rfl reply
  constructor
  · intro closing
    have reply : s.part.begin_.closeCommand s.env.now k = s.part.begin_.accept [word x.delivery.length, 0] :=
      if_pos closing
    exact (run reply).trans rfl
  · intro open_ y m
    have reply : s.part.begin_.closeCommand s.env.now k =
        { part := m.closeIfEmpty k, status := .ok,
          results := [word x.delivery.length, wordBool x.delivery.isEmpty] } := if_neg open_
    have kept : (m.stream k).state = .closing ∧ (m.stream k).delivery = x.delivery := by
      obtain ⟨state, delivery⟩ := StreamRec.missedAlone_same
        (((s.part.begin_.setStream k y).dropWindow s.env.now k).stream k)
      rw [Device.missedAlone_stream, state, delivery, Device.dropWindow, Device.dropEntries_stream,
        Device.stream_setStream_same]
      exact ⟨rfl, rfl⟩
    constructor
    · intro some_
      have stays : m.closeIfEmpty k = m := if_neg fun ⟨_, none_⟩ => some_ (kept.2 ▸ none_)
      have words : x.delivery.isEmpty = false := by simpa using some_
      refine (run reply).trans ?_
      rw [stays, words]
      rfl
    · intro none_
      have closes : m.closeIfEmpty k = m.closeStream k := if_pos ⟨kept.1, kept.2.trans none_⟩
      refine (run reply).trans ?_
      rw [closes, none_]
      rfl

/-! ### RELEASE -/

theorem releaseCount_le (l : List DelEntry) (q : Nat) : releaseCount l q ≤ l.length := by
  unfold releaseCount
  split
  · dsimp only
    split
    · omega
    · split <;> omega
  · exact Nat.zero_le _

/-- The delivery list after a RELEASE has taken its first entries; the rest of the record stays. -/
theorem Device.releaseFirst_stream (m : Device) (now : Time) (k count : Nat) :
    (m.releaseFirst now k count).stream k = { m.stream k with delivery := (m.stream k).delivery.drop count } := by
  have streams : (m.releaseFirst now k count).streams = _ :=
    (quiet_streams (m.setStream k { m.stream k with delivery := (m.stream k).delivery.drop count })).releasePins now
      (fun d : DelEntry => d.slot) ((m.stream k).delivery.take count) rfl
  exact (congrArg (Table.get StreamRec.reset · k) streams).trans (m.stream_setStream_same k _)

/-- Settles O31. -/
theorem releaseRemoves : Obligations.ReleaseRemoves := by
  intro s p h k q hands owns x len
  have run := fun {r : Reply} (reply : s.part.begin_.release s.env.now k q = r) =>
    hands.streamTaken (g := .everyState) (f := fun m => m.release s.env.now k q) owns rfl reply
  refine ⟨releaseCount x.delivery q, releaseCount_le .., fun none_ => by rw [none_]; rfl, fun o n oldest newest => ?_, ?_⟩
  · rw [releaseCount, oldest, newest]
  · intro m done
    have record : m.stream k = { x with delivery := x.delivery.drop (releaseCount x.delivery q) } :=
      Device.releaseFirst_stream s.part.begin_ s.env.now k _
    have reply : s.part.begin_.release s.env.now k q =
        { part := if x.state = .closing then m.closeIfEmpty k else m.check s.env.now k, status := .ok,
          results := [word (releaseCount x.delivery q), word (len - releaseCount x.delivery q)] } := by
      change Reply.mk (if (m.stream k).state = .closing then _ else _) _ [_, word (m.stream k).delivery.length] = _
      rw [record, List.length_drop]
      rfl
    have left : (m.stream k).delivery = [] ↔ len ≤ releaseCount x.delivery q := by
      rw [record]
      exact List.drop_eq_nil_iff
    refine ⟨fun open_ => (run reply).trans ?_, fun closing some_ => (run reply).trans ?_,
      fun closing all => (run reply).trans ?_⟩
    · rw [if_neg open_]
    · have stays : m.closeIfEmpty k = m := if_neg fun ⟨_, none_⟩ => Nat.not_le.2 some_ (left.1 none_)
      rw [if_pos closing, stays]
    · have state : (m.stream k).state = .closing := by rw [record]; exact closing
      have closes : m.closeIfEmpty k = m.closeStream k := if_pos ⟨state, left.2 all.ge⟩
      rw [if_pos closing, closes]

end Commands

end Sys2Proof.Machine
end

section
/-! PROOFS. What the transport commands leave unchanged (chapter 2), and HAND_OVER and TAKE_OVER (chapter 11). -/

namespace Sys2Proof.Machine

/-! ### The frame of the transport commands -/

/-- `m'` is `m` but for the record of stream `k` and for what the end of an event may change. -/
def Device.SettledBut (k : Nat) (m m' : Device) : Prop := ∃ y, (m.setStream k y).TablesSettled m'

theorem Device.TablesSettled.refl (m : Device) : m.TablesSettled m :=
  ⟨rfl, rfl, ⟨rfl, rfl⟩, fun _ => .refl _, fun _ => .refl _⟩

/-- A part whose stream record is written back as it was. -/
theorem Device.SettledBut.refl (k : Nat) (m : Device) : m.SettledBut k m :=
  ⟨m.stream k, rfl, rfl, ⟨rfl, rfl⟩, fun j => by
    rw [Device.stream_setStream]
    split
    · rename_i same
      exact same ▸ .refl _
    · exact .refl _, fun _ => .refl _⟩

theorem Device.transport_settledBut (m : Device) (now : Time) (k : Nat) (drop : Bool) (f : StreamRec → StreamRec)
    (results : StreamRec → List Word) : m.SettledBut k (m.transport now k drop f results).part := by
  have stable := stable_settled (m.setStream k (f (m.stream k)))
  refine ⟨f (m.stream k), ?_⟩
  rw [Device.transport_eq]
  refine stable.check now k ?_
  split
  · exact stable.dropEntries now k _ (.refl _)
  · exact .refl _

theorem Device.cueStream_settledBut (m : Device) (now : Time) (k : Nat) (locate : Option Nat) :
    m.SettledBut k (m.cueStream now k locate).part := m.transport_settledBut ..

theorem Device.playStream_settledBut (m : Device) (e : Env) (k : Nat) (shuttle : Int) (locate : Option Nat) :
    m.SettledBut k (m.playStream e k shuttle locate).part := by
  unfold Device.playStream
  dsimp only
  split
  · exact m.cueStream_settledBut ..
  · exact m.transport_settledBut ..

theorem Device.setRange_settledBut (m : Device) (e : Env) (k i o : Nat) (loop openEnd : Bool) :
    m.SettledBut k (m.setRange e k i o loop openEnd).part := by
  unfold Device.setRange
  dsimp only
  split
  · exact .refl k m
  · exact m.transport_settledBut ..

theorem Device.setWindow_settledBut (m : Device) (now : Time) (k w c q : Nat) :
    m.SettledBut k (m.setWindow now k w c q).part := by
  have stable := stable_settled (m.setStream k ((m.stream k).setWindow w c q))
  refine ⟨(m.stream k).setWindow w c q, ?_⟩
  rw [Device.setWindow_eq m now k w c q rfl]
  exact stable.check now k (stable.dropEntries now k _ (.refl _))

theorem Device.streamCommand_settledBut {m : Device} {k : Nat} {r : Reply} (p : Head) (g : Admission)
    (reply : m.SettledBut k r.part) : m.SettledBut k (m.streamCommand p k g r).part := by
  unfold Device.streamCommand
  split
  · exact .refl k m
  · exact reply

/-- A completion touches its own port alone. -/
theorem Device.completed_same (m : Device) (p : Head) (x : Completion) :
    (m.completed p x).clips = m.clips ∧ (m.completed p x).hau = m.hau ∧ (m.completed p x).streams = m.streams ∧
      (m.completed p x).channels = m.channels ∧ (m.completed p x).port p.other = m.port p.other := by
  cases p <;> exact ⟨rfl, rfl, rfl, rfl, rfl⟩

/-- A transport command is a reply on the part that leaves all but its stream's record to the end of the event. -/
theorem exec_transport {s : State} {i : Instr} {p : Head} {k : Nat} {g : Admission} (on : i.onStream = some (p, k, g))
    (noRelease : ∀ q, i ≠ .release p k q) (noClose : i ≠ .closeStream p k) (noHandOver : i ≠ .handOver p k) :
    ∃ (cmd : Command) (f : Device → Reply), exec i s = s.takeReply p cmd f ∧ ∀ m : Device, m.SettledBut k (f m).part := by
  cases i with
  | play =>
    cases on
    exact ⟨_, _, rfl, fun m => Device.streamCommand_settledBut _ _ (m.playStream_settledBut ..)⟩
  | cue =>
    cases on
    exact ⟨_, _, rfl, fun m => Device.streamCommand_settledBut _ _ (m.cueStream_settledBut ..)⟩
  | jog =>
    cases on
    exact ⟨_, _, rfl, fun m => Device.streamCommand_settledBut _ _ (m.transport_settledBut ..)⟩
  | setRange =>
    cases on
    exact ⟨_, _, rfl, fun m => Device.streamCommand_settledBut _ _ (m.setRange_settledBut ..)⟩
  | setWindow =>
    cases on
    exact ⟨_, _, rfl, fun m => Device.streamCommand_settledBut _ _ (m.setWindow_settledBut ..)⟩
  | queryStream =>
    cases on
    exact ⟨_, _, rfl, fun m => Device.streamCommand_settledBut _ _ (.refl _ m)⟩
  | release =>
    cases on
    exact absurd rfl (noRelease _)
  | closeStream =>
    cases on
    exact absurd rfl noClose
  | handOver =>
    cases on
    exact absurd rfl noHandOver
  | _ => cases on

/-- Settles O30: a transport command changes its stream and its own port, and the event ends. -/
theorem transportFrame : Obligations.TransportFrame := by
  intro s t i p k g on noRelease noClose noHandOver taken
  obtain ⟨cmd, f, run, settledBut⟩ := exec_transport (s := s) on noRelease noClose noHandOver
  rw [run, State.takeReply, State.take] at taken
  split at taken
  case h_1 h handed =>
    obtain ⟨y, tables⟩ := settledBut s.part.begin_
    let m := (f s.part.begin_).part.answer p h (f s.part.begin_).status (f s.part.begin_).results
    obtain ⟨clips, hau, streams, channels, other⟩ := (f s.part.begin_).part.completed_same p
      (h.completion (f s.part.begin_).status (f s.part.begin_).results)
    rw [← Device.answer_eq_completed] at clips hau streams channels other
    have ended := eventEndFrame.1 m s.env
    cases taken
    have port : m.port p.other = s.part.port p.other := by
      refine other.trans ?_
      cases p
      · exact tables.ports.2
      · exact tables.ports.1
    have stream : ∀ j, j ≠ k → (s.part.stream j).Settled (m.stream j) := fun j different => by
      have kept := tables.stream j
      rw [Device.stream_setStream, if_neg different] at kept
      have record : m.stream j = (f s.part.begin_).part.stream j := congrArg (Table.get StreamRec.reset · j) streams
      exact record ▸ kept
    have channel : ∀ c, (s.part.channel c).Settled (m.channel c) := fun c => by
      have record : m.channel c = (f s.part.begin_).part.channel c := congrArg (Table.get Channel.reset · c) channels
      exact record ▸ tables.channel c
    exact ⟨rfl, ended.clips.trans (clips.trans tables.clips), ended.hau.trans (hau.trans tables.hau), port ▸ ended.port p.other,
      fun j other => (stream j other).trans (ended.stream j), fun c => (channel c).trans (ended.channel c)⟩
  case h_2 =>
    cases taken
    exact ⟨rfl, rfl, rfl, .refl _, fun _ _ => .refl _, fun _ => .refl _⟩

/-! ### HAND_OVER and TAKE_OVER -/

section TakeOver
variable {m : Device} {e : Env} {p : Head} {k : Nat} {resume : Bool}

theorem Device.noStream_iff : m.noStream k = true ↔ 127 < k ∨ (m.stream k).state = .closed := by
  simp [Device.noStream]

theorem Device.takeOver_busy
    (busy : (m.stream k).state = .cued ∨ (m.stream k).state = .playing ∨ (m.stream k).state = .closing) :
    m.takeOver e p k resume = m.refuse .busy := by
  rcases busy with state | state | state <;> simp only [Device.takeOver, state]

/-- The recall of a stream by its owner (R180). -/
theorem Device.takeOver_recall (handover : (m.stream k).state = .handover) (owner : (m.stream k).owner = p) :
    m.takeOver e p k resume =
      { part := m.lapse e k, status := .ok,
        results := takeOverResults
          (if (m.hau.head p).present then (m.stream k).restore else (m.stream k).orphan e) } := by
  simp only [Device.takeOver, handover, owner, if_true]

/-- The change of owner of a stream in HANDOVER (R181). -/
theorem Device.takeOver_handed (handover : (m.stream k).state = .handover) (owner : (m.stream k).owner ≠ p) :
    m.takeOver e p k resume =
      ((m.setStream k { m.stream k with owner := p, ownerAbsent := false }.restore).dropDelivery e.now k).tookOver e p k := by
  simp only [Device.takeOver, handover, owner, if_false]
  rfl

/-- The adoption of an ORPHANED stream (R181). -/
theorem Device.takeOver_orphaned (orphaned : (m.stream k).state = .orphaned) {y : StreamRec}
    (record : (m.stream k).adopt e p resume = y) :
    m.takeOver e p k resume =
      { part := ((m.setStream k y).makeState p k .takenOver).check e.now k, status := .ok,
        results := takeOverResults y } := by
  subst record
  simp only [Device.takeOver, orphaned, Device.onStream, Device.tookOver, Device.stream_setStream_same]

theorem Device.lapse_present (present : (m.hau.head (m.stream k).owner).present = true) :
    m.lapse e k = ((m.setStream k (m.stream k).restore).makeStateBoth k .lapsed).check e.now k :=
  if_pos present

theorem Device.lapse_absent (absent : (m.hau.head (m.stream k).owner).present = false) : m.lapse e k = m.orphan e k :=
  if_neg (ne_true_of_eq_false absent)

/-- Orphaning, the record of the stream given as it is left (R178, log 47). -/
theorem Device.orphan_eq {y : StreamRec} (record : StreamRec.orphan { m.stream k with delivery := [] } e = y) :
    m.orphan e k = ((m.dropDelivery e.now k).setStream k y).makeStateBoth k .orphaned := by
  subst record
  rw [Device.orphan, Device.onStream, Device.dropDelivery_stream]

theorem StreamRec.restore_code (x : StreamRec) : x.restore.state.code = if x.savedS = some 0 then 1 else 2 := by
  unfold StreamRec.restore
  dsimp only
  split <;> rfl

theorem StreamRec.takeOverResults_restore (x : StreamRec) :
    takeOverResults x.restore =
      [word (if x.savedS = some 0 then 1 else 2), word x.nextSeq, word x.outbox.length] := by
  rw [takeOverResults, x.restore_code]
  rfl

/-- The recall by an owner that is present. -/
theorem Device.takeOver_restored (handover : (m.stream k).state = .handover) (owner : (m.stream k).owner = p)
    (present : (m.hau.head p).present = true) :
    m.takeOver e p k resume =
      { part := ((m.setStream k (m.stream k).restore).makeStateBoth k .lapsed).check e.now k, status := .ok,
        results := [word (if (m.stream k).savedS = some 0 then 1 else 2), word (m.stream k).nextSeq,
                    word (m.stream k).outbox.length] } := by
  rw [Device.takeOver_recall handover owner, Device.lapse_present (owner ▸ present), if_pos present,
    StreamRec.takeOverResults_restore]

/-- The recall by an owner that is absent (log 21). -/
theorem Device.takeOver_lost (handover : (m.stream k).state = .handover) (owner : (m.stream k).owner = p)
    (absent : (m.hau.head p).present = false) {y : StreamRec}
    (record : StreamRec.orphan { m.stream k with delivery := [] } e = y) :
    m.takeOver e p k resume =
      { part := ((m.dropDelivery e.now k).setStream k y).makeStateBoth k .orphaned, status := .ok,
        results := [4, word (m.stream k).nextSeq, word (m.stream k).outbox.length] } := by
  rw [Device.takeOver_recall handover owner, Device.lapse_absent (owner ▸ absent), Device.orphan_eq record,
    if_neg (ne_true_of_eq_false absent)]
  rfl

end TakeOver

/-- A TAKE_OVER whose stream is not CLOSED comes to its reply. -/
theorem State.Hands.takeOverTaken {s : State} {p : Head} {h : Handed} {k : Nat} {resume : Bool}
    (hands : s.Hands p h (.takeOver k resume)) (range : k ≤ 127) (live : (s.part.stream k).state ≠ .closed) {r : Reply}
    (reply : s.part.begin_.takeOver s.env p k resume = r) :
    exec (.takeOver p k resume) s = s.ends (r.part.completed p (h.completion r.status r.results)) :=
  hands.takeReply _ ((if_neg fun none_ => (Device.noStream_iff.1 none_).elim (Nat.not_lt.2 range) live).trans reply)

theorem State.Hands.takeOverRefused {s : State} {p : Head} {h : Handed} {k : Nat} {resume : Bool}
    (hands : s.Hands p h (.takeOver k resume)) (none_ : 127 < k ∨ (s.part.stream k).state = .closed) :
    exec (.takeOver p k resume) s = s.ends (s.part.begin_.completed p (h.completion .noStream [])) :=
  hands.takeReply (r := s.part.begin_.refuse .noStream) _ (if_pos (Device.noStream_iff.2 none_))

theorem State.Hands.takeOverBusy {s : State} {p : Head} {h : Handed} {k : Nat} {resume : Bool}
    (hands : s.Hands p h (.takeOver k resume)) (range : k ≤ 127)
    (busy : (s.part.stream k).state = .cued ∨ (s.part.stream k).state = .playing ∨ (s.part.stream k).state = .closing) :
    exec (.takeOver p k resume) s = s.ends (s.part.begin_.completed p (h.completion .busy [])) := by
  have live : (s.part.stream k).state ≠ .closed := by rcases busy with state | state | state <;> simp [state]
  exact hands.takeOverTaken (r := s.part.begin_.refuse .busy) range live (Device.takeOver_busy busy)

/-- Settles O32: each outcome of TAKE_OVER is one branch of the model's, by state, owner and presence. -/
theorem handOverTakeOver : Obligations.HandOverTakeOver := by
  constructor
  · intro s p h k hands moves x expiry
    exact (hands.streamTaken (f := fun m => m.handOver s.env k) moves.owns
      (Admission.admits_cuedPlaying moves.state) rfl).trans rfl
  intro s p h k resume hands x now refused words
  have run := fun {r : Reply} {st : StreamState} (range : k ≤ 127) (state : x.state = st) (live : st ≠ .closed)
    (reply : s.part.begin_.takeOver s.env p k resume = r) => hands.takeOverTaken range (state ▸ live) reply
  refine ⟨fun none_ => ?_, fun range busy => ?_, ?_, ?_, ?_, ?_, ?_⟩
  · exact hands.takeOverRefused none_
  · exact hands.takeOverBusy range busy
  · intro range handover owner present y
    exact (run range handover (by decide)
      (Device.takeOver_restored (m := s.part.begin_) handover owner present)).trans rfl
  · intro range handover owner absent y
    have record : StreamRec.orphan { x with delivery := [] } s.env = y := by
      simp only [StreamRec.orphan, handover, if_true]
      rfl
    exact (run range handover (by decide)
      (Device.takeOver_lost (m := s.part.begin_) handover owner absent record)).trans rfl
  · intro range handover owner y
    have record : ((s.part.begin_.setStream k y).dropDelivery now k).stream k = { y with delivery := [] } := by
      rw [Device.dropDelivery_stream, Device.stream_setStream_same]
    have results : takeOverResults (((s.part.begin_.setStream k y).dropDelivery now k).stream k) =
        words (if x.savedS = some 0 then 1 else 2) := by
      rw [record]
      exact StreamRec.takeOverResults_restore x
    have reply : s.part.begin_.takeOver s.env p k resume =
        { part := (((s.part.begin_.setStream k y).dropDelivery now k).makeState p k .takenOver).check now k,
          status := .ok, results := words (if x.savedS = some 0 then 1 else 2) } := by
      rw [← results]
      exact Device.takeOver_handed handover owner
    exact (run range handover (by decide) reply).trans rfl
  · intro range orphaned cues y
    have record : x.adopt s.env p resume = y := if_neg fun saved => by
      rcases cues with rfl | none_ | zero
      · simp at saved
      · simp [none_] at saved
      · simp [zero] at saved
    exact (run range orphaned (by decide) (Device.takeOver_orphaned (m := s.part.begin_) orphaned record)).trans rfl
  · intro range orphaned resumes v saved moving y z
    have record : x.adopt s.env p resume = z := by
      have value : x.savedS.getD 0 = v := by rw [saved]; rfl
      simp only [StreamRec.adopt, value, resumes, moving, ne_eq, not_false_eq_true, decide_true, Bool.and_self, if_true]
      rfl
    exact (run range orphaned (by decide) (Device.takeOver_orphaned (m := s.part.begin_) orphaned record)).trans rfl

end Sys2Proof.Machine
end

section
/-! PROOFS. The window of a pass: its indices (section 3.4) and the entries it keeps and makes (section 4.2). -/

namespace Sys2Proof.Machine

/-! ### The indices of a window -/

/-- The places that `takeWhile` keeps are those up to which the condition holds. -/
theorem getElem?_takeWhile_eq_some {α : Type} (p : α → Bool) (l : List α) (i : Nat) (a : α) :
    (l.takeWhile p)[i]? = some a ↔ l[i]? = some a ∧ ∀ j ≤ i, ∀ b, l[j]? = some b → p b = true := by
  induction l generalizing i with
  | nil => simp
  | cons x l ih =>
    by_cases h : p x = true
    · rw [List.takeWhile_cons_of_pos h]
      cases i with
      | zero => simp [h]
      | succ i =>
        simp only [List.getElem?_cons_succ, ih]
        refine and_congr_right fun _ => ⟨fun up j le b => ?_, fun up j le b => up (j + 1) (by omega) b⟩
        cases j with
        | zero =>
          rintro ⟨⟩
          exact h
        | succ j => exact up j (by omega) b
    · rw [List.takeWhile_cons_of_neg h]
      simp only [List.getElem?_nil, reduceCtorEq, false_iff, not_and]
      exact fun _ up => h (up 0 (Nat.zero_le _) x rfl)

theorem StreamRec.running_iff (x : StreamRec) :
    x.running = true ↔ x.state = .playing ∨ (x.state = .handover ∧ x.s ≠ 0) := by
  unfold StreamRec.running
  cases x.state <;> simp

/-- The index at place `i` of a window that nothing bounds (R45). -/
def StreamRec.indexAt (x : StreamRec) (i : Nat) : Int :=
  (if !x.running && x.stillDelivered then x.n + x.dir else x.n) + (i : Int) * x.stride * x.dir

/-- The target list of a stream that has a window. -/
theorem StreamRec.targets_eq {x : StreamRec} (closed : x.state ≠ .closed) (closing : x.state ≠ .closing) :
    x.targets =
      if x.loop then (List.range x.w).map x.indexAt else ((List.range x.w).map x.indexAt).takeWhile x.inRange := by
  unfold StreamRec.targets
  dsimp only
  split
  · contradiction
  · contradiction
  · rfl

theorem StreamRec.getElem?_indices (x : StreamRec) (i : Nat) (u : Int) :
    ((List.range x.w).map x.indexAt)[i]? = some u ↔ i < x.w ∧ u = x.indexAt i := by
  by_cases inWindow : i < x.w
  · simp [inWindow, eq_comm]
  · simp [inWindow]

theorem StreamRec.targets_inRange {x : StreamRec} (bounded : x.loop = false) {u : Int} (mem : u ∈ x.targets) :
    (x.inPoint : Int) ≤ u ∧ u ≤ x.outPoint := by
  by_cases none_ : x.state = .closed ∨ x.state = .closing
  · rcases none_ with state | state <;> simp [StreamRec.targets, state] at mem
  · obtain ⟨closed, closing⟩ := not_or.1 none_
    rw [StreamRec.targets_eq closed closing, bounded] at mem
    simpa [StreamRec.inRange] using List.mem_takeWhile_imp mem

/-- Settles O33. -/
theorem targetsWithinWindow : Obligations.TargetsWithinWindow := by
  intro x d stride runs first index
  have place : ∀ i, x.indexAt i = index i := fun i => by
    have start : (if !x.running && x.stillDelivered then x.n + x.dir else x.n) = first := by
      have same : (!x.running && x.stillDelivered) = true ↔ ¬ runs ∧ x.stillDelivered = true := by
        rw [Bool.and_eq_true, Bool.not_eq_true', ← Bool.not_eq_true, x.running_iff]
      exact if_congr same rfl rfl
    rw [StreamRec.indexAt, start]
    rfl
  refine ⟨x.targets_length, x.targets_nodup, fun bounded u => StreamRec.targets_inRange bounded, fun none_ => ?_,
    fun closed closing i u => ?_⟩
  · rcases none_ with state | state <;> simp [StreamRec.targets, state]
  · rw [StreamRec.targets_eq closed closing]
    cases loop : x.loop
    · simp only [Bool.false_eq_true, if_false, false_or, getElem?_takeWhile_eq_some, x.getElem?_indices, place, and_assoc]
      refine and_congr_right fun inWindow => and_congr_right fun _ => ⟨fun up j le => ?_, fun up j le b => ?_⟩
      · simpa [StreamRec.inRange] using up j le _ ⟨by omega, rfl⟩
      · rintro ⟨_, rfl⟩
        simpa [StreamRec.inRange] using up j le
    · simp only [if_true, true_or, and_true, x.getElem?_indices, place]

/-! ### The rebuilt window -/

/-- An entry of a rebuilt window is the kept entry of its index, retimed, or a new one where none is kept (R59–R62). -/
theorem StreamRec.mem_rebuilt (x : StreamRec) (lead : Nat) (w : WinEntry) :
    w ∈ x.rebuilt lead ↔ ∃ u ∈ x.targets,
      (∃ v, x.window.find? (fun v => decide (v.u = u)) = some v ∧ w = x.retimed lead v) ∨
      (x.window.find? (fun v => decide (v.u = u)) = none ∧ w = x.newEntry lead u) := by
  unfold StreamRec.rebuilt
  rw [List.mem_map]
  refine exists_congr fun u => and_congr_right fun _ => ?_
  split
  · rename_i v found
    simp only [found, Option.some.injEq, exists_eq_left', reduceCtorEq, false_and, or_false]
    exact eq_comm
  · rename_i found
    simp only [found, reduceCtorEq, false_and, exists_false, true_and, false_or]
    exact eq_comm

theorem StreamRec.keeps_iff (x : StreamRec) (w : WinEntry) :
    x.keeps w = true ↔ w.u ∈ x.targets ∧ x.clipFrame w.u = w.frame := by
  simp [StreamRec.keeps]

/-- The record that a rebuild leaves: the entries that the pass keeps, rebuilt from the targets. -/
theorem Device.rebuild_stream (m : Device) (e : Env) (k : Nat) :
    (m.rebuild e k).stream k =
      { m.stream k with
        window := { m.stream k with window := (m.stream k).window.filter (m.stream k).keeps }.rebuilt e.dev.lead,
        seatReported := (m.stream k).seat } := by
  let m1 := (m.dropEntries e.now k (m.stream k).keeps).grantAll e.now
  let y := m1.stream k
  let m2 := m1.setStream k { y with window := y.rebuilt e.dev.lead, seatReported := y.seat }
  have kept : y = { m.stream k with window := (m.stream k).window.filter (m.stream k).keeps } := by
    have granted : m1.streams = (m.dropEntries e.now k (m.stream k).keeps).streams :=
      (quiet_streams _).grantAll e.now rfl
    exact (congrArg (Table.get StreamRec.reset · k) granted).trans (m.dropEntries_stream ..)
  have reported : (m.rebuild e k).streams = m2.streams :=
    foldl_keeps (I := fun m' => m'.streams = m2.streams) (fun _ n h => (quiet_streams _).recompute n h) _ _ rfl
  refine (congrArg (Table.get StreamRec.reset · k) reported).trans ((Device.stream_setStream_same ..).trans ?_)
  rw [kept]

/-- Settles O35: a rebuilt entry is one that the pass keeps, retimed, or a new one at an index that none holds. -/
theorem passRebuildsWindow : Obligations.PassRebuildsWindow := by
  intro m e k x y
  let z : StreamRec := { x with window := x.window.filter x.keeps }
  have window : y.window = z.rebuilt e.dev.lead := congrArg StreamRec.window (m.rebuild_stream e k)
  have mem : ∀ w, w ∈ y.window ↔ ∃ u ∈ x.targets,
      (∃ v, z.window.find? (fun v => decide (v.u = u)) = some v ∧ w = x.retimed e.dev.lead v) ∨
      (z.window.find? (fun v => decide (v.u = u)) = none ∧ w = x.newEntry e.dev.lead u) := fun w => by
    rw [window]
    exact z.mem_rebuilt e.dev.lead w
  have kept : ∀ {u v}, z.window.find? (fun v => decide (v.u = u)) = some v →
      v ∈ x.window ∧ v.u = u ∧ v.frame = x.clipFrame u := fun {u v} found => by
    obtain ⟨old, keeps⟩ := List.mem_filter.1 (List.mem_of_find?_eq_some found)
    have index : v.u = u := by simpa using List.find?_some found
    exact ⟨old, index, index ▸ ((x.keeps_iff v).1 keeps).2.symm⟩
  refine ⟨?_, fun w new => ?_, fun distinct v old target frame => ?_, fun w new fresh => ?_⟩
  · rw [window]
    exact z.rebuilt_indices e.dev.lead
  · obtain ⟨u, -, ⟨v, found, rfl⟩ | ⟨-, rfl⟩⟩ := (mem w).1 new
    · obtain ⟨old, index, frame⟩ := kept found
      exact ⟨rfl, rfl, index ▸ frame, .inr ⟨v, old, rfl, rfl, rfl, rfl, rfl⟩⟩
    · exact ⟨rfl, rfl, rfl, .inl ⟨rfl, rfl, rfl⟩⟩
  · have keeps : v ∈ z.window := List.mem_filter.2 ⟨old, (x.keeps_iff v).2 ⟨target, frame.symm⟩⟩
    cases found : z.window.find? (fun w => decide (w.u = v.u)) with
    | none => exact absurd (decide_eq_true rfl) (List.find?_eq_none.1 found v keeps)
    | some w =>
      obtain ⟨old', index, -⟩ := kept found
      have same : w = v := List.inj_on_of_nodup_map distinct old' old index
      exact ⟨x.retimed e.dev.lead w, (mem _).2 ⟨v.u, target, .inl ⟨w, found, rfl⟩⟩, by rw [same]; exact ⟨rfl, rfl, rfl, rfl⟩⟩
  · obtain ⟨u, -, ⟨v, found, rfl⟩ | ⟨-, rfl⟩⟩ := (mem w).1 new
    · obtain ⟨old, index, frame⟩ := kept found
      exact absurd (frame.trans (congrArg x.clipFrame index.symm)) (fresh v old rfl)
    · exact ⟨rfl, rfl, rfl⟩

end Sys2Proof.Machine
end

section
/-! PROOFS. `lowest` and `least`; the segments of a frame and the grants of request records (chapters 5 and 6). -/

namespace Sys2Proof.Machine

/-! ### `lowest` and `least` -/

theorem lowest_eq_some_iff {bound k : Nat} {f : Nat → Bool} :
    lowest bound f = some k ↔ k < bound ∧ f k = true ∧ ∀ j < k, f j = false := by
  rw [lowest, List.find?_range'_eq_some]
  simp
  tauto

theorem lowest_eq_none_iff {bound : Nat} {f : Nat → Bool} : lowest bound f = none ↔ ∀ k < bound, f k = false := by
  simp [lowest]

/-- A strict weak order: what `least` needs to give a least element. -/
structure StrictWeak {α : Type} (lt : α → α → Bool) : Prop where
  irrefl : ∀ x, lt x x = false
  asymm : ∀ x y, lt x y = true → lt y x = false
  trans : ∀ x y z, lt x y = false → lt y z = false → lt x z = false

section Least
variable {α : Type} {lt : α → α → Bool} {l : List α} {x y : α}

theorem least_eq_none_iff : least lt l = none ↔ l = [] := by
  cases l with
  | nil => simp [least]
  | cons a l =>
    simp only [least, reduceCtorEq, iff_false]
    split
    · simp
    · split <;> simp

theorem mem_of_least (h : least lt l = some x) : x ∈ l := by
  induction l generalizing x with
  | nil => cases h
  | cons a l ih =>
    simp only [least] at h
    split at h
    · cases h
      exact List.mem_cons_self
    · rename_i b found
      split at h <;> cases h
      · exact List.mem_cons_of_mem _ (ih found)
      · exact List.mem_cons_self

/-- Nothing in the list stands before its least element. -/
theorem not_before_least (order : StrictWeak lt) (h : least lt l = some x) (mem : y ∈ l) : lt y x = false := by
  induction l generalizing x y with
  | nil => cases mem
  | cons a l ih =>
    simp only [least] at h
    split at h
    · rename_i none_
      rw [least_eq_none_iff.1 none_] at mem
      cases h
      rw [List.mem_singleton.1 mem]
      exact order.irrefl _
    · rename_i b found
      split at h
      · rename_i before
        cases h
        rcases List.mem_cons.1 mem with rfl | mem
        · exact order.asymm _ _ before
        · exact ih found mem
      · rename_i notBefore
        cases h
        rcases List.mem_cons.1 mem with rfl | mem
        · exact order.irrefl _
        · exact order.trans _ _ _ (ih found mem) (Bool.eq_false_iff.2 notBefore)

/-- A total order on the elements of the list has one least element. -/
theorem least_eq_some_iff (order : StrictWeak lt)
    (total : ∀ x ∈ l, ∀ y ∈ l, lt x y = false → lt y x = false → x = y) :
    least lt l = some x ↔ x ∈ l ∧ ∀ y ∈ l, lt y x = false := by
  constructor
  · exact fun h => ⟨mem_of_least h, fun y mem => not_before_least order h mem⟩
  · rintro ⟨mem, first⟩
    cases h : least lt l with
    | none =>
      rw [least_eq_none_iff.1 h] at mem
      cases mem
    | some y =>
      exact congrArg some (total _ (mem_of_least h) _ mem (first _ (mem_of_least h)) (not_before_least order h mem))

end Least

/-! ### Locations and segments -/

/-- The blocks of the first runs of an extent (R98). -/
theorem sum_cuts (count n : Nat) :
    ((List.range n).map fun i => min 1024 (count - i * 1024)).sum = min (n * 1024) count := by
  induction n with
  | zero => simp
  | succ n ih =>
    rw [List.range_succ, List.map_append, List.sum_append, ih]
    simp
    omega

theorem lt_ceilDiv_iff (count i : Nat) : i < ceilDiv count 1024 ↔ i * 1024 < count := by
  unfold ceilDiv
  omega

/-- The run at place `i` of an extent that starts at frame block `offset`. -/
def Extent.run (x : Extent) (offset i : Nat) : Segment :=
  { channel := x.channel, block := x.block + i * 1024, count := min 1024 (x.count - i * 1024),
    offset := offset + i * 1024, status := .unissued }

theorem Extent.cut_eq (x : Extent) (offset : Nat) :
    x.cut offset = (List.range (ceilDiv x.count 1024)).map (x.run offset) := rfl

theorem Extent.sum_run (x : Extent) (offset n : Nat) :
    (((List.range n).map (x.run offset)).map (·.count)).sum = min (n * 1024) x.count := by
  rw [List.map_map]
  exact sum_cuts x.count n

theorem Extent.sum_cut (x : Extent) (offset : Nat) : ((x.cut offset).map (·.count)).sum = x.count := by
  rw [x.cut_eq, x.sum_run]
  have := lt_ceilDiv_iff x.count (ceilDiv x.count 1024)
  omega

theorem Extent.mem_cut (x : Extent) (offset : Nat) (g : Segment) :
    g ∈ x.cut offset ↔ ∃ i, i * 1024 < x.count ∧ g = x.run offset i := by
  simp only [x.cut_eq, List.mem_map, List.mem_range, lt_ceilDiv_iff, eq_comm]

theorem Extent.cut_offset {x : Extent} {offset i : Nat} {g : Segment} (at_ : (x.cut offset)[i]? = some g) :
    g.offset = offset + (((x.cut offset).take i).map (·.count)).sum := by
  rw [x.cut_eq, List.getElem?_map, Option.map_eq_some_iff] at at_
  obtain ⟨j, found, rfl⟩ := at_
  obtain ⟨inside, rfl⟩ : i < ceilDiv x.count 1024 ∧ i = j := by
    obtain ⟨lt, eq⟩ := List.getElem?_eq_some_iff.1 found
    rw [List.length_range] at lt
    exact ⟨lt, by simpa using eq⟩
  have begins := (lt_ceilDiv_iff x.count i).1 inside
  rw [x.cut_eq, ← List.map_take, List.take_range, x.sum_run, Nat.min_eq_left inside.le, Nat.min_eq_left begins.le]
  rfl

theorem sum_cutExtents (offset : Nat) (l : List Extent) :
    ((cutExtents offset l).map (·.count)).sum = (l.map (·.count)).sum := by
  induction l generalizing offset with
  | nil => rfl
  | cons x l ih => rw [cutExtents, List.map_append, List.sum_append, x.sum_cut, ih, List.map_cons, List.sum_cons]

theorem mem_cutExtents (offset : Nat) (l : List Extent) (g : Segment) :
    g ∈ cutExtents offset l ↔ ∃ (j i : Nat) (x : Extent), l[j]? = some x ∧ i * 1024 < x.count ∧
      g = x.run (offset + ((l.take j).map (·.count)).sum) i := by
  induction l generalizing offset with
  | nil => simp [cutExtents]
  | cons a l ih =>
    rw [cutExtents, List.mem_append, a.mem_cut, ih]
    constructor
    · rintro (⟨i, lt, rfl⟩ | ⟨j, i, x, at_, lt, rfl⟩)
      · exact ⟨0, i, a, rfl, lt, rfl⟩
      · refine ⟨j + 1, i, x, at_, lt, ?_⟩
        rw [List.take_succ_cons, List.map_cons, List.sum_cons, Nat.add_assoc]
    · rintro ⟨j, i, x, at_, lt, rfl⟩
      cases j with
      | zero =>
        cases at_
        exact .inl ⟨i, lt, rfl⟩
      | succ j =>
        refine .inr ⟨j, i, x, at_, lt, ?_⟩
        rw [List.take_succ_cons, List.map_cons, List.sum_cons, Nat.add_assoc]

theorem cutExtents_offset {offset i : Nat} {l : List Extent} {g : Segment}
    (at_ : (cutExtents offset l)[i]? = some g) :
    g.offset = offset + (((cutExtents offset l).take i).map (·.count)).sum := by
  induction l generalizing offset i with
  | nil => simp [cutExtents] at at_
  | cons x l ih =>
    rw [cutExtents, List.getElem?_append] at at_
    rw [cutExtents, List.take_append, List.map_append, List.sum_append]
    split at at_
    · rename_i inside
      rw [Extent.cut_offset at_, Nat.sub_eq_zero_of_le (by omega)]
      rfl
    · rename_i beyond
      rw [ih at_, List.take_of_length_le (Nat.not_lt.1 beyond), x.sum_cut, Nat.add_assoc]

/-! ### Grants -/

theorem Device.freeReq_eq_some_iff {m : Device} {r : Nat} :
    m.freeReq = some r ↔ r < 4096 ∧ (m.req r).state = .free ∧ ∀ j < r, (m.req j).state ≠ .free := by
  simp [Device.freeReq, lowest_eq_some_iff]

theorem Device.freeReq_eq_none_iff {m : Device} : m.freeReq = none ↔ ∀ r < 4096, (m.req r).state ≠ .free := by
  simp [Device.freeReq, lowest_eq_none_iff]

/-- A record that joins a queue changes its channel, what is sent and the agenda alone. -/
theorem Device.joinQueue_same (now : Time) (c : Nat) (m : Device) :
    (m.joinQueue now c).reqs = m.reqs ∧ (m.joinQueue now c).slots = m.slots ∧ (m.joinQueue now c).grants = m.grants := by
  unfold Device.joinQueue Device.wake
  split
  · rw [Device.send_eq]
    split <;> exact ⟨rfl, rfl, rfl⟩
  · exact ⟨rfl, rfl, rfl⟩

theorem Device.mem_askChoice (c : Nat) (m : Device) : c ∈ (m.askChoice c).agenda.choices := by
  unfold Device.askChoice
  dsimp only
  split
  · assumption
  · exact List.mem_append_right _ (List.mem_singleton_self c)

theorem Device.joinQueue_channel (now : Time) (c : Nat) (m : Device) :
    ((m.joinQueue now c).channel c).state =
      if (m.channel c).state = .parked then .waking else (m.channel c).state := by
  unfold Device.joinQueue Device.wake
  split
  · rw [Device.askChoice_channel, Device.send_eq]
    split <;> simp [Device.onChannel]
  · rfl

/-- The record a grant makes (R101). -/
def Segment.request (g : Segment) (n i seq : Nat) : Request :=
  { state := .queued, slot := n, seg := i, channel := g.channel, block := g.block, count := g.count,
    offset := g.offset, retries := 0, seq := seq, cls := none, tag := none }

section Grant
variable {m : Device} {now : Time} {n i r : Nat} {g : Segment}

theorem Device.grant_eq (free : m.freeReq = some r) (seg : (m.slot n).segs[i]? = some g) :
    m.grant now n i =
      (({ m.setReq r (g.request n i m.grants) with
          grants := (m.grants + 1) % 18446744073709551616 }).onSlot n (·.setSeg i .queued)).joinQueue now g.channel := by
  simp only [Device.grant, free, seg]
  rfl

theorem Device.grant_none (none_ : m.freeReq = none) : m.grant now n i = m := by
  simp only [Device.grant, none_]

/-- What a grant leaves of records, slots and the count of grants. -/
theorem Device.grant_tables (free : m.freeReq = some r) (seg : (m.slot n).segs[i]? = some g) :
    (m.grant now n i).reqs = (m.setReq r (g.request n i m.grants)).reqs ∧
      (m.grant now n i).slots = (m.onSlot n (·.setSeg i .queued)).slots ∧
      (m.grant now n i).grants = (m.grants + 1) % 18446744073709551616 := by
  rw [Device.grant_eq free seg]
  exact Device.joinQueue_same ..

theorem Device.grant_req (free : m.freeReq = some r) (seg : (m.slot n).segs[i]? = some g) (j : Nat) :
    (m.grant now n i).req j = if j = r then g.request n i m.grants else m.req j :=
  (congrArg (Table.get Request.free · j) (Device.grant_tables free seg).1).trans (Device.req_setReq ..)

theorem Device.grant_slot (free : m.freeReq = some r) (seg : (m.slot n).segs[i]? = some g) (j : Nat) :
    (m.grant now n i).slot j = if j = n then (m.slot n).setSeg i .queued else m.slot j :=
  (congrArg (Table.get Slot.free · j) (Device.grant_tables free seg).2.1).trans (Device.slot_setSlot ..)

theorem Device.grant_wf (wf : Table.wf Slot.free m.slots = true) : Table.wf Slot.free (m.grant now n i).slots = true := by
  cases free : m.freeReq with
  | none => rwa [Device.grant_none free]
  | some r =>
    cases seg : (m.slot n).segs[i]? with
    | none => simpa only [Device.grant, free, seg] using wf
    | some g =>
      rw [(Device.grant_tables free seg).2.1]
      exact Table.wf_set _ _ _ wf

end Grant

/-! ### The waiting slot -/

/-- Slot `n` waits: it is FILLING and has an unissued segment (R100). -/
def Device.Waits (m : Device) (n : Nat) : Prop := (m.slot n).state = .filling ∧ ∃ g ∈ (m.slot n).segs, g.status = .unissued

theorem Slot.count_pos_iff (x : Slot) (st : SegStatus) : 0 < x.count st ↔ ∃ g ∈ x.segs, g.status = st := by
  simp [Slot.count, List.countP_pos_iff]

/-- The order in which waiting slots are served (R100). -/
def servedBefore (x y : Nat × Slot) : Bool :=
  decide (x.2.due < y.2.due) || (decide (x.2.due = y.2.due) && decide (x.1 < y.1))

theorem servedBefore_eq_false (x y : Nat × Slot) :
    servedBefore x y = false ↔ y.2.due < x.2.due ∨ (y.2.due = x.2.due ∧ y.1 ≤ x.1) := by
  simp [servedBefore, Time]
  omega

theorem servedBefore_order : StrictWeak servedBefore where
  irrefl x := by simp [servedBefore_eq_false]
  asymm x y h := by
    simp only [servedBefore, Bool.or_eq_true, Bool.and_eq_true, decide_eq_true_eq, Time] at h
    simp only [servedBefore_eq_false, Time]
    omega
  trans x y z := by
    simp only [servedBefore_eq_false, Time]
    omega

/-- The waiting slots with their numbers. -/
def Device.waiting (m : Device) : List (Nat × Slot) :=
  m.slots.filter fun e => decide (e.2.state = .filling) && decide (0 < e.2.count .unissued)

theorem Device.mem_waiting {m : Device} (wf : Table.wf Slot.free m.slots = true) (n : Nat) (x : Slot) :
    (n, x) ∈ m.waiting ↔ m.slot n = x ∧ m.Waits n := by
  simp only [Device.waiting, List.mem_filter, Table.mem_iff wf, Bool.and_eq_true, decide_eq_true_eq,
    Slot.count_pos_iff, Device.Waits]
  constructor
  · rintro ⟨⟨same, -⟩, waits⟩
    exact ⟨same, by rw [Device.slot, same]; exact waits⟩
  · rintro ⟨rfl, filling, seg⟩
    refine ⟨⟨rfl, fun free => ?_⟩, filling, seg⟩
    rw [free] at filling
    cases filling

theorem Device.waitingSlot_eq_some_iff {m : Device} (wf : Table.wf Slot.free m.slots = true) (n : Nat) :
    m.waitingSlot = some n ↔ m.Waits n ∧
      ∀ j, m.Waits j → (m.slot n).due < (m.slot j).due ∨ ((m.slot n).due = (m.slot j).due ∧ n ≤ j) := by
  have least_iff : ∀ x, least servedBefore m.waiting = some x ↔
      x ∈ m.waiting ∧ ∀ y ∈ m.waiting, servedBefore y x = false := fun x => by
    refine least_eq_some_iff servedBefore_order fun x memX y memY xy yx => ?_
    obtain ⟨sameX, -⟩ := (Device.mem_waiting wf x.1 x.2).1 memX
    obtain ⟨sameY, -⟩ := (Device.mem_waiting wf y.1 y.2).1 memY
    simp only [servedBefore_eq_false, Time] at xy yx
    have number : x.1 = y.1 := by omega
    exact Prod.ext number (sameX.symm.trans ((congrArg m.slot number).trans sameY))
  have entry : ∀ j, m.Waits j ↔ (j, m.slot j) ∈ m.waiting := fun j => by simp [Device.mem_waiting wf]
  have found : m.waitingSlot = some n ↔ least servedBefore m.waiting = some (n, m.slot n) := by
    refine Option.map_eq_some_iff.trans ⟨?_, fun h => ⟨_, h, rfl⟩⟩
    rintro ⟨⟨_, x⟩, h, rfl⟩
    rw [((Device.mem_waiting wf _ x).1 (mem_of_least h)).1]
    exact h
  rw [found, least_iff, ← entry]
  refine and_congr_right fun _ => ⟨fun first j waits => ?_, fun first y mem => ?_⟩
  · exact (servedBefore_eq_false ..).1 (first _ ((entry j).1 waits))
  · obtain ⟨same, waits⟩ := (Device.mem_waiting wf y.1 y.2).1 mem
    exact (servedBefore_eq_false ..).2 (same ▸ first y.1 waits)

/-! ### All grants of an event -/

/-- How many of the first `n` numbers meet a condition that a change takes from one of them. -/
theorem countP_range_lt {n r : Nat} {f g : Nat → Bool} (inside : r < n) (had : f r = true) (lost : g r = false)
    (same : ∀ j, j ≠ r → g j = f j) : (List.range n).countP g < (List.range n).countP f := by
  induction n with
  | zero => omega
  | succ n ih =>
    simp only [List.range_succ, List.countP_append, List.countP_singleton]
    by_cases last : r = n
    · have rest : (List.range n).countP g = (List.range n).countP f :=
        List.countP_congr fun j mem => by rw [same j (by have := List.mem_range.1 mem; omega)]
      rw [← last] at rest ⊢
      simp [had, lost, rest]
    · rw [same n (Ne.symm last)]
      exact Nat.add_lt_add_right (ih (by omega)) _

/-- The number of FREE request records. -/
def Device.freeReqs (m : Device) : Nat := (List.range Config.numReqs).countP fun r => decide ((m.req r).state = .free)

theorem Device.freeReq_of_freeReqs {m : Device} (h : m.freeReqs = 0) : m.freeReq = none := by
  rw [Device.freeReqs, List.countP_eq_zero] at h
  exact Device.freeReq_eq_none_iff.2 fun r lt free => h r (List.mem_range.2 lt) (decide_eq_true free)

theorem Device.freeReqs_grant {m : Device} {now : Time} {n i r : Nat} {g : Segment} (free : m.freeReq = some r)
    (seg : (m.slot n).segs[i]? = some g) : (m.grant now n i).freeReqs < m.freeReqs := by
  obtain ⟨inside, state, -⟩ := Device.freeReq_eq_some_iff.1 free
  refine countP_range_lt inside (decide_eq_true state) ?_ fun j other => ?_
  · rw [Device.grant_req free seg, if_pos rfl]
    rfl
  · rw [Device.grant_req free seg, if_neg other]

section GrantAll
variable {m : Device} {now : Time}

theorem Device.grantWaiting_none (fuel : Nat) (none_ : m.freeReq = none ∨ m.waitingSlot = none) :
    m.grantWaiting now fuel = m := by
  cases fuel with
  | zero => rfl
  | succ fuel =>
    unfold Device.grantWaiting
    split
    · rename_i free waiting
      rcases none_ with h | h <;> simp_all
    · rfl

/-- One grant of the loop: to the first unissued segment of the waiting slot. -/
theorem Device.grantWaiting_some {fuel r n i : Nat} (free : m.freeReq = some r) (waiting : m.waitingSlot = some n)
    (first : (m.slot n).segs.findIdx? (fun g => decide (g.status = .unissued)) = some i) :
    m.grantWaiting now (fuel + 1) = (m.grant now n i).grantWaiting now fuel := by
  simp only [Device.grantWaiting, free, waiting, first]

/-- A waiting slot has a first unissued segment. -/
theorem Device.waitingSlot_seg (wf : Table.wf Slot.free m.slots = true) {n : Nat} (waiting : m.waitingSlot = some n) :
    ∃ i g, (m.slot n).segs.findIdx? (fun g => decide (g.status = .unissued)) = some i ∧ (m.slot n).segs[i]? = some g := by
  obtain ⟨⟨-, g, mem, unissued⟩, -⟩ := (Device.waitingSlot_eq_some_iff wf n).1 waiting
  cases found : (m.slot n).segs.findIdx? (fun g => decide (g.status = .unissued)) with
  | none => simpa [unissued] using List.findIdx?_eq_none_iff.1 found g mem
  | some i =>
    obtain ⟨inside, -⟩ := List.findIdx?_eq_some_iff_getElem.1 found
    exact ⟨i, _, rfl, List.getElem?_eq_getElem inside⟩

/-- Once every FREE record can be granted, further steps of the loop change nothing. -/
theorem Device.grantWaiting_fuel (wf : Table.wf Slot.free m.slots = true) {fuel : Nat} (enough : m.freeReqs ≤ fuel) :
    m.grantWaiting now (fuel + 1) = m.grantWaiting now fuel := by
  induction fuel generalizing m with
  | zero => exact Device.grantWaiting_none 1 (.inl (Device.freeReq_of_freeReqs (Nat.le_zero.1 enough)))
  | succ fuel ih =>
    cases free : m.freeReq with
    | none => rw [Device.grantWaiting_none _ (.inl free), Device.grantWaiting_none _ (.inl free)]
    | some r =>
      cases waiting : m.waitingSlot with
      | none => rw [Device.grantWaiting_none _ (.inr waiting), Device.grantWaiting_none _ (.inr waiting)]
      | some n =>
        obtain ⟨i, g, first, seg⟩ := Device.waitingSlot_seg wf waiting
        have less := Device.freeReqs_grant (now := now) free seg
        rw [Device.grantWaiting_some free waiting first, Device.grantWaiting_some free waiting first]
        exact ih (Device.grant_wf wf) (by omega)

/-- The loop ends with no FREE record or no waiting slot. -/
theorem Device.grantWaiting_done (wf : Table.wf Slot.free m.slots = true) {fuel : Nat} (enough : m.freeReqs ≤ fuel) :
    (m.grantWaiting now fuel).freeReq = none ∨ (m.grantWaiting now fuel).waitingSlot = none := by
  induction fuel generalizing m with
  | zero => exact .inl (Device.freeReq_of_freeReqs (Nat.le_zero.1 enough))
  | succ fuel ih =>
    cases free : m.freeReq with
    | none =>
      rw [Device.grantWaiting_none _ (.inl free)]
      exact .inl free
    | some r =>
      cases waiting : m.waitingSlot with
      | none =>
        rw [Device.grantWaiting_none _ (.inr waiting)]
        exact .inr waiting
      | some n =>
        obtain ⟨i, g, first, seg⟩ := Device.waitingSlot_seg wf waiting
        have less := Device.freeReqs_grant (now := now) free seg
        rw [Device.grantWaiting_some free waiting first]
        exact ih (Device.grant_wf wf) (by omega)

theorem Device.freeReqs_le (m : Device) : m.freeReqs ≤ Config.numReqs :=
  List.countP_le_length.trans_eq List.length_range

theorem Device.grantAll_some (wf : Table.wf Slot.free m.slots = true) {r n i : Nat}
    (free : m.freeReq = some r) (waiting : m.waitingSlot = some n)
    (first : (m.slot n).segs.findIdx? (fun g => decide (g.status = .unissued)) = some i) : m.grantAll now = (m.grant now n i).grantAll now := by
  have step : m.grantAll now = m.grantWaiting now (Config.numReqs + 1) :=
    (Device.grantWaiting_fuel wf m.freeReqs_le).symm
  rw [step, Device.grantWaiting_some free waiting first]
  rfl

/-- One place of an offer (R99). -/
def Device.offerAt (now : Time) (n : Nat) (m : Device) (i : Nat) : Device :=
  if ((m.slot n).segs[i]?.map (·.status)) = some SegStatus.unissued then m.grant now n i else m

theorem Device.offer_eq (m : Device) (now : Time) (n : Nat) :
    m.offer now n = (List.range (m.slot n).segs.length).foldl (Device.offerAt now n) m := rfl

/-- The places before `i` have been offered: no record is left, or none of them is unissued. -/
def Device.Offered (m : Device) (n i : Nat) : Prop :=
  m.freeReq = none ∨ ∀ j < i, ∀ g, (m.slot n).segs[j]? = some g → g.status ≠ .unissued

theorem Slot.segs_setSeg (x : Slot) (i j : Nat) (st : SegStatus) :
    (x.setSeg i st).segs[j]? = if i = j then x.segs[j]?.map ({ · with status := st }) else x.segs[j]? := by
  refine (List.getElem?_modify ..).trans ?_
  split
  · rfl
  · exact Option.map_id' ..

theorem Slot.length_setSeg (x : Slot) (i : Nat) (st : SegStatus) : (x.setSeg i st).segs.length = x.segs.length :=
  List.length_modify ..

theorem Device.offerAt_length (m : Device) (n i : Nat) :
    ((m.offerAt now n i).slot n).segs.length = (m.slot n).segs.length := by
  unfold Device.offerAt
  split
  · cases free : m.freeReq with
    | none => rw [Device.grant_none free]
    | some r =>
      cases seg : (m.slot n).segs[i]? with
      | none => simp only [Device.grant, free, seg]
      | some g => rw [Device.grant_slot free seg, if_pos rfl, Slot.length_setSeg]
  · rfl

theorem Device.offerAt_offered {n i : Nat} (done : m.Offered n i) : (m.offerAt now n i).Offered n (i + 1) := by
  unfold Device.offerAt
  cases free : m.freeReq with
  | none =>
    rw [Device.grant_none free, ite_self]
    exact .inl free
  | some r =>
    have earlier := done.resolve_left (by simp [free])
    split
    · rename_i unissued
      obtain ⟨g, seg, -⟩ := Option.map_eq_some_iff.1 unissued
      refine .inr fun j before f at_ => ?_
      rw [Device.grant_slot free seg, if_pos rfl, Slot.segs_setSeg] at at_
      split at at_
      · obtain ⟨_, -, rfl⟩ := Option.map_eq_some_iff.1 at_
        simp
      · exact earlier j (by omega) f at_
    · rename_i other
      refine .inr fun j before f at_ => ?_
      by_cases here : j = i
      · subst here
        simpa [at_] using other
      · exact earlier j (by omega) f at_

/-- An offer leaves no unissued segment behind while records remain. -/
theorem Device.offer_done (m : Device) (now : Time) (n : Nat) :
    (m.offer now n).freeReq = none ∨ ∀ g ∈ ((m.offer now n).slot n).segs, g.status ≠ .unissued := by
  have prefix_ : ∀ i, ((List.range i).foldl (Device.offerAt now n) m).Offered n i ∧
      (((List.range i).foldl (Device.offerAt now n) m).slot n).segs.length = (m.slot n).segs.length := fun i => by
    induction i with
    | zero => exact ⟨.inr fun j before => absurd before (Nat.not_lt_zero j), rfl⟩
    | succ i ih =>
      rw [List.range_succ, List.foldl_append, List.foldl_cons, List.foldl_nil]
      exact ⟨Device.offerAt_offered ih.1, (Device.offerAt_length ..).trans ih.2⟩
  obtain ⟨offered, length⟩ := prefix_ (m.slot n).segs.length
  rw [Device.offer_eq]
  refine offered.imp_right fun all g mem => ?_
  obtain ⟨j, inside, rfl⟩ := List.mem_iff_getElem.1 mem
  exact all j (length ▸ inside) _ (List.getElem?_eq_getElem inside)

end GrantAll

/-- Settles O40: locations, segments, one grant, the waiting slot, and all grants of an event. -/
theorem segmentsCoverExtents : Obligations.SegmentsCoverExtents := by
  refine ⟨fun x mem frame => ⟨fun stripes blocks bytes s locator stripe => ?_, fun base capacity locator => ?_⟩,
    fun offset l => ⟨sum_cutExtents offset l, mem_cutExtents offset l, fun i g => cutExtents_offset⟩,
    fun m now n i r g inside free least seg => ?_, fun m n wf => Device.waitingSlot_eq_some_iff wf n,
    fun m now wf => ⟨fun n i g some_ waiting seg unissued first => ?_, Device.grantWaiting_none _,
      Device.grantWaiting_done wf m.freeReqs_le, m.offer_done now⟩⟩
  · simp only [Clip.locate, locator, stripe]
  · simp only [Clip.locate, locator]
    rfl
  · have record : m.freeReq = some r := Device.freeReq_eq_some_iff.2 ⟨inside, free, least⟩
    have slots := Device.grant_slot (now := now) record seg
    have reqs := Device.grant_req (now := now) record seg
    have joined := Device.grant_eq (now := now) record seg
    refine ⟨(reqs r).trans (if_pos rfl), fun j other => (reqs j).trans (if_neg other),
      (Device.grant_tables record seg).2.2, (slots n).trans (if_pos rfl), fun j other => (slots j).trans (if_neg other),
      ?_, ?_⟩
    · rw [joined]
      exact Device.mem_askChoice ..
    · rw [joined]
      exact Device.joinQueue_channel ..
  · obtain ⟨r, free⟩ := Option.ne_none_iff_exists'.1 some_
    refine Device.grantAll_some wf free waiting (List.findIdx?_eq_some_iff_getElem.2 ?_)
    obtain ⟨inside, rfl⟩ := List.getElem?_eq_some_iff.1 seg
    exact ⟨inside, decide_eq_true unissued, fun j before => by
      simpa using first j before _ (List.getElem?_eq_getElem (before.trans inside))⟩

end Sys2Proof.Machine
end

section
/-! PROOFS. The dispatch choice of a channel (section 6.3). -/

namespace Sys2Proof.Machine

/-! ### Ranking -/

theorem classOf_cases (dev : DeviceSettings) (now issue : Time) (ordered : dev.urgent ≤ dev.horizon) :
    (issue = never → classOf dev now issue = 3) ∧
    (issue ≠ never → issue < now → classOf dev now issue = 0) ∧
    (issue ≠ never → now ≤ issue → issue < now + dev.urgent → classOf dev now issue = 1) ∧
    (issue ≠ never → now + dev.urgent ≤ issue → issue < now + dev.horizon → classOf dev now issue = 2) ∧
    (issue ≠ never → now + dev.horizon ≤ issue → classOf dev now issue = 3) := by
  unfold classOf
  simp only [Time] at *
  refine ⟨fun h => ?_, fun h _ => ?_, fun h _ _ => ?_, fun h _ _ => ?_, fun h _ => ?_⟩
  · rw [if_pos h]
  · rw [if_neg h, if_pos (by omega)]
  · rw [if_neg h, if_neg (by omega), if_pos (by omega)]
  · rw [if_neg h, if_neg (by omega), if_neg (by omega), if_pos (by omega)]
  · rw [if_neg h, if_neg (by omega), if_neg (by omega), if_neg (by omega)]

theorem Ranked.before_iff (x y : Ranked) :
    x.before y = true ↔ x.cls < y.cls ∨ (x.cls = y.cls ∧ (x.seat < y.seat ∨ (x.seat = y.seat ∧
      (x.issue < y.issue ∨ (x.issue = y.issue ∧ x.seq < y.seq))))) := by
  simp [Ranked.before]

theorem Ranked.before_order : StrictWeak Ranked.before where
  irrefl x := by
    rw [Bool.eq_false_iff, ne_eq, Ranked.before_iff]
    simp only [Time]
    omega
  asymm x y h := by
    rw [Ranked.before_iff] at h
    rw [Bool.eq_false_iff, ne_eq, Ranked.before_iff]
    simp only [Time] at *
    omega
  trans x y z xy yz := by
    rw [Bool.eq_false_iff, ne_eq, Ranked.before_iff] at *
    simp only [Time] at *
    omega

theorem Device.mem_queue {m : Device} (wf : Table.wf Request.free m.reqs = true) (c r : Nat) (q : Request) :
    (r, q) ∈ m.queue c ↔ m.req r = q ∧ (m.req r).state = .queued ∧ (m.req r).channel = c := by
  simp only [Device.queue, List.mem_filter, Table.mem_iff wf, Bool.and_eq_true, decide_eq_true_eq]
  constructor
  · rintro ⟨⟨same, -⟩, queued, channel⟩
    have record : m.req r = q := same
    exact ⟨record, by rw [record]; exact queued, by rw [record]; exact channel⟩
  · rintro ⟨rfl, queued, channel⟩
    refine ⟨⟨rfl, fun free => ?_⟩, queued, channel⟩
    rw [free] at queued
    cases queued

/-- A record as a choice of channel `c` ranks it (R103). -/
def Device.rank (e : Env) (m : Device) (r : Nat) (q : Request) : Ranked :=
  { req := r, cls := classOf e.dev e.now (m.issue e.now q), seat := (m.slot q.slot).seat, issue := m.issue e.now q,
    seq := q.seq }

theorem Device.mem_ranked {m : Device} (wf : Table.wf Request.free m.reqs = true) (e : Env) (c : Nat) (y : Ranked) :
    y ∈ m.ranked e c ↔ ∃ r, (m.req r).state = .queued ∧ (m.req r).channel = c ∧ y = m.rank e r (m.req r) := by
  refine List.mem_map.trans ⟨?_, ?_⟩
  · rintro ⟨⟨r, q⟩, mem, rfl⟩
    obtain ⟨rfl, queued, channel⟩ := (Device.mem_queue wf c r q).1 mem
    exact ⟨r, queued, channel, rfl⟩
  · rintro ⟨r, queued, channel, rfl⟩
    exact ⟨(r, m.req r), (Device.mem_queue wf c r _).2 ⟨rfl, queued, channel⟩, rfl⟩

theorem Device.eligible_iff (m : Device) (c : Nat) (y : Ranked) :
    m.eligible c y = true ↔ (y.cls ≠ 3 ∨
      (m.reqs.countP fun q => decide (q.2.state = .dispatched ∧ q.2.channel = c ∧ q.2.cls = some 3)) <
        (m.channel c).tagLimit) := by
  have count : ((m.inFlight c).countP fun y => decide (y.2.cls = some 3)) =
      m.reqs.countP fun q => decide (q.2.state = .dispatched ∧ q.2.channel = c ∧ q.2.cls = some 3) := by
    rw [Device.inFlight, List.countP_filter]
    refine List.countP_congr fun q _ => ?_
    simp only [Bool.and_eq_true, decide_eq_true_eq]
    tauto
  rw [Device.eligible, count, Bool.or_eq_true, decide_eq_true_eq, decide_eq_true_eq]

theorem Device.choose_first {m : Device} {e : Env} {c : Nat} {x : Ranked} (chosen : m.choose e c = some x) :
    x ∈ m.ranked e c ∧ m.eligible c x = true ∧ ∀ y ∈ m.ranked e c, m.eligible c y = true → y.before x = false := by
  obtain ⟨mem, eligible⟩ := List.mem_filter.1 (mem_of_least chosen)
  exact ⟨mem, eligible, fun y ranked eligible =>
    not_before_least Ranked.before_order chosen (List.mem_filter.2 ⟨ranked, eligible⟩)⟩

theorem Device.choose_none {m : Device} {e : Env} {c : Nat} (none_ : m.choose e c = none) :
    ∀ y ∈ m.ranked e c, m.eligible c y = false := fun y ranked =>
  Bool.eq_false_iff.2 (List.filter_eq_nil_iff.1 (least_eq_none_iff.1 none_) y ranked)

/-! ### The dispatch -/

theorem LinkMessage.read_bytes {t : Nat} (tag : t < 4) (block count : Nat) :
    (LinkMessage.read t block count false).bytes =
      0x01#8 :: BitVec.ofNat 8 t :: natBytes 2 count ++ natBytes 6 block := by
  simp [LinkMessage.bytes, natBytes, Nat.mod_eq_of_lt tag]

/-! ### Choices one after another -/

theorem Channel.freeTag_eq_some_iff {x : Channel} {t : Nat} :
    x.freeTag = some t ↔ (t < 4 ∧ x.tag t = .free) ∧ ∀ j < t, x.tag j ≠ .free := by
  simp [Channel.freeTag, lowest_eq_some_iff, and_assoc]

theorem Channel.freeTag_isSome_iff {x : Channel} : x.freeTag.isSome = true ↔ ∃ t, t < 4 ∧ x.tag t = .free := by
  rw [← not_iff_not, Bool.not_eq_true, Option.isSome_eq_false_iff, Option.isNone_iff_eq_none, Channel.freeTag,
    lowest_eq_none_iff]
  simp

theorem Device.mayChoose_iff (m : Device) (c : Nat) :
    m.mayChoose c = true ↔ (m.channel c).state = .active ∧ (m.channel c).char = none ∧
      (∃ t, t < 4 ∧ (m.channel c).tag t = .free) ∧ m.queue c ≠ [] := by
  simp [Device.mayChoose, Channel.freeTag_isSome_iff, and_assoc]

/-- The number of free tags. -/
def Channel.freeTags (x : Channel) : Nat := (List.range Config.numTags).countP fun t => decide (x.tag t = Tag.free)

theorem Device.dispatch_channel (e : Env) (c t : Nat) (x : Ranked) (m : Device) :
    ∃ tag : Tag, tag ≠ .free ∧ ((m.dispatch e c t x).channel c).tags = ((m.channel c).setTag t tag).tags := by
  refine ⟨.inFlight x.req e.now ((m.channel c).baseEstimate (m.req x.req).count) 0
    (requestTimeoutAt e.now ((m.channel c).baseEstimate (m.req x.req).count)), by simp, ?_⟩
  unfold Device.dispatch
  simp only [Device.send_eq]
  split <;> simp [Device.onChannel, Device.onSlot, Channel.setTag]

theorem Device.dispatch_freeTags {e : Env} {c t : Nat} {x : Ranked} {m : Device}
    (free : (m.channel c).freeTag = some t) :
    ((m.dispatch e c t x).channel c).freeTags < (m.channel c).freeTags := by
  obtain ⟨⟨inside, was⟩, -⟩ := Channel.freeTag_eq_some_iff.1 free
  obtain ⟨tag, used, tags⟩ := m.dispatch_channel e c t x
  have now_ : ∀ j, ((m.dispatch e c t x).channel c).tag j = ((m.channel c).setTag t tag).tag j := fun j =>
    congrArg (Table.get Tag.free · j) tags
  refine countP_range_lt inside (decide_eq_true was) ?_ fun j other => ?_
  · rw [now_, Channel.tag_setTag, if_pos rfl]
    exact decide_eq_false used
  · rw [now_, Channel.tag_setTag, if_neg other]

section Choices
variable {m : Device} {e : Env} {c : Nat}

theorem Device.chooseLoop_barred {fuel : Nat} (barred : m.mayChoose c = false) :
    m.chooseLoop e c (fuel + 1) = m.onChannel c fun ch => { ch with recheck := none } := by
  simp [Device.chooseLoop, barred]

theorem Device.chooseLoop_some {fuel t : Nat} {x : Ranked} (may : m.mayChoose c = true)
    (chosen : m.choose e c = some x) (free : (m.channel c).freeTag = some t) :
    m.chooseLoop e c (fuel + 1) = (m.dispatch e c t x).chooseLoop e c fuel := by
  simp [Device.chooseLoop, may, chosen, free]

theorem Device.chooseLoop_none {fuel : Nat} (may : m.mayChoose c = true) (none_ : m.choose e c = none) :
    m.chooseLoop e c (fuel + 1) = m.onChannel c fun ch => { ch with recheck := m.recheckTime e c } := by
  simp [Device.chooseLoop, may, none_]

/-- With one step for each free tag and one to end, further steps of the loop change nothing. -/
theorem Device.chooseLoop_fuel {fuel : Nat} (enough : (m.channel c).freeTags < fuel) :
    m.chooseLoop e c (fuel + 1) = m.chooseLoop e c fuel := by
  induction fuel generalizing m with
  | zero => omega
  | succ fuel ih =>
    cases may : m.mayChoose c with
    | false => rw [Device.chooseLoop_barred may, Device.chooseLoop_barred may]
    | true =>
      cases chosen : m.choose e c with
      | none => rw [Device.chooseLoop_none may chosen, Device.chooseLoop_none may chosen]
      | some x =>
        obtain ⟨t, free⟩ : ∃ t, (m.channel c).freeTag = some t :=
          Option.isSome_iff_exists.1 (Channel.freeTag_isSome_iff.2 ((m.mayChoose_iff c).1 may).2.2.1)
        have fewer := Device.dispatch_freeTags (e := e) (x := x) free
        rw [Device.chooseLoop_some may chosen free, Device.chooseLoop_some may chosen free]
        exact ih (by omega)

theorem Channel.freeTags_le (x : Channel) : x.freeTags ≤ 4 := List.countP_le_length.trans_eq List.length_range

theorem Device.runChoice_some {t : Nat} {x : Ranked} (may : m.mayChoose c = true) (chosen : m.choose e c = some x)
    (free : (m.channel c).freeTag = some t) :
    m.runChoice e c = if (m.dispatch e c t x).mayChoose c = true then (m.dispatch e c t x).runChoice e c
      else (m.dispatch e c t x).onChannel c fun ch => { ch with recheck := none } := by
  have fewer := Device.dispatch_freeTags (e := e) (x := x) free
  have most := (m.channel c).freeTags_le
  have run : m.runChoice e c = (m.dispatch e c t x).chooseLoop e c 4 :=
    (if_pos may).trans (Device.chooseLoop_some may chosen free)
  rw [run]
  split
  · rename_i again
    exact ((if_pos again).trans (Device.chooseLoop_fuel (by omega))).symm
  · rename_i barred
    exact Device.chooseLoop_barred (Bool.eq_false_iff.2 barred)

end Choices

/-- An earlier time stands before a later one. -/
theorem time_order : StrictWeak fun a b : Time => decide (a < b) where
  irrefl := by simp
  asymm x y h := by
    simp only [decide_eq_true_eq, decide_eq_false_iff_not] at *
    exact h.asymm
  trans x y z xy yz := by
    simp only [decide_eq_false_iff_not, Nat.not_lt] at *
    exact yz.trans xy

/-- The recheck time is the least time at which a queued record would leave class 3 (R102). -/
theorem Device.recheckTime_least (e : Env) (m : Device) (c : Nat) :
    (∀ y ∈ m.ranked e c, y.issue ≠ never → ∃ u, m.recheckTime e c = some u ∧ u ≤ y.issue + 1 - e.dev.horizon) ∧
    ∀ u, m.recheckTime e c = some u → ∃ y ∈ m.ranked e c, y.issue ≠ never ∧ u = y.issue + 1 - e.dev.horizon := by
  constructor
  · intro y ranked timed
    have listed : y.issue + 1 - e.dev.horizon ∈
        ((m.ranked e c).filter fun x => decide (x.issue ≠ never)).map fun x => x.issue + 1 - e.dev.horizon :=
      List.mem_map.2 ⟨y, List.mem_filter.2 ⟨ranked, decide_eq_true timed⟩, rfl⟩
    cases found : m.recheckTime e c with
    | none =>
      rw [least_eq_none_iff.1 found] at listed
      cases listed
    | some u => exact ⟨u, rfl, Nat.not_lt.1 (of_decide_eq_false (not_before_least time_order found listed))⟩
  · intro u found
    obtain ⟨y, mem, rfl⟩ := List.mem_map.1 (mem_of_least found)
    obtain ⟨ranked, timed⟩ := List.mem_filter.1 mem
    exact ⟨y, ranked, of_decide_eq_true timed, rfl⟩

/-- Settles O41: the class, the ranking, the choice, the dispatch, and the chain of choices. -/
theorem dispatchChoice : Obligations.DispatchChoice := by
  refine ⟨fun dev now issue ordered => classOf_cases dev now issue ordered, fun m e c wf => ?_, fun m e c t x tag => ?_,
    fun m e c => ?_⟩
  · intro ch wake est issue
    have issues : ∀ q : Request, q.channel = c → m.issue e.now q = issue q := by
      rintro q rfl
      rfl
    refine ⟨fun y => (Device.mem_ranked wf e c y).trans (exists_congr fun r => and_congr_right fun _ =>
        and_congr_right fun channel => ?_), fun y => m.eligible_iff c y, fun x chosen => ?_, Device.choose_none⟩
    · rw [Device.rank, issues _ channel]
    · obtain ⟨ranked, eligible, first⟩ := Device.choose_first chosen
      refine ⟨ranked, eligible, fun y mem able before => ?_⟩
      exact Bool.false_ne_true ((first y mem able).symm.trans ((Ranked.before_iff y x).2 before))
  · intro r ch est timeout b
    rw [← LinkMessage.read_bytes tag r.block r.count]
    have link : (b.channel c).link = ch.link := by
      rw [Device.channel_setChannel_same]
      rfl
    rw [← link]
    rfl
  · intro free able
    have may : m.mayChoose c = true ↔ able := m.mayChoose_iff c
    refine ⟨fun barred => if_neg (may.not.2 barred), fun ready x t chosen isFree least => ?_, fun ready none_ => ?_⟩
    · exact Device.runChoice_some (may.2 ready) chosen (Channel.freeTag_eq_some_iff.2 ⟨isFree, least⟩)
    · exact ⟨m.recheckTime e c, (if_pos (may.2 ready)).trans (Device.chooseLoop_none (may.2 ready) none_),
        m.recheckTime_least e c⟩

end Sys2Proof.Machine
end

section
/-! PROOFS. The device commands and the loss of a head (chapters 3 and 11). -/

namespace Sys2Proof.Machine

/-! ### NOT_PRIMARY, SET_DEVICE -/

theorem State.Hands.primaryOnly_refused {s : State} {p : Head} {h : Handed} {cmd : Command} (hands : s.Hands p h cmd)
    (other : s.part.hau.primary ≠ some p) (f : Device → Reply) :
    s.takeReply p cmd (fun m => m.primaryOnly p f) =
      s.ends (s.part.begin_.completed p (h.completion .notPrimary [])) :=
  hands.takeReply (r := s.part.begin_.refuse .notPrimary) _ (if_neg other)

/-- A primary-only command of the primary. -/
theorem State.Hands.primaryTaken {s : State} {p : Head} {h : Handed} {cmd : Command} (hands : s.Hands p h cmd)
    (primary : s.part.hau.primary = some p) {f : Device → Reply} {r : Reply}
    (reply : f s.part.begin_ = r) :
    s.takeReply p cmd (fun m => m.primaryOnly p f) =
      s.ends (r.part.completed p (h.completion r.status r.results)) :=
  hands.takeReply _ ((if_pos primary).trans reply)

theorem exec_setDevice_refused {s : State} {p : Head} {h : Handed} {a : SetDeviceArgs}
    (hands : s.Hands p h (.setDevice a)) (other : s.part.hau.primary ≠ some p) :
    exec (.setDevice p a) s = s.ends (s.part.begin_.completed p (h.completion .notPrimary [])) := by
  have run : exec (.setDevice p a) s =
      .next { s with part := (s.part.begin_.answer p h .notPrimary []).settle s.env } := by
    change execSetDevice p a s = _
    simp only [execSetDevice, hands.handedAs]
    exact if_neg other
  rw [run, Device.answer_eq_completed]
  rfl

theorem exec_characterise_refused {s : State} {p : Head} {h : Handed} {c s1 s2 address : Nat}
    (hands : s.Hands p h (.characterise c s1 s2 address)) (other : s.part.hau.primary ≠ some p) :
    exec (.characterise p c s1 s2 address) s = s.ends (s.part.begin_.completed p (h.completion .notPrimary [])) := by
  refine (hands.take _).trans ?_
  rw [if_pos (show s.part.begin_.hau.primary ≠ some p from other), Device.answer_eq_completed]

/-- Settles O42. -/
theorem primaryOnlyRefused : Obligations.PrimaryOnlyRefused := by
  intro s p h i spells handed
  have hands : ∀ {cmd}, i.command = some cmd → s.Hands p h cmd := fun same =>
    ⟨handed, Option.some.inj (spells.symm.trans same)⟩
  constructor
  · intro only other
    cases i with
    | setDevice =>
      cases only
      exact exec_setDevice_refused (hands rfl) other
    | characterise =>
      cases only
      exact exec_characterise_refused (hands rfl) other
    | setChannel | channelReset | deviceClear | yieldRole =>
      cases only
      exact (hands rfl).primaryOnly_refused other _
    | _ => cases only
  · rintro code rfl
    have run : exec (.unknownCommand p code) s = s.takeReply p (.unknown code) fun m => m.refuse .badArg := rfl
    exact run.trans ((hands rfl).takeReply (r := s.part.begin_.refuse .badArg) _ rfl)

theorem Device.mem_foldl_askChoice (l : List Nat) (m : Device) (c : Nat) :
    c ∈ (l.foldl (fun m c => m.askChoice c) m).agenda.choices ↔ c ∈ m.agenda.choices ∨ c ∈ l := by
  induction l generalizing m with
  | nil => simp
  | cons a l ih =>
    have one : c ∈ (m.askChoice a).agenda.choices ↔ c ∈ m.agenda.choices ∨ c = a := by
      unfold Device.askChoice
      dsimp only
      split
      · rename_i listed
        exact ⟨.inl, fun h => h.elim id fun same => same ▸ listed⟩
      · simp
    rw [List.foldl_cons, ih, one, List.mem_cons, or_assoc]

/-- Asking for dispatch choices changes the agenda's choices alone. -/
theorem Device.foldl_askChoice_frame (l : List Nat) (m : Device) :
    l.foldl (fun m c => m.askChoice c) m =
      { m with agenda := { m.agenda with choices := (l.foldl (fun m c => m.askChoice c) m).agenda.choices } } :=
  foldl_keeps (I := fun t => t = { m with agenda := { m.agenda with choices := t.agenda.choices } })
    (fun t c same => by rw [same]; rfl) l m rfl

/-- The streams of which a changed lead flags a pass (R42). -/
theorem Device.triggerWindows_stream (m : Device) (wf : Table.wf StreamRec.reset m.streams = true) (k : Nat) :
    m.triggerWindows.stream k =
      if (m.stream k).state ≠ .closed ∧ (m.stream k).state ≠ .closing then (m.stream k).trigger else m.stream k := by
  have nodup : ((m.streams.filter fun e => e.2.state.windowed).map (·.1)).Nodup :=
    ((List.pairwise_map.2 ((Table.wf_iff _).1 wf).1).imp fun lt => Nat.ne_of_lt lt : (m.streams.map (·.1)).Nodup).sublist
      (List.filter_sublist.map _)
  have listed : k ∈ (m.streams.filter fun e => e.2.state.windowed).map (·.1) ↔
      (m.stream k).state.windowed = true :=
    Table.mem_numbers_iff wf (f := fun e => e.2.state.windowed) rfl
  have windowed : ∀ st : StreamState, st.windowed = true ↔ st ≠ .closed ∧ st ≠ .closing := fun st => by
    cases st <;> decide
  rw [Device.triggerWindows, Device.stream_foldl_onStream _ nodup]
  exact if_congr (listed.trans (windowed _)) rfl rfl

section Settings
variable {m : Device} {fitted : Nat} {old new : DeviceSettings}

theorem Device.settingsChanged_stream (wf : Table.wf StreamRec.reset m.streams = true) (k : Nat) :
    (m.settingsChanged fitted old new).stream k =
      if new.lead ≠ old.lead ∧ (m.stream k).state ≠ .closed ∧ (m.stream k).state ≠ .closing then (m.stream k).trigger
      else m.stream k := by
  have choices : ∀ (l : List Nat) (m : Device), (l.foldl (fun m c => m.askChoice c) m).stream k = m.stream k :=
    fun l m => by rw [Device.foldl_askChoice_frame]; rfl
  have lead : (m.settingsChanged fitted old new).stream k =
      (if new.lead = old.lead then m else m.triggerWindows).stream k := by
    unfold Device.settingsChanged
    dsimp only
    split
    · rfl
    · exact choices ..
  rw [lead]
  split
  · rename_i same
    exact (if_neg fun changed => changed.1 same).symm
  · rename_i changed
    rw [m.triggerWindows_stream wf k]
    exact if_congr (by simp [changed]) rfl rfl

theorem Device.settingsChanged_choices (empty : m.agenda.choices = []) (c : Nat) :
    c ∈ (m.settingsChanged fitted old new).agenda.choices ↔
      (new.urgent ≠ old.urgent ∨ new.horizon ≠ old.horizon) ∧ c < fitted := by
  have flagged : (if new.lead = old.lead then m else m.triggerWindows).agenda.choices = [] := by
    split
    · exact empty
    · rw [Device.triggerWindows, Device.foldl_onStream_frame]
      exact empty
  unfold Device.settingsChanged
  dsimp only
  split
  · rename_i same
    simp [flagged, same]
  · rename_i changed
    rw [Device.mem_foldl_askChoice, flagged, List.mem_range]
    simp only [List.not_mem_nil, false_or, iff_and_self]
    exact fun _ => by tauto

/-- What a change of settings leaves unchanged: all but the stream records and the agenda's dispatch choices. -/
theorem Device.settingsChanged_frame :
    m.settingsChanged fitted old new =
      { m with streams := (m.settingsChanged fitted old new).streams,
               agenda := { m.agenda with choices := (m.settingsChanged fitted old new).agenda.choices } } := by
  unfold Device.settingsChanged
  dsimp only
  split <;> split
  · rfl
  · rw [Device.triggerWindows, Device.foldl_onStream_frame]
  · rw [Device.foldl_askChoice_frame]
  · rw [Device.foldl_askChoice_frame, Device.triggerWindows, Device.foldl_onStream_frame]

end Settings

/-- Settles O43. -/
theorem setDevice : Obligations.SetDevice := by
  intro s p h a hands primary wf old carried urgent asked dev
  have applied : s.env.dev.apply a = dev := by
    have each : ∀ held lo hi unit x, carriedOr held lo hi unit x = carried x held lo hi unit := fun _ _ _ _ x => by
      cases x <;> rfl
    simp only [DeviceSettings.apply, each]
    rfl
  have run : exec (.setDevice p a) s = .next { s with
      env := { s.env with dev },
      part := (((s.part.begin_.settingsChanged s.env.straps.fitted old dev).answer p h .ok dev.settingWords).settle
        { s.env with dev }) } := by
    change execSetDevice p a s = _
    simp only [execSetDevice, hands.handedAs, applied]
    exact if_pos primary
  refine ⟨s.part.begin_.settingsChanged s.env.straps.fitted old dev, ?_, fun k => ?_, fun c => ?_, ?_⟩
  · rw [run, Device.answer_eq_completed]
    rfl
  · exact Device.settingsChanged_stream (m := s.part.begin_) wf k
  · exact Device.settingsChanged_choices rfl c
  · exact Device.settingsChanged_frame

end Sys2Proof.Machine
end

section
/-! PROOFS. DEVICE_CLEAR, and the loss of a head (chapter 11). -/

namespace Sys2Proof.Machine

/-! ### DEVICE_CLEAR -/

/-- A change that leaves a changed record and the reset record as they are, made at every listed number of a table, is
made to every record. -/
theorem get_foldl_idem {α : Type} [DecidableEq α] {d : α} {f : α → α} (idem : ∀ x, f (f x) = f x) (reset : f d = d)
    (t : Table α) (k : Nat) :
    Table.get d ((t.map (·.1)).foldl (fun u j => Table.set d u j (f (Table.get d u j))) t) k = f (Table.get d t k) := by
  have each : ∀ (l : List Nat) (u : Table α),
      Table.get d (l.foldl (fun u j => Table.set d u j (f (Table.get d u j))) u) k =
        if k ∈ l then f (Table.get d u k) else Table.get d u k := fun l => by
    induction l with
    | nil => exact fun _ => rfl
    | cons j l ih =>
      intro u
      rw [List.foldl_cons, ih, Table.get_set]
      by_cases same : k = j
      · simp [same, idem]
      · simp [same]
  rw [each]
  split
  · rfl
  · rename_i absent
    have unlisted : Table.get d t k = d :=
      Table.get_eq_of_not_mem _ _ fun e he g => absent (List.mem_map.2 ⟨e, he, g⟩)
    rw [unlisted, reset]

/-- The record of a stream that a device clear leaves (R39). -/
def StreamRec.cleared (x : StreamRec) : StreamRec := { x.closed with passPending := false }

theorem Device.clearStreams_eq (m : Device) :
    m.clearStreams = { m with streams := (m.streams.map (·.1)).foldl (fun t k =>
      Table.set StreamRec.reset t k (Table.get StreamRec.reset t k).cleared) m.streams } := by
  have each : ∀ (l : List Nat) (b : Device), l.foldl (fun m k => m.onStream k StreamRec.cleared) b =
      { b with streams := l.foldl (fun t k =>
          Table.set StreamRec.reset t k (Table.get StreamRec.reset t k).cleared) b.streams } := fun l => by
    induction l with
    | nil => exact fun _ => rfl
    | cons k l ih => exact fun b => ih (b.onStream k StreamRec.cleared)
  exact each _ m

theorem Device.clearClips_eq (m : Device) :
    m.clearClips = { m with clips := (m.clips.map (·.1)).foldl (fun t k =>
      Table.set Clip.reset t k (Clip.freeWith (Table.get Clip.reset t k).generation)) m.clips } := by
  have each : ∀ (l : List Nat) (b : Device),
      l.foldl (fun m k => m.setClip k (Clip.freeWith (m.clip k).generation)) b =
      { b with clips := l.foldl (fun t k =>
          Table.set Clip.reset t k (Clip.freeWith (Table.get Clip.reset t k).generation)) b.clips } := fun l => by
    induction l with
    | nil => exact fun _ => rfl
    | cons k l ih => exact fun b => ih (b.setClip k (Clip.freeWith (b.clip k).generation))
  exact each _ m

/-- What the channel resets of a device clear do: each fitted channel, and the link re-initialisations sent. -/
theorem Device.clearChannels_channel (fitted : Nat) (m : Device) :
    (∀ c, (m.clearChannels fitted).channel c = if c < fitted then (m.channel c).cleared else m.channel c) ∧
      m.clearChannels fitted = { m with channels := (m.clearChannels fitted).channels,
                                        out := m.out ++ (List.range fitted).map Output.reinitialise } := by
  unfold Device.clearChannels
  induction fitted with
  | zero => exact ⟨fun _ => rfl, by simp⟩
  | succ n ih =>
    obtain ⟨channel, frame⟩ := ih
    rw [List.range_succ, List.foldl_append, List.foldl_cons, List.foldl_nil]
    constructor
    · intro c
      rw [Device.emit_channel, Device.onChannel, Device.channel_setChannel, channel, channel]
      by_cases same : c = n
      · simp [same]
      · simp only [same, if_false]
        exact if_congr (by omega) rfl rfl
    · rw [frame]
      simp [Device.onChannel, Device.emit, Device.setChannel, List.map_append]

/-- A port write-back of two ports changes nothing but the ports. -/
theorem Device.onPorts_frame (m : Device) (p : Head) (f g : Port → Port) :
    (m.onPort p f).onPort p.other g =
      { m with portA := ((m.onPort p f).onPort p.other g).portA, portB := ((m.onPort p f).onPort p.other g).portB } := by
  cases p <;> rfl

theorem Device.onPorts_port (m : Device) (p : Head) (f g : Port → Port) :
    ((m.onPort p f).onPort p.other g).port p = f (m.port p) ∧
      ((m.onPort p f).onPort p.other g).port p.other = g (m.port p.other) := by
  cases p <;> exact ⟨rfl, rfl⟩

theorem Device.clearClips_clip (m : Device) (k : Nat) :
    m.clearStreams.clearClips.clip k = Clip.freeWith (m.clip k).generation := by
  rw [Device.clearClips_eq, Device.clearStreams_eq]
  exact get_foldl_idem (f := fun x : Clip => Clip.freeWith x.generation) (fun _ => rfl) rfl m.clips k

theorem Device.clearStreams_stream (m : Device) (k : Nat) :
    m.clearStreams.clearClips.stream k = (m.stream k).cleared := by
  rw [Device.clearClips_eq, Device.clearStreams_eq]
  exact get_foldl_idem (f := StreamRec.cleared) (fun _ => rfl) rfl m.streams k

/-- The part before DEVICE_CLEAR's effect on channels and ports. -/
def Device.emptied (straps : Straps) (m : Device) : Device :=
  { m.clearStreams.clearClips with
    slots := [], freePages := List.range' 0 straps.poolPages, reclaim := [], reqs := [] }

theorem Device.emptied_eq (m : Device) (straps : Straps) :
    m.emptied straps =
      { m with clips := (m.emptied straps).clips, streams := (m.emptied straps).streams, slots := [],
               freePages := List.range' 0 straps.poolPages, reclaim := [], reqs := [] } := by
  unfold Device.emptied
  rw [Device.clearClips_eq, Device.clearStreams_eq]

theorem Port.cleared_eq (x : Port) (places : Nat) :
    x.cleared places =
      { x with progress := match x.progress with
                 | .reading since | .discarding since => .discarding since
                 | .idle | .handed _ | .loading => .idle,
               places, completions := [], mover := none, write := none, stall := false, stateQueue := [],
               ev := { x.ev with request := 0, inService := 0 } } := by
  unfold Port.cleared Progress.cleared
  cases x.progress <;> rfl

/-- Settles O46: the clear of each block, the ports last. -/
theorem deviceClear : Obligations.DeviceClear := by
  intro s p h hands primary cleared
  let b := s.part.begin_
  let m := b.clear s.env.straps p
  let d := b.emptied s.env.straps
  let e := d.clearChannels s.env.straps.fitted
  have emptied : d = _ := b.emptied_eq s.env.straps
  obtain ⟨channel, resets⟩ : _ ∧ e = _ := d.clearChannels_channel s.env.straps.fitted
  have ports : m = { e with portA := m.portA, portB := m.portB } :=
    e.onPorts_frame p (·.cleared 1) (·.cleared 0)
  obtain ⟨own, other⟩ := e.onPorts_port p (·.cleared 1) (·.cleared 0)
  have same : ∀ q, e.port q = s.part.port q := fun q => by
    rw [resets, emptied]
    cases q <;> rfl
  have channels : ∀ c, d.channel c = s.part.channel c := fun c => by
    rw [emptied]
    rfl
  refine ⟨m, (hands.primaryTaken primary rfl).trans rfl, fun k => ?_, fun k => ?_, fun n => ?_, ?_, ?_, fun r => ?_, ?_,
    fun c => ?_, ?_, ?_, ?_, ?_⟩
  · rw [ports, resets]
    exact b.clearClips_clip k
  · rw [ports, resets]
    exact b.clearStreams_stream k
  · rw [ports, resets]
    rfl
  · rw [ports, resets]
    exact List.range_eq_range'.symm
  · rw [ports, resets]
    rfl
  · rw [ports, resets]
    rfl
  · rw [ports, resets, emptied]
    rfl
  · rw [ports]
    refine (channel c).trans ?_
    rw [channels]
    rfl
  · exact own.trans ((congrArg (Port.cleared · 1) (same p)).trans (Port.cleared_eq ..))
  · exact other.trans ((congrArg (Port.cleared · 0) (same p.other)).trans (Port.cleared_eq ..))
  · rw [ports, resets, emptied]
    rfl
  · rw [ports, resets, emptied]
    rfl

/-! ### The loss of a head -/

/-- The counts of the MISSED notices that leave an outbox, each sum stopped at 65,535 (R141). -/
theorem foldl_stop16 {β : Type} (count : β → Nat) (l : List β) (a : Nat) :
    l.foldl (fun a e => stop16 (a + count e)) a =
      if l.isEmpty then a else min (a + (l.map count).sum) 65535 := by
  induction l generalizing a with
  | nil => rfl
  | cons e l ih =>
    rw [List.foldl_cons, ih, stop16]
    cases l with
    | nil => simp
    | cons f l =>
      simp only [List.isEmpty_cons, Bool.false_eq_true, if_false, List.map_cons, List.sum_cons]
      omega

/-- The record that a stream keeps when it loses its owner (R176, R141). -/
def StreamRec.ownerLost (x : StreamRec) : StreamRec := { x.clearOutbox with ownerAbsent := true, delivery := [] }

/-- The counts and last frames of the MISSED notices of an outbox. -/
def missedNotices (outbox : List Notice) : List (Nat × Nat) :=
  outbox.filterMap fun y => match y with | .missed count last => some (count, last) | _ => none

theorem StreamRec.ownerLost_eq (x : StreamRec) :
    x.ownerLost =
      { x with
          ownerAbsent := true, delivery := [],
          outbox := x.outbox.filter fun y => match y with | .ended _ => true | _ => false,
          missedCount := if missedNotices x.outbox = [] then x.missedCount
            else min (x.missedCount + ((missedNotices x.outbox).map (·.1)).sum) 65535,
          lastMissed := if x.missedCount = 0 then ((missedNotices x.outbox).getLast?.map (·.2)).getD x.lastMissed
            else x.lastMissed } := by
  have count := foldl_stop16 (fun e : Nat × Nat => e.1) (missedNotices x.outbox) x.missedCount
  simp only [List.isEmpty_iff] at count
  rw [← count]
  rfl

/-- The pins of the listed delivery entries are released; the stream records stay. -/
theorem Device.releasePins_streams (now : Time) (l : List DelEntry) (m : Device) :
    (l.foldl (fun m d => m.releasePin now d.slot) m).streams = m.streams :=
  (quiet_streams m).releasePins now DelEntry.slot l rfl

/-- The part in which stream `k` has lost its owner and the pins of its delivery list are still to be released. -/
def Device.ownerGone (k : Nat) (m : Device) : Device := (m.setStream k (m.stream k).ownerLost).detach k

theorem Device.loseOwner_eq (now : Time) (k : Nat) (m : Device) :
    m.loseOwner now k =
      ((m.stream k).delivery.foldl (fun m d => m.releasePin now d.slot) (m.ownerGone k)).closeIfEmpty k := by
  have record : ((m.onStream k fun x => { x.clearOutbox with ownerAbsent := true }).detach k).stream k =
      { (m.stream k).clearOutbox with ownerAbsent := true } := m.stream_setStream_same k _
  have written : ((m.onStream k fun x => { x.clearOutbox with ownerAbsent := true }).detach k).onStream k
      (fun x => { x with delivery := [] }) = m.ownerGone k := by
    rw [Device.onStream, record]
    exact congrArg (Device.detach · k) (Loose.setStream_setStream ..)
  unfold Device.loseOwner Device.dropDelivery
  dsimp only
  rw [written, record]
  rfl

section LoseOwner
variable (m : Device) (now : Time) (k : Nat)

/-- The part after the pins of the delivery list are released. -/
def Device.ownerReleased : Device :=
  (m.stream k).delivery.foldl (fun m d => m.releasePin now d.slot) (m.ownerGone k)

theorem Device.ownerReleased_stream (j : Nat) :
    (m.ownerReleased now k).stream j = if j = k then (m.stream k).ownerLost else m.stream j :=
  (congrArg (Table.get StreamRec.reset · j) (Device.releasePins_streams ..)).trans (m.stream_setStream k j _)

theorem Device.loseOwner_open (open_ : (m.stream k).state ≠ .closing) :
    m.loseOwner now k = m.ownerReleased now k := by
  have record := m.ownerReleased_stream now k k
  rw [if_pos rfl] at record
  exact (m.loseOwner_eq now k).trans (if_neg fun ⟨closing, _⟩ => open_ ((congrArg (·.state) record).symm.trans closing))

theorem Device.loseOwner_closing (closing : (m.stream k).state = .closing) :
    m.loseOwner now k = (m.ownerReleased now k).closeStream k := by
  have record := m.ownerReleased_stream now k k
  rw [if_pos rfl] at record
  exact (m.loseOwner_eq now k).trans (if_pos ⟨(congrArg (·.state) record).trans closing, congrArg (·.delivery) record⟩)

theorem Device.loseOwner_other {j : Nat} (other : j ≠ k) : (m.loseOwner now k).stream j = m.stream j := by
  have kept := m.ownerReleased_stream now k j
  rw [if_neg other] at kept
  by_cases closing : (m.stream k).state = .closing
  · rw [m.loseOwner_closing now k closing, Device.closeStream_stream, if_neg other, kept]
  · rw [m.loseOwner_open now k closing, kept]

end LoseOwner

/-- A channel whose characterisation, if port `p` issued it, will make no completion (R131, R161). -/
def Channel.discarded (p : Head) (ch : Channel) : Channel :=
  match ch.char with
  | some y => if y.issuer = p then { ch with char := some { y with discard := true } } else ch
  | none => ch

/-- The mark on one channel. -/
def Device.discardChar (p : Head) (m : Device) (c : Nat) : Device :=
  match (m.channel c).char with
  | some x => if x.issuer = p then m.onChannel c fun ch => { ch with char := some { x with discard := true } } else m
  | none => m

theorem Device.discardChar_channel (p : Head) (m : Device) (c : Nat) :
    (∀ j, (m.discardChar p c).channel j = if j = c then (m.channel j).discarded p else m.channel j) ∧
      m.discardChar p c = { m with channels := (m.discardChar p c).channels } := by
  have unchanged : (m.channel c).discarded p = m.channel c →
      ∀ j, m.channel j = if j = c then (m.channel j).discarded p else m.channel j := fun same j => by
    split
    · rename_i here
      rw [here, same]
    · rfl
  unfold Device.discardChar
  cases char : (m.channel c).char with
  | none => exact ⟨unchanged (by simp only [Channel.discarded, char]), rfl⟩
  | some x =>
    by_cases mine : x.issuer = p
    · simp only [mine, if_true]
      refine ⟨fun j => ?_, rfl⟩
      rw [Device.onChannel, Device.channel_setChannel]
      refine if_ctx_congr Iff.rfl (fun here => ?_) fun _ => rfl
      simp only [here, Channel.discarded, char, mine, if_true]
    · simp only [mine, if_false]
      exact ⟨unchanged (by simp only [Channel.discarded, char, mine, if_false]), trivial⟩

theorem Device.discardChars_channel (fitted : Nat) (p : Head) (m : Device) :
    (∀ c, (m.discardChars fitted p).channel c =
      if c < fitted then (m.channel c).discarded p else m.channel c) ∧
    m.discardChars fitted p = { m with channels := (m.discardChars fitted p).channels } := by
  change (∀ c, ((List.range fitted).foldl (Device.discardChar p) m).channel c = _) ∧
    (List.range fitted).foldl (Device.discardChar p) m = { m with channels := ((List.range fitted).foldl
      (Device.discardChar p) m).channels }
  induction fitted with
  | zero => exact ⟨fun c => rfl, rfl⟩
  | succ n ih =>
    obtain ⟨channel, frame⟩ := ih
    rw [List.range_succ, List.foldl_append, List.foldl_cons, List.foldl_nil]
    obtain ⟨last, lastFrame⟩ := ((List.range n).foldl (Device.discardChar p) m).discardChar_channel p n
    constructor
    · intro c
      rw [last, channel]
      by_cases same : c = n
      · simp [same]
      · simp only [same, if_false]
        exact if_congr (by omega) rfl rfl
    · rw [lastFrame]
      generalize (Device.discardChar p ((List.range n).foldl (Device.discardChar p) m) n).channels = channels
      rw [frame]

theorem Port.abandonStreamWrite_eq (x : Port) :
    x.abandonStreamWrite =
      { x with write := if x.write = some .completion ∨ x.write = some .state then x.write else none } := by
  unfold Port.abandonStreamWrite
  rcases write : x.write with _ | ⟨_ | _ | _ | _⟩
  · simp only [reduceCtorEq, or_self, if_false]
    rw [← write]
  · simp only [true_or, if_true]
    rw [← write]
  · simp only [or_true, if_true]
    rw [← write]
  · simp
  · simp

/-- Settles O48: the ports' part of each loss, and the loss of one stream's owner. -/
theorem headLost : Obligations.HeadLost := by
  constructor
  · intro s p reachable x gone lost
    have loses : ∀ m : Device, m.hau = s.part.hau → m.loseHead s.env p = lost m := fun m hau => by
      simp only [Device.loseHead, lost, hau]
      cases (s.part.hau.head p).present <;> rfl
    obtain ⟨channel, frame⟩ := (s.part.begin_.setPort p Port.reset).discardChars_channel s.env.straps.fitted p
    have reset : ∀ q, ((s.part.begin_.setPort p Port.reset).discardChars s.env.straps.fitted p).port q =
        if q = p then Port.reset else s.part.port q := fun q => by
      rw [frame]
      exact Device.port_setPort ..
    have hau : ((s.part.begin_.setPort p Port.reset).discardChars s.env.straps.fitted p).hau = s.part.hau := by
      rw [frame]
      exact Device.setPort_hau ..
    have resets : s.event (·.resetPort s.env p) =
        s.ends (lost ((s.part.begin_.setPort p Port.reset).discardChars s.env.straps.fitted p)) :=
      congrArg s.ends (loses _ hau)
    refine ⟨?_, (s.part.begin_.setPort p Port.reset).discardChars s.env.straps.fitted p, ?_, ?_,
      (reset p).trans (if_pos rfl), (reset p.other).trans (if_neg (Head.other_ne p)), fun c => ?_, ?_⟩
    · have withdrawn : (s.part.begin_.onPort p fun port => { port.abandonStreamWrite with annWeight := 0, annNonce := 0 }) =
          s.part.begin_.setPort p
            { x with annWeight := 0, annNonce := 0,
                     write := if x.write = some .completion ∨ x.write = some .state then x.write else none } := by
        rw [Device.onPort, Device.begin_port, Port.abandonStreamWrite_eq]
      exact (if_pos reachable).trans (congrArg s.ends
        ((congrArg (Device.loseHead s.env p) withdrawn).trans (loses _ (Device.setPort_hau ..))))
    · exact (if_pos reachable).trans resets
    · exact (if_pos reachable).trans resets
    · rw [channel, Device.setPort_channel]
      change (if _ then (s.part.channel c).discarded p else s.part.channel c) = _
      unfold Channel.discarded
      cases (s.part.channel c).char with
      | none => exact ite_self _
      | some y => simp only [ite_and]
    · rw [frame]
      cases p <;> rfl
  · intro m now k x lost kept unwritten b t
    have record : kept = x.ownerLost := x.ownerLost_eq.symm
    have released : t = m.ownerReleased now k := by
      have start : b = m.ownerGone k := by
        simp only [b, record]
        rfl
      exact congrArg (fun b => x.delivery.foldl (fun m d => m.releasePin now d.slot) b) start
    have stream := m.ownerReleased_stream now k k
    rw [if_pos rfl, ← released] at stream
    refine ⟨fun open_ => ⟨released ▸ m.loseOwner_open now k open_, record ▸ stream⟩, fun closing => ?_,
      fun j => m.loseOwner_other now k⟩
    rw [Device.closeStream_stream, if_pos rfl, stream, record, released]
    exact ⟨m.loseOwner_closing now k closing, rfl, rfl, rfl, rfl⟩

end Sys2Proof.Machine
end

section
/-! PROOFS. The outcome of a read (sections 6.4 and 6.5). -/

namespace Sys2Proof.Machine

/-! ### What the operations of a read leave -/

/-- A change of window entries changes stream records and the checks asked, whatever the tables. -/
theorem Device.setEntries_frame (n : Nat) (f : WinEntry → WinEntry) (m : Device) :
    m.setEntries n f = { m with streams := (m.setEntries n f).streams,
                                agenda := { m.agenda with checks := (m.setEntries n f).agenda.checks } } := by
  unfold Device.setEntries
  refine foldl_keeps
    (I := fun t => t = { m with streams := t.streams, agenda := { m.agenda with checks := t.agenda.checks } }) (fun t e same => ?_) _ _ rfl
  split
  · rw [same]
    dsimp only
    split <;> rfl
  · exact same

/-- A segment that stops waiting (R89, R111). -/
def Segment.withdrawn (g : Segment) : Segment :=
  if g.status = .unissued ∨ g.status = .queued then { g with status := .withdrawn } else g

/-- A slot whose waiting segments are withdrawn. -/
def Slot.withdrawn (x : Slot) : Slot := { x with segs := x.segs.map Segment.withdrawn }

/-- The QUEUED records of slot `n` with their numbers. -/
def Device.queuedFor (m : Device) (n : Nat) : List (Nat × Request) :=
  m.reqs.filter fun e => decide (e.2.slot = n) && decide (e.2.state = .queued)

/-- Records made FREE one after another. -/
theorem Device.foldl_freeReq (l : List (Nat × Request)) (m : Device) :
    (∀ j, (l.foldl (fun b (e : Nat × Request) => b.setReq e.1 Request.free) m).req j =
      if j ∈ l.map (·.1) then Request.free else m.req j) ∧
    l.foldl (fun b (e : Nat × Request) => b.setReq e.1 Request.free) m =
      { m with reqs := (l.foldl (fun b (e : Nat × Request) => b.setReq e.1 Request.free) m).reqs } := by
  refine ⟨fun j => ?_, foldl_keeps (I := fun t => t = { m with reqs := t.reqs })
    (f := fun b (e : Nat × Request) => b.setReq e.1 Request.free) (fun t e same => by rw [same]; rfl) l m rfl⟩
  induction l generalizing m with
  | nil => rfl
  | cons e l ih =>
    rw [List.foldl_cons, ih, Device.req_setReq]
    by_cases same : j = e.1
    · simp [same]
    · rw [if_neg same]
      exact if_congr (by simp [same]) rfl rfl

/-- The recheck timers of the records' channels are unset where their queues are empty (R111). -/
def Device.unsetRecheck (m : Device) (e : Nat × Request) : Device :=
  if (m.queue e.2.channel).isEmpty then m.onChannel e.2.channel fun ch => { ch with recheck := none } else m

theorem Device.foldl_unsetRecheck (l : List (Nat × Request)) (m : Device) :
    (∀ c, (l.foldl Device.unsetRecheck m).channel c =
      if (∃ e ∈ l, e.2.channel = c) ∧ m.queue c = [] then { m.channel c with recheck := none } else m.channel c) ∧
    l.foldl Device.unsetRecheck m = { m with channels := (l.foldl Device.unsetRecheck m).channels } := by
  induction l generalizing m with
  | nil => exact ⟨fun c => (if_neg (by simp)).symm, rfl⟩
  | cons e l ih =>
    have one : (∀ c, (m.unsetRecheck e).channel c =
        if e.2.channel = c ∧ m.queue c = [] then { m.channel c with recheck := none } else m.channel c) ∧
        m.unsetRecheck e = { m with channels := (m.unsetRecheck e).channels } := by
      unfold Device.unsetRecheck
      split
      · rename_i empty
        refine ⟨fun c => ?_, rfl⟩
        rw [Device.onChannel, Device.channel_setChannel]
        by_cases here : c = e.2.channel
        · subst here
          simp [List.isEmpty_iff.1 empty]
        · rw [if_neg here, if_neg fun h => here h.1.symm]
      · rename_i some_
        refine ⟨fun c => (if_neg ?_).symm, rfl⟩
        rintro ⟨rfl, empty⟩
        exact some_ (List.isEmpty_iff.2 empty)
    obtain ⟨channel, frame⟩ := ih (m.unsetRecheck e)
    have queue : ∀ c, (m.unsetRecheck e).queue c = m.queue c := fun c => by rw [one.2]; rfl
    constructor
    · intro c
      rw [List.foldl_cons, channel, queue, one.1]
      simp only [List.mem_cons, exists_eq_or_imp]
      by_cases empty : m.queue c = []
      · by_cases here : e.2.channel = c
        · simp [empty, here]
        · by_cases later : ∃ a ∈ l, a.2.channel = c
          · rw [if_pos ⟨later, empty⟩, if_neg (fun h => here h.1), if_pos ⟨.inr later, empty⟩]
          · rw [if_neg (fun h => later h.1), if_neg (fun h => here h.1), if_neg (fun h => h.1.elim here later)]
      · simp [empty]
    · rw [List.foldl_cons, frame, one.2]

section Withdraw
variable (m : Device) (n : Nat)

/-- The part whose slot `n` has lost its waiting segments and its QUEUED records. -/
def Device.waitingGone : Device :=
  ((m.queuedFor n).foldl (fun b (e : Nat × Request) => b.setReq e.1 Request.free) m).onSlot n Slot.withdrawn

theorem Device.withdraw_eq : m.withdraw n = (m.queuedFor n).foldl Device.unsetRecheck (m.waitingGone n) := rfl

theorem Device.waitingGone_frame :
    m.waitingGone n = { m with reqs := (m.waitingGone n).reqs, slots := (m.waitingGone n).slots } := by
  unfold Device.waitingGone
  rw [(Device.foldl_freeReq (m.queuedFor n) m).2]
  rfl

theorem Device.withdraw_frame :
    m.withdraw n = { m with reqs := (m.waitingGone n).reqs, slots := (m.waitingGone n).slots,
                            channels := (m.withdraw n).channels } := by
  have frame : m.withdraw n = { m.waitingGone n with channels := (m.withdraw n).channels } :=
    (Device.foldl_unsetRecheck (m.queuedFor n) (m.waitingGone n)).2
  rw [frame, m.waitingGone_frame n]

theorem Device.withdraw_slot (j : Nat) :
    (m.withdraw n).slot j = if j = n then (m.slot n).withdrawn else m.slot j := by
  rw [m.withdraw_frame n]
  change (m.waitingGone n).slot j = _
  unfold Device.waitingGone
  rw [(Device.foldl_freeReq (m.queuedFor n) m).2]
  exact Device.slot_setSlot ..

theorem Device.withdraw_req (j : Nat) :
    (m.withdraw n).req j = if j ∈ (m.queuedFor n).map (·.1) then Request.free else m.req j := by
  rw [m.withdraw_frame n]
  exact (Device.foldl_freeReq (m.queuedFor n) m).1 j

/-- A FREE record stays FREE. -/
theorem Device.withdraw_req_free {j : Nat} (free : m.req j = Request.free) : (m.withdraw n).req j = Request.free := by
  rw [m.withdraw_req n j, free, ite_self]

theorem Device.withdraw_channel (c : Nat) :
    (m.withdraw n).channel c =
      if (∃ e ∈ m.queuedFor n, e.2.channel = c) ∧ (m.waitingGone n).queue c = [] then
        { m.channel c with recheck := none }
      else m.channel c := by
  rw [m.withdraw_eq n, (Device.foldl_unsetRecheck _ _).1]
  rw [show (m.waitingGone n).channel c = m.channel c by rw [m.waitingGone_frame n]; rfl]

end Withdraw

section FailSlot
variable (m : Device) (n : Nat) (cause : Cause)

/-- A failed slot (R92). -/
theorem Device.failSlot_slot (j : Nat) :
    (m.failSlot n cause).slot j =
      if j = n then { (m.slot n).withdrawn with state := .failed, cause := some cause } else m.slot j := by
  have slots : (m.failSlot n cause).slots =
      ((m.withdraw n).onSlot n fun x => { x with state := .failed, cause := some cause }).slots := by
    unfold Device.failSlot
    rw [Device.setEntries_frame]
  refine (congrArg (Table.get Slot.free · j) slots).trans ((Device.slot_setSlot ..).trans ?_)
  rw [m.withdraw_slot, if_pos rfl]
  refine if_ctx_congr Iff.rfl (fun _ => rfl) fun other => ?_
  rw [m.withdraw_slot, if_neg other]

theorem Device.failSlot_reqs : (m.failSlot n cause).reqs = (m.withdraw n).reqs := by
  unfold Device.failSlot
  rw [Device.setEntries_frame]
  rfl

end FailSlot

theorem Device.joinQueue_frame (now : Time) (c : Nat) (m : Device) :
    m.joinQueue now c =
      { m with channels := (m.joinQueue now c).channels, out := (m.joinQueue now c).out,
               agenda := { m.agenda with choices := (m.joinQueue now c).agenda.choices } } := by
  unfold Device.joinQueue Device.wake
  split
  · rw [Device.send_eq]
    split <;> rfl
  · rfl

/-- A record back in its queue (R107, R110). -/
def Request.requeued (q : Request) (retries : Nat) : Request :=
  { q with state := .queued, retries := retries, cls := none, tag := none }

theorem Device.requeue_frame (now : Time) (r retries : Nat) (m : Device) :
    m.requeue now r retries =
      { (m.setReq r ((m.req r).requeued retries)).onSlot (m.req r).slot (·.setSeg (m.req r).seg .queued) with
        channels := (m.requeue now r retries).channels, out := (m.requeue now r retries).out,
        agenda := { m.agenda with choices := (m.requeue now r retries).agenda.choices } } :=
  Device.joinQueue_frame ..

/-- A record requeued, and its segment. -/
theorem Device.requeue_tables (now : Time) (r retries : Nat) (m : Device) :
    (m.requeue now r retries).req r = (m.req r).requeued retries ∧
      (m.requeue now r retries).slot (m.req r).slot = (m.slot (m.req r).slot).setSeg (m.req r).seg .queued := by
  have reqs : (m.requeue now r retries).reqs = (m.setReq r ((m.req r).requeued retries)).reqs := by
    rw [Device.requeue_frame]
    rfl
  have slots : (m.requeue now r retries).slots =
      (m.onSlot (m.req r).slot (·.setSeg (m.req r).seg .queued)).slots := by
    rw [Device.requeue_frame]
    rfl
  exact ⟨(congrArg (Table.get Request.free · r) reqs).trans (Device.req_setReq_same ..),
    (congrArg (Table.get Slot.free · (m.req r).slot) slots).trans (Device.slot_setSlot_same ..)⟩

theorem Device.spend_req (r : Nat) (st : SegStatus) (m : Device) : (m.spend r st).req r = Request.free :=
  (Device.req_setReq_same m r Request.free : (m.setReq r Request.free).req r = Request.free)

theorem Device.spend_slot (r : Nat) (st : SegStatus) (m : Device) :
    (m.spend r st).slot (m.req r).slot = (m.slot (m.req r).slot).setSeg (m.req r).seg st :=
  Device.slot_setSlot_same ..

/-- A slot with no read in flight that an outcome leaves ABANDONED, or FAILED without pins, is freed (R93). -/
theorem Device.endedRead_eq (n : Nat) (m : Device) :
    m.endedRead n =
      if (m.slot n).count .inFlight = 0 ∧
          ((m.slot n).state = .abandoned ∨ ((m.slot n).state = .failed ∧ (m.slot n).pins = 0)) then m.freeSlot n
      else m := by
  unfold Device.endedRead
  dsimp only
  by_cases flight : (m.slot n).count .inFlight = 0
  · rw [if_pos flight]
    cases state : (m.slot n).state <;> simp [flight]
  · rw [if_neg flight, if_neg fun h => flight h.1]

/-! ### The outcomes -/

section Outcome
variable {m : Device} {now : Time} {r : Nat} {o : ReadOutcome}

/-- A read fails its slot (R107 to R109, R112; log 29). -/
def Device.Lost (m : Device) (r : Nat) (o : ReadOutcome) : Prop :=
  o ≠ .good ∧ ((m.channel (m.req r).channel).state = .faulted ∨ o = .address ∨
    (o = .retryable ∧ (m.channel (m.req r).channel).retryLimit ≤ (m.req r).retries))

/-- The cause of a final failure. -/
def Device.lostCause (m : Device) (r : Nat) (o : ReadOutcome) : Cause :=
  if (m.channel (m.req r).channel).state = .faulted then .channelFault else if o = .address then .address else .medium

theorem Device.readOutcome_good (filling : (m.slot (m.req r).slot).state = .filling) :
    m.readOutcome now r .good = m.goodRead now r := by
  simp only [Device.readOutcome, filling]

theorem Device.readOutcome_lost (filling : (m.slot (m.req r).slot).state = .filling) (lost : m.Lost r o) :
    m.readOutcome now r o = m.finalFailure r (m.lostCause r o) := by
  obtain ⟨notGood, why⟩ := lost
  unfold Device.lostCause
  by_cases faulted : (m.channel (m.req r).channel).state = .faulted
  · cases o with
    | good => contradiction
    | retryable | address | returned => simp only [Device.readOutcome, filling, faulted, if_true]
  · have why := why.resolve_left faulted
    cases o with
    | good => contradiction
    | retryable =>
      have spent : ¬ (m.req r).retries < (m.channel (m.req r).channel).retryLimit := by
        simpa using why
      simp [Device.readOutcome, filling, faulted, spent]
    | address => simp [Device.readOutcome, filling, faulted]
    | returned => simp at why

/-- A read that goes back to its queue: with a retry counted, or as it was (R107, R110). -/
theorem Device.readOutcome_back (filling : (m.slot (m.req r).slot).state = .filling) (notGood : o ≠ .good)
    (kept : ¬ m.Lost r o) :
    ∃ channels, m.readOutcome now r o =
      { m.requeue now r (if o = .retryable then (m.req r).retries + 1 else (m.req r).retries) with channels } := by
  have sound : (m.channel (m.req r).channel).state ≠ .faulted := fun faulted => kept ⟨notGood, .inl faulted⟩
  cases o with
  | good => contradiction
  | address => exact absurd ⟨notGood, .inr (.inl rfl)⟩ kept
  | retryable =>
    have again : (m.req r).retries < (m.channel (m.req r).channel).retryLimit :=
      Nat.not_le.1 fun spent => kept ⟨notGood, .inr (.inr ⟨rfl, spent⟩)⟩
    refine ⟨((m.requeue now r ((m.req r).retries + 1)).onChannel (m.req r).channel fun ch =>
      { ch with retries := count32 ch.retries }).channels, ?_⟩
    simp only [Device.readOutcome, filling, sound, again, if_true, if_false]
    rfl
  | returned =>
    refine ⟨(m.requeue now r (m.req r).retries).channels, ?_⟩
    simp only [Device.readOutcome, filling, sound, if_false, reduceCtorEq]

theorem Device.readOutcome_ended (other : (m.slot (m.req r).slot).state ≠ .filling) :
    m.readOutcome now r o = (m.spend r (if o = .good then .done else .withdrawn)).endedRead (m.req r).slot := by
  unfold Device.readOutcome
  dsimp only
  split
  · contradiction
  · rfl

end Outcome

/-! ### The good end -/

/-- The part after a good end, before its slot is staged (R106). -/
def Device.readDone (r : Nat) (m : Device) : Device :=
  (m.spend r .done).onChannel (m.req r).channel fun ch => { ch with goodEnds := count32 ch.goodEnds }

theorem Device.readDone_slot (r : Nat) (m : Device) :
    (m.readDone r).slot (m.req r).slot = (m.slot (m.req r).slot).setSeg (m.req r).seg .done := m.spend_slot r .done

theorem Device.goodRead_eq (now : Time) (r : Nat) (m : Device) :
    m.goodRead now r =
      if ∀ g ∈ ((m.slot (m.req r).slot).setSeg (m.req r).seg .done).segs, g.status = .done then
        (m.readDone r).stageSlot now (m.req r).slot
      else m.readDone r := by
  refine if_congr ?_ rfl rfl
  rw [show (((m.spend r .done).onChannel (m.req r).channel fun ch =>
    { ch with goodEnds := count32 ch.goodEnds }).slot (m.req r).slot) = _ from m.readDone_slot r]
  simp

theorem Device.stageSlot_slot (now : Time) (n : Nat) (m : Device) :
    (m.stageSlot now n).slot n = { m.slot n with state := .staged } ∧ (m.stageSlot now n).reqs = m.reqs := by
  have tables : (m.stageSlot now n).slots = (m.onSlot n fun x => { x with state := .staged }).slots ∧
      (m.stageSlot now n).reqs = m.reqs := by
    unfold Device.stageSlot
    rw [Device.setEntries_frame]
    exact ⟨rfl, rfl⟩
  exact ⟨(congrArg (Table.get Slot.free · n) tables.1).trans (Device.slot_setSlot_same ..), tables.2⟩

theorem Device.stageSlot_marks (now : Time) (r : Nat) (m : Device) (wf : Table.wf StreamRec.reset m.streams = true) :
    m.Marks (m.req r).slot (fun w => { w with state := .staged, late := decide (w.due < now) })
      ((m.readDone r).stageSlot now (m.req r).slot) :=
  Device.setEntries_marks _ _ wf rfl rfl

theorem Device.finalFailure_req (r : Nat) (cause : Cause) (m : Device) :
    (m.finalFailure r cause).req r = Request.free := by
  refine (congrArg (Table.get Request.free · r) (Device.failSlot_reqs ..)).trans ?_
  exact Device.withdraw_req_free _ _ (m.spend_req r .withdrawn)

theorem Device.finalFailure_slot (r : Nat) (cause : Cause) (m : Device) :
    (m.finalFailure r cause).slot (m.req r).slot =
      { ((m.slot (m.req r).slot).setSeg (m.req r).seg .withdrawn).withdrawn with
        state := .failed, cause := some cause } := by
  refine (Device.failSlot_slot ..).trans ((if_pos rfl).trans ?_)
  exact congrArg (fun x : Slot => { x.withdrawn with state := .failed, cause := some cause }) (m.spend_slot r .withdrawn)

/-- Settles O57: a good end, a return to the queue, a final failure, and a read whose slot is not FILLING. -/
theorem readOutcomes : Obligations.ReadOutcomes := by
  intro m now r o q x ch t lost done ended
  have good : x.state = .filling → o = .good → t =
      if ∀ g ∈ done.segs, g.status = .done then (m.readDone r).stageSlot now q.slot else m.readDone r := by
    rintro filling rfl
    exact (Device.readOutcome_good filling).trans (m.goodRead_eq now r)
  have fails : x.state = .filling → lost → t = m.finalFailure r (m.lostCause r o) := fun filling isLost =>
    Device.readOutcome_lost filling isLost
  have back : x.state = .filling → o ≠ .good → ¬ lost → ∃ channels, t =
      { m.requeue now r (if o = .retryable then q.retries + 1 else q.retries) with channels } :=
    fun filling notGood kept => Device.readOutcome_back filling notGood kept
  have ends : x.state ≠ .filling → t =
      if ended.count .inFlight = 0 ∧ (x.state = .abandoned ∨ (x.state = .failed ∧ x.pins = 0)) then
        (m.spend r (if o = .good then .done else .withdrawn)).freeSlot q.slot
      else m.spend r (if o = .good then .done else .withdrawn) := fun other => by
    have slot : (m.spend r (if o = .good then .done else .withdrawn)).slot q.slot = ended := m.spend_slot r _
    rw [show t = _ from Device.readOutcome_ended other, Device.endedRead_eq, slot]
    rfl
  refine ⟨fun filling isGood => ?_, fun filling notGood kept => ?_, fun filling isLost => ?_, fun other => ?_, ?_⟩
  · rw [good filling isGood]
    split
    · obtain ⟨slot, reqs⟩ := (m.readDone r).stageSlot_slot now q.slot
      exact ⟨(congrArg (Table.get Request.free · r) reqs).trans (m.spend_req r .done),
        slot.trans (congrArg (fun y : Slot => { y with state := .staged }) (m.readDone_slot r))⟩
    · have same : { done with state := .filling } = done := by
        rw [← filling]
        rfl
      rw [same]
      exact ⟨m.spend_req r .done, m.readDone_slot r⟩
  · obtain ⟨channels, eq⟩ := back filling notGood kept
    rw [eq]
    exact m.requeue_tables now r _
  · rw [fails filling isLost, m.finalFailure_slot r]
    exact ⟨m.finalFailure_req r _, rfl, rfl, rfl, rfl⟩
  · rw [ends other]
    split
    · exact ⟨m.spend_req r (if o = .good then .done else .withdrawn), (Stable.freeSlot_slot ..).trans (if_pos rfl)⟩
    · exact ⟨m.spend_req r _, m.spend_slot r _⟩
  · intro wf enter
    refine ⟨fun filling isGood all => ?_, fun filling isLost => ?_, ?_⟩
    · have marks : m.Marks q.slot _ t :=
        ((good filling isGood).trans (if_pos all)).symm ▸ m.stageSlot_marks now r wf
      exact ⟨marks.stream, marks.checks⟩
    · have marks : m.Marks q.slot _ t :=
        (fails filling isLost).symm ▸ m.finalFailure_marks r (m.lostCause r o) wf
      exact ⟨marks.stream, marks.checks⟩
    · rintro (other | ⟨isGood, g, mem, open_⟩ | ⟨notGood, kept⟩)
      · rw [ends other]
        split <;> exact ⟨rfl, rfl⟩
      · by_cases filling : x.state = .filling
        · rw [good filling isGood, if_neg fun all => open_ (all g mem)]
          exact ⟨rfl, rfl⟩
        · rw [ends filling]
          split <;> exact ⟨rfl, rfl⟩
      · by_cases filling : x.state = .filling
        · obtain ⟨channels, eq⟩ := back filling notGood kept
          rw [eq, Device.requeue_frame]
          exact ⟨rfl, rfl⟩
        · rw [ends filling]
          split <;> exact ⟨rfl, rfl⟩

end Sys2Proof.Machine
end

section
/-! PROOFS. The ends of reads and probes, and the estimator (chapter 7). -/

namespace Sys2Proof.Machine

/-! ### Changes of one channel -/

theorem Device.setChannel_setChannel (m : Device) (c : Nat) (v w : Channel) :
    (m.setChannel c v).setChannel c w = m.setChannel c w := by
  simp only [Device.setChannel, Table.set_set]

theorem Device.onChannel_setChannel (m : Device) (c : Nat) (v : Channel) (f : Channel → Channel) :
    (m.setChannel c v).onChannel c f = m.setChannel c (f v) := by
  rw [Device.onChannel, Device.channel_setChannel_same, Device.setChannel_setChannel]

/-! ### The estimator -/

section Learn
variable (m : Device) (c : Nat) (err : Int)

/-- The drift run after an error (R128). -/
def Channel.nextRun (x : Channel) (err : Int) : Nat :=
  if x.driftMs * 1000000 < err.natAbs then x.driftRun + 1 else 0

theorem Device.learn_eq :
    m.learn c err =
      if 8 ≤ (m.channel c).nextRun err then
        (m.setChannel c { (m.channel c).learn err with
          driftRun := 0, drifts := count32 (m.channel c).drifts }).raiseBoth .drift
      else m.setChannel c { (m.channel c).learn err with driftRun := (m.channel c).nextRun err } := by
  unfold Device.learn
  dsimp only
  rw [Device.onChannel, Device.channel_setChannel_same, Device.onChannel_setChannel, Device.onChannel_setChannel]
  rfl

end Learn

/-! ### Probes and draining -/

theorem LinkMessage.probe_bytes (block count : Nat) :
    (LinkMessage.read 0 block count true).bytes = 0x01#8 :: 0x80#8 :: natBytes 2 count ++ natBytes 6 block := rfl

theorem Channel.tagsFree_iff (x : Channel) : x.tagsFree = true ↔ ∀ t < 4, x.tag t = .free := by
  simp [Channel.tagsFree]

/-- The characterisation with its next probe sent at `now` (R130). -/
def Characterisation.probed (y : Characterisation) (x : Channel) (now : Time) : Characterisation :=
  { y with phase := .probing now 0 (requestTimeoutAt now (x.baseEstimate y.probeBlocks)) }

theorem Device.sendProbe_eq {m : Device} {now : Time} {c : Nat} {y : Characterisation}
    (char : (m.channel c).char = some y) :
    m.sendProbe now c =
      if (m.channel c).link = true then
        (m.setChannel c { m.channel c with char := some (y.probed (m.channel c) now) }).emit
          (.link c (0x01#8 :: 0x80#8 :: natBytes 2 y.probeBlocks ++ natBytes 6 y.address))
      else m.setChannel c { m.channel c with char := some (y.probed (m.channel c) now) } := by
  unfold Device.sendProbe
  simp only [char]
  rw [Device.send_eq, ← LinkMessage.probe_bytes, Device.onChannel, Device.channel_setChannel_same]
  rfl

theorem Device.drained_sends {m : Device} {now : Time} {c : Nat} {y : Characterisation}
    (char : (m.channel c).char = some y) (draining : y.phase = .draining) (free : ∀ t < 4, (m.channel c).tag t = .free) :
    m.drained now c = m.sendProbe now c := by
  unfold Device.drained
  simp only [char]
  exact if_pos ⟨draining, (Channel.tagsFree_iff _).2 free⟩

theorem Device.drained_none {m : Device} {now : Time} {c : Nat}
    (none_ : (∀ y, (m.channel c).char = some y → y.phase ≠ .draining) ∨ ∃ t < 4, (m.channel c).tag t ≠ .free) :
    m.drained now c = m := by
  unfold Device.drained
  split
  · rename_i y char
    refine if_neg fun ⟨draining, free⟩ => ?_
    rcases none_ with other | ⟨t, inside, used⟩
    · exact other y char draining
    · exact used ((Channel.tagsFree_iff _).1 free t inside)
  · rfl

/-! ### Messages -/

section Messages
variable {s : State} {c : Fin 8}

theorem exec_readEnd_up (fitted : (c : Nat) < s.env.straps.fitted) (up : (s.part.channel c).link = true)
    (tag status : BitVec 8) :
    exec (.readEnd c tag status) s =
      s.ends (s.part.begin_.endMessage s.env.now c tag.toNat (EndStatus.ofByte status.toNat)) :=
  (State.onLink_up _ fitted up).trans rfl

theorem exec_abortDone_up (fitted : (c : Nat) < s.env.straps.fitted) (up : (s.part.channel c).link = true)
    (tag : BitVec 8) :
    exec (.abortDone c tag) s = s.ends (s.part.begin_.abortDone s.env.now c tag.toNat) :=
  (State.onLink_up _ fitted up).trans rfl

theorem toNat_tag (t : Fin 4) : (BitVec.ofNat 8 t).toNat = t := by
  rw [BitVec.toNat_ofNat]
  omega

theorem EndStatus.ofByte_of_ne {status : BitVec 8} (bad : status ≠ 0) :
    EndStatus.ofByte status.toNat = if status = 2 then .address else .medium := by
  have zero : status.toNat ≠ 0 := fun h => bad (BitVec.eq_of_toNat_eq h)
  have two : status.toNat = 2 ↔ status = 2 := ⟨fun h => BitVec.eq_of_toNat_eq h, fun h => by rw [h]; rfl⟩
  rw [EndStatus.ofByte, if_neg zero]
  exact if_congr two rfl rfl

end Messages

/-! ### ENDs and ABORT_DONE on a channel -/

section Ends
variable {m : Device} {now : Time} {c t : Nat} {status : EndStatus}

/-- A tag carries no probe: it is not tag 0, or no probe is outstanding or settling. -/
theorem Device.endMessage_tag (inside : t < 4)
    (plain : t ≠ 0 ∨ ∀ y, (m.channel c).char = some y → y.phase = .draining) :
    m.endMessage now c t status = m.tagEnd now c t status := by
  unfold Device.endMessage
  rw [if_neg (by omega)]
  split
  · rename_i zero
    have draining := plain.resolve_left (not_not.2 zero)
    cases char : (m.channel c).char with
    | none => rfl
    | some y => simp only [draining y char]
  · rfl

theorem Channel.settling_eq_false {x : Channel} (other : ∀ y guard, x.char = some y → y.phase ≠ .settling guard) :
    x.settling = false := by
  unfold Channel.settling
  split
  · rename_i y char
    split
    · rename_i guard phase
      exact absurd phase (other y guard char)
    · rfl
  · rfl

/-- An ABORT_DONE that settles nothing is stray (R121). -/
theorem Device.abortDone_stray (idle : ∀ guard, (m.channel c).tag t ≠ .aborting guard)
    (plain : t ≠ 0 ∨ (m.channel c).settling = false) : m.abortDone now c t = m.onChannel c Channel.stray := by
  unfold Device.abortDone
  split
  · rfl
  · split
    · rename_i guard aborting
      exact absurd aborting (idle guard)
    · refine if_neg fun ⟨zero, settling⟩ => ?_
      rcases plain with other | none_
      · exact other zero
      · rw [none_] at settling
        cases settling

theorem Device.abortDone_settles {guard : Time} (inside : t < 4) (aborting : (m.channel c).tag t = .aborting guard) :
    m.abortDone now c t = (m.releaseTag c t).drained now c := by
  unfold Device.abortDone
  rw [if_neg (by omega)]
  simp only [aborting]

/-- An ABORT_DONE in SETTLING ends it (R130). -/
theorem Device.abortDone_settled {y : Characterisation} {guard : Time} (char : (m.channel c).char = some y)
    (settling : y.phase = .settling guard) (idle : ∀ guard, (m.channel c).tag 0 ≠ .aborting guard) :
    m.abortDone now c 0 = m.endChar c .probeTimeout := by
  have settles : (m.channel c).settling = true := by simp [Channel.settling, char, settling]
  unfold Device.abortDone
  rw [if_neg (by omega)]
  split
  · rename_i guard aborting
    exact absurd aborting (idle guard)
  · exact if_pos ⟨rfl, settles⟩

/-- An END on a tag with a read in flight (R119). -/
theorem Device.tagEnd_inFlight {r sent est next timeout : Nat}
    (onTag : (m.channel c).tag t = .inFlight r sent est next timeout) :
    m.tagEnd now c t status = ((m.releaseTag c t).endedOn now c r sent est next status).drained now c := by
  simp only [Device.tagEnd, onTag]

/-- An END on an aborting tag settles the abort (R121). -/
theorem Device.tagEnd_aborting {guard : Time} (onTag : (m.channel c).tag t = .aborting guard) :
    m.tagEnd now c t status =
      ((m.releaseTag c t).onChannel c fun ch => { ch with staleEnds := count32 ch.staleEnds }).drained now c := by
  simp only [Device.tagEnd, onTag]

theorem Device.tagEnd_free (onTag : (m.channel c).tag t = .free) :
    m.tagEnd now c t status = m.onChannel c Channel.stray := by
  simp only [Device.tagEnd, onTag]

/-- The END of an outstanding probe (R130). -/
theorem Device.endMessage_probing {y : Characterisation} {sent next timeout : Nat} (char : (m.channel c).char = some y)
    (probing : y.phase = .probing sent next timeout) :
    m.endMessage now c 0 status = m.probeEnd now c y sent next status := by
  simp [Device.endMessage, char, probing]

theorem Device.endMessage_settling {y : Characterisation} {guard : Time} (char : (m.channel c).char = some y)
    (settling : y.phase = .settling guard) :
    m.endMessage now c 0 status =
      (m.onChannel c fun ch => { ch with staleEnds := count32 ch.staleEnds }).settled c := by
  simp [Device.endMessage, char, settling]

theorem Device.probeEnd_error {y : Characterisation} {sent next : Nat}
    (bad : ¬ (status = .good ∧ y.probeBlocks ≤ next)) :
    m.probeEnd now c y sent next status = m.endChar c .probeError := if_neg bad

/-- The characterisation after a good END of a probe (R130). -/
def Characterisation.timed (y : Characterisation) (elapsed : Nat) : Characterisation :=
  { y with times := y.times ++ [elapsed] }

theorem Device.probeEnd_next {y : Characterisation} {sent next : Nat} (whole : y.probeBlocks ≤ next)
    (more : y.times.length + 1 < 8) (up : (m.channel c).link = true) :
    m.probeEnd now c y sent next .good =
      (m.setChannel c { m.channel c with
        char := some ((y.timed (now - sent)).probed (m.channel c) now), consecutive := 0 }).emit
          (.link c (0x01#8 :: 0x80#8 :: natBytes 2 (y.timed (now - sent)).probeBlocks ++ natBytes 6 y.address)) := by
  have length : (y.timed (now - sent)).times.length < 8 := by simpa [Characterisation.timed] using more
  let b := m.onChannel c fun ch => { ch with char := some (y.timed (now - sent)), consecutive := 0 }
  have record : b.channel c = { m.channel c with char := some (y.timed (now - sent)), consecutive := 0 } :=
    m.channel_setChannel_same c _
  have reply : m.probeEnd now c y sent next .good = b.sendProbe now c := (if_pos ⟨rfl, whole⟩).trans (if_pos length)
  have link : (b.channel c).link = true := by rw [record]; exact up
  rw [reply, Device.sendProbe_eq (congrArg Channel.char record), if_pos link, record]
  exact congrArg (Device.emit · _) (Device.setChannel_setChannel ..)

theorem Device.probeEnd_last {y : Characterisation} {sent next : Nat} (whole : y.probeBlocks ≤ next)
    (last : 8 ≤ y.times.length + 1) :
    m.probeEnd now c y sent next .good =
      (m.onChannel c fun ch => { ch with char := some (y.timed (now - sent)), consecutive := 0 }).endChar c .done := by
  have length : ¬ (y.timed (now - sent)).times.length < 8 := by
    simp only [Characterisation.timed, List.length_append, List.length_singleton]
    omega
  exact (if_pos ⟨rfl, whole⟩).trans (if_neg length)

end Ends

/-- Settles O59. -/
theorem readEnds : Obligations.ReadEnds := by
  refine ⟨fun m c err => ?_, fun m now c => ?_, fun s c t => ?_⟩
  · intro x setup run
    have learned : m.learn c err = _ := m.learn_eq c err
    exact ⟨fun few => learned.trans (if_neg (Nat.not_le.2 few)), fun many => learned.trans (if_pos many)⟩
  · intro x
    refine ⟨fun y char draining free => ?_, Device.drained_none⟩
    exact (Device.drained_sends char draining free).trans (Device.sendProbe_eq char)
  · intro now x b freed tag ends done stray
    have number : tag.toNat = t := toNat_tag t
    refine ⟨fun fitted down => ⟨fun far status => State.onLink_down _ down, fun far => State.onLink_down _ down⟩,
      fun fitted up => ?_, fun r sent est next timeout onTag late => ?_, fun guard onTag late => ?_⟩
    · have end_ : ∀ {status m}, b.endMessage now c t (EndStatus.ofByte status.toNat) = m → ends status m :=
        fun {status m} reply => by
          refine (exec_readEnd_up fitted up tag status).trans ?_
          rw [number, ← reply]
      have done_ : ∀ {m}, b.abortDone now c t = m → done m := fun {m} reply => by
        refine (exec_abortDone_up fitted up tag).trans ?_
        rw [number, ← reply]
      have idle : ∀ tg : Tag, (∀ guard, tg ≠ .aborting guard) → x.tag t = tg → (t : Nat) ≠ 0 ∨ x.settling = false →
          done stray := fun tg other onTag plain =>
        done_ (Device.abortDone_stray (fun guard => by rw [show (b.channel c).tag t = tg from onTag]; exact other guard) plain)
      refine ⟨fun far above => ⟨fun status => (exec_readEnd_up fitted up far status).trans (congrArg s.ends (if_pos above)),
          (exec_abortDone_up fitted up far).trans (congrArg s.ends (if_pos above))⟩,
        fun plain => ?_, fun y sent next timeout zero char probing => ?_, fun y guard zero char settling => ?_⟩
      · have onTag : ∀ {status}, b.endMessage now c t status = b.tagEnd now c t status :=
          Device.endMessage_tag t.isLt plain
        have quiet : (t : Nat) ≠ 0 ∨ x.settling = false := plain.imp_right fun draining =>
          Channel.settling_eq_false fun y guard char settling => by rw [draining y char] at settling; cases settling
        refine ⟨fun r sent est next timeout inFlight => ?_, fun guard aborting => ?_, fun free => ?_⟩
        · have ended : ∀ {status : BitVec 8}, b.endMessage now c t (EndStatus.ofByte status.toNat) = _ :=
            onTag.trans (Device.tagEnd_inFlight inFlight)
          refine ⟨fun whole => end_ (ended.trans ?_), fun short => end_ (ended.trans ?_),
            fun status bad => end_ (ended.trans ?_), idle _ (by simp) inFlight quiet⟩
          · exact congrArg (Device.drained now c) (if_pos whole)
          · exact congrArg (Device.drained now c) (if_neg (Nat.not_le.2 short))
          · rw [EndStatus.ofByte_of_ne bad]
            split <;> rfl
        · exact ⟨fun status => end_ (onTag.trans (Device.tagEnd_aborting aborting)),
            done_ (Device.abortDone_settles t.isLt aborting)⟩
        · exact ⟨fun status => end_ (onTag.trans (Device.tagEnd_free free)), idle _ (by simp) free quiet⟩
      · intro blocks n after limit
        have ended : ∀ {status}, b.endMessage now c t status = b.probeEnd now c y sent next status := by
          rw [zero]
          exact Device.endMessage_probing char probing
        have quiet : x.settling = false := Channel.settling_eq_false fun z guard other settling => by
          cases char.symm.trans other
          rw [probing] at settling
          cases settling
        refine ⟨fun whole more => end_ (ended.trans ?_), fun whole last => end_ (ended.trans ?_),
          fun short => end_ (ended.trans (Device.probeEnd_error fun ⟨_, whole⟩ => ?_)),
          fun status bad => end_ (ended.trans (Device.probeEnd_error fun ⟨good, _⟩ => ?_)),
          fun other => idle _ other rfl (.inr quiet)⟩
        · have sent_ := Device.probeEnd_next (m := b) (now := now) (sent := sent) whole more up
          have next_ : (y.timed (now - sent)).probeBlocks = blocks (n + 1) := by
            simp only [Characterisation.probeBlocks, Characterisation.timed, List.length_append, List.length_singleton]
            rfl
          rw [Characterisation.probed, next_] at sent_
          exact sent_
        · exact Device.probeEnd_last whole last
        · exact absurd whole (Nat.not_le.2 short)
        · rw [EndStatus.ofByte_of_ne bad] at good
          split at good <;> cases good
      · constructor
        · intro status
          refine end_ ?_
          rw [zero]
          exact Device.endMessage_settling char settling
        · intro other
          refine done_ ?_
          rw [zero] at other ⊢
          exact Device.abortDone_settled char settling other
    · intro aborts
      have sent_ : aborts.send c (.abort t) = if x.link = true then aborts.emit (.link c [0x04#8, tag]) else aborts := by
        have link : (aborts.channel c).link = x.link := by
          rw [Device.channel_setChannel_same]
          rfl
        rw [Device.send_eq, link]
        rfl
      have run : exec (.requestTimeout c t) s = s.event (·.requestTimedOut now c t r) := by
        change execRequestTimeout c t s = _
        simp only [execRequestTimeout]
        rw [show (s.part.channel c).tag t = _ from onTag]
        exact if_pos late
      rw [run, ← sent_]
      rfl
    · have run : exec (.abortGuardExpiry c t) s = s.event (·.abortGuardExpired now c t) := by
        change execAbortGuardExpiry c t s = _
        simp only [execAbortGuardExpiry]
        rw [show (s.part.channel c).tag t = _ from onTag]
        exact if_pos late
      exact run

end Sys2Proof.Machine
end

section
/-! PROOFS. The delivery check, steps and misses, and the display expiry (chapters 2, 4 and 8). -/

namespace Sys2Proof.Machine

/-! ### The conditions of a delivery -/

theorem StreamRec.missable_iff (x : StreamRec) :
    x.missable = true ↔ 0 < x.missedCount ∧ x.ownerAbsent = false ∧ x.endPending = none ∧
      (x.state = .cued ∨ x.state = .playing ∨ x.state = .closing) := by
  unfold StreamRec.missable
  cases x.state <;> simp [and_assoc]

theorem StreamRec.display_ne_past_iff (x : StreamRec) (u : Int) :
    x.display u ≠ .past ↔ x.s = 0 ∨ 0 ≤ (u * 65536 - x.f0q) * x.s.sign := by
  unfold StreamRec.display
  by_cases stopped : x.s = 0
  · simp [stopped]
  · have distance : x.distance u = (u * 65536 - x.f0q) * x.s.sign := by
      rw [StreamRec.distance, StreamRec.dir_of_ne stopped]
    rw [if_neg stopped, distance]
    split
    · rename_i behind
      simp [stopped, behind]
    · rename_i ahead
      simp [stopped, Int.not_lt.1 ahead]

theorem StreamRec.deliverable_iff (x : StreamRec) (w : WinEntry) :
    x.deliverable = some w ↔
      (∃ l, x.window = w :: l) ∧ (x.state = .playing ∨ (x.state = .cued ∧ x.stillDelivered = false)) ∧
      x.ownerAbsent = false ∧ w.u = x.n ∧ (x.s = 0 ∨ 0 ≤ (w.u * 65536 - x.f0q) * x.s.sign) ∧
      (w.state = .staged ∨ w.state = .failed) ∧ x.delivery.length < x.c ∧ x.endPending = none ∧
      x.outbox.length + (if x.missable = true then 2 else 1) ≤ 12 := by
  rw [← x.display_ne_past_iff]
  constructor
  · exact StreamRec.deliverable_cases
  · rintro ⟨⟨l, window⟩, state, present, atN, ahead, ready, credit, noEnd, room⟩
    unfold StreamRec.deliverable
    rw [window]
    refine if_pos ?_
    simp only [Bool.and_eq_true, Bool.or_eq_true, decide_eq_true_eq, Bool.not_eq_true', ne_eq]
    exact ⟨⟨⟨⟨⟨⟨⟨state, present⟩, atN⟩, ahead⟩, ready⟩, credit⟩, noEnd⟩, room⟩

/-! ### A delivery -/

/-- The record of a delivery before N steps or the still frame is marked (R66–R68, R140, R146). -/
def StreamRec.handed (x : StreamRec) (w : WinEntry) (y : Notice) (slot : Option Nat) : StreamRec :=
  { x with outbox := x.outbox ++ (if x.missable = true then [.missed x.missedCount x.lastMissed, y] else [y]),
           missedCount := if x.missable = true then 0 else x.missedCount,
           window := x.window.tail, delivery := x.delivery ++ [DelEntry.mk x.nextSeq slot],
           nextSeq := (x.nextSeq + 1) % 65536, passPending := true,
           lateTotal := if slot.isSome ∧ w.late = true then (x.lateTotal + 1) % 4294967296 else x.lateTotal,
           failedTotal := if slot = none then (x.failedTotal + 1) % 4294967296 else x.failedTotal }

theorem StreamRec.delivered_eq (x : StreamRec) (now : Time) (w : WinEntry) (y : Notice) (slot : Option Nat) :
    x.delivered now w y slot =
      if x.state = .playing then (x.handed w y slot).stepOn now
      else { x.handed w y slot with stillDelivered := true } := by
  have late : (slot.isSome && w.late) = true ↔ slot.isSome ∧ w.late = true := by simp
  have failed : slot.isNone = true ↔ slot = none := by simp
  unfold StreamRec.delivered StreamRec.handed StreamRec.stepN StreamRec.trigger StreamRec.queueMissed count32
  cases x.missable <;> simp only [late, failed, if_true, if_false, Bool.false_eq_true, List.append_assoc,
    List.cons_append, List.nil_append]

/-! ### The checks one after another -/

theorem StreamRec.queueEnd_lists (x : StreamRec) (bound : Nat) :
    (x.queueEnd bound).c = x.c ∧ (x.queueEnd bound).delivery = x.delivery := by
  unfold StreamRec.queueEnd
  split_ifs <;> exact ⟨rfl, rfl⟩

theorem StreamRec.stepOn_lists (x : StreamRec) (now : Time) :
    (x.stepOn now).c = x.c ∧ (x.stepOn now).delivery = x.delivery := by
  unfold StreamRec.stepOn
  dsimp only
  split
  · exact StreamRec.queueEnd_lists ..
  · exact ⟨rfl, rfl⟩

/-- A delivery leaves C as it is and lengthens the delivery list by one entry. -/
theorem StreamRec.delivered_lists (x : StreamRec) (now : Time) (w : WinEntry) (y : Notice) (slot : Option Nat) :
    (x.delivered now w y slot).c = x.c ∧
      (x.delivered now w y slot).delivery = x.delivery ++ [DelEntry.mk x.nextSeq slot] := by
  rw [x.delivered_eq]
  split
  · exact StreamRec.stepOn_lists ..
  · exact ⟨rfl, rfl⟩

section Check
variable {m : Device} {now : Time} {k : Nat} {w : WinEntry}

/-- A delivery of a staged entry (R66). -/
theorem Device.deliver_staged {n : Nat} (slot : w.slot = some n) (staged : w.state = .staged) :
    m.deliver now k w = (m.setStream k ((m.stream k).delivered now w
      (readyNotice (m.stream k) w n (m.slot n).frameBytes) (some n))).recompute n := by
  simp only [Device.deliver, staged, slot, Option.getD_some]

/-- A delivery of a failed entry (R67). -/
theorem Device.deliver_failed {n : Nat} {cause : Cause} (slot : w.slot = some n) (failed : w.state = .failed)
    (why : (m.slot n).cause = some cause) :
    m.deliver now k w = (m.setStream k ((m.stream k).delivered now w
      (failedNotice (m.stream k) w cause) none)).unpin now n := by
  simp only [Device.deliver, failed, slot, Option.getD_some, why, Device.releasePin]

/-- The record that a delivery leaves. -/
theorem Device.deliver_stream (m : Device) (now : Time) (k : Nat) (w : WinEntry) :
    ∃ y slot, (m.deliver now k w).stream k = (m.stream k).delivered now w y slot := by
  unfold Device.deliver
  dsimp only
  split
  · refine ⟨_, _, (Device.releasePin_stream ..).trans (Device.stream_setStream_same ..)⟩
  · refine ⟨_, _, (congrArg (Table.get StreamRec.reset · k) ((quiet_streams _).recompute _ rfl)).trans
      (Device.stream_setStream_same ..)⟩

/-- The credit that a stream has left for deliveries. -/
def StreamRec.credit (x : StreamRec) : Nat := x.c - x.delivery.length

theorem Device.deliver_credit (ready : (m.stream k).deliverable = some w) :
    ((m.deliver now k w).stream k).credit < (m.stream k).credit := by
  obtain ⟨y, slot, record⟩ := m.deliver_stream now k w
  obtain ⟨-, -, -, -, -, -, room, -, -⟩ := StreamRec.deliverable_cases ready
  obtain ⟨c, delivery⟩ := (m.stream k).delivered_lists now w y slot
  simp only [StreamRec.credit, record, c, delivery, List.length_append, List.length_singleton]
  omega

theorem Device.deliverLoop_none {fuel : Nat} (none_ : (m.stream k).deliverable = none) :
    m.deliverLoop now k fuel = m := by
  cases fuel with
  | zero => rfl
  | succ fuel => simp only [Device.deliverLoop, none_]

theorem Device.deliverLoop_some {fuel : Nat} (ready : (m.stream k).deliverable = some w) :
    m.deliverLoop now k (fuel + 1) = (m.deliver now k w).deliverLoop now k fuel := by
  simp only [Device.deliverLoop, ready]

/-- With a step for each delivery that the credit allows, further steps of the loop change nothing. -/
theorem Device.deliverLoop_fuel {fuel : Nat} (enough : (m.stream k).credit ≤ fuel) :
    m.deliverLoop now k (fuel + 1) = m.deliverLoop now k fuel := by
  induction fuel generalizing m with
  | zero =>
    refine Device.deliverLoop_none ?_
    cases ready : (m.stream k).deliverable with
    | none => rfl
    | some w =>
      have := Device.deliver_credit (now := now) ready
      omega
  | succ fuel ih =>
    cases ready : (m.stream k).deliverable with
    | none => rw [Device.deliverLoop_none ready, Device.deliverLoop_none ready]
    | some w =>
      have less := Device.deliver_credit (now := now) ready
      rw [Device.deliverLoop_some ready, Device.deliverLoop_some ready]
      exact ih (by omega)

/-- A check whose head entry is delivered goes on as a check (R68). -/
theorem Device.check_some (ready : (m.stream k).deliverable = some w) :
    m.check now k = (m.deliver now k w).check now k := by
  obtain ⟨-, -, -, -, -, -, room, -, -⟩ := StreamRec.deliverable_cases ready
  obtain ⟨y, slot, record⟩ := m.deliver_stream now k w
  obtain ⟨c, delivery⟩ := (m.stream k).delivered_lists now w y slot
  obtain ⟨fuel, enough⟩ : ∃ fuel, (m.stream k).c = fuel + 1 := Nat.exists_eq_succ_of_ne_zero (by omega)
  have same : ((m.deliver now k w).stream k).c = fuel + 1 := by rw [record, c, enough]
  have loop : m.deliverLoop now k (m.stream k).c =
      (m.deliver now k w).deliverLoop now k ((m.deliver now k w).stream k).c := by
    rw [same, enough, Device.deliverLoop_some ready]
    refine (Device.deliverLoop_fuel ?_).symm
    simp only [StreamRec.credit, record, c, delivery, enough, List.length_append, List.length_singleton]
    omega
  unfold Device.check
  rw [loop]

theorem Device.check_none (none_ : (m.stream k).deliverable = none) :
    m.check now k =
      if (m.stream k).outbox.isEmpty && (m.stream k).missable then m.onStream k (·.missedAlone) else m := by
  unfold Device.check
  rw [Device.deliverLoop_none none_]

end Check

/-- Settles O36. -/
theorem deliveryMovesHead : Obligations.DeliveryMovesHead := by
  refine ⟨StreamRec.missable_iff, StreamRec.deliverable_iff, fun x now w l y slot window => ?_, fun m now k => ?_⟩
  · intro d
    have record : x.handed w y slot = d := by
      unfold StreamRec.handed
      rw [window]
      rfl
    rw [x.delivered_eq, record]
  · intro x
    refine ⟨fun w n ready slot => ?_, fun none_ empty missable => ?_, fun none_ quiet => ?_⟩
    · intro display
      have shown : x.entryDisplay w.u = display := by
        simp only [StreamRec.entryDisplay, display]
        split <;> rfl
      rw [← shown]
      refine ⟨fun staged => ?_, fun cause failed why => ?_⟩
      · rw [Device.check_some ready, Device.deliver_staged slot staged]
        rfl
      · rw [Device.check_some ready, Device.deliver_failed slot failed why]
        rfl
    · have alone : x.missedAlone = { x with outbox := [.missed x.missedCount x.lastMissed], missedCount := 0 } := by
        rw [StreamRec.missedAlone, empty, missable]
        exact congrArg (fun l => { x with outbox := l ++ [Notice.missed x.missedCount x.lastMissed], missedCount := 0 })
          empty
      rw [Device.check_none none_, empty, missable, ← alone]
      rfl
    · rw [Device.check_none none_]
      refine if_neg fun both => ?_
      obtain ⟨empty, missable⟩ := (Bool.and_eq_true ..).mp both
      rcases quiet with some_ | no
      · exact some_ (List.isEmpty_iff.1 empty)
      · rw [no] at missable
        cases missable

end Sys2Proof.Machine
end

section
/-! PROOFS. Steps of N, misses, and the display expiry (chapters 2 and 8). -/

namespace Sys2Proof.Machine

/-! ### The end of the range -/

section QueueEnd
variable {x : StreamRec} {bound : Nat}

theorem StreamRec.queueEnd_alone (noEnd : x.endPending = none) (room : x.outbox.length < 12)
    (quiet : x.missable = false ∨ x.outbox.length = 11) :
    x.queueEnd bound = { x with outbox := x.outbox ++ [.ended bound] } := by
  have both : (x.missable && decide (x.outbox.length + 2 ≤ 12)) = false := by
    rcases quiet with no | eleven
    · rw [no, Bool.false_and]
    · rw [eleven]
      exact Bool.and_false _
  unfold StreamRec.queueEnd
  rw [if_neg (by simp [noEnd]; omega), if_neg (ne_true_of_eq_false both)]

theorem StreamRec.queueEnd_missed (missable : x.missable = true) (room : x.outbox.length ≤ 10) :
    x.queueEnd bound =
      { x with outbox := x.outbox ++ [.missed x.missedCount x.lastMissed, .ended bound], missedCount := 0 } := by
  obtain ⟨-, -, noEnd, -⟩ := x.missable_iff.1 missable
  unfold StreamRec.queueEnd
  rw [if_neg (by simp [noEnd, Config.outboxPlaces]; omega), if_pos (by simp [missable, Config.outboxPlaces]; omega)]
  simp [StreamRec.queueMissed]

theorem StreamRec.queueEnd_full (full : 12 ≤ x.outbox.length ∨ x.endPending ≠ none) :
    x.queueEnd bound = { x with endPending := some bound } := by
  refine if_pos ?_
  rcases full with long | pending
  · simp [long]
  · simp [Option.isSome_iff_ne_none.2 pending]

end QueueEnd

/-- The record of a stream that stops at a bound, before its END notice (R33, R34). -/
def StreamRec.stopped (x : StreamRec) (now : Time) (bound : Nat) : StreamRec :=
  { x with state := if x.state = .handover then .handover else .cued,
           savedS := if x.state = .handover then some 0 else x.savedS, n := bound,
           f0q := (bound : Int) * 65536, t0 := now, s := 0, stillDelivered := true, passPending := true }

theorem StreamRec.endRange_eq (x : StreamRec) (now : Time) {bound : Nat}
    (side : (if 0 < x.dir then x.outPoint else x.inPoint) = bound) :
    x.endRange now = (x.stopped now bound).queueEnd bound := by
  unfold StreamRec.endRange StreamRec.stopped
  simp only [side, decide_eq_true_eq]

/-- A running stream that stops may make the same MISSED notice as before. -/
theorem StreamRec.stopped_missable {x : StreamRec} (runs : x.state = .playing ∨ x.state = .handover) (now : Time)
    (bound : Nat) : (x.stopped now bound).missable = x.missable := by
  rw [Bool.eq_iff_iff, StreamRec.missable_iff, StreamRec.missable_iff]
  rcases runs with state | state <;> simp [StreamRec.stopped, state]

/-- A step of N that the range takes, and one that passes a bound (R142, R33, R34). -/
theorem StreamRec.stepOn_cases {x : StreamRec} (moves : x.s ≠ 0) (now : Time) {n : Int}
    (next : n = x.n + strideOf x.s * x.s.sign) :
    (x.loop = true ∨ (0 < x.s ∧ n ≤ x.outPoint) ∨ (x.s < 0 ∧ (x.inPoint : Int) ≤ n) →
      x.stepOn now = { x with n := n }) ∧
    (x.loop = false → ∀ bound : Nat,
      (0 < x.s ∧ (x.outPoint : Int) < n ∧ bound = x.outPoint) ∨ (x.s < 0 ∧ n < x.inPoint ∧ bound = x.inPoint) →
      x.stepOn now = (x.stopped now bound).queueEnd bound) := by
  let y : StreamRec := { x with n := n }
  have step : x.stepOn now = if y.pastBound = true then y.endRange now else y := by
    unfold StreamRec.stepOn
    rw [StreamRec.dir_of_ne moves, StreamRec.stride, ← next]
  have past : y.pastBound = true ↔ x.loop = false ∧ (0 < x.s ∧ (x.outPoint : Int) < n ∨ x.s < 0 ∧ n < x.inPoint) :=
    StreamRec.pastBound_iff (x := y) moves
  have forward : 0 < y.dir ↔ 0 < x.s := by
    rw [show y.dir = x.s.sign from StreamRec.dir_of_ne (x := y) moves]
    exact Int.sign_pos_iff
  constructor
  · intro within
    refine step.trans (if_neg fun beyond => ?_)
    obtain ⟨bounded, side⟩ := past.1 beyond
    rcases within with loop | ⟨up, inside⟩ | ⟨down, inside⟩
    · rw [bounded] at loop
      cases loop
    · omega
    · omega
  · intro bounded bound beyond
    have side : (if 0 < y.dir then y.outPoint else y.inPoint) = bound := by
      rcases beyond with ⟨up, -, rfl⟩ | ⟨down, -, rfl⟩
      · exact if_pos (forward.2 up)
      · exact if_neg fun up => by have := forward.1 up; omega
    have out : y.pastBound = true := past.2 ⟨bounded, by omega⟩
    exact (step.trans (if_pos out)).trans (y.endRange_eq now side)

/-! ### Misses -/

theorem foldMiss_eq_none (frame : Nat) (l : List Notice) (other : ∀ c f, l.getLast? ≠ some (.missed c f)) :
    foldMiss frame l = none := by
  induction l with
  | nil => rfl
  | cons y l ih =>
    cases l with
    | nil =>
      cases y with
      | missed c f => exact absurd rfl (other c f)
      | _ => rfl
    | cons z l =>
      have rest : foldMiss frame (z :: l) = none := ih fun c f => by simpa using other c f
      cases y <;> simp [foldMiss, rest]

theorem foldMiss_append (frame c f : Nat) (l : List Notice) :
    foldMiss frame (l ++ [.missed c f]) = some (l ++ [.missed (min (c + 1) 65535) frame]) := by
  induction l with
  | nil => rfl
  | cons y l ih =>
    obtain ⟨z, t, rest⟩ : ∃ z t, l ++ [Notice.missed c f] = z :: t := by cases l <;> simp
    rw [List.cons_append, List.cons_append, rest, show foldMiss frame (y :: z :: t) = (foldMiss frame (z :: t)).map (y :: ·)
      by cases y <;> rfl, ← rest, ih]
    rfl

/-- Settles O37: the step, the end of the range with its END notice, and the miss. -/
theorem stepAndMiss : Obligations.StepAndMiss := by
  constructor
  · intro x now runs moves n
    obtain ⟨within, beyond⟩ := StreamRec.stepOn_cases (x := x) moves now (n := n) rfl
    refine ⟨within, ?_⟩
    intro bounded bound past y
    have stops : x.stepOn now = y.queueEnd bound := beyond bounded bound past
    have missable : y.missable = x.missable := StreamRec.stopped_missable runs now bound
    rw [stops, ← missable]
    exact ⟨fun noEnd room quiet => StreamRec.queueEnd_alone (x := y) noEnd room quiet,
      fun missed room => StreamRec.queueEnd_missed (x := y) missed room,
      fun full => StreamRec.queueEnd_full (x := y) full⟩
  · intro x frame y counted
    refine ⟨fun other marked => ?_, fun l c f outbox => ⟨?_, fun some_ => ?_, fun none_ => ?_⟩⟩
    · have unfolded : foldMiss frame x.outbox = none := foldMiss_eq_none frame x.outbox other
      unfold StreamRec.countMiss
      dsimp only
      rw [unfolded, ite_self]
      rfl
    · unfold StreamRec.countMiss
      simp only [Bool.false_and, Bool.false_eq_true, if_false, outbox, foldMiss_append]
      rfl
    · have long : (true && decide (x.outbox.length = 1)) = false := by
        rw [outbox]
        cases l <;> simp at some_ ⊢
      unfold StreamRec.countMiss
      dsimp only
      rw [long, Bool.false_and]
    · have only : (true && decide (x.outbox.length = 1)) = true := by
        rw [outbox, none_]
        rfl
      unfold StreamRec.countMiss
      dsimp only
      rw [only]
      rfl

/-! ### The display expiry -/

theorem StreamRec.displayTimer_eq {x : StreamRec} {w : WinEntry} {l : List WinEntry} (window : x.window = w :: l)
    (runs : x.running = true) (atN : w.u = x.n) (timed : w.display ≠ never) : x.displayTimer = some w.display := by
  simp [StreamRec.displayTimer, window, runs, atN, timed]

theorem Device.expireLoop_some {m : Device} {now : Time} {k fuel : Nat} {w : WinEntry} {l : List WinEntry} {t : Time}
    (timer : (m.stream k).displayTimer = some t) (late : t ≤ now) (window : (m.stream k).window = w :: l) :
    m.expireLoop now k (fuel + 1) =
      if ((m.missHead now k w).stream k).running then ((m.missHead now k w).check now k).expireLoop now k fuel
      else m.missHead now k w := by
  simp only [Device.expireLoop, timer, window, late, if_true]

/-- Settles O38. -/
theorem displayExpiry : Obligations.DisplayExpiry := by
  intro s k w l window runs atN timed late now m
  have timer : (s.part.stream k).displayTimer = some w.display := StreamRec.displayTimer_eq window runs atN timed
  have given : s.part.begin_.missHead now k w = m := by
    have tail : (s.part.begin_.onStream k fun x => { x with window := x.window.tail }) =
        s.part.begin_.setStream k { s.part.stream k with window := l } := by
      change s.part.begin_.setStream k { s.part.stream k with window := (s.part.stream k).window.tail } = _
      rw [window]
      rfl
    exact congrArg (fun b => (Device.releasePin now w.slot b).onStream k
      fun x => (x.countMiss (s.part.marked k) w.frame).stepN now) tail
  have ready : due (s.part.stream k).displayTimer now = true := by
    rw [timer]
    exact decide_eq_true late
  refine (if_pos ready).trans (congrArg s.ends ?_)
  have loop := Device.expireLoop_some (m := s.part.begin_) (fuel := l.length) timer late window
  rw [given] at loop
  rw [← loop]
  change s.part.begin_.expireLoop now k (s.part.stream k).window.length = _
  rw [window]
  rfl

end Sys2Proof.Machine
end

section
/-! PROOFS. Pins, withdrawals, slot due and seat priority (chapters 5 and 6). -/

namespace Sys2Proof.Machine

/-! ### Slot due and slot seat priority -/

section Least
variable {α : Type} (f : α → Nat) (l : List α) (a : Nat)

theorem foldl_min_le : l.foldl (fun b x => min b (f x)) a ≤ a ∧ ∀ x ∈ l, l.foldl (fun b x => min b (f x)) a ≤ f x := by
  induction l generalizing a with
  | nil => exact ⟨le_rfl, fun _ mem => nomatch mem⟩
  | cons y l ih =>
    obtain ⟨start, rest⟩ := ih (min a (f y))
    refine ⟨start.trans (Nat.min_le_left ..), fun x mem => ?_⟩
    rcases List.mem_cons.1 mem with rfl | mem
    · exact start.trans (Nat.min_le_right ..)
    · exact rest x mem

theorem foldl_min_mem : l.foldl (fun b x => min b (f x)) a = a ∨ ∃ x ∈ l, l.foldl (fun b x => min b (f x)) a = f x := by
  induction l generalizing a with
  | nil => exact .inl rfl
  | cons y l ih =>
    rw [List.foldl_cons]
    rcases ih (min a (f y)) with start | ⟨x, mem, eq⟩
    · rcases Nat.le_total a (f y) with le | le
      · exact .inl (start.trans (Nat.min_eq_left le))
      · exact .inr ⟨y, List.mem_cons_self, start.trans (Nat.min_eq_right le)⟩
    · exact .inr ⟨x, List.mem_cons_of_mem _ mem, eq⟩

end Least

theorem Device.mem_windowPins {m : Device} (wf : Table.wf StreamRec.reset m.streams = true) (n : Nat) (p : Nat × Time) :
    p ∈ m.windowPins n ↔ ∃ k, ∃ w ∈ (m.stream k).window, w.slot = some n ∧ p = ((m.stream k).seat, w.due) := by
  simp only [Device.windowPins, List.mem_flatMap, List.mem_map, List.mem_filter, decide_eq_true_eq]
  constructor
  · rintro ⟨⟨k, x⟩, listed, w, ⟨mem, pins⟩, rfl⟩
    have record : m.stream k = x := Table.get_of_mem _ wf (k, x) listed
    exact ⟨k, w, by rw [record]; exact mem, pins, by rw [record]⟩
  · rintro ⟨k, w, mem, pins, rfl⟩
    refine ⟨(k, m.stream k), ?_, w, ⟨mem, pins⟩, rfl⟩
    refine (Table.get_mem_or m.streams k).resolve_left fun unlisted => ?_
    rw [show m.stream k = StreamRec.reset from unlisted] at mem
    cases mem

/-- Slot due as the window entries that pin the slot give it (R77). -/
def Device.dueOf (m : Device) (n : Nat) : Time := (m.windowPins n).foldl (fun a p => min a p.2) never

/-- Slot seat priority likewise. -/
def Device.seatOf (m : Device) (n : Nat) : Nat := (m.windowPins n).foldl (fun a p => min a p.1) 3

theorem Device.recompute_free {m : Device} {n : Nat} (free : (m.slot n).state = .free) : m.recompute n = m := if_pos free

/-- A recompute writes slot due and slot seat priority and may ask for dispatch choices (R77, R102). -/
theorem Device.recompute_eq {m : Device} {n : Nat} (live : (m.slot n).state ≠ .free) :
    m.recompute n =
      if m.dueOf n = (m.slot n).due then m.setSlot n { m.slot n with due := m.dueOf n, seat := m.seatOf n }
      else (m.queuedFor n).foldl (fun b e => b.askChoice e.2.channel)
        (m.setSlot n { m.slot n with due := m.dueOf n, seat := m.seatOf n }) := if_neg live

/-- Choices asked change the agenda alone. -/
theorem Device.foldl_askFor_frame (l : List (Nat × Request)) (m : Device) :
    l.foldl (fun b e => b.askChoice e.2.channel) m =
      { m with agenda := { m.agenda with
          choices := (l.foldl (fun b e => b.askChoice e.2.channel) m).agenda.choices } } :=
  foldl_keeps (I := fun t => t = { m with agenda := { m.agenda with choices := t.agenda.choices } })
    (fun t e same => by rw [same]; rfl) l m rfl

theorem Device.recompute_frame (n : Nat) (m : Device) :
    m.recompute n = { m with slots := (m.recompute n).slots,
                             agenda := { m.agenda with choices := (m.recompute n).agenda.choices } } := by
  by_cases free : (m.slot n).state = .free
  · rw [Device.recompute_free free]
  · rw [Device.recompute_eq free]
    split
    · rfl
    · rw [Device.foldl_askFor_frame]
      rfl

theorem Device.recompute_slot (n j : Nat) (m : Device) (live : (m.slot n).state ≠ .free) :
    (m.recompute n).slot j = if j = n then { m.slot n with due := m.dueOf n, seat := m.seatOf n } else m.slot j := by
  have slots : (m.recompute n).slots =
      (m.setSlot n { m.slot n with due := m.dueOf n, seat := m.seatOf n }).slots := by
    rw [Device.recompute_eq live]
    split
    · rfl
    · rw [Device.foldl_askFor_frame]
  exact (congrArg (Table.get Slot.free · j) slots).trans (Device.slot_setSlot ..)

theorem Device.recompute_slot_other {n j : Nat} (m : Device) (other : j ≠ n) : (m.recompute n).slot j = m.slot j := by
  by_cases free : (m.slot n).state = .free
  · rw [Device.recompute_free free]
  · rw [m.recompute_slot n j free, if_neg other]

/-- A recompute leaves the pins and the state of its slot. -/
theorem Device.recompute_same (n : Nat) (m : Device) :
    ((m.recompute n).slot n).pins = (m.slot n).pins ∧ ((m.recompute n).slot n).state = (m.slot n).state := by
  by_cases free : (m.slot n).state = .free
  · rw [Device.recompute_free free]
    exact ⟨rfl, rfl⟩
  · rw [m.recompute_slot n n free, if_pos rfl]
    exact ⟨rfl, rfl⟩

/-! ### Withdrawals -/

section Withdraw
variable {m : Device} {n : Nat}

theorem Device.mem_queuedFor (wf : Table.wf Request.free m.reqs = true) (r : Nat) :
    r ∈ (m.queuedFor n).map (·.1) ↔ (m.req r).state = .queued ∧ (m.req r).slot = n := by
  refine (Table.mem_numbers_iff wf (f := fun e => decide (e.2.slot = n) && decide (e.2.state = .queued)) ?_).trans ?_
  · simp [Request.free]
  · simp only [Bool.and_eq_true, decide_eq_true_eq]
    exact and_comm

theorem Device.withdraw_req_eq (wf : Table.wf Request.free m.reqs = true) (r : Nat) :
    (m.withdraw n).req r = if (m.req r).state = .queued ∧ (m.req r).slot = n then Request.free else m.req r :=
  (m.withdraw_req n r).trans (if_congr (Device.mem_queuedFor wf r) rfl rfl)

theorem Device.waitingGone_wf (wf : Table.wf Request.free m.reqs = true) :
    Table.wf Request.free (m.waitingGone n).reqs = true :=
  foldl_keeps (I := fun t : Device => Table.wf Request.free t.reqs = true)
    (f := fun b (e : Nat × Request) => b.setReq e.1 Request.free)
    (fun t e kept => Table.wf_set t.reqs e.1 Request.free kept) (m.queuedFor n) m wf

/-- A withdrawal empties a queue exactly where every record in it was of the slot (R111). -/
theorem Device.waitingGone_queue (wf : Table.wf Request.free m.reqs = true) (c : Nat) :
    (m.waitingGone n).queue c = [] ↔
      ∀ r, (m.req r).state = .queued → (m.req r).channel = c → (m.req r).slot = n := by
  have record : ∀ r, (m.waitingGone n).req r =
      if (m.req r).state = .queued ∧ (m.req r).slot = n then Request.free else m.req r := fun r => by
    rw [← Device.withdraw_req_eq wf, m.withdraw_frame n]
    rfl
  rw [List.eq_nil_iff_forall_not_mem]
  constructor
  · intro empty r queued channel
    by_contra other
    refine empty (r, m.req r) ((Device.mem_queue (Device.waitingGone_wf wf) c r _).2 ?_)
    rw [record, if_neg fun h => other h.2]
    exact ⟨rfl, queued, channel⟩
  · rintro all ⟨r, q⟩ mem
    obtain ⟨-, queued, channel⟩ := (Device.mem_queue (Device.waitingGone_wf wf) c r q).1 mem
    rw [record] at queued channel
    split at queued
    · cases queued
    · rename_i other
      rw [if_neg other] at channel
      exact other ⟨queued, all r queued channel⟩

theorem Device.exists_queuedFor (wf : Table.wf Request.free m.reqs = true) (c : Nat) :
    (∃ e ∈ m.queuedFor n, e.2.channel = c) ↔
      ∃ r, (m.req r).state = .queued ∧ (m.req r).slot = n ∧ (m.req r).channel = c := by
  constructor
  · rintro ⟨⟨r, q⟩, mem, rfl⟩
    obtain ⟨listed, mine⟩ := List.mem_filter.1 mem
    have record : m.req r = q := Table.get_of_mem _ wf (r, q) listed
    simp only [Bool.and_eq_true, decide_eq_true_eq] at mine
    exact ⟨r, by rw [record]; exact ⟨mine.2, mine.1, rfl⟩⟩
  · rintro ⟨r, queued, slot, rfl⟩
    obtain ⟨⟨j, q⟩, mem, rfl⟩ := List.mem_map.1 ((Device.mem_queuedFor wf r).2 ⟨queued, slot⟩)
    have record : m.req j = q := Table.get_of_mem _ wf (j, q) (List.mem_of_mem_filter mem)
    exact ⟨(j, q), mem, by rw [record]⟩

theorem Device.withdraw_emptied (wf : Table.wf Request.free m.reqs = true) {c : Nat}
    (some_ : ∃ r, (m.req r).state = .queued ∧ (m.req r).slot = n ∧ (m.req r).channel = c)
    (all : ∀ r, (m.req r).state = .queued → (m.req r).channel = c → (m.req r).slot = n) :
    (m.withdraw n).channel c = { m.channel c with recheck := none } :=
  (m.withdraw_channel n c).trans
    (if_pos ⟨(Device.exists_queuedFor wf c).2 some_, (Device.waitingGone_queue wf c).2 all⟩)

theorem Device.withdraw_not_emptied (wf : Table.wf Request.free m.reqs = true) {c : Nat}
    (kept : (∀ r, (m.req r).state = .queued → (m.req r).channel = c → (m.req r).slot ≠ n) ∨
      ∃ r, (m.req r).state = .queued ∧ (m.req r).channel = c ∧ (m.req r).slot ≠ n) :
    (m.withdraw n).channel c = m.channel c := by
  refine (m.withdraw_channel n c).trans (if_neg ?_)
  rintro ⟨some_, all⟩
  rcases kept with none_ | ⟨r, queued, channel, other⟩
  · obtain ⟨r, queued, slot, channel⟩ := (Device.exists_queuedFor wf c).1 some_
    exact none_ r queued channel slot
  · exact other ((Device.waitingGone_queue wf c).1 all r queued channel)

/-- No record of the slot waits after its withdrawal (R111). -/
theorem Device.withdraw_queuedFor (wf : Table.wf Request.free m.reqs = true) : (m.withdraw n).queuedFor n = [] := by
  have kept : Table.wf Request.free (m.withdraw n).reqs = true := by
    rw [m.withdraw_frame n]
    exact Device.waitingGone_wf wf
  refine List.map_eq_nil_iff (f := fun e : Nat × Request => e.1).1 (List.eq_nil_iff_forall_not_mem.2 fun r mem => ?_)
  obtain ⟨queued, slot⟩ := (Device.mem_queuedFor kept r).1 mem
  rw [Device.withdraw_req_eq wf] at queued slot
  split at queued
  · cases queued
  · rename_i other
    rw [if_neg other] at slot
    exact other ⟨queued, slot⟩

theorem Segment.withdrawn_status (g : Segment) :
    g.withdrawn.status = if g.status = .unissued ∨ g.status = .queued then .withdrawn else g.status := by
  unfold Segment.withdrawn
  split <;> rfl

theorem Slot.count_withdrawn (x : Slot) :
    x.withdrawn.count .inFlight = x.count .inFlight ∧ x.withdrawn.count .unissued = 0 ∧
      x.withdrawn.count .queued = 0 := by
  refine ⟨?_, ?_, ?_⟩
  · simp only [Slot.count, Slot.withdrawn, List.countP_map]
    refine List.countP_congr fun g _ => ?_
    simp only [Function.comp, decide_eq_true_eq, g.withdrawn_status]
    split
    · rename_i waiting
      rcases waiting with h | h <;> simp [h]
    · rfl
  · simp only [Slot.count, Slot.withdrawn, List.countP_map, List.countP_eq_zero, Function.comp, decide_eq_true_eq,
      Segment.withdrawn_status]
    intro g _
    split
    · simp
    · rename_i none_
      exact fun h => none_ (.inl h)
  · simp only [Slot.count, Slot.withdrawn, List.countP_map, List.countP_eq_zero, Function.comp, decide_eq_true_eq,
      Segment.withdrawn_status]
    intro g _
    split
    · simp
    · rename_i none_
      exact fun h => none_ (.inr h)

end Withdraw

/-! ### The loss of a pin -/

section Unpin
variable (now : Time) {m : Device} {n : Nat}

theorem Device.freeSlot_other (m : Device) {j : Nat} (other : j ≠ n) : (m.freeSlot n).slot j = m.slot j :=
  (Stable.freeSlot_slot n j).trans (if_neg other)

theorem Device.unpinned_staged (staged : (m.slot n).state = .staged) :
    m.unpinned now n = ({ m.setSlot n { m.slot n with unpinnedSince := now } with
      reclaim := m.reclaim ++ [n] }).askRetry := by
  unfold Device.unpinned
  rw [staged]
  rfl

theorem Device.unpinned_filling (filling : (m.slot n).state = .filling) :
    m.unpinned now n =
      if (m.slot n).count .inFlight = 0 then (m.withdraw n).freeSlot n
      else (m.withdraw n).setSlot n { (m.slot n).withdrawn with state := .abandoned, unpinnedSince := now } := by
  have slot : (m.withdraw n).slot n = (m.slot n).withdrawn := (m.withdraw_slot n n).trans (if_pos rfl)
  unfold Device.unpinned
  rw [filling]
  simp only [Device.onSlot, slot, Slot.count_withdrawn]

theorem Device.unpinned_failed (failed : (m.slot n).state = .failed) :
    m.unpinned now n =
      if (m.slot n).count .inFlight = 0 then m.freeSlot n
      else m.setSlot n { m.slot n with unpinnedSince := now } := by
  unfold Device.unpinned
  rw [failed]
  rfl

theorem Device.unpinned_other {j : Nat} (other : j ≠ n) : (m.unpinned now n).slot j = m.slot j := by
  have set (t : Device) (x : Slot) : (t.setSlot n x).slot j = t.slot j :=
    (Device.slot_setSlot ..).trans (if_neg other)
  have withdrawn : (m.withdraw n).slot j = m.slot j := (m.withdraw_slot n j).trans (if_neg other)
  cases state : (m.slot n).state with
  | staged =>
    rw [Device.unpinned_staged now state]
    exact set m _
  | filling =>
    rw [Device.unpinned_filling now state]
    split
    · exact (Device.freeSlot_other _ other).trans withdrawn
    · exact (set _ _).trans withdrawn
  | failed =>
    rw [Device.unpinned_failed now state]
    split
    · exact Device.freeSlot_other _ other
    · exact set _ _
  | free => rw [show m.unpinned now n = m by unfold Device.unpinned; rw [state]]
  | abandoned => rw [show m.unpinned now n = m by unfold Device.unpinned; rw [state]]

theorem Device.unpin_last (last : (m.slot n).pins = 1) :
    m.unpin now n = ((m.setSlot n { m.slot n with pins := (m.slot n).pins - 1 }).unpinned now n).recompute n := by
  refine congrArg (Device.recompute n) (if_pos ?_)
  simp [Device.onSlot, last]

theorem Device.unpin_more (more : 1 < (m.slot n).pins) :
    m.unpin now n = (m.setSlot n { m.slot n with pins := (m.slot n).pins - 1 }).recompute n := by
  refine congrArg (Device.recompute n) (if_neg ?_)
  simp only [Device.onSlot, Device.slot_setSlot, if_pos]
  omega

theorem Device.unpin_other {j : Nat} (other : j ≠ n) : (m.unpin now n).slot j = m.slot j := by
  refine (Device.recompute_slot_other _ other).trans ?_
  have lowered : (m.onSlot n fun x => { x with pins := x.pins - 1 }).slot j = m.slot j :=
    (Device.slot_setSlot ..).trans (if_neg other)
  split
  · exact (Device.unpinned_other now other).trans lowered
  · exact lowered

/-- A recompute of a slot no record waits for asks for no choice. -/
theorem Device.recompute_agenda (none_ : m.queuedFor n = []) : (m.recompute n).agenda = m.agenda := by
  by_cases free : (m.slot n).state = .free
  · rw [Device.recompute_free free]
  · rw [Device.recompute_eq free, none_]
    split <;> rfl

theorem Device.unpinned_filling_choices (wf : Table.wf Request.free m.reqs = true)
    (filling : (m.slot n).state = .filling) :
    ((m.unpinned now n).recompute n).agenda.choices = m.agenda.choices := by
  have choices : (m.withdraw n).agenda.choices = m.agenda.choices := by rw [m.withdraw_frame n]
  rw [Device.unpinned_filling now filling]
  split
  · have gone : (((m.withdraw n).freeSlot n).slot n).state = .free :=
      congrArg Slot.state ((Stable.freeSlot_slot n n).trans (if_pos rfl))
    rw [Device.recompute_free gone]
    exact choices
  · refine (congrArg Agenda.choices (Device.recompute_agenda ?_)).trans choices
    exact Device.withdraw_queuedFor wf

end Unpin

theorem Device.recompute_least (m : Device) (n : Nat) (wf : Table.wf StreamRec.reset m.streams = true)
    (live : (m.slot n).state ≠ .free) :
    let y := (m.recompute n).slot n
    let pins (k : Nat) (w : WinEntry) : Prop := w ∈ (m.stream k).window ∧ w.slot = some n
    y = { m.slot n with due := y.due, seat := y.seat } ∧
    (∀ k w, pins k w → y.due ≤ w.due ∧ y.seat ≤ (m.stream k).seat) ∧
    (y.due = never ∨ ∃ k w, pins k w ∧ y.due = w.due) ∧ (y.seat = 3 ∨ ∃ k w, pins k w ∧ y.seat = (m.stream k).seat) := by
  have slot : (m.recompute n).slot n = { m.slot n with due := m.dueOf n, seat := m.seatOf n } :=
    (m.recompute_slot n n live).trans (if_pos rfl)
  intro y pins
  have due : y.due = m.dueOf n := congrArg Slot.due slot
  have seat : y.seat = m.seatOf n := congrArg Slot.seat slot
  rw [due, seat]
  refine ⟨slot, fun k w ⟨mem, pinned⟩ => ?_, ?_, ?_⟩
  · have listed := (Device.mem_windowPins wf n _).2 ⟨k, w, mem, pinned, rfl⟩
    exact ⟨(foldl_min_le (fun p : Nat × Time => p.2) _ never).2 _ listed,
      (foldl_min_le (fun p : Nat × Time => p.1) _ 3).2 _ listed⟩
  · refine (foldl_min_mem (fun p : Nat × Time => p.2) _ never).imp id ?_
    rintro ⟨p, listed, least⟩
    obtain ⟨k, w, mem, pinned, rfl⟩ := (Device.mem_windowPins wf n p).1 listed
    exact ⟨k, w, ⟨mem, pinned⟩, least⟩
  · refine (foldl_min_mem (fun p : Nat × Time => p.1) _ 3).imp id ?_
    rintro ⟨p, listed, least⟩
    obtain ⟨k, w, mem, pinned, rfl⟩ := (Device.mem_windowPins wf n p).1 listed
    exact ⟨k, w, ⟨mem, pinned⟩, least⟩

/-- What a slot becomes that has lost its last pin, by its state (R81, R82, R111, R112). -/
theorem Device.unpinned_slot (m : Device) (n : Nat) (now : Time) :
    let x := m.slot n
    (x.state = .staged → (m.unpinned now n).slot n = { x with unpinnedSince := now } ∧
      (m.unpinned now n).reclaim = m.reclaim ++ [n] ∧ (m.unpinned now n).freePages = m.freePages) ∧
    (x.state = .filling → x.count .inFlight = 0 → (m.unpinned now n).slot n = Slot.free ∧
      (m.unpinned now n).freePages = m.freePages ++ x.pages) ∧
    (x.state = .filling → x.count .inFlight ≠ 0 → (m.unpinned now n).slot n =
      { x.withdrawn with state := .abandoned, unpinnedSince := now }) ∧
    (x.state = .failed → x.count .inFlight = 0 → (m.unpinned now n).slot n = Slot.free) ∧
    (x.state = .failed → x.count .inFlight ≠ 0 → (m.unpinned now n).slot n = { x with unpinnedSince := now }) := by
  have freed (t : Device) : (t.freeSlot n).slot n = Slot.free := (Stable.freeSlot_slot n n).trans (if_pos rfl)
  have set (t : Device) (y : Slot) : (t.setSlot n y).slot n = y := (Device.slot_setSlot ..).trans (if_pos rfl)
  refine ⟨fun staged => ?_, fun filling idle => ?_, fun filling reads => ?_, fun failed idle => ?_,
    fun failed reads => ?_⟩
  · rw [Device.unpinned_staged now staged]
    exact ⟨set m _, rfl, rfl⟩
  · rw [Device.unpinned_filling now filling, if_pos idle]
    refine ⟨freed _, ?_⟩
    change (m.withdraw n).freePages ++ ((m.withdraw n).slot n).pages = _
    rw [(m.withdraw_slot n n).trans (if_pos rfl), m.withdraw_frame n]
    rfl
  · rw [Device.unpinned_filling now filling, if_neg reads]
    exact set _ _
  · rw [Device.unpinned_failed now failed, if_pos idle]
    exact freed m
  · rw [Device.unpinned_failed now failed, if_neg reads]
    exact set m _

/-- Settles O39, from what a slot without pins becomes, the withdrawal, and the least of the pinning entries. -/
theorem slotLosesLastPin : Obligations.SlotLosesLastPin := by
  unfold Obligations.SlotLosesLastPin
  refine ⟨fun m n => ?_, fun m n now => ?_, fun m n now => ?_, fun m n wf => ?_, fun m n now wf filling last => ?_,
    Device.recompute_least⟩
  · exact ⟨(Stable.freeSlot_slot n n).trans (if_pos rfl), fun _ other => Device.freeSlot_other m other,
      rfl, rfl, rfl, rfl, rfl⟩
  · refine ⟨Device.unpin_last now, fun more => ?_, fun _ other => Device.unpin_other now other, ?_⟩
    · rw [Device.unpin_more now more]
      obtain ⟨pins, state⟩ := Device.recompute_same n (m.setSlot n { m.slot n with pins := (m.slot n).pins - 1 })
      rw [Device.slot_setSlot_same] at pins state
      exact ⟨rfl, pins, state⟩
    · exact (quiet_streams m).unpin now n rfl
  · obtain ⟨staged, freed, abandoned, failed, failedReads⟩ := m.unpinned_slot n now
    refine ⟨staged, freed, fun filling reads => ?_, failed, failedReads, fun _ other => Device.unpinned_other now other⟩
    obtain ⟨inFlight, unissued, queued⟩ := (m.slot n).count_withdrawn
    rw [abandoned filling reads]
    exact ⟨rfl, rfl, inFlight, unissued, queued⟩
  · refine ⟨Device.withdraw_req_eq wf, (m.withdraw_slot n n).trans (if_pos rfl),
      fun j other => (m.withdraw_slot n j).trans (if_neg other), ?_, fun c =>
      ⟨Device.withdraw_emptied wf, Device.withdraw_not_emptied wf⟩⟩
    rw [m.withdraw_frame n]
  · rw [Device.unpin_last now last]
    refine Device.unpinned_filling_choices now wf ?_
    rw [Device.slot_setSlot, if_pos rfl]
    exact filling

end Sys2Proof.Machine
end

section
/-! PROOFS. Writes of the ring registers and of the event registers, and the interrupt decision (chapters 9 and 10). -/

namespace Sys2Proof.Machine

/-! ### Register accesses -/

section Access
variable {s : State} {p : Head} (reachable : s.env.reachable p = true) (f : Port → Port)
include reachable

/-- A register access of a reachable port changes its port as the register says (R149). -/
theorem State.onReachable_portEvent :
    s.onReachable p (s.portEvent fun m => m.onPort p f) =
      s.endsPorts (s.part.begin_.setPort p (f (s.part.port p))) := by
  refine (if_pos reachable).trans ?_
  rw [← Device.begin_port s.part p]
  rfl

theorem State.eventWrite_reachable (g : Events → Events) :
    s.eventWrite p g = s.endsPorts (s.part.begin_.setPort p { s.part.port p with ev := g (s.part.port p).ev }) :=
  State.onReachable_portEvent reachable fun x => { x with ev := g x.ev }

end Access

/-! ### The commands that writes spell -/

section Spelled
variable (p : Head) (width : Nat) (v : BitVec 64)

/-- A write to a register written whole: one that is too narrow is discarded (R148). -/
theorem commandOfWrite_whole {offset least : Nat} {i : Instr}
    (whole : commandOfWrite p offset width v = if width < least then .discardedWrite p else i) :
    (width < least → commandOfWrite p offset width v = .discardedWrite p) ∧
      (least ≤ width → commandOfWrite p offset width v = i) :=
  ⟨fun narrow => whole.trans (if_pos narrow), fun wide => whole.trans (if_neg (Nat.not_lt.2 wide))⟩

/-- A write to a register of which every width is taken. -/
theorem commandOfWrite_any {offset : Nat} {i : Instr} (spelled : commandOfWrite p offset width v = i) :
    (width < 0 → commandOfWrite p offset width v = .discardedWrite p) ∧
      (0 ≤ width → commandOfWrite p offset width v = i) :=
  ⟨fun narrow => absurd narrow (Nat.not_lt_zero _), fun _ => spelled⟩

/-- The offsets of the registers that a head writes (section 12.5). -/
def writtenOffsets : List Nat :=
  [0x010, 0x020, 0x028, 0x02C, 0x040, 0x048, 0x050, 0x060, 0x064, 0x068, 0x070, 0x074, 0x078, 0x090, 0x094, 0x098, 0x0C0]

theorem commandOfWrite_other {offset : Nat} (other : offset ∉ writtenOffsets) :
    commandOfWrite p offset width v = .discardedWrite p := by
  unfold commandOfWrite
  split
  case h_18 => rfl
  all_goals exact absurd (by decide) other

theorem low_eq_setWidth : v.extractLsb' 0 32 = v.setWidth 32 := by simp [BitVec.setWidth_eq_extractLsb']

end Spelled

/-! ### Ring registers -/

theorem RingRegs.configured_iff (r : RingRegs) : r.configured = true ↔ r.size ≠ 0 := decide_eq_true_iff

theorem RingRegs.diff_cast {r : RingRegs} (configured : r.size ≠ 0) (x y : Nat) :
    (r.diff x y : Int) = ((x : Int) - y) % (2 * r.size : Nat) :=
  Int.toNat_of_nonneg (Int.emod_nonneg _ (by omega))

section Writes
variable {x : Port}

theorem Port.writeBase_configured {r : RingId} (v : BitVec 64) (configured : (x.ring r).size ≠ 0) :
    x.writeBase r v = x.discarding := if_pos ((RingRegs.configured_iff _).2 configured)

theorem Port.writeBase_free {r : RingId} (v : BitVec 64) (free : (x.ring r).size = 0) :
    x.writeBase r v = x.setRing r { x.ring r with base := v.toNat / 4096 * 4096 } :=
  if_neg fun h => (RingRegs.configured_iff _).1 h free

theorem Port.writeSize_configured {r : RingId} (v : BitVec 32) (configured : (x.ring r).size ≠ 0) :
    x.writeSize r v = x.discarding := if_pos ((RingRegs.configured_iff _).2 configured)

theorem Port.writeSize_free {r : RingId} (v : BitVec 32) (free : (x.ring r).size = 0) :
    x.writeSize r v = x.setRing r { base := (x.ring r).base, size := ringSize r v.toNat, producer := 0, consumer := 0 } :=
  if_neg fun h => (RingRegs.configured_iff _).1 h free

/-- The size of a ring lies within its bounds, and between them it is the size written rounded down to a power of two
(R150). -/
theorem two_pow_log2_clamp {lo hi : Nat} (a b : Nat) (low : lo = 2 ^ a) (high : hi = 2 ^ b) (order : lo ≤ hi) (v : Nat) :
    let size := 2 ^ (clampNat lo hi v).log2
    (v < lo → size = lo) ∧ (hi < v → size = hi) ∧ (lo ≤ v → v ≤ hi → size ≤ v ∧ v < 2 ^ ((clampNat lo hi v).log2 + 1)) := by
  intro size
  refine ⟨fun less => ?_, fun more => ?_, fun ge le => ?_⟩
  · have clamped : clampNat lo hi v = 2 ^ a := by rw [clampNat]; omega
    rw [show size = 2 ^ (clampNat lo hi v).log2 from rfl, clamped, Nat.log2_two_pow, low]
  · have clamped : clampNat lo hi v = 2 ^ b := by rw [clampNat]; omega
    rw [show size = 2 ^ (clampNat lo hi v).log2 from rfl, clamped, Nat.log2_two_pow, high]
  · have clamped : clampNat lo hi v = v := by rw [clampNat]; omega
    have pos : 0 < lo := low ▸ Nat.two_pow_pos a
    rw [show size = 2 ^ (clampNat lo hi v).log2 from rfl, clamped]
    exact ⟨Nat.log2_self_le (by omega), Nat.lt_log2_self⟩

theorem ringSize_bounds (r : RingId) (v lo hi : Nat)
    (bounds : (r = .command ∧ lo = 16 ∧ hi = 1024) ∨ (r = .notice ∧ lo = 64 ∧ hi = 4096)) :
    let e := (clampNat (ringSizes r).1 (ringSizes r).2 v).log2
    (v < lo → 2 ^ e = lo) ∧ (hi < v → 2 ^ e = hi) ∧ (lo ≤ v → v ≤ hi → 2 ^ e ≤ v ∧ v < 2 ^ (e + 1)) := by
  rcases bounds with ⟨rfl, rfl, rfl⟩ | ⟨rfl, rfl, rfl⟩
  · exact two_pow_log2_clamp 4 10 (by decide) (by decide) (by decide) v
  · exact two_pow_log2_clamp 6 12 (by decide) (by decide) (by decide) v

/-- A producer is taken where it would not overfill the ring (R151). -/
theorem Port.writeProducer_taken (v : BitVec 32) (configured : x.cmdRing.size ≠ 0)
    (room : (((v.toNat % (2 * x.cmdRing.size) : Nat) : Int) - x.cmdRing.consumer) % (2 * x.cmdRing.size : Nat) ≤
      x.cmdRing.size) :
    x.writeProducer v = { x with cmdRing := { x.cmdRing with producer := v.toNat % (2 * x.cmdRing.size) } } := by
  refine if_pos ?_
  rw [← RingRegs.diff_cast configured] at room
  simp only [Bool.and_eq_true, RingRegs.configured_iff, decide_eq_true_eq]
  exact ⟨configured, by exact_mod_cast room⟩

theorem Port.writeProducer_discarded (v : BitVec 32)
    (refused : x.cmdRing.size = 0 ∨ (x.cmdRing.size : Int) <
      (((v.toNat % (2 * x.cmdRing.size) : Nat) : Int) - x.cmdRing.consumer) % (2 * x.cmdRing.size : Nat)) :
    x.writeProducer v = x.discarding := by
  refine if_neg ?_
  simp only [Bool.and_eq_true, RingRegs.configured_iff, decide_eq_true_eq]
  rintro ⟨configured, room⟩
  have beyond := refused.resolve_left configured
  rw [← RingRegs.diff_cast configured] at beyond
  omega

/-- A consumer is taken where it moves forward over notices that the ring holds (R151). -/
theorem Port.writeConsumer_taken (v : BitVec 32) (configured : x.ntcRing.size ≠ 0)
    (holds : ((x.ntcRing.producer : Int) - (v.toNat % (2 * x.ntcRing.size) : Nat)) % (2 * x.ntcRing.size : Nat) ≤
      ((x.ntcRing.producer : Int) - x.ntcRing.consumer) % (2 * x.ntcRing.size : Nat)) :
    x.writeConsumer v = { x with ntcRing := { x.ntcRing with consumer := v.toNat % (2 * x.ntcRing.size) } } := by
  refine if_pos ?_
  rw [← RingRegs.diff_cast configured, ← RingRegs.diff_cast configured] at holds
  simp only [Bool.and_eq_true, RingRegs.configured_iff, decide_eq_true_eq]
  exact ⟨configured, by exact_mod_cast holds⟩

theorem Port.writeConsumer_discarded (v : BitVec 32)
    (refused : x.ntcRing.size = 0 ∨
      ((x.ntcRing.producer : Int) - x.ntcRing.consumer) % (2 * x.ntcRing.size : Nat) <
        ((x.ntcRing.producer : Int) - (v.toNat % (2 * x.ntcRing.size) : Nat)) % (2 * x.ntcRing.size : Nat)) :
    x.writeConsumer v = x.discarding := by
  refine if_neg ?_
  simp only [Bool.and_eq_true, RingRegs.configured_iff, decide_eq_true_eq]
  rintro ⟨configured, holds⟩
  have beyond := refused.resolve_left configured
  rw [← RingRegs.diff_cast configured, ← RingRegs.diff_cast configured] at beyond
  have : x.ntcRing.count = x.ntcRing.diff x.ntcRing.producer x.ntcRing.consumer := rfl
  omega

end Writes

/-- Settles O53, from the commands that writes spell and the equation of each ring register. -/
theorem ringWrites : Obligations.RingWrites := by
  unfold Obligations.RingWrites
  refine ⟨fun p width v => ?_, fun s p reachable => ?_⟩
  · intro low spells
    have low_eq : v.extractLsb' 0 32 = low := low_eq_setWidth v
    refine ⟨commandOfWrite_whole p width v rfl, commandOfWrite_whole p width v rfl, ?_, ?_, ?_, ?_, fun offset other =>
      commandOfWrite_any p width v (commandOfWrite_other p width v other)⟩
    · rw [← low_eq]
      exact commandOfWrite_whole p width v rfl
    · rw [← low_eq]
      exact commandOfWrite_whole p width v rfl
    · rw [← low_eq]
      exact commandOfWrite_any p width v rfl
    · rw [← low_eq]
      exact commandOfWrite_any p width v rfl
  · intro x leaves
    have access {i : Instr} {f : Port → Port} {y : Port}
        (row : exec i s = s.onReachable p (s.portEvent fun m => m.onPort p f)) (left : f x = y) : leaves i y :=
      row.trans ((State.onReachable_portEvent reachable f).trans
        (congrArg (fun z => s.endsPorts (s.part.begin_.setPort p z)) left))
    exact ⟨access (f := Port.discarded) rfl rfl,
      fun r v configured => access (f := (·.writeBase r v)) rfl (Port.writeBase_configured v configured),
      fun r v free => access (f := (·.writeBase r v)) rfl (Port.writeBase_free v free),
      fun r v configured => access (f := (·.writeSize r v)) rfl (Port.writeSize_configured v configured),
      fun r v free => ⟨_, access (f := (·.writeSize r v)) rfl (Port.writeSize_free v free), ringSize_bounds r v.toNat⟩,
      fun v => ⟨fun configured room => access (f := (·.writeProducer v)) rfl
          (Port.writeProducer_taken v configured room),
        fun refused => access (f := (·.writeProducer v)) rfl (Port.writeProducer_discarded v refused)⟩,
      fun v => ⟨fun configured holds => access (f := (·.writeConsumer v)) rfl
          (Port.writeConsumer_taken v configured holds),
        fun refused => access (f := (·.writeConsumer v)) rfl (Port.writeConsumer_discarded v refused)⟩⟩

/-! ### Events -/

section Events
variable {v : Events}

/-- Level `l` asks for an interrupt: a source of the level requests unmasked, and neither it nor a more pressing level
is in service (R169). -/
theorem Events.eligible_iff (l : Nat) :
    v.eligible l = true ↔
      (∃ i < 9, v.level.toNat / 2 ^ (2 * i) % 4 = l ∧ v.request.getLsbD i = true ∧ v.mask.getLsbD i = false) ∧
        ∀ j ≤ l, v.inService.getLsbD j = false := by
  simp only [Events.eligible, Events.serving, Bool.and_eq_true, List.any_eq_true, List.all_eq_true, List.mem_range,
    decide_eq_true_eq, Bool.not_eq_true', Nat.lt_succ_iff, and_assoc]
  rfl

theorem find_range_eq_some {n l : Nat} {f : Nat → Bool} (less : l < n) (holds : f l = true)
    (first : ∀ j < l, f j = false) : (List.range n).find? f = some l := by
  rw [List.range_eq_range']
  exact lowest_eq_some_iff.2 ⟨less, holds, first⟩

theorem find_range_eq_none {n : Nat} {f : Nat → Bool} (none_ : ∀ l < n, f l = false) :
    (List.range n).find? f = none := by
  rw [List.range_eq_range']
  exact lowest_eq_none_iff.2 none_

theorem Device.decideInterrupt_some {m : Device} {p : Head} {l : Nat} (decided : (m.port p).ev.decision = some l) :
    m.decideInterrupt p = (m.setPort p { m.port p with ev := (m.port p).ev.serve l }).emit (.interrupt p l) := by
  rw [Device.decideInterrupt, decided]
  rfl

theorem Device.decideInterrupt_none {m : Device} {p : Head} (decided : (m.port p).ev.decision = none) :
    m.decideInterrupt p = m := by rw [Device.decideInterrupt, decided]

theorem Events.endService_none (idle : v.inService = 0) : v.endService = v := by
  have none_ : (List.range 4).find? v.serving = none :=
    find_range_eq_none fun l _ => by rw [Events.serving, idle]; exact BitVec.getLsbD_zero
  rw [Events.endService, none_]

theorem Events.endService_some {l : Nat} (less : l < 4) (serving : v.inService.getLsbD l = true)
    (first : ∀ j < l, v.inService.getLsbD j = false) :
    v.endService = { v with inService := v.inService &&& ~~~(BitVec.twoPow 4 l) } := by
  have found : (List.range 4).find? v.serving = some l := find_range_eq_some less serving first
  rw [Events.endService, found]

theorem Events.setCoalCount_quiet {n : Nat} (less : v.unsignalled < max 1 (min n 64)) :
    v.setCoalCount n = { v with coalCount := max 1 (min n 64) } := if_neg (Nat.not_le.2 less)

theorem Events.setCoalCount_reached {n : Nat} (reached : max 1 (min n 64) ≤ v.unsignalled) :
    v.setCoalCount n = { v.request1 4 with coalCount := max 1 (min n 64), unsignalled := 0, coalTimer := none } :=
  if_pos reached

theorem exec_coalescingTimerExpiry {s : State} {p : Head} {t : Time} (set : (s.part.port p).ev.coalTimer = some t)
    (due : t ≤ s.env.now) :
    exec (.coalescingTimerExpiry p) s = s.endsPorts (s.part.begin_.setPort p
      { s.part.port p with ev := (s.part.port p).ev.coalExpired }) := by
  change execCoalescingTimerExpiry p s = _
  rw [execCoalescingTimerExpiry, set]
  refine (if_pos due).trans ?_
  rw [← Device.begin_port s.part p]
  rfl

end Events

/-- Settles O54, from the levels that ask for an interrupt and the equation of each event register. -/
theorem eventWrites : Obligations.EventWrites := by
  unfold Obligations.EventWrites
  refine ⟨fun m p => ?_, fun s p => ?_⟩
  · intro v level asks
    have quiet {l : Nat} (none_ : ¬ asks l) : v.eligible l = false :=
      Bool.eq_false_iff.2 fun h => none_ ((Events.eligible_iff l).1 h)
    exact ⟨fun l less ask first => Device.decideInterrupt_some
        (find_range_eq_some less ((Events.eligible_iff l).2 ask) fun j before => quiet (first j before)),
      fun none_ => Device.decideInterrupt_none (find_range_eq_none fun l less => quiet (none_ l less))⟩
  · intro x v leaves
    have expired (t : Time) (set : v.coalTimer = some t) (due : t ≤ s.env.now) :
        leaves (.coalescingTimerExpiry p) v.coalExpired := exec_coalescingTimerExpiry set due
    refine ⟨fun reachable => ?_, fun t set due => ⟨fun zero => ?_, fun some_ => ?_⟩⟩
    · have access {i : Instr} {g : Events → Events} {w : Events} (row : exec i s = s.eventWrite p g) (left : g v = w) :
          leaves i w :=
        row.trans ((State.eventWrite_reachable reachable g).trans
          (congrArg (fun w => s.endsPorts (s.part.begin_.setPort p { x with ev := w })) left))
      exact ⟨fun value => access (g := fun v => { v with request := v.request &&& ~~~(value.setWidth 9) }) rfl rfl,
        fun value => access (g := fun v => { v with mask := value.setWidth 9 }) rfl rfl,
        fun value => access (g := fun v => { v with level := value.setWidth 18 }) rfl rfl,
        fun idle => access (g := Events.endService) rfl (Events.endService_none idle),
        fun l less serving first => access (g := Events.endService) rfl (Events.endService_some less serving first),
        fun value => ⟨fun less => access (g := (·.setCoalCount value.toNat)) rfl (Events.setCoalCount_quiet less),
          fun reached => access (g := (·.setCoalCount value.toNat)) rfl (Events.setCoalCount_reached reached)⟩,
        fun value => access (g := fun v => { v with coalExpiryUs := clampNat 50 2000 value.toNat }) rfl rfl⟩
    · have left : v.coalExpired = { v with coalTimer := none } := if_neg (by omega)
      rw [← left]
      exact expired t set due
    · have left : v.coalExpired = { v.request1 4 with unsignalled := 0, coalTimer := none } := if_pos some_
      rw [← left]
      exact expired t set due

end Sys2Proof.Machine
end

section
/-! PROOFS. Reads and writes of the staging window (chapter 9). -/

namespace Sys2Proof.Machine

/-! ### Denied accesses -/

theorem Device.denied_eq (m : Device) (p : Head) (address : Nat) :
    m.denied p address = m.setPort p { m.port p with
      deniedAccesses := ((m.port p).deniedAccesses + 1) % 4294967296, lastDenied := address,
      ev := (m.port p).ev.request1 8 } := by cases p <;> rfl

theorem Device.admits_iff {m : Device} (wf : Table.wf StreamRec.reset m.streams = true) (p : Head) (n : Nat) :
    m.admits p n = true ↔ m.Admitted p n := by
  have entry (l : List DelEntry) : (l.any fun d => match d.slot with
      | some k => (m.slot k).pages.contains n
      | none => false) = true ↔ ∃ d ∈ l, ∃ j, d.slot = some j ∧ n ∈ (m.slot j).pages := by
    refine List.any_eq_true.trans (exists_congr fun d => and_congr_right fun _ => ?_)
    cases d.slot <;> simp
  constructor
  · intro admitted
    obtain ⟨⟨k, x⟩, listed, holds⟩ := List.any_eq_true.1 admitted
    obtain ⟨owner, pinned⟩ := Bool.and_eq_true_iff.1 holds
    have record : m.stream k = x := Table.get_of_mem _ wf (k, x) listed
    refine ⟨k, ?_, ?_⟩
    · rw [record]
      exact of_decide_eq_true owner
    · rw [record]
      exact (entry x.delivery).1 pinned
  · rintro ⟨k, owner, d, mem, j, slot, page⟩
    refine List.any_eq_true.2 ⟨(k, m.stream k), (Table.get_mem_or m.streams k).resolve_left fun unlisted => ?_, ?_⟩
    · rw [show m.stream k = StreamRec.reset from unlisted] at mem
      cases mem
    · exact Bool.and_eq_true_iff.2 ⟨decide_eq_true owner, (entry _).2 ⟨d, mem, j, slot, page⟩⟩

/-! ### Reads of the window -/

section Read
variable {s : State} {p : Head} (base offset length : Nat) (byte : Nat → Byte) {ok : Nat → Bool}

/-- The bytes that a read of the window returns. -/
def windowBytes : List Byte := (List.range' offset length).map byte

theorem windowBytes_length : (windowBytes offset length byte).length = length := by simp [windowBytes]

theorem windowBytes_getElem? {i : Nat} {b : Byte} (at_ : (windowBytes offset length byte)[i]? = some b) :
    b = byte (offset + i) := by
  rw [windowBytes, List.getElem?_map, Option.map_eq_some_iff] at at_
  obtain ⟨o, index, rfl⟩ := at_
  have less : i < length := by
    have := (List.getElem?_eq_some_iff.1 index).1
    simpa using this
  rw [List.getElem?_range' less, Nat.one_mul, Option.some.injEq] at index
  rw [index]

theorem State.windowRead_open (reachable : s.env.reachable p = true) (all : ∀ i < length, ok (offset + i) = true) :
    s.windowRead p base offset length byte ok =
      s.endsPorts (s.part.begin_.emit (.stagingData p (windowBytes offset length byte))) := by
  have none_ : (List.range' offset length).find? (fun o => !ok o) = none := by
    rw [List.find?_eq_none]
    intro o mem
    obtain ⟨i, less, rfl⟩ := List.mem_range'.1 mem
    simp [all i less]
  refine (if_pos reachable).trans ?_
  simp only [none_]
  rfl

theorem State.windowRead_denied (reachable : s.env.reachable p = true) {i : Nat} (less : i < length)
    (denied : ok (offset + i) = false) (before : ∀ j < i, ok (offset + j) = true) :
    s.windowRead p base offset length byte ok =
      s.endsPorts ((s.part.begin_.setPort p { s.part.port p with
        deniedAccesses := ((s.part.port p).deniedAccesses + 1) % 4294967296, lastDenied := base + (offset + i),
        ev := (s.part.port p).ev.request1 8 }).emit (.stagingData p (windowBytes offset length byte))) := by
  have found : (List.range' offset length).find? (fun o => !ok o) = some (offset + i) := by
    rw [List.find?_range'_eq_some]
    refine ⟨by simp [denied], by simp [less], fun j ge le => ?_⟩
    obtain ⟨k, rfl⟩ := Nat.exists_eq_add_of_le ge
    simp [before k (by omega)]
  refine (if_pos reachable).trans ?_
  simp only [found]
  refine congrArg s.endsPorts ((Device.denied_eq _ p _).trans ?_)
  cases p <;> rfl

end Read

section Bytes
variable {s : State} {p : Head}

theorem Device.admitsByte_iff (wf : Table.wf StreamRec.reset s.part.streams = true) (o : Nat) :
    s.part.admitsByte s.env.straps p o = true ↔
      o / 1048576 < s.env.straps.poolPages ∧ s.part.Admitted p (o / 1048576) := by
  rw [Device.admitsByte, Bool.and_eq_true, decide_eq_true_eq, Device.admits_iff wf]

theorem State.pageByte_open {o : Nat} (admitted : s.part.admitsByte s.env.straps p o = true) :
    s.pageByte p o = s.env.mem.read (s.env.straps.idxMiB * 1048576 + o) := if_pos admitted

theorem State.pageByte_denied {o : Nat} (denied : ¬ s.part.admitsByte s.env.straps p o = true) :
    s.pageByte p o = 0xFF := if_neg denied

theorem State.descriptorByte_inside {o : Nat} (inside : o < 4194304) :
    s.descriptorByte o = (s.part.slot (o / 1024)).descriptor.getD (o % 1024) 0 :=
  (if_pos inside).trans (List.getD_eq_getElem?_getD ..).symm

theorem State.descriptorByte_beyond {o : Nat} (beyond : 4194304 ≤ o) : s.descriptorByte o = 0xFF :=
  if_neg (Nat.not_lt.2 beyond)

end Bytes

/-- Settles O56, from the answer of a window read with and without a byte that is denied. -/
theorem stagingWindow : Obligations.StagingWindow := by
  unfold Obligations.StagingWindow
  intro s p reachable wf x b denied open_
  have opened (o : Nat) : s.part.admitsByte s.env.straps p o = true ↔ open_ o := Device.admitsByte_iff wf o
  refine ⟨fun offset length => ⟨windowBytes offset length (s.pageByte p), windowBytes_length .., ?_, ?_, ?_⟩,
    fun offset length => ⟨windowBytes offset length s.descriptorByte, windowBytes_length .., ?_, ?_, ?_⟩,
    fun offset => ?_⟩
  · intro i byte at_
    rw [windowBytes_getElem? offset length _ at_]
    exact ⟨fun admitted => State.pageByte_open ((opened _).2 admitted),
      fun closed => State.pageByte_denied fun admitted => closed ((opened _).1 admitted)⟩
  · intro all
    exact State.windowRead_open 0 offset length _ reachable fun i less => (opened _).2 (all i less)
  · intro i less closed before
    have row := State.windowRead_denied 0 offset length (s.pageByte p) (ok := s.part.admitsByte s.env.straps p)
      reachable less (Bool.eq_false_iff.2 fun admitted => closed ((opened _).1 admitted))
      fun j earlier => (opened _).2 (before j earlier)
    rw [Nat.zero_add] at row
    exact row
  · intro i byte at_
    rw [windowBytes_getElem? offset length _ at_]
    exact ⟨State.descriptorByte_inside, State.descriptorByte_beyond⟩
  · intro inside
    refine State.windowRead_open 34359738368 offset length s.descriptorByte reachable fun i less => ?_
    exact decide_eq_true (show offset + i < 4194304 by omega)
  · intro some_ beyond
    have row := State.windowRead_denied 34359738368 offset length s.descriptorByte
      (ok := fun o => decide (o < Config.descriptorBytes)) reachable (i := 4194304 - offset) (by omega)
      (decide_eq_false (show ¬ offset + (4194304 - offset) < 4194304 by omega))
      fun j earlier => decide_eq_true (show offset + j < 4194304 by omega)
    rw [show offset + (4194304 - offset) = max offset 4194304 by omega] at row
    exact row
  · refine (if_pos reachable).trans (congrArg s.endsPorts ((Device.denied_eq ..).trans ?_))
    rw [Device.begin_port]

end Sys2Proof.Machine
end

section
/-! PROOFS. The timebase, the table access window and the words of its views (chapter 9, section 9.5). -/

namespace Sys2Proof.Machine

/-! ### Words of a record -/

section Padded
variable {n : Nat} {l : List Word}

theorem padded_length : (padded n l).length = n := by simp [padded]

theorem padded_getElem? {i : Nat} (less : i < n) (listed : i < l.length) : (padded n l)[i]? = l[i]? := by
  rw [padded, List.getElem?_take_of_lt less, List.getElem?_append_left listed]

theorem padded_drop_take {k count : Nat} (room : k + count ≤ n) (listed : k + count ≤ l.length) :
    ((padded n l).drop k).take count = (l.drop k).take count := by
  refine List.ext_getElem? fun i => ?_
  by_cases less : i < count
  · rw [List.getElem?_take_of_lt less, List.getElem?_take_of_lt less, List.getElem?_drop, List.getElem?_drop,
      padded_getElem? (by omega) (by omega)]
  · rw [List.getElem?_take_eq_none (by omega), List.getElem?_take_eq_none (by omega)]

end Padded

theorem timeWords_two (view at_ : Nat) (t : Option Time) :
    ∃ a b, timeWords view at_ t = [a, b] ∧ ∀ x, t = some x → [a, b] = words64 x := by
  cases t with
  | none => exact ⟨_, _, rfl, nofun⟩
  | some x => exact ⟨_, _, rfl, fun _ eq => by cases eq; rfl⟩

theorem optWord_one (view at_ : Nat) (w : Option Word) :
    ∃ a, optWord view at_ w = [a] ∧ ∀ x, w = some x → a = x := by
  cases w with
  | none => exact ⟨_, rfl, nofun⟩
  | some x => exact ⟨_, rfl, fun _ eq => by cases eq; rfl⟩

theorem stripeWords_length (stripes : List Stripe) (j : Nat) : (stripeWords stripes j).length = 3 := by
  unfold stripeWords
  split <;> rfl

theorem stripeWords_some {stripes : List Stripe} {j : Nat} {t : Stripe} (at_ : stripes[j]? = some t) :
    stripeWords stripes j = [word t.channel, word t.base, word (t.base / 4294967296)] := by
  rw [stripeWords, at_]
  rfl

theorem tagWords_three (m : Device) (c at_ t : Nat) : ∃ a b d, m.tagWords c at_ t = [a, b, d] := by
  unfold Device.tagWords
  dsimp only
  split <;> exact ⟨_, _, _, rfl⟩

/-- The `j`-th of lists of `w` elements each, out of them all. -/
theorem flatMap_drop_take {α β : Type} {f : α → List β} {w : Nat} (width : ∀ x, (f x).length = w) (l : List α)
    {j : Nat} {x : α} (at_ : l[j]? = some x) : ((l.flatMap f).drop (w * j)).take w = f x := by
  induction l generalizing j with
  | nil => cases at_
  | cons y l ih =>
    cases j with
    | zero =>
      cases at_
      simpa using List.take_left' (width _)
    | succ j =>
      rw [List.flatMap_cons, Nat.mul_succ, Nat.add_comm, ← List.drop_drop, List.drop_left' (width y)]
      exact ih at_

/-! ### Records -/

theorem Clip.words_first (x : Clip) :
    x.words.take 6 = [word x.state.code, word x.generation, word x.definer.code, word x.frameCount,
      wordBool x.openEnd, word x.refCount] := rfl

theorem Clip.words_indexed {x : Clip} {base capacity : Nat} (locator : x.locator = .indexed base capacity) :
    (x.words.drop 6).take 6 = [1, 0, 0, 0, word base, word capacity] := by
  rw [Clip.words, locator]
  rfl

theorem Clip.words_stride {x : Clip} {stripes : List Stripe} {blocks bytes : Nat}
    (locator : x.locator = .stride stripes blocks bytes) :
    (x.words.drop 6).take 6 = [0, word stripes.length, word blocks, word bytes, 0, 0] ∧
      ∀ j t, j < 8 → stripes[j]? = some t →
        (x.words.drop (12 + 3 * j)).take 3 = [word t.channel, word t.base, word (t.base / 4294967296)] := by
  have words : x.words = padded 48 ([word x.state.code, word x.generation, word x.definer.code, word x.frameCount,
      wordBool x.openEnd, word x.refCount, 0, word stripes.length, word blocks, word bytes, 0, 0] ++
        (List.range 8).flatMap (stripeWords stripes)) := by
    rw [Clip.words, locator]
    rfl
  rw [words]
  refine ⟨rfl, fun j t less at_ => ?_⟩
  have each := flatMap_drop_take (stripeWords_length stripes) (List.range 8) (List.getElem?_range less)
  rw [padded_drop_take (by omega) (by simp [stripeWords_length]; omega), ← List.drop_drop]
  exact each.trans (stripeWords_some at_)

theorem StreamRec.words_first (x : StreamRec) :
    x.words.take 15 = [word x.state.code, word x.owner.code, wordBool x.ownerAbsent, word x.clip,
      word x.generation, word x.inPoint, word x.outPoint, wordBool x.loop, wordBool x.openEnd,
      wordInt x.f0q, wordInt (x.f0q / 4294967296), word x.t0, word (x.t0 / 4294967296),
      wordInt x.s, wordBool (!x.lastForward)] := rfl

/-- The words of a stream record from the saved S on (R188): of each absent field the words are free values. -/
theorem StreamRec.words_rest (x : StreamRec) :
    (∀ v, x.savedS = some v → x.words[15]? = some (wordInt v)) ∧
    (x.words.drop 16).take 13 = [word x.period, word x.w, word x.c, word x.seat, wordInt x.n,
      wordBool x.stillDelivered, wordBool x.endPending.isSome, word x.nextSeq, word x.missedCount,
      word x.lastMissed, word x.missedTotal, word x.lateTotal, word x.failedTotal] ∧
    (∀ t, x.displayTimer = some t → (x.words.drop 29).take 2 = words64 t) ∧
    (x.words.drop 31).take 2 = [wordBool x.passPending, wordBool x.displayTimer.isSome] ∧
    (∀ t, x.handoverTimer = some t → (x.words.drop 34).take 2 = words64 t) ∧
    (∀ t, x.orphanTimer = some t → (x.words.drop 36).take 2 = words64 t) := by
  obtain ⟨saved, savedWords, savedIs⟩ := optWord_one 1 15 (x.savedS.map wordInt)
  obtain ⟨d1, d2, displayWords, displayIs⟩ := timeWords_two 1 29 x.displayTimer
  obtain ⟨h1, h2, handoverWords, handoverIs⟩ := timeWords_two 1 34 x.handoverTimer
  obtain ⟨o1, o2, orphanWords, orphanIs⟩ := timeWords_two 1 36 x.orphanTimer
  rw [StreamRec.words, savedWords, displayWords, handoverWords, orphanWords]
  refine ⟨fun v eq => ?_, ?_, fun t eq => ?_, ?_, fun t eq => ?_, fun t eq => ?_⟩
  · rw [← savedIs (wordInt v) (by rw [eq]; rfl)]
    rfl
  · rfl
  · rw [← displayIs t eq]
    rfl
  · rfl
  · rw [← handoverIs t eq]
    rfl
  · rw [← orphanIs t eq]
    rfl

theorem Slot.words_first (x : Slot) :
    x.words.take 18 = [word x.state.code, word x.clip, word x.generation, word x.frame, word x.frameBytes,
      word x.pages.length, word x.segs.length, word (x.count .unissued), word (x.count .queued),
      word (x.count .inFlight), word (x.count .done), word (x.count .withdrawn), word x.pins, word x.due,
      word (x.due / 4294967296), word x.seat, word x.unpinnedSince, word (x.unpinnedSince / 4294967296)] := rfl

theorem Slot.words_cause {x : Slot} {cause : Cause} (failed : x.cause = some cause) :
    x.words[18]? = some (word cause.code) := by
  rw [Slot.words, failed]
  rfl

theorem Slot.words_page {x : Slot} {i page : Nat} (less : i < 128) (at_ : x.pages[i]? = some page) :
    x.words[24 + i]? = some (word page) := by
  have listed : i < x.pages.length := (List.getElem?_eq_some_iff.1 at_).1
  unfold Slot.words
  rw [padded_getElem? (by omega) (by simp [padded_length]; omega),
    List.getElem?_append_right (by rw [padded_length]; omega), padded_length, Nat.add_sub_cancel_left,
    List.getElem?_map, at_]
  rfl

/-- The words of a channel record that the chapters name (R54, R113, R134). -/
theorem Device.channelWords_eq (e : Env) (m : Device) (c : Nat) :
    let words := m.channelWords e c
    let x := m.channel c
    words[3]? = some (word (m.queue c).length) ∧
    (words.drop 11).take 6 = [word x.dispatches, word x.goodEnds, word x.retries, word x.failedMedium,
      word x.failedAddress, word x.failedChannel] ∧
    words[19]? = some (word x.state.code) ∧
    (words.drop 22).take 2 = [wordBool x.link, word x.largestRead] ∧
    (words.drop 25).take 3 = [word x.setup, word x.cost, word (x.wakeEstimate / 1000000)] ∧
    (words.drop 30).take 5 = [word x.parkMs, word (x.wakeEstimate / 1000000), word x.retryLimit, word x.tagLimit,
      word x.driftMs] ∧
    (words.drop 47).take 10 = [word x.consecutive, word x.driftRun, word x.timeouts, word x.staleEnds,
      word x.discardedData, word x.strays, word x.shortReads, word x.linkLosses, word x.wakes, word x.drifts] := by
  obtain ⟨r1, r2, recheckWords, -⟩ := timeWords_two 3 9 (m.channel c).recheck
  obtain ⟨w1, w2, wakeWords, -⟩ :=
    timeWords_two 3 28 (if (m.channel c).state = .waking then some (m.channel c).wakeSent else none)
  have tags : ∃ a b d f g h i j k l n o, (List.range Config.numTags).flatMap (m.tagWords c 35) =
      [a, b, d, f, g, h, i, j, k, l, n, o] := by
    obtain ⟨a, b, d, tag0⟩ := tagWords_three m c 35 0
    obtain ⟨f, g, h, tag1⟩ := tagWords_three m c 35 1
    obtain ⟨i, j, k, tag2⟩ := tagWords_three m c 35 2
    obtain ⟨l, n, o, tag3⟩ := tagWords_three m c 35 3
    refine ⟨a, b, d, f, g, h, i, j, k, l, n, o, ?_⟩
    change m.tagWords c 35 0 ++ (m.tagWords c 35 1 ++ (m.tagWords c 35 2 ++ (m.tagWords c 35 3 ++ []))) = _
    rw [tag0, tag1, tag2, tag3]
    rfl
  obtain ⟨_, _, _, _, _, _, _, _, _, _, _, _, tagWords⟩ := tags
  intro words x
  have eq : words = m.channelWords e c := rfl
  rw [Device.channelWords, recheckWords, wakeWords, tagWords] at eq
  rw [eq]
  refine ⟨?_, ?_, ?_, ?_, ?_, ?_, ?_⟩ <;> rfl

theorem Device.directoryWords_eq (m : Device) :
    m.directoryWords.take 2 = [word m.freePages.length, word m.reclaim.length] ∧
      m.directoryWords[3]? = some (word m.backlog.length) := by
  obtain ⟨_, headWords, -⟩ := optWord_one 4 2 (m.reclaim.head?.map word)
  rw [Device.directoryWords, headWords]
  exact ⟨rfl, rfl⟩

/-! ### Accesses of the window -/

theorem viewRecords_eq (select : Nat) :
    viewRecords select = if select = 0 then 256 else if select = 1 then 128 else if select = 2 then 4096
      else if select = 3 then 8 else 1 := by
  unfold viewRecords
  split
  · rfl
  · rfl
  · rfl
  · rfl
  · rename_i h0 h1 h2 h3
    rw [if_neg h0, if_neg h1, if_neg h2, if_neg h3]

theorem exec_taDataRead {s : State} {p : Head} (reachable : s.env.reachable p = true) :
    exec (.taDataRead p) s = s.endsPorts ((s.part.begin_.setPort p { s.part.port p with
      ta := (s.part.port p).ta.afterRead (s.part.snapshotFor s.env p) }).emit
        (.registerData p ((s.part.snapshotFor s.env p).getD (s.part.port p).ta.word 0))) := by
  refine (if_pos reachable).trans (congrArg s.endsPorts ?_)
  rw [List.getD_eq_getElem?_getD, ← Device.begin_port s.part p]
  cases p <;> rfl

/-- Settles O55, from the equations of the window's registers and the words of each record. -/
theorem tableWindow : Obligations.TableWindow := by
  unfold Obligations.TableWindow
  refine ⟨fun s p reachable => ?_, fun m e k => ?_⟩
  · intro x b records
    have access {i : Instr} {f : Port → Port} {y : Port}
        (row : exec i s = s.onReachable p (s.portEvent fun m => m.onPort p f)) (left : f x = y) :
        exec i s = s.endsPorts (b.setPort p y) :=
      row.trans ((State.onReachable_portEvent reachable f).trans
        (congrArg (fun z => s.endsPorts (s.part.begin_.setPort p z)) left))
    have count : viewRecords x.ta.select = records := viewRecords_eq _
    refine ⟨?_, fun v => ⟨fun above => ?_, fun within => ?_, ?_, fun above => ?_, fun within => ?_⟩, ?_⟩
    · refine (if_pos reachable).trans (congrArg s.endsPorts ?_)
      rw [show x = b.port p from (Device.begin_port s.part p).symm]
      rfl
    · exact access (f := (·.writeSelect v.toNat)) rfl (if_pos above)
    · exact access (f := (·.writeSelect v.toNat)) rfl (if_neg (Nat.not_lt.2 within))
    · rw [← count]
      exact access (f := fun y => { y with ta := { y.ta with
        index := v.toNat % viewRecords y.ta.select, word := 0, snapshot := [] } }) rfl rfl
    · exact access (f := (·.writeMode v.toNat)) rfl (if_pos above)
    · exact access (f := (·.writeMode v.toNat)) rfl (if_neg (Nat.not_lt.2 within))
    · intro l read
      have after {ta : Machine.TableWindow} (left : x.ta.afterRead l = ta) : read ta :=
        (exec_taDataRead reachable).trans (by rw [← left]; rfl)
      rw [← count]
      exact ⟨fun less => after (if_pos less), fun last => after (if_neg (Nat.not_lt.2 last))⟩
  · intro view clip stream slot ch yes
    obtain ⟨saved, middle, display, flags, handover, orphan⟩ := stream.words_rest
    obtain ⟨queue, counts, state, link, estimator, settings, counters⟩ := m.channelWords_eq e k
    obtain ⟨lists, backlog⟩ := m.directoryWords_eq
    exact ⟨⟨padded_length, padded_length, padded_length, padded_length, padded_length⟩, clip.words_first,
      fun _ _ _ locator => Clip.words_stride locator, fun _ _ locator => Clip.words_indexed locator,
      stream.words_first, saved, middle, display, flags, handover, orphan, slot.words_first,
      fun _ failed => Slot.words_cause failed, fun _ _ less at_ => Slot.words_page less at_, queue, counts, state, link,
      estimator, settings, counters, lists, backlog⟩

end Sys2Proof.Machine
end

section
/-! PROOFS. The ends of command fetches and of the data mover's reads (chapter 9). -/

namespace Sys2Proof.Machine

/-! ### Command fetch -/

theorem RingRegs.diff_pos_iff {r : RingRegs} (configured : r.size ≠ 0) (x y : Nat) :
    0 < r.diff x y ↔ 0 < ((x : Int) - y) % (2 * r.size : Nat) := by
  rw [← RingRegs.diff_cast configured]
  exact Int.natCast_pos.symm

/-- Every condition of a command fetch (R152). -/
theorem Device.mayFetch_iff (m : Device) (p : Head) :
    m.mayFetch p = true ↔
      (m.hau.head p).present = true ∧ (m.port p).cmdRing.size ≠ 0 ∧ (m.port p).ntcRing.size ≠ 0 ∧
        (m.port p).halt = none ∧ (m.port p).progress = .idle ∧
        0 < (((m.port p).cmdRing.producer : Int) - (m.port p).cmdRing.consumer) % (2 * (m.port p).cmdRing.size : Nat) ∧
        (m.port p).places < 16 := by
  simp only [Device.mayFetch, Bool.and_eq_true, RingRegs.configured_iff, decide_eq_true_eq, and_assoc]
  refine and_congr_right fun _ => and_congr_right fun configured => ?_
  rw [RingRegs.count, RingRegs.diff_pos_iff configured]

theorem Device.fetch_some {m : Device} {p : Head} (now : Time) (may : m.mayFetch p = true) :
    m.fetch now p = (m.setPort p { m.port p with progress := .reading now, places := (m.port p).places + 1 }).emit
      (.recordRead p ((m.port p).cmdRing.base + 64 * ((m.port p).cmdRing.consumer % (m.port p).cmdRing.size))) :=
  if_pos may

theorem field_one {record : List Byte} {i : Nat} (less : i < record.length) :
    field record i 1 = (record.getD i 0).toNat := by
  rw [field, List.drop_eq_getElem_cons less, List.getD_eq_getElem _ _ less]
  rfl

section Fetch
variable {s : State} {p : Head} {since : Time}

theorem exec_fetchDone_reading (reading : (s.part.port p).progress = .reading since) (record : List Byte) :
    exec (.commandFetchDone p record) s =
      s.ends (s.part.begin_.setPort p ((s.part.port p).recordArrived record)) := by
  change execCommandFetchDone p record s = _
  rw [execCommandFetchDone, reading, ← Device.begin_port s.part p]
  rfl

theorem exec_fetchDone_discarding (discarding : (s.part.port p).progress = .discarding since) (record : List Byte) :
    exec (.commandFetchDone p record) s = s.ends (s.part.begin_.setPort p (s.part.port p).recordPassed) := by
  change execCommandFetchDone p record s = _
  rw [execCommandFetchDone, discarding, ← Device.begin_port s.part p]
  rfl

theorem Port.recordArrived_eq {x : Port} {record : List Byte} (whole : record.length = 64) :
    x.recordArrived record =
      { x with cmdRing := { x.cmdRing with consumer := (x.cmdRing.consumer + 1) % (2 * x.cmdRing.size) },
               fetched := (x.fetched + 1) % 4294967296,
               progress := .handed { tag := (record.getD 1 0).toNat, kind := (record.getD 0 0).toNat,
                                     consumer := x.cmdRing.consumer, command := Command.ofRecord record } } := by
  rw [Port.recordArrived, field_one (by omega), field_one (by omega)]
  rfl

theorem Device.fetchFailed_eq (m : Device) (p : Head) :
    m.fetchFailed p = m.setPort p { (m.port p).readFailed with
      halt := some .fetchRead, ev := (m.port p).ev.request1 0 } := by cases p <;> rfl

/-- A fetch that fails halts its port (R155). -/
theorem State.ends_fetchFailed {places : Nat}
    (failed : (s.part.port p).readFailed = { s.part.port p with progress := .idle, places := places }) :
    s.ends (s.part.begin_.fetchFailed p) = s.ends (s.part.begin_.setPort p { s.part.port p with
      progress := .idle, places := places, halt := some .fetchRead, ev := (s.part.port p).ev.request1 0 }) := by
  rw [Device.fetchFailed_eq, Device.begin_port, failed]

/-- Port `p` reads a command record, whose read began at `since`. -/
def Port.Fetching (x : Port) (since : Time) : Prop := x.progress = .reading since ∨ x.progress = .discarding since

theorem exec_fetchReadError (fetching : (s.part.port p).Fetching since) :
    exec (.fetchReadError p) s = s.ends (s.part.begin_.fetchFailed p) := by
  change execFetchReadError p s = _
  rcases fetching with reading | discarding
  · rw [execFetchReadError, reading]
    rfl
  · rw [execFetchReadError, discarding]
    rfl

theorem exec_fetchReadTimeout (fetching : (s.part.port p).Fetching since) (due : since + 50000000 ≤ s.env.now) :
    exec (.fetchReadTimeout p) s = s.ends (s.part.begin_.fetchFailed p) := by
  change execFetchReadTimeout p s = _
  rcases fetching with reading | discarding
  · rw [execFetchReadTimeout, reading]
    exact if_pos due
  · rw [execFetchReadTimeout, discarding]
    exact if_pos due

end Fetch

theorem Port.readFailed_reading {x : Port} {since : Time} (reading : x.progress = .reading since) :
    x.readFailed = { x with progress := .idle, places := x.places - 1 } := by
  rw [Port.readFailed, reading]

theorem Port.readFailed_discarding {x : Port} {since : Time} (discarding : x.progress = .discarding since) :
    x.readFailed = { x with progress := .idle, places := x.places } := by
  rw [Port.readFailed, discarding]

/-- Settles O50, from the conditions of a fetch and its ends. -/
theorem fetchEnds : Obligations.FetchEnds := by
  unfold Obligations.FetchEnds
  refine ⟨fun m now p => ⟨fun may => Device.fetch_some now ((m.mayFetch_iff p).2 may),
    fun no => if_neg fun h => no ((m.mayFetch_iff p).1 h)⟩, fun s p since => ?_⟩
  refine ⟨fun reading => ⟨fun record whole => ?_, ?_, fun due => ?_⟩,
    fun discarding => ⟨fun record => ?_, ?_, fun due => ?_⟩⟩
  · rw [← Port.recordArrived_eq whole]
    exact exec_fetchDone_reading reading record
  · exact (exec_fetchReadError (.inl reading)).trans (State.ends_fetchFailed (Port.readFailed_reading reading))
  · exact (exec_fetchReadTimeout (.inl reading) due).trans (State.ends_fetchFailed (Port.readFailed_reading reading))
  · exact exec_fetchDone_discarding discarding record
  · exact (exec_fetchReadError (.inr discarding)).trans
      (State.ends_fetchFailed (Port.readFailed_discarding discarding))
  · exact (exec_fetchReadTimeout (.inr discarding) due).trans
      (State.ends_fetchFailed (Port.readFailed_discarding discarding))

/-! ### The data mover -/

/-- A live slot holds the frame exactly where the lookup finds one (R75). -/
theorem Device.findSlot_isSome_iff {m : Device} (wf : Table.wf Slot.free m.slots = true) (clip g frame : Nat) :
    (m.findSlot clip g frame).isSome = true ↔
      ∃ n, (m.slot n).state ≠ .free ∧ (m.slot n).clip = clip ∧ (m.slot n).generation = g ∧ (m.slot n).frame = frame := by
  simp only [Device.findSlot, Option.isSome_map, List.find?_isSome, Bool.and_eq_true, decide_eq_true_eq, and_assoc]
  constructor
  · rintro ⟨⟨n, x⟩, listed, holds⟩
    refine ⟨n, ?_⟩
    rw [show m.slot n = x from Table.get_of_mem _ wf (n, x) listed]
    exact holds
  · rintro ⟨n, live, holds⟩
    refine ⟨(n, m.slot n), (Table.get_mem_or m.slots n).resolve_left fun unlisted => live ?_, live, holds⟩
    rw [show m.slot n = Slot.free from unlisted]
    rfl

theorem IndexEntry.accepted_iff (x : IndexEntry) (straps : Straps) :
    (x.valid && x.checks straps) = true ↔ x.Accepted straps := by
  have used : x.used = x.extents.take x.extentCount := rfl
  rw [IndexEntry.checks]
  simp only [Bool.and_eq_true, List.all_eq_true, decide_eq_true_eq, used, and_assoc]
  exact ⟨fun ⟨valid, low, high, extents, blocks, some_, bytes⟩ => ⟨valid, ⟨low, high⟩, extents, blocks, some_, bytes⟩,
    fun ⟨valid, ⟨low, high⟩, extents, blocks, some_, bytes⟩ => ⟨valid, low, high, extents, blocks, some_, bytes⟩⟩

theorem storedEntry_eq {entry : List Byte} (whole : entry.length = 64) (ok : Bool) :
    storedEntry entry ok = (if ok = true then 1 else 0) :: entry.drop 1 := by
  rw [storedEntry, exactly, List.take_left' (by rw [whole])]

section Mover
variable {s : State} {p : Head} {v : Mover} (running : (s.part.port p).mover = some v)
include running

theorem exec_indexEntryArrival {entry : List Byte} {o : EntryOutcome} {mem : Memory}
    (outcome : s.part.entryOutcome s.env.straps v entry = o) (memory : s.part.entryMemory s.env.mem v o entry = mem) :
    exec (.indexEntryArrival p entry) s =
      ({ s with env := { s.env with mem } } : State).ends (s.part.begin_.entryHandled s.env.now p v o) := by
  change execIndexEntryArrival p entry s = _
  rw [execIndexEntryArrival, running, ← memory, ← outcome]
  rfl

theorem Device.moverFailed_eq :
    s.part.begin_.moverFailed p = s.part.begin_.setPort p
      (({ s.part.port p with ev := (s.part.port p).ev.request1 0 } : Port).transferred v .badArg) := by
  have raised : s.part.begin_.raise p .portFault = s.part.begin_.setPort p
      { s.part.port p with ev := (s.part.port p).ev.request1 0 } := by cases p <;> rfl
  rw [Device.moverFailed, raised]
  refine (Device.endTransfer_eq (v := v) (by rw [Device.port_setPort_same]; exact running) .badArg).trans ?_
  rw [Device.port_setPort_same]
  cases p <;> rfl

theorem exec_moverReadError : exec (.moverReadError p) s = s.ends (s.part.begin_.moverFailed p) :=
  if_pos (by rw [running]; rfl)

theorem exec_moverReadTimeout :
    exec (.moverReadTimeout p) s =
      if v.since + 50000000 ≤ s.env.now then s.ends (s.part.begin_.moverFailed p) else .next s := by
  change execMoverReadTimeout p s = _
  rw [execMoverReadTimeout, running]
  rfl

end Mover

/-- How the transfer goes on after an entry (R11, R156). -/
theorem Device.entryHandled_eq (m : Device) (now : Time) (p : Head) (v : Mover) (o : EntryOutcome) :
    let w := v.handled o
    (v.remaining ≤ 1 → m.entryHandled now p v o = m.setPort p ((m.port p).transferred w .ok)) ∧
    (1 < v.remaining → 1 < v.inRead → m.entryHandled now p v o = m.setPort p { m.port p with mover := some w }) ∧
    (1 < v.remaining → v.inRead ≤ 1 → m.entryHandled now p v o =
      (m.setPort p { m.port p with mover := some { w with
        inRead := readEntries w.address w.remaining, since := now } }).emit
          (.indexRead p w.address (readEntries w.address w.remaining))) := by
  refine ⟨fun last => ?_, fun more within => ?_, fun more ended => ?_⟩
  · refine (if_pos (show v.remaining - 1 = 0 by omega)).trans ?_
    refine (Device.endTransfer_eq (v := v.handled o) (by cases p <;> rfl) .ok).trans ?_
    cases p <;> rfl
  · exact (if_neg (show ¬ v.remaining - 1 = 0 by omega)).trans (if_neg (show ¬ v.inRead - 1 = 0 by omega))
  · refine (if_neg (show ¬ v.remaining - 1 = 0 by omega)).trans
      ((if_pos (show v.inRead - 1 = 0 by omega)).trans ?_)
    cases p <;> rfl

/-- Settles O51, from the outcome of an entry and the way on after it. -/
theorem moverReads : Obligations.MoverReads := by
  unfold Obligations.MoverReads
  intro s p v running wf x b done
  refine ⟨fun entry base capacity whole locator => ?_, ?_, fun due => ?_, fun early => ?_⟩
  · intro held good next write after
    have found : (s.part.findSlot v.clip v.generation v.frame).isSome = true ↔ held :=
      Device.findSlot_isSome_iff wf v.clip v.generation v.frame
    have passes : ((IndexEntry.ofBytes entry).valid && (IndexEntry.ofBytes entry).checks s.env.straps) = true ↔ good :=
      IndexEntry.accepted_iff ..
    have goesOn {o : EntryOutcome} {mem : Memory} (outcome : s.part.entryOutcome s.env.straps v entry = o)
        (memory : s.part.entryMemory s.env.mem v o entry = mem) : after (v.handled o) mem := by
      have row := exec_indexEntryArrival running outcome memory
      obtain ⟨last, within, ended⟩ := b.entryHandled_eq s.env.now p v o
      rw [show b.port p = x from Device.begin_port s.part p] at last within ended
      exact ⟨fun h => row.trans (congrArg _ (last h)), fun h h' => row.trans (congrArg _ (within h h')),
        fun h h' => ⟨_, readEntries_pos _, readEntries_le _ (show 1 ≤ v.remaining - 1 by omega),
          row.trans (congrArg _ (ended h h'))⟩⟩
    have stored (o : EntryOutcome) (ok : o ≠ .skipped) : s.part.entryMemory s.env.mem v o entry =
        s.env.mem.write ((base + v.frame) * 64) ((if decide (o = .stored) = true then 1 else 0) :: entry.drop 1) := by
      rw [Device.entryMemory, locator]
      exact (if_neg ok).trans (by rw [storedEntry_eq whole]; rfl)
    refine ⟨fun holds => ?_, fun free ok => ?_, fun free bad => ?_⟩
    · refine goesOn (o := .skipped) (if_pos (found.2 holds)) ?_
      rw [Device.entryMemory, locator]
      rfl
    · exact goesOn (o := .stored) ((if_neg (mt found.1 free)).trans (if_pos (passes.2 ok))) (stored _ nofun)
    · exact goesOn (o := .invalid) ((if_neg (mt found.1 free)).trans (if_neg (mt passes.1 bad))) (stored _ nofun)
  · exact (exec_moverReadError running).trans (congrArg s.ends (Device.moverFailed_eq running))
  · exact (exec_moverReadTimeout running).trans
      ((if_pos due).trans (congrArg s.ends (Device.moverFailed_eq running)))
  · exact (exec_moverReadTimeout running).trans (if_neg (Nat.not_le.2 early))

end Sys2Proof.Machine
end

section
/-! PROOFS. Notices: their bytes, the STATE queue, the posting rule and the end of a notice write (chapter 10). -/

namespace Sys2Proof.Machine

/-! ### Bytes -/

theorem Notice.ready_bytes (k clip g seq frame slot display bytes : Nat) (late : Bool) :
    (Notice.ready late clip g seq frame slot display bytes).bytes k =
      [0x02#8, if late = true then 1#8 else 0#8, BitVec.ofNat 8 k, BitVec.ofNat 8 clip] ++ natBytes 2 seq ++
        [BitVec.ofNat 8 g, 0#8] ++ natBytes 4 frame ++ natBytes 2 slot ++ [0#8, 0#8] ++ natBytes 8 display ++
        natBytes 4 bytes ++ List.replicate 36 0 := by
  cases late <;> rfl

theorem Notice.failed_bytes (k clip g seq frame display : Nat) (cause : Cause) :
    (Notice.failed cause clip g seq frame display).bytes k =
      [0x03#8, match cause with | .medium => 1#8 | .address => 2#8 | .channelFault => 3#8 | .invalidIndex => 4#8,
        BitVec.ofNat 8 k, BitVec.ofNat 8 clip] ++ natBytes 2 seq ++ [BitVec.ofNat 8 g, 0#8] ++ natBytes 4 frame ++
        List.replicate 4 0 ++ natBytes 8 display ++ List.replicate 40 0 := by
  cases cause <;> rfl

/-! ### The STATE queue -/

section StateQueue
variable {x y : StateNotice} {l r : List StateNotice}

theorem joinState_absent (absent : ∀ z ∈ l, z.stream ≠ x.stream) : joinState x l = l ++ [x] := by
  refine if_neg ?_
  simpa using absent

theorem supersede_append (same : y.stream = x.stream) (before : ∀ z ∈ l, z.stream ≠ x.stream) :
    supersede x (l ++ y :: r) = l ++ { x with superseded := true } :: r := by
  induction l with
  | nil => exact (if_pos same).trans (by rw [same]; rfl)
  | cons z l ih =>
    obtain ⟨other, rest⟩ := List.forall_mem_cons.1 before
    exact (if_neg other).trans (congrArg (z :: ·) (ih rest))

/-- A new notice takes the place of the notice of its stream that waits (R163). -/
theorem joinState_present (same : y.stream = x.stream) (before : ∀ z ∈ l, z.stream ≠ x.stream) :
    joinState x (l ++ y :: r) = l ++ { x with superseded := true } :: r := by
  refine (if_pos ?_).trans (supersede_append same before)
  simp [same]

theorem filter_others {q : List StateNotice} {k : Nat} (others : ∀ z ∈ q, z.stream ≠ k) :
    q.filter (fun z => decide (z.stream ≠ k)) = q :=
  List.filter_eq_self.2 fun z mem => decide_eq_true (others z mem)

theorem unmarkState_alone (others : ∀ z ∈ l, z.stream ≠ y.stream) : unmarkState (y :: l) = y :: l := by
  have none_ : l.find? (fun z => decide (z.stream = y.stream)) = none := by
    rw [List.find?_eq_none]
    exact fun z mem => by simpa using others z mem
  rw [unmarkState, none_]

/-- The notice that was being written becomes one with the notice of its stream behind it (R166). -/
theorem unmarkState_joined {z : StateNotice} (same : z.stream = y.stream)
    (before : ∀ w ∈ l, w.stream ≠ y.stream) (after : ∀ w ∈ r, w.stream ≠ y.stream) :
    unmarkState (y :: (l ++ z :: r)) = { z with superseded := true } :: (l ++ r) := by
  have none_ : l.find? (fun z => decide (z.stream = y.stream)) = none := by
    rw [List.find?_eq_none]
    exact fun z mem => by simpa using before z mem
  have found : (l ++ z :: r).find? (fun z => decide (z.stream = y.stream)) = some z := by
    simp [List.find?_append, none_, same]
  have left : (l ++ z :: r).filter (fun z => decide (z.stream ≠ y.stream)) = l ++ r := by
    rw [List.filter_append, List.filter_cons_of_neg (by simp [same]), filter_others before, filter_others after]
  rw [unmarkState, found]
  simp only [left, same]

/-- A STATE notice joins what waits behind the notice being written (R163). -/
theorem Device.makeState_eq (m : Device) (p : Head) (k : Nat) (event : StateEvent) :
    let x := m.port p
    let new : StateNotice := { stream := k, event, owner := (m.stream k).owner, superseded := false }
    let written := if x.write = some .state then x.stateQueue.take 1 else []
    let waiting := if x.write = some .state then x.stateQueue.drop 1 else x.stateQueue
    m.makeState p k event = m.setPort p { x with stateQueue := written ++ joinState new waiting } := by
  intro x new written waiting
  refine congrArg (m.setPort p) ?_
  change (match x.write, x.stateQueue with
    | some .state, y :: q => { x with stateQueue := y :: joinState new q }
    | _, q => { x with stateQueue := joinState new q }) = _
  split
  · rename_i y q writing queue
    simp [written, waiting, writing, queue]
  · rename_i other
    by_cases writing : x.write = some .state
    · have empty : x.stateQueue = [] := by
        cases queue : x.stateQueue with
        | nil => rfl
        | cons y q => exact absurd queue (other y q writing)
      simp [written, waiting, writing, empty]
    · simp [written, waiting, writing]

end StateQueue

/-! ### Posting -/

/-- A port may write a notice (R165). -/
def Port.mayPost (x : Port) : Prop := x.ntcRing.size ≠ 0 ∧ x.halt = none ∧ x.write = none

section Post
variable {m : Device} {p : Head}

theorem Port.mayPost_iff (x : Port) :
    (x.ntcRing.configured && decide (x.halt = none) && decide (x.write = none)) = true ↔ x.mayPost := by
  simp only [Bool.and_eq_true, RingRegs.configured_iff, decide_eq_true_eq, and_assoc, Port.mayPost]

theorem Device.post_of_not (no : ¬ (m.port p).mayPost) : m.post p = m :=
  if_neg fun h => no ((Port.mayPost_iff _).1 h)

theorem Device.post_none (none_ : m.nextNotice p = none) : m.post p = m := by
  unfold Device.post
  simp only [none_, ite_self]

/-- A port that may write and has a notice begins the write, or stalls on a full ring (R165, R167). -/
theorem Device.post_some (may : (m.port p).mayPost) {src : WriteSource} (next : m.nextNotice p = some src) :
    m.post p =
      if (m.port p).ntcRing.count < (m.port p).ntcRing.size then
        (m.setPort p { m.port p with write := some src, stall := false }).emit (.noticeWrite p
          ((m.port p).ntcRing.base + 64 * ((m.port p).ntcRing.producer % (m.port p).ntcRing.size)) (m.noticeBytes p src))
      else if (m.port p).stall = true then m
      else m.setPort p { m.port p with stall := true, ev := (m.port p).ev.request1 5 } := by
  refine (if_pos ((Port.mayPost_iff _).2 may)).trans ?_
  rw [next]
  refine if_congr Iff.rfl rfl (if_congr Iff.rfl rfl ?_)
  cases p <;> rfl

theorem RingRegs.count_lt_iff {r : RingRegs} (configured : r.size ≠ 0) :
    r.count < r.size ↔ ((r.producer : Int) - r.consumer) % (2 * r.size : Nat) < r.size := by
  rw [← RingRegs.diff_cast configured]
  exact Int.ofNat_lt.symm

theorem Device.post_begins (may : (m.port p).mayPost) {src : WriteSource} (next : m.nextNotice p = some src)
    {bytes : List Byte} (carried : m.noticeBytes p src = bytes) :
    let x := m.port p
    let ring := x.ntcRing
    let room := ((ring.producer : Int) - ring.consumer) % (2 * ring.size : Nat) < ring.size
    (room → m.post p = (m.setPort p { x with write := some src, stall := false }).emit
      (.noticeWrite p (ring.base + 64 * (ring.producer % ring.size)) bytes)) ∧
    (¬ room → x.stall = false → m.post p = m.setPort p { x with stall := true, ev := x.ev.request1 5 }) ∧
    (¬ room → x.stall = true → m.post p = m) := by
  intro x ring room
  have space : ring.count < ring.size ↔ room := RingRegs.count_lt_iff may.1
  have posted := Device.post_some may next
  rw [carried] at posted
  exact ⟨fun h => posted.trans (if_pos (space.2 h)),
    fun h free => posted.trans ((if_neg (mt space.1 h)).trans (if_neg (by rw [free]; exact Bool.false_ne_true))),
    fun h stalled => posted.trans ((if_neg (mt space.1 h)).trans (if_pos stalled))⟩

theorem Device.nextNotice_completion {y : Completion} {l : List Completion} (queue : (m.port p).completions = y :: l) :
    m.nextNotice p = some .completion ∧ m.noticeBytes p .completion = y.bytes := by
  rw [Device.nextNotice, Device.noticeBytes, queue]
  exact ⟨if_pos (List.cons_ne_nil _ _), rfl⟩

theorem Device.nextNotice_state (none_ : (m.port p).completions = []) {y : StateNotice} {l : List StateNotice}
    (queue : (m.port p).stateQueue = y :: l) :
    m.nextNotice p = some .state ∧ m.noticeBytes p .state = y.bytes := by
  rw [Device.nextNotice, Device.noticeBytes, queue, none_]
  exact ⟨rfl, rfl⟩

theorem Device.nextNotice_stream (none_ : (m.port p).completions = []) (noState : (m.port p).stateQueue = []) :
    m.nextNotice p = (m.postingStream p).map .stream := by
  rw [Device.nextNotice, none_, noState]
  rfl

end Post

/-- Stream `k` has a notice that port `p` may write (R165). -/
def Device.Posts (m : Device) (p : Head) (k : Nat) : Prop :=
  (m.stream k).state ≠ .closed ∧ (m.stream k).owner = p ∧ (m.stream k).ownerAbsent = false ∧
    (m.stream k).state ≠ .handover ∧ (m.stream k).outbox ≠ [] ∧
    m.portA.write ≠ some (.stream k) ∧ m.portB.write ≠ some (.stream k)

/-- The order in which streams post: seat priority, then number (R165). -/
def postsBefore (x y : Nat × StreamRec) : Bool :=
  decide (x.2.seat < y.2.seat) || (decide (x.2.seat = y.2.seat) && decide (x.1 < y.1))

theorem postsBefore_iff (x y : Nat × StreamRec) :
    postsBefore x y = true ↔ x.2.seat < y.2.seat ∨ (x.2.seat = y.2.seat ∧ x.1 < y.1) := by
  simp [postsBefore]

theorem postsBefore_order : StrictWeak postsBefore where
  irrefl x := by
    rw [Bool.eq_false_iff, Ne, postsBefore_iff]
    omega
  asymm x y h := by
    rw [Bool.eq_false_iff, Ne, postsBefore_iff]
    rw [postsBefore_iff] at h
    omega
  trans x y z h h' := by
    rw [Bool.eq_false_iff, Ne, postsBefore_iff] at h h' ⊢
    omega

section Posting
variable {m : Device} {p : Head} (wf : Table.wf StreamRec.reset m.streams = true)

/-- The streams that a port may post from. -/
def Device.posting (m : Device) (p : Head) : List (Nat × StreamRec) :=
  m.streams.filter fun e => decide (e.2.state ≠ .closed) && decide (e.2.owner = p) && !e.2.ownerAbsent &&
    decide (e.2.state ≠ .handover) && !e.2.outbox.isEmpty && !m.marked e.1

theorem Device.postingStream_eq : m.postingStream p = (least postsBefore (m.posting p)).map (·.1) := rfl

include wf

theorem Device.mem_posting (k : Nat) (x : StreamRec) :
    (k, x) ∈ m.posting p ↔ m.stream k = x ∧ m.Posts p k := by
  have holds : (decide (x.state ≠ .closed) && decide (x.owner = p) && !x.ownerAbsent && decide (x.state ≠ .handover) &&
      !x.outbox.isEmpty && !m.marked k) = true ↔
      x.state ≠ .closed ∧ x.owner = p ∧ x.ownerAbsent = false ∧ x.state ≠ .handover ∧ x.outbox ≠ [] ∧
        m.portA.write ≠ some (.stream k) ∧ m.portB.write ≠ some (.stream k) := by
    simp [Device.marked, and_assoc]
  rw [Device.posting, List.mem_filter, holds]
  constructor
  · rintro ⟨listed, posts⟩
    have record : m.stream k = x := Table.get_of_mem _ wf (k, x) listed
    exact ⟨record, by rw [Device.Posts, record]; exact posts⟩
  · rintro ⟨rfl, posts⟩
    refine ⟨(Table.get_mem_or m.streams k).resolve_left fun unlisted => posts.1 ?_, posts⟩
    rw [show m.stream k = StreamRec.reset from unlisted]
    rfl

theorem Device.postingStream_some {k : Nat} (posts : m.Posts p k)
    (best : ∀ j, m.Posts p j → (m.stream k).seat < (m.stream j).seat ∨
      ((m.stream k).seat = (m.stream j).seat ∧ k ≤ j)) : m.postingStream p = some k := by
  have total : ∀ x ∈ m.posting p, ∀ y ∈ m.posting p,
      postsBefore x y = false → postsBefore y x = false → x = y := by
    rintro ⟨i, x⟩ memX ⟨j, y⟩ memY notBefore notAfter
    obtain ⟨rfl, -⟩ := (Device.mem_posting wf i x).1 memX
    obtain ⟨rfl, -⟩ := (Device.mem_posting wf j y).1 memY
    rw [Bool.eq_false_iff, Ne, postsBefore_iff] at notBefore notAfter
    have : i = j := by omega
    rw [this]
  have first : least postsBefore (m.posting p) = some (k, m.stream k) := by
    refine (least_eq_some_iff postsBefore_order total).2 ⟨(Device.mem_posting wf k _).2 ⟨rfl, posts⟩, ?_⟩
    rintro ⟨j, y⟩ mem
    obtain ⟨rfl, postsToo⟩ := (Device.mem_posting wf j y).1 mem
    have := best j postsToo
    rw [Bool.eq_false_iff, Ne, postsBefore_iff]
    dsimp only
    omega
  rw [Device.postingStream_eq, first]
  rfl

theorem Device.postingStream_none (none_ : ∀ k, ¬ m.Posts p k) : m.postingStream p = none := by
  have empty : m.posting p = [] :=
    List.eq_nil_iff_forall_not_mem.2 fun ⟨k, x⟩ mem => none_ k ((Device.mem_posting wf k x).1 mem).2
  rw [Device.postingStream_eq, empty]
  rfl

end Posting

/-! ### The end of a notice write -/

theorem Device.belongs_iff (m : Device) (p : Head) (k : Nat) :
    m.belongs p k = true ↔ (m.stream k).state ≠ .closed ∧ (m.stream k).owner = p := by
  rw [Device.belongs, Bool.and_eq_true, decide_eq_true_eq, decide_eq_true_eq]

section Written
variable {s : State} {p : Head} {src : WriteSource} (writing : (s.part.port p).write = some src)
include writing

theorem exec_noticeWriteEnd : exec (.noticeWriteEnd p) s = s.ends (s.part.begin_.writeEnded s.env.now p src) := by
  change execNoticeWriteEnd p s = _
  rw [execNoticeWriteEnd, writing]
  rfl

theorem exec_noticeWriteFail :
    exec (.noticeWriteFail p) s = s.ends (s.part.begin_.setPort p { s.part.port p with
      write := none,
      stateQueue := if (s.part.port p).write = some .state then unmarkState (s.part.port p).stateQueue
        else (s.part.port p).stateQueue,
      halt := some .noticeWrite, ev := (s.part.port p).ev.request1 0 }) := by
  refine (if_pos (by rw [writing]; rfl)).trans (congrArg s.ends ?_)
  cases p <;> rfl

end Written

/-- Settles O52, from the bytes of the notices, the STATE queue, the posting rule and the ends of a write. -/
theorem noticeWrites : Obligations.NoticeWrites := by
  unfold Obligations.NoticeWrites
  refine ⟨fun k clip g seq frame slot display bytes count last bound late cause =>
      ⟨Notice.ready_bytes .., Notice.failed_bytes .., rfl, rfl⟩,
    fun m p wf => ?_, fun m p k event => ?_, fun y l r others => ?_, fun s p => ?_⟩
  · intro x ring room may begins posts
    have begin_ {src : WriteSource} {bytes : List Byte} (mayPost : may) (next : m.nextNotice p = some src)
        (carried : m.noticeBytes p src = bytes) : begins src bytes := Device.post_begins mayPost next carried
    refine ⟨fun no => Device.post_of_not no, fun yes => ⟨fun y l queue => ?_, fun none_ y l queue => ?_,
      fun none_ noState => ⟨fun k y l post best queue => ?_, fun nobody => ?_⟩⟩⟩
    · obtain ⟨next, carried⟩ := Device.nextNotice_completion queue
      exact begin_ yes next carried
    · obtain ⟨next, carried⟩ := Device.nextNotice_state none_ queue
      exact begin_ yes next carried
    · have next := Device.nextNotice_stream none_ noState
      rw [Device.postingStream_some wf post best] at next
      refine begin_ yes next ?_
      rw [Device.noticeBytes, queue]
      rfl
    · have next := Device.nextNotice_stream none_ noState
      rw [Device.postingStream_none wf nobody] at next
      exact Device.post_none next
  · intro x new written waiting
    have made : m.makeState p k event = m.setPort p { x with stateQueue := written ++ joinState new waiting } :=
      m.makeState_eq p k event
    refine ⟨fun absent => ?_, fun l y r split same before => ?_⟩
    · have whole : written ++ waiting = x.stateQueue := by
        by_cases writing : x.write = some .state
        · rw [show written = x.stateQueue.take 1 from if_pos writing,
            show waiting = x.stateQueue.drop 1 from if_pos writing, List.take_append_drop]
        · rw [show written = [] from if_neg writing, show waiting = x.stateQueue from if_neg writing, List.nil_append]
      rw [made, joinState_absent absent, ← List.append_assoc, whole]
    · rw [made, split, joinState_present (x := new) same before, List.append_assoc]
  · obtain ⟨before, after⟩ := List.forall_mem_append.1 others
    exact ⟨unmarkState_alone others, fun z same => unmarkState_joined same before after⟩
  · intro x ring posted
    refine ⟨fun writing => ?_, fun writing => ?_, fun k writing => ⟨fun live mine => ?_, fun gone => ?_⟩,
      fun writing => ?_, fun writing => ?_⟩
    · refine (exec_noticeWriteEnd writing).trans ?_
      cases p <;> rfl
    · refine (exec_noticeWriteEnd writing).trans ?_
      cases p <;> rfl
    · refine (exec_noticeWriteEnd writing).trans (congrArg s.ends ((if_pos ((Device.belongs_iff ..).2 ⟨live, mine⟩)).trans ?_))
      cases p <;> rfl
    · refine (exec_noticeWriteEnd writing).trans (congrArg s.ends ((if_neg ?_).trans ?_))
      · intro belongs
        obtain ⟨live, mine⟩ := (Device.belongs_iff ..).1 belongs
        exact gone.elim live fun other => other mine
      · cases p <;> rfl
    · refine (exec_noticeWriteEnd writing).trans ?_
      cases p <;> rfl
    · obtain ⟨src, some_⟩ := Option.ne_none_iff_exists'.1 writing
      exact exec_noticeWriteFail some_

end Sys2Proof.Machine
end

section
/-! PROOFS. The announcement of a head, resolution, YIELD, and the timers of heads and streams (chapter 11). -/

namespace Sys2Proof.Machine

/-! ### What leaves the Head Arbitration Unit as it was -/

/-- The tables' own work leaves the HAU. -/
theorem stable_hau (h : Hau) : Stable fun m : Device => m.hau = h where
  slot := fun _ _ _ _ same => same
  freed := fun _ _ same => same
  req := fun _ _ _ same => same
  channel := fun _ _ _ _ same => same
  reclaim := fun _ _ same => same
  grants := fun _ _ same => same
  out := fun _ _ same => same
  agenda := fun _ _ same => same
  stream := fun _ _ _ _ same => same
  taken := fun _ _ _ _ _ _ _ _ same => same

section HauKept
variable (m : Device)

theorem Device.check_hau (now : Time) (k : Nat) : (m.check now k).hau = m.hau := (stable_hau m.hau).check now k rfl

theorem Device.dropWindow_hau (now : Time) (k : Nat) : (m.dropWindow now k).hau = m.hau :=
  (stable_hau m.hau).dropEntries now k _ rfl

theorem Device.retire_hau (clip : Nat) : (m.retire clip).hau = m.hau := by
  have freed : ((m.retiredSlots clip).foldl (fun m n => m.freeSlot n) m).hau = m.hau :=
    foldl_keeps (I := fun t => t.hau = m.hau) (f := fun m n => m.freeSlot n) (fun _ _ same => same) _ m rfl
  rw [Device.retire_eq, Device.endTransferOn_eq, Device.endTransferOn_eq _ _ _ .a, Device.setPort_hau,
    Device.setPort_hau]
  exact freed

theorem Device.closeStream_hau (k : Nat) : (m.closeStream k).hau = m.hau := by
  unfold Device.closeStream Device.dropRef
  dsimp only
  split
  · exact Device.retire_hau _ _
  · rfl

theorem Device.regainOwner_hau (now : Time) (k : Nat) : (m.regainOwner now k).hau = m.hau := by
  unfold Device.regainOwner
  dsimp only
  split
  · rfl
  · exact Device.check_hau _ now k

theorem Device.makeState_hau (p : Head) (k : Nat) (event : StateEvent) : (m.makeState p k event).hau = m.hau := by
  rw [Device.makeState_eq]
  exact m.setPort_hau p _

end HauKept

/-! ### The write of ANNOUNCE -/

theorem commandOfAnnounce_eq (p : Head) (v : BitVec 64) :
    commandOfAnnounce p v =
      if v.toNat % 2 ^ 36 = 0 then .withdraw p
      else .announce p (BitVec.ofNat 4 (v.toNat / 2 ^ 32)) (BitVec.ofNat 32 v.toNat) := by
  have weight : v.extractLsb' 32 4 = BitVec.ofNat 4 (v.toNat / 2 ^ 32) := by
    rw [BitVec.extractLsb', Nat.shiftRight_eq_div_pow]
  have nonce : v.extractLsb' 0 32 = BitVec.ofNat 32 v.toNat := by rw [BitVec.extractLsb', Nat.shiftRight_zero]
  rw [commandOfAnnounce, weight, nonce]
  refine if_congr ?_ rfl rfl
  rw [BitVec.toNat_eq, BitVec.toNat_eq]
  simp only [BitVec.toNat_ofNat, BitVec.ofNat_eq_ofNat, Nat.zero_mod]
  omega

/-! ### The return of a head -/

theorem Device.regainOwner_orphaned (m : Device) (now : Time) {k : Nat} (orphaned : (m.stream k).state = .orphaned) :
    m.regainOwner now k = m.setStream k { m.stream k with ownerAbsent := false } := by
  have record : (m.onStream k fun x => { x with ownerAbsent := false }).stream k =
      { m.stream k with ownerAbsent := false } := m.stream_setStream_same k _
  exact if_pos ((congrArg StreamRec.state record).trans orphaned)

theorem Device.regainOwner_live (m : Device) (now : Time) {k : Nat} (live : (m.stream k).state ≠ .orphaned) :
    m.regainOwner now k =
      (m.setStream k { m.stream k with ownerAbsent := false, passPending := true }).check now k := by
  have record : (m.onStream k fun x => { x with ownerAbsent := false }).stream k =
      { m.stream k with ownerAbsent := false } := m.stream_setStream_same k _
  refine (if_neg fun orphaned => live ((congrArg StreamRec.state record).symm.trans orphaned)).trans ?_
  refine congrArg (Device.check now k) ?_
  rw [Device.onStream, record]
  exact Loose.setStream_setStream k _ _

/-- The part with a head that has arrived and been given its streams back. -/
def Device.givenBack (e : Env) (p : Head) (weight nonce : Nat) (m : Device) : Device :=
  (({ m with hau := m.hau.setHead p { present := true, weight, nonce, hold := none } } : Device).regained p
    (m.hau.head p).hold.isSome).foldl (fun m k => m.regainOwner e.now k)
    { m with hau := m.hau.setHead p { present := true, weight, nonce, hold := none } }

/-- What the arrival of a head makes of the settle timer and the role (R173). -/
def Device.settleRole (e : Env) (p : Head) (m : Device) : Device :=
  match m.hau.first, m.hau.settleTimer with
  | none, _ => { m with hau := { m.hau with first := some p, settleTimer := some (e.now + Config.sec) } }
  | some f, some _ => if f = p then m else { m with hau := { m.hau with settleTimer := none } }.resolve
  | some _, none => if m.hau.primary = none then m.resolve else m

theorem Device.arrive_eq (e : Env) (p : Head) (weight nonce : Nat) (m : Device) :
    m.arrive e p weight nonce = (m.givenBack e p weight nonce).settleRole e p := rfl

theorem Device.givenBack_hau (e : Env) (p : Head) (weight nonce : Nat) (m : Device) :
    (m.givenBack e p weight nonce).hau = m.hau.setHead p { present := true, weight, nonce, hold := none } :=
  foldl_keeps (I := fun t => t.hau = m.hau.setHead p { present := true, weight, nonce, hold := none })
    (f := fun m k => m.regainOwner e.now k) (fun t k same => (t.regainOwner_hau e.now k).trans same) _ _ rfl

section SettleRole
variable (e : Env) {p : Head} {m : Device}

theorem Device.settleRole_first (first : m.hau.first = none) :
    m.settleRole e p = { m with hau := { m.hau with first := some p, settleTimer := some (e.now + 1000000000) } } := by
  rw [Device.settleRole, first]

theorem Device.settleRole_same (first : m.hau.first = some p) (running : m.hau.settleTimer ≠ none) :
    m.settleRole e p = m := by
  obtain ⟨t, set⟩ := Option.ne_none_iff_exists'.1 running
  rw [Device.settleRole, first, set]
  exact if_pos rfl

theorem Device.settleRole_other (first : m.hau.first = some p.other) (running : m.hau.settleTimer ≠ none) :
    m.settleRole e p = { m with hau := { m.hau with settleTimer := none } }.resolve := by
  obtain ⟨t, set⟩ := Option.ne_none_iff_exists'.1 running
  rw [Device.settleRole, first, set]
  exact if_neg (Head.other_ne p)

theorem Device.settleRole_settled (first : m.hau.first ≠ none) (settled : m.hau.settleTimer = none) :
    m.settleRole e p = if m.hau.primary = none then m.resolve else m := by
  obtain ⟨f, some_⟩ := Option.ne_none_iff_exists'.1 first
  rw [Device.settleRole, some_, settled]

end SettleRole

theorem Device.regained_eq (m : Device) (p : Head) (hold : Option Time) :
    m.regained p hold.isSome =
      (m.streamsOf p).filter fun k => decide (hold ≠ none ∨ (m.stream k).state = .orphaned) := by
  rw [Device.regained]
  refine List.filter_congr fun k _ => ?_
  cases hold <;> simp

theorem Device.announced_present {m : Device} (e : Env) {p : Head} (weight nonce : Nat)
    (present : (m.hau.head p).present = true) :
    m.announced e p weight nonce =
      { m with hau := m.hau.setHead p { m.hau.head p with weight := weight, nonce := nonce } } := if_pos present

theorem Device.announced_absent {m : Device} (e : Env) {p : Head} (weight nonce : Nat)
    (absent : (m.hau.head p).present = false) :
    m.announced e p weight nonce = m.arrive e p weight nonce := if_neg (ne_true_of_eq_false absent)

theorem exec_announce {s : State} {p : Head} (w : BitVec 4) (n : BitVec 32) (reachable : s.env.reachable p = true) :
    exec (.announce p w n) s =
      s.ends ((s.part.begin_.setPort p { s.part.port p with annWeight := w, annNonce := n }).announced s.env p w.toNat
        n.toNat) := by
  refine (if_pos reachable).trans ?_
  rw [← Device.begin_port s.part p]
  rfl

/-- Settles O47, from the command that a write spells and the arrival of a head in its stages. -/
theorem announce : Obligations.Announce := by
  unfold Obligations.Announce
  refine ⟨fun p width v => ?_, fun m now k => ⟨m.regainOwner_orphaned now, m.regainOwner_live now⟩,
    fun s p w n reachable => ?_⟩
  · rw [← commandOfAnnounce_eq]
    rfl
  · intro hau m
    have same : m.hau = hau := Device.setPort_hau ..
    have run := exec_announce w n reachable
    refine ⟨fun present => ?_, fun absent => ?_⟩
    · rw [run, Device.announced_present (m := m) s.env w.toNat n.toNat (by rw [same]; exact present), same]
    · intro hau1 m1 back m2
      have given : m.givenBack s.env p w.toNat n.toNat = m2 := by
        rw [Device.givenBack, Device.regained_eq, same]
      have left : m2.hau = hau1 := by rw [← given, Device.givenBack_hau, same]
      have first : m2.hau.first = hau.first := by rw [left, Hau.setHead_first]
      have timer : m2.hau.settleTimer = hau.settleTimer := by rw [left, Hau.setHead_settleTimer]
      have primary : m2.hau.primary = hau.primary := by rw [left, Hau.setHead_primary]
      rw [Device.announced_absent (m := m) s.env w.toNat n.toNat (by rw [same]; exact absent), Device.arrive_eq,
        given] at run
      rw [run, ← left]
      refine ⟨fun h => ?_, fun h running => ?_, fun h running => ?_, fun h settled h' => ?_, fun h settled h' => ?_⟩
      · rw [Device.settleRole_first s.env (first.trans h)]
      · rw [Device.settleRole_same s.env (first.trans h) (timer ▸ running)]
      · rw [Device.settleRole_other s.env (first.trans h) (timer ▸ running)]
      · rw [Device.settleRole_settled s.env (first ▸ h) (timer.trans settled), if_pos (primary.trans h')]
      · rw [Device.settleRole_settled s.env (first ▸ h) (timer.trans settled), if_neg (primary ▸ h')]

/-! ### Resolution and YIELD -/

theorem Device.raise_eq (m : Device) (p : Head) (x : Source) :
    m.raise p x = m.setPort p { m.port p with ev := (m.port p).ev.request1 x.bit } := rfl

/-- The ROLE event of one port (R173). -/
def Device.tellRole (old new : Option Head) (m : Device) (p : Head) : Device :=
  if decide (old = some p) = decide (new = some p) then m else m.raise p .role

theorem Device.setPrimary_eq (new : Option Head) (m : Device) :
    m.setPrimary new = (({ m with hau := { m.hau with primary := new } } : Device).tellRole m.hau.primary new .a).tellRole
      m.hau.primary new .b := rfl

theorem Device.tellRole_hau (old new : Option Head) (m : Device) (p : Head) : (m.tellRole old new p).hau = m.hau := by
  unfold Device.tellRole
  split
  · rfl
  · exact m.setPort_hau p _

theorem Device.tellRole_port (old new : Option Head) (m : Device) (p q : Head) :
    (m.tellRole old new p).port q =
      if q = p ∧ ¬ (old = some p ↔ new = some p) then { m.port p with ev := (m.port p).ev.request1 3 } else m.port q := by
  unfold Device.tellRole
  by_cases same : old = some p ↔ new = some p
  · rw [if_pos (decide_eq_decide.2 same), if_neg fun h => h.2 same]
  · rw [if_neg (mt decide_eq_decide.1 same), Device.raise_eq, Device.port_setPort]
    exact if_congr ⟨fun h => ⟨h, same⟩, And.left⟩ rfl rfl

theorem Device.setPrimary_hau (new : Option Head) (m : Device) :
    (m.setPrimary new).hau = { m.hau with primary := new } := by
  rw [Device.setPrimary_eq, Device.tellRole_hau, Device.tellRole_hau]

theorem Device.setPrimary_port (new : Option Head) (m : Device) (p : Head) :
    (m.setPrimary new).port p = if (m.hau.primary = some p ↔ new = some p) then m.port p
      else { m.port p with ev := (m.port p).ev.request1 3 } := by
  rw [Device.setPrimary_eq, Device.tellRole_port, Device.tellRole_port, Device.tellRole_port]
  cases p
  · simp only [reduceCtorEq, false_and, if_false, true_and, ite_not]
    rfl
  · simp only [reduceCtorEq, false_and, if_false, true_and, ite_not]
    rfl

/-- The head that resolution chooses (R173). -/
theorem Hau.winner_eq (h : Hau) :
    h.winner h.headA.present h.headB.present =
      if h.headA.present = true ∧ h.headB.present = true then
        (if h.headA.weight < h.headB.weight ∨ (h.headA.weight = h.headB.weight ∧ h.headA.nonce < h.headB.nonce) then
          some Head.b else some Head.a)
      else if h.headA.present = true then some .a else if h.headB.present = true then some .b else none := by
  cases a : h.headA.present <;> cases b : h.headB.present
  · rfl
  · rfl
  · rfl
  · rw [if_pos ⟨rfl, rfl⟩]
    rcases Nat.lt_trichotomy h.headA.weight h.headB.weight with less | same | more
    · simp [Hau.winner, less, Nat.lt_asymm less]
    · simp only [Hau.winner, same, Nat.lt_irrefl, if_false, false_or, true_and]
    · simp [Hau.winner, more, Nat.lt_asymm more, Nat.ne_of_gt more]

theorem Device.resolve_eq (m : Device) :
    let a := m.hau.headA
    let b := m.hau.headB
    let new := if a.present = true ∧ b.present = true then
        (if a.weight < b.weight ∨ (a.weight = b.weight ∧ a.nonce < b.nonce) then some Head.b else some Head.a)
      else if a.present = true then some .a else if b.present = true then some .b else none
    m.resolve.hau = { m.hau with primary := new } ∧
    ∀ p, m.resolve.port p =
      if (m.hau.primary = some p ↔ new = some p) then m.port p
      else { m.port p with ev := (m.port p).ev.request1 3 } := by
  intro a b new
  rw [show m.resolve = m.setPrimary new from congrArg m.setPrimary m.hau.winner_eq]
  exact ⟨m.setPrimary_hau new, m.setPrimary_port new⟩

section Yield
variable {m : Device} {p : Head}

theorem Device.yieldRole_taken (present : (m.hau.head p.other).present = true) :
    m.yieldRole p = { part := m.setPrimary (some p.other), status := .ok, results := [word p.other.code] } := by
  rw [Device.yieldRole, if_pos present, Device.setPrimary_hau]
  rfl

theorem Device.yieldRole_kept (primary : m.hau.primary = some p) (absent : (m.hau.head p.other).present = false) :
    m.yieldRole p = { part := m, status := .ok, results := [word p.code] } := by
  rw [Device.yieldRole, if_neg (ne_true_of_eq_false absent), primary]
  rfl

theorem exec_yieldRole {s : State} {h : Handed} (hands : s.Hands p h .yieldRole)
    (primary : s.part.hau.primary = some p) :
    exec (.yieldRole p) s = s.ends ((s.part.begin_.yieldRole p).part.completed p
      (h.completion (s.part.begin_.yieldRole p).status (s.part.begin_.yieldRole p).results)) :=
  hands.primaryTaken primary rfl

end Yield

/-! ### Timers -/

theorem due_some {timer : Option Time} {t now : Time} (set : timer = some t) (reached : t ≤ now) :
    due timer now = true := by
  rw [set]
  exact decide_eq_true reached

theorem StreamState.orphanable_eq (x : StreamState) :
    x.orphanable = decide (x = .cued ∨ x = .playing ∨ x = .handover) := by cases x <;> rfl

theorem Device.holdExpired_eq (e : Env) (p : Head) (m : Device) :
    let m0 := { m with hau := m.hau.setHead p { m.hau.head p with hold := none } }
    let m1 := ((m0.streamsOf p).filter fun k => decide ((m.stream k).state = .cued ∨
      (m.stream k).state = .playing ∨ (m.stream k).state = .handover)).foldl (fun m k => m.orphan e k) m0
    m.holdExpired e p = if m.hau.primary = some p then m1.resolve else m1 := by
  intro m0 m1
  have orphaned : (m0.streamsOf p).filter (fun k => (m0.stream k).state.orphanable) =
      (m0.streamsOf p).filter fun k => decide ((m.stream k).state = .cued ∨
        (m.stream k).state = .playing ∨ (m.stream k).state = .handover) :=
    List.filter_congr fun k _ => StreamState.orphanable_eq _
  rw [show m1 = ((m0.streamsOf p).filter fun k => (m0.stream k).state.orphanable).foldl (fun m k => m.orphan e k) m0 by
    rw [orphaned]]
  rfl

theorem Device.orphanExpired_eq (now : Time) (k : Nat) (m : Device) :
    let m0 := (m.dropWindow now k).closeStream k
    let m1 := if m.hau.headA.present then m0.makeState .a k .closed else m0
    m.orphanExpired now k = if m.hau.headB.present then m1.makeState .b k .closed else m1 := by
  intro m0 m1
  have hau : m0.hau = m.hau := (Device.closeStream_hau _ k).trans (m.dropWindow_hau now k)
  have told : (if (m0.hau.head .a).present then m0.makeState .a k .closed else m0) = m1 := by rw [hau]; rfl
  have hau1 : m1.hau = m.hau := by
    rw [← told]
    split
    · exact (m0.makeState_hau .a k .closed).trans hau
    · exact hau
  change (if ((if (m0.hau.head .a).present then m0.makeState .a k .closed else m0).hau.head .b).present then
    (if (m0.hau.head .a).present then m0.makeState .a k .closed else m0).makeState .b k .closed
    else if (m0.hau.head .a).present then m0.makeState .a k .closed else m0) = _
  rw [told, hau1]
  rfl

/-- Settles O49, from the role that resolution gives and the effect of each timer. -/
theorem rolesAndTimers : Obligations.RolesAndTimers := by
  unfold Obligations.RolesAndTimers
  refine ⟨Device.resolve_eq, fun s => ?_⟩
  intro now
  refine ⟨fun p h hands primary => ⟨fun present => ?_, fun absent => ?_⟩, fun t set reached => ?_,
    fun p t set reached => ?_, fun k t set reached => ?_, fun k t set reached => ⟨fun present => ?_, fun absent => ?_⟩⟩
  · exact (exec_yieldRole hands primary).trans (by rw [Device.yieldRole_taken (m := s.part.begin_) present])
  · exact (exec_yieldRole hands primary).trans (by rw [Device.yieldRole_kept (m := s.part.begin_) primary absent])
  · exact if_pos (due_some set reached)
  · exact (if_pos (due_some set reached)).trans (congrArg s.ends (s.part.begin_.holdExpired_eq s.env p))
  · exact (if_pos (due_some set reached)).trans (congrArg s.ends (s.part.begin_.orphanExpired_eq now k))
  · exact (if_pos (due_some set reached)).trans
      (congrArg s.ends (Device.lapse_present (m := s.part.begin_) (e := s.env) (k := k) present))
  · exact (if_pos (due_some set reached)).trans (congrArg s.ends
      ((Device.lapse_absent (m := s.part.begin_) (e := s.env) (k := k) absent).trans (Device.orphan_eq rfl)))

end Sys2Proof.Machine
end

section
/-! PROOFS. The commands of a channel and the end of a characterisation (chapter 7). -/

namespace Sys2Proof.Machine

/-! ### SET_CHANNEL -/

theorem Device.setChannelCommand_eq (fitted : Nat) (a : SetChannelArgs) (m : Device) (inside : a.channel < fitted) :
    let x := m.channel a.channel
    let y := { x with parkMs := min a.parkMs 3600000, wakeEstimate := max 100 (min a.wakeMs 120000) * 1000000,
                      retryLimit := min a.retryLimit 3, tagLimit := min a.tagLimit 4,
                      driftMs := max 1 (min a.driftMs 1000),
                      idleTimer := if min a.parkMs 3600000 = x.parkMs then x.idleTimer else none }
    let m1 := m.setChannel a.channel y
    m.setChannelCommand fitted a =
      { part := if y.tagLimit = x.tagLimit then m1 else m1.askChoice a.channel, status := .ok,
        results := [word y.parkMs, word (y.wakeEstimate / 1000000), word y.retryLimit, word y.tagLimit,
          word y.driftMs] } := by
  intro x y m1
  have record : (if (x.settings a).parkMs = x.parkMs then x.settings a else { x.settings a with idleTimer := none }) = y := by
    by_cases same : min a.parkMs 3600000 = x.parkMs
    · refine (if_pos same).trans ?_
      simp only [y, if_pos same]
      rfl
    · refine (if_neg same).trans ?_
      simp only [y, if_neg same]
      rfl
  refine (if_neg (Nat.not_le.2 inside)).trans ?_
  dsimp only
  rw [record]
  rfl

/-! ### CHARACTERISE -/

section Characterise
variable {s : State} {p : Head} {h : Handed} {c s1 s2 address : Nat}

/-- The characterisation that a CHARACTERISE begins (R129). -/
def Handed.characterisation (h : Handed) (p : Head) (s1 s2 address : Nat) (phase : CharPhase) : Characterisation :=
  { issuer := p, tag := h.tag, consumer := h.consumer, discard := false, s1, s2, address, times := [], phase }

theorem exec_characterise_bad (hands : s.Hands p h (.characterise c s1 s2 address))
    (primary : s.part.hau.primary = some p) {status : Status}
    (refused : s.part.begin_.characteriseRefusal s.env.straps.fitted c s1 s2 address = some status) :
    exec (.characterise p c s1 s2 address) s = s.ends (s.part.begin_.completed p (h.completion status [])) := by
  refine (hands.take _).trans ?_
  rw [if_neg (fun other => other primary), refused]
  exact congrArg s.ends (Device.answer_eq_completed ..)

theorem exec_characterise_taken (hands : s.Hands p h (.characterise c s1 s2 address))
    (primary : s.part.hau.primary = some p)
    (taken : s.part.begin_.characteriseRefusal s.env.straps.fitted c s1 s2 address = none) :
    exec (.characterise p c s1 s2 address) s =
      s.ends (s.part.begin_.beginChar s.env.now p h c s1 s2 address) := by
  refine (hands.take _).trans ?_
  rw [if_neg (fun other => other primary), taken]

theorem Device.beginChar_eq (m : Device) (now : Time) :
    m.beginChar now p h c s1 s2 address =
      ((m.setPort p { m.port p with progress := .idle }).setChannel c { m.channel c with
        idleTimer := none, char := some (h.characterisation p s1 s2 address .draining) }).drained now c := by
  cases p <;> rfl

/-- With a tag in use the characterisation drains (R129). -/
theorem Device.drained_waits {m : Device} {now : Time} {x : Channel} (busy : x.tagsFree = false) :
    (m.setChannel c x).drained now c = m.setChannel c x := by
  have : ¬ ∀ t < 4, x.tag t = .free := fun free => by
    rw [(Channel.tagsFree_iff x).2 free] at busy
    cases busy
  obtain ⟨t, inside, used⟩ : ∃ t < 4, x.tag t ≠ .free := by simpa using this
  exact Device.drained_none (.inr ⟨t, inside, by rw [Device.channel_setChannel_same]; exact used⟩)

theorem Device.drained_begins {m : Device} {now : Time} {x : Channel} {y : Characterisation} (char : x.char = some y)
    (draining : y.phase = .draining) (free : x.tagsFree = true) :
    (m.setChannel c x).drained now c =
      if x.link = true then
        (m.setChannel c { x with char := some (y.probed x now) }).emit
          (.link c (0x01#8 :: 0x80#8 :: natBytes 2 y.probeBlocks ++ natBytes 6 y.address))
      else m.setChannel c { x with char := some (y.probed x now) } := by
  have record : (m.setChannel c x).channel c = x := m.channel_setChannel_same c x
  rw [Device.drained_sends (by rw [record]; exact char) draining
      (fun t inside => by rw [record]; exact (Channel.tagsFree_iff x).1 free t inside),
    Device.sendProbe_eq (by rw [record]; exact char), record, Device.setChannel_setChannel]

end Characterise

/-! ### The end of a characterisation -/

theorem fittedCost_eq (s1 s2 a1 a2 : Nat) :
    fittedCost s1 s2 a1 a2 =
      if a2 ≤ a1 then 1 else
        (max 1 (min ((2 * ((a2 : Int) - a1) + (s2 * 4 - s1 * 4 : Nat)) / (2 * (s2 * 4 - s1 * 4 : Nat))) 100000)).toNat :=
  rfl

theorem fittedSetup_eq (s1 a1 cost : Nat) :
    fittedSetup s1 a1 cost =
      (max 20 (min ((2 * ((a1 : Int) - s1 * 4 * cost) + 1000) / 2000) 200000)).toNat := by
  rw [fittedSetup, roundHalfUp, clampInt]
  push_cast
  rfl

theorem Channel.endChar_eq (ch : Channel) (x : Characterisation) (o : CharOutcome) :
    ch.endChar x o =
      if o = .done then
        { ch with
          char := none, lastOutcome := some o, cost := fittedCost x.s1 x.s2 x.averages.1 x.averages.2,
          setup := fittedSetup x.s1 x.averages.1 (fittedCost x.s1 x.s2 x.averages.1 x.averages.2), driftRun := 0,
          lastAverages := some x.averages }
      else { ch with char := none, lastOutcome := some o, lastAverages := none } := rfl

/-- Settles O45, from the fit of the averages. -/
theorem characterisationEnds : Obligations.CharacterisationEnds := by
  unfold Obligations.CharacterisationEnds
  intro m c o x char ch a1 a2 blocks cost setup y m1
  have fitCost : fittedCost x.s1 x.s2 a1 a2 = cost := fittedCost_eq ..
  have fitSetup : fittedSetup x.s1 a1 cost = setup := fittedSetup_eq ..
  have record : ch.endChar x o = y := by
    refine (Channel.endChar_eq ch x o).trans (if_congr Iff.rfl ?_ rfl)
    simp only [show x.averages = (a1, a2) from rfl, fitCost, fitSetup]
  have part : ((m.onChannel c (·.endChar x o)).raiseBoth .characterised).askChoice c = m1 := by
    rw [Device.onChannel, show (m.channel c).endChar x o = y from record]
  have settled : m1.channel c = y := m.channel_setChannel_same c y
  have result : charCompletion x o (m1.channel c) =
      { tag := x.tag, kind := 0x21, consumer := x.consumer, status := .ok,
        results := word o.code ::
          (if o = .done then words64 a1 ++ words64 a2 ++ [word setup, word cost] else []) } := by
    rw [charCompletion, settled]
    by_cases done : o = .done
    · simp only [y, if_pos done]
      rfl
    · simp only [y, if_neg done]
  rw [Device.endChar, char]
  dsimp only
  rw [part, result]

/-- Settles O44, from each command's refusals and its effect on the channel. -/
theorem channelCommands : Obligations.ChannelCommands := by
  unfold Obligations.ChannelCommands
  intro s p h primary
  refine ⟨fun a hands => ⟨fun beyond => ?_, fun inside => ?_⟩, fun c s1 s2 address hands => ?_,
    fun c hands => ⟨fun beyond => ?_, fun inside => ?_⟩⟩
  · exact (hands.primaryTaken primary (f := (·.setChannelCommand s.env.straps.fitted a))
      (r := s.part.begin_.refuse .badArg) (if_pos beyond)).trans rfl
  · intro x y m
    have reply := s.part.begin_.setChannelCommand_eq s.env.straps.fitted a inside
    exact (hands.primaryTaken primary (f := (·.setChannelCommand s.env.straps.fitted a)) reply).trans rfl
  · intro x bad begun m timeout
    have passes (good : ¬ bad) (active : x.state = .active) (none_ : x.char = none) :
        s.part.begin_.characteriseRefusal s.env.straps.fitted c s1 s2 address = none :=
      (if_neg good).trans (if_neg fun refused => refused.elim (fun other => other active) fun other => other none_)
    refine ⟨fun h' => exec_characterise_bad hands primary (if_pos h'),
      fun good busy => exec_characterise_bad hands primary ((if_neg good).trans (if_pos busy)),
      fun good active none_ used => ?_, fun good active none_ free => ?_⟩
    · rw [exec_characterise_taken hands primary (passes good active none_), Device.beginChar_eq, Device.begin_port]
      exact congrArg s.ends (Device.drained_waits used)
    · have run := exec_characterise_taken hands primary (passes good active none_)
      have begins := Device.drained_begins (m := m) (now := s.env.now) (c := c) (x := begun .draining)
        (y := h.characterisation p s1 s2 address .draining) rfl rfl free
      rw [Device.beginChar_eq, Device.begin_port] at run
      exact ⟨fun up => run.trans (congrArg s.ends (begins.trans (if_pos up))),
        fun down => run.trans (congrArg s.ends (begins.trans (if_neg (ne_true_of_eq_false down))))⟩
  · exact (hands.primaryTaken primary (f := (·.channelReset s.env.now s.env.straps.fitted c))
      (r := s.part.begin_.refuse .badArg) (if_pos beyond)).trans rfl
  · intro x y m
    exact (hands.primaryTaken primary (f := (·.channelReset s.env.now s.env.straps.fitted c))
      (if_neg (Nat.not_le.2 inside))).trans rfl

end Sys2Proof.Machine
end

section
/-! PROOFS. The messages of an adapter, link events, HELLO and DATA (chapter 7). -/

namespace Sys2Proof.Machine

/-! ### The commands that messages spell -/

theorem messageField_byte {l : List Byte} {i : Nat} (less : i < l.length) : messageField 8 l i 1 = l.getD i 0 := by
  rw [messageField, field_one less]
  simp

theorem messageField_two (l rest : List Byte) (lo hi : Byte) :
    messageField 16 (l ++ lo :: hi :: rest) l.length 2 = BitVec.ofNat 16 (lo.toNat + 256 * hi.toNat) := by
  rw [messageField, field, List.drop_left]
  rfl

/-- A code that no message of an adapter has spells a stray message (R187). -/
theorem commandOfMessage_stray (c : Fin 8) (rest : List Byte) {code : Byte}
    (other : code ∉ [0x02#8, 0x03#8, 0x05#8, 0x07#8, 0x09#8, 0x0A#8]) :
    commandOfMessage c (code :: rest) = .strayMessage c code := by
  have back : BitVec.ofNat 8 code.toNat = code := by simp
  have first : field (code :: rest) 0 1 = code.toNat := field_one (by simp)
  unfold commandOfMessage
  rw [first]
  split
  case h_7 => rw [back]
  all_goals
    rename_i listed
    refine absurd ?_ other
    rw [← back, listed]
    decide

theorem commandOfMessage_listed (c : Fin 8) (t code lo hi : Byte) (rest : List Byte) :
    let two : BitVec 16 := BitVec.ofNat 16 (lo.toNat + 256 * hi.toNat)
    commandOfMessage c (0x02#8 :: t :: lo :: hi :: rest) = .dataBlock c t two rest ∧
    commandOfMessage c (0x03#8 :: t :: code :: rest) = .readEnd c t code ∧
    commandOfMessage c (0x05#8 :: t :: rest) = .abortDone c t ∧ commandOfMessage c (0x07#8 :: rest) = .parked c ∧
    commandOfMessage c (0x09#8 :: rest) = .awake c ∧
    commandOfMessage c (0x0A#8 :: lo :: hi :: rest) = .hello c two := by
  have tag (a : Byte) (l : List Byte) : messageField 8 (a :: t :: l) 1 1 = t := messageField_byte (by simp)
  refine ⟨?_, ?_, congrArg _ (tag _ _), rfl, rfl, congrArg _ (messageField_two [0x0A#8] rest lo hi)⟩
  · exact congrArg₂ (fun a b => Instr.dataBlock c a b rest) (tag _ _) (messageField_two [0x02#8, t] rest lo hi)
  · exact congrArg₂ (Instr.readEnd c) (tag _ _) (messageField_byte (l := 0x03#8 :: t :: code :: rest) (by simp))

/-! ### Link events and HELLO -/

theorem Device.linkLoss_setChannel (m : Device) (now : Time) (c : Nat) (x : Channel) :
    (m.setChannel c x).linkLoss now c =
      (((m.setChannel c
        { x with state := if x.state = .faulted then .faulted else .offline, tags := [], idleTimer := none,
                 parkGuard := none, wakeGuard := none,
                 linkLosses := (x.linkLosses + 1) % 4294967296 }).returnAll now x.records).endChar c
        .linkLost).raiseBoth .channel := by
  unfold Device.linkLoss
  dsimp only
  rw [Device.onChannel_setChannel, Device.channel_setChannel_same]
  rfl

/-- A HELLO of a channel that is OFFLINE (R116). -/
theorem Device.helloOffline_eq (m : Device) (c largest : Nat) :
    (m.onChannel c fun ch => { ch with largestRead := largest }).helloOffline c =
      if largest < 1024 then (m.onChannel c fun ch => { ch with largestRead := largest }).fault c .smallRead
      else ((m.onChannel c fun ch => { ch with largestRead := largest, state := .active, consecutive := 0 }).raiseBoth
        .channel).askChoice c := by
  have record : (m.onChannel c fun ch => { ch with largestRead := largest }).channel c =
      { m.channel c with largestRead := largest } := m.channel_setChannel_same c _
  unfold Device.helloOffline
  rw [record, Device.onChannel, Device.onChannel_setChannel]
  rfl

section Hello
variable {m : Device} {c : Nat} (now : Time) (largest : Nat)

theorem Device.hello_offline (offline : (m.channel c).state = .offline) :
    m.hello now c largest = (m.onChannel c fun ch => { ch with largestRead := largest }).helloOffline c := by
  rw [Device.hello, offline]

theorem Device.hello_faulted (faulted : (m.channel c).state = .faulted) :
    m.hello now c largest = (m.linkLoss now c).onChannel c fun ch => { ch with largestRead := largest } := by
  rw [Device.hello, faulted]

theorem Device.hello_up (notOffline : (m.channel c).state ≠ .offline) (notFaulted : (m.channel c).state ≠ .faulted) :
    m.hello now c largest =
      ((m.linkLoss now c).onChannel c fun ch => { ch with largestRead := largest }).helloOffline c := by
  unfold Device.hello
  dsimp only
  split
  · exact absurd ‹_› notOffline
  · exact absurd ‹_› notFaulted
  all_goals rfl

end Hello

/-! ### DATA -/

section Data
variable {x : Channel} {t k : Nat}

theorem Channel.data_high (high : 3 < t) : x.data t k = x.discardData := if_pos high

/-- A DATA message of a tag that carries no probe is that of its read (R118, R130). -/
theorem Channel.probe_none (noProbe : t ≠ 0 ∨ x.probe = none) : (if t = 0 then x.probe else none) = none := by
  rcases noProbe with other | free
  · exact if_neg other
  · rw [free, ite_self]

theorem Channel.data_idle (low : t ≤ 3) (noProbe : t ≠ 0 ∨ x.probe = none)
    (idle : x.tag t = .free ∨ ∃ guard, x.tag t = .aborting guard) : x.data t k = x.discardData := by
  rw [Channel.data, if_neg (Nat.not_lt.2 low), Channel.probe_none noProbe]
  rcases idle with free | ⟨guard, aborting⟩
  · rw [free]
  · rw [aborting]

theorem Channel.data_inFlight (low : t ≤ 3) (noProbe : t ≠ 0 ∨ x.probe = none) {r est next : Nat} {sent timeout : Time}
    (carries : x.tag t = .inFlight r sent est next timeout) :
    x.data t k = if k = next then x.setTag t (.inFlight r sent est (next + 1) timeout) else x.discardData := by
  rw [Channel.data, if_neg (Nat.not_lt.2 low), Channel.probe_none noProbe, carries]

theorem Channel.data_probe {y : Characterisation} (probe : x.probe = some y) : x.data 0 k = x.probeData y k := by
  rw [Channel.data, if_pos rfl, probe]
  rfl

theorem Channel.probeData_eq {y : Characterisation} {next : Nat} {sent timeout : Time}
    (probing : y.phase = .probing sent next timeout) :
    x.probeData y k =
      if k = next then { x with char := some { y with phase := .probing sent (next + 1) timeout } }
      else x.discardData := by
  rw [Channel.probeData, probing]

end Data

section Address
variable {m : Device} (straps : Straps) {c t k : Nat}

theorem Device.dataAddress_high (high : 3 < t) : m.dataAddress straps c t k = none := if_pos high

theorem Device.dataAddress_probe (probe : (m.channel c).probe ≠ none) : m.dataAddress straps c 0 k = none :=
  (if_neg (by decide)).trans (if_pos ⟨rfl, probe⟩)

theorem Device.dataAddress_idle (idle : (m.channel c).tag t = .free ∨ ∃ guard, (m.channel c).tag t = .aborting guard) :
    m.dataAddress straps c t k = none := by
  unfold Device.dataAddress
  rcases idle with free | ⟨guard, aborting⟩
  · rw [free]
    simp
  · rw [aborting]
    simp

theorem Device.dataAddress_inFlight (low : t ≤ 3) (noProbe : t ≠ 0 ∨ (m.channel c).probe = none) {r est next : Nat}
    {sent timeout : Time} (carries : (m.channel c).tag t = .inFlight r sent est next timeout) :
    m.dataAddress straps c t k = if k = next then m.blockAddress straps (m.req r) k else none := by
  refine (if_neg (Nat.not_lt.2 low)).trans ((if_neg ?_).trans ?_)
  · rintro ⟨zero, probe⟩
    exact noProbe.elim (fun other => other zero) probe
  · rw [carries]

theorem Device.blockAddress_inside {r : Request} {page : Nat} (inside : k < r.count)
    (at_ : (m.slot r.slot).pages[(r.offset + k) / 256]? = some page) :
    m.blockAddress straps r k = some ((straps.idxMiB + page) * 1048576 + (r.offset + k) % 256 * 4096) := by
  refine (if_neg (Nat.not_le.2 inside)).trans ?_
  rw [at_]
  rfl

theorem Device.blockAddress_none {r : Request}
    (outside : r.count ≤ k ∨ (m.slot r.slot).pages[(r.offset + k) / 256]? = none) :
    m.blockAddress straps r k = none := by
  rcases outside with beyond | absent
  · exact if_pos beyond
  · unfold Device.blockAddress
    dsimp only
    rw [absent]
    simp

end Address

section Block
variable {s : State} {c : Fin 8} (fitted : (c : Nat) < s.env.straps.fitted) (up : (s.part.channel c).link = true)
  {t : BitVec 8} {offset : BitVec 16} {payload : List Byte} {y : Channel}
  (left : (s.part.channel c).data t.toNat offset.toNat = y)
include fitted up left

theorem exec_dataBlock_unwritten (none_ : s.part.dataAddress s.env.straps c t.toNat offset.toNat = none) :
    exec (.dataBlock c t offset payload) s = s.ends (s.part.begin_.setChannel c y) := by
  refine (State.onLink_up _ fitted up).trans ?_
  rw [none_, ← left]
  rfl

theorem exec_dataBlock_written {a : Nat} (whole : payload.length = 4096)
    (written : s.part.dataAddress s.env.straps c t.toNat offset.toNat = some a) :
    exec (.dataBlock c t offset payload) s =
      ({ s with env := { s.env with mem := s.env.mem.write a payload } } : State).ends
        (s.part.begin_.setChannel c y) := by
  refine (State.onLink_up _ fitted up).trans ?_
  have block : exactly Config.blockBytes payload = payload := List.take_left' whole
  rw [written, ← left]
  simp only [block]
  rfl

end Block

/-- Settles O58, from the messages' commands, the link loss, and the channel and the block that a DATA message leaves. -/
theorem linkMessages : Obligations.LinkMessages := by
  unfold Obligations.LinkMessages
  refine ⟨fun c t code lo hi rest => ?_, fun s c fitted => ?_⟩
  · obtain ⟨data, ends, abort, parked, awake, hello⟩ := commandOfMessage_listed c t code lo hi rest
    exact ⟨data, ends, abort, parked, awake, hello, commandOfMessage_stray c rest⟩
  intro x b cut start
  have record : b.channel c = x := rfl
  refine ⟨if_pos fitted, (if_pos fitted).trans (congrArg s.ends (b.linkLoss_setChannel s.env.now c _)),
    fun down => ⟨fun _ => State.onLink_down _ down, fun _ _ _ => State.onLink_down _ down,
      fun _ => State.onLink_down _ down⟩, fun up => ⟨fun largest => ?_, fun t offset payload whole => ?_,
    fun code other => ?_⟩⟩
  · have run : exec (.hello c largest) s = s.ends (b.hello s.env.now c largest.toNat) := State.onLink_up _ fitted up
    have lost : cut x.link = b.linkLoss s.env.now c := rfl
    rw [up] at lost
    refine ⟨fun offline => ?_, fun faulted => ?_, fun notOffline notFaulted => ?_⟩
    · rw [run, Device.hello_offline s.env.now _ (m := b) offline, Device.helloOffline_eq]
    · rw [run, Device.hello_faulted s.env.now _ (m := b) faulted, lost]
    · rw [run, Device.hello_up s.env.now _ (m := b) notOffline notFaulted, Device.helloOffline_eq, lost]
  · intro t' k discarded
    refine ⟨fun high => exec_dataBlock_unwritten fitted up (Channel.data_high high)
        (Device.dataAddress_high _ high), fun low noProbe => ⟨fun idle => ?_, ?_⟩, ?_⟩
    · exact exec_dataBlock_unwritten fitted up (Channel.data_idle low noProbe idle) (Device.dataAddress_idle _ idle)
    · intro r sent est next timeout carries q pages expects
      have left := Channel.data_inFlight (k := k) low noProbe carries
      have address := Device.dataAddress_inFlight (m := s.part) (k := k) s.env.straps low noProbe carries
      refine ⟨fun outOfOrder => ?_, fun inOrder page inside at_ => ?_, fun inOrder outside => ?_⟩
      · exact exec_dataBlock_unwritten fitted up (left.trans (if_neg outOfOrder)) (address.trans (if_neg outOfOrder))
      · exact exec_dataBlock_written fitted up (left.trans (if_pos inOrder)) whole
          ((address.trans (if_pos inOrder)).trans (Device.blockAddress_inside _ inside at_))
      · exact exec_dataBlock_unwritten fitted up (left.trans (if_pos inOrder))
          ((address.trans (if_pos inOrder)).trans (Device.blockAddress_none _ outside))
    · intro y zero probe sent next timeout probing
      have left : x.data t' k = _ := zero ▸ (Channel.data_probe probe).trans (Channel.probeData_eq probing)
      have address : s.part.dataAddress s.env.straps c t' k = none :=
        zero ▸ Device.dataAddress_probe _ (by rw [show (s.part.channel c).probe = some y from probe]; nofun)
      exact ⟨fun inOrder => exec_dataBlock_unwritten fitted up (left.trans (if_pos inOrder)) address,
        fun outOfOrder => exec_dataBlock_unwritten fitted up (left.trans (if_neg outOfOrder)) address⟩
  · exact (State.onLink_up _ fitted up).trans (if_neg other)

end Sys2Proof.Machine
end

section
/-! PROOFS. The idle timers at the end of an event (chapter 7, R124). Whatever comes before them in `settle` leaves
every idle timer as it was. -/

namespace Sys2Proof.Machine

/-! ### What leaves the idle timers -/

/-- Every channel has the same idle timer in both. -/
def Device.IdleKept (m t : Device) : Prop := ∀ c, (t.channel c).idleTimer = (m.channel c).idleTimer

section IdleKept
variable {m t u : Device}

theorem Device.IdleKept.refl (m : Device) : m.IdleKept m := fun _ => rfl

theorem Device.IdleKept.trans (h : m.IdleKept t) (g : t.IdleKept u) : m.IdleKept u := fun c => (g c).trans (h c)

theorem Device.IdleKept.of_channels (same : t.channels = m.channels) : m.IdleKept t := fun c =>
  congrArg (fun l => (Table.get Channel.reset l c).idleTimer) same

/-- What keeps the idle timers of a part keeps them of one with the same channels. -/
theorem Device.IdleKept.after (h : t.IdleKept u) (same : t.channels = m.channels) : m.IdleKept u :=
  (Device.IdleKept.of_channels same).trans h

theorem Device.idleKept_setChannel {c : Nat} {v : Channel} (same : v.idleTimer = (m.channel c).idleTimer) :
    m.IdleKept (m.setChannel c v) := fun j => by
  rw [Device.channel_setChannel]
  split
  · rename_i here
    rw [here, same]
  · rfl

theorem Device.idleKept_foldl {α : Type} {f : Device → α → Device}
    (step : ∀ (m : Device) (a : α), m.IdleKept (f m a)) (l : List α)
    (m : Device) : m.IdleKept (l.foldl f m) :=
  foldl_keeps (I := m.IdleKept) (fun _ a kept => kept.trans (step _ a)) l m (.refl m)

end IdleKept

section Kept
variable (m : Device) (now : Time) (e : Env)

theorem Device.idleKept_onChannel (c : Nat) {f : Channel → Channel}
    (same : (f (m.channel c)).idleTimer = (m.channel c).idleTimer) : m.IdleKept (m.onChannel c f) :=
  Device.idleKept_setChannel same

theorem Device.idleKept_send (c : Nat) (x : LinkMessage) : m.IdleKept (m.send c x) := by
  rw [Device.send_eq]
  split
  · exact .of_channels rfl
  · exact .refl m

theorem Device.idleKept_wake (c : Nat) : m.IdleKept (m.wake now c) :=
  (m.idleKept_onChannel c rfl).trans (Device.idleKept_send _ c _)

theorem Device.idleKept_joinQueue (c : Nat) : m.IdleKept (m.joinQueue now c) := by
  unfold Device.joinQueue
  split
  · exact (m.idleKept_wake now c).trans (.of_channels rfl)
  · exact .of_channels rfl

theorem Device.idleKept_grant (n i : Nat) : m.IdleKept (m.grant now n i) := by
  unfold Device.grant
  split
  · exact (Device.idleKept_joinQueue _ now _).after rfl
  · exact .refl m

theorem Device.idleKept_offer (n : Nat) : m.IdleKept (m.offer now n) :=
  Device.idleKept_foldl (fun t i => by
    split
    · exact t.idleKept_grant now n i
    · exact .refl t) _ m

theorem Device.idleKept_grantWaiting (fuel : Nat) : m.IdleKept (m.grantWaiting now fuel) := by
  induction fuel generalizing m with
  | zero => exact .refl m
  | succ fuel ih =>
    unfold Device.grantWaiting
    split
    · split
      · exact (m.idleKept_grant now _ _).trans (ih _)
      · exact .refl m
    · exact .refl m

theorem Device.idleKept_withdraw (n : Nat) : m.IdleKept (m.withdraw n) := fun c => by
  rw [m.withdraw_channel n c]
  split <;> rfl

theorem Device.idleKept_dispatch (c t : Nat) (x : Ranked) : m.IdleKept (m.dispatch e c t x) := by
  unfold Device.dispatch
  refine .trans ?_ (Device.idleKept_send _ c _)
  exact (Device.idleKept_onChannel _ c rfl).after rfl

theorem Device.idleKept_chooseLoop (c fuel : Nat) : m.IdleKept (m.chooseLoop e c fuel) := by
  induction fuel generalizing m with
  | zero => exact .refl m
  | succ fuel ih =>
    unfold Device.chooseLoop
    split
    · split
      · exact (m.idleKept_dispatch e c _ _).trans (ih _)
      · exact Device.idleKept_setChannel rfl
    · exact Device.idleKept_setChannel rfl

theorem Device.idleKept_runChoice (c : Nat) : m.IdleKept (m.runChoice e c) := by
  unfold Device.runChoice
  split
  · exact m.idleKept_chooseLoop e c _
  · exact .refl m

theorem Device.idleKept_recompute (n : Nat) : m.IdleKept (m.recompute n) :=
  .of_channels (by rw [m.recompute_frame n])

theorem Device.idleKept_unpinned (n : Nat) : m.IdleKept (m.unpinned now n) := by
  unfold Device.unpinned
  split
  · exact .of_channels rfl
  · dsimp only
    split
    · exact (m.idleKept_withdraw n).trans (.of_channels rfl)
    · exact (m.idleKept_withdraw n).trans (.of_channels rfl)
  · split
    · exact .of_channels rfl
    · exact .of_channels rfl
  · exact .refl m
  · exact .refl m

theorem Device.idleKept_unpin (n : Nat) : m.IdleKept (m.unpin now n) := by
  refine .trans ?_ (Device.idleKept_recompute _ n)
  split
  · exact (Device.idleKept_unpinned _ now n).after rfl
  · exact .of_channels rfl

theorem Device.idleKept_releasePin (slot : Option Nat) : m.IdleKept (m.releasePin now slot) := by
  cases slot with
  | none => exact .refl m
  | some n => exact m.idleKept_unpin now n

theorem Device.idleKept_reclaimFor (need : Nat) (l : List Nat) : m.IdleKept (Device.reclaimFor need l m) := by
  induction l generalizing m with
  | nil => exact .refl m
  | cons n l ih =>
    unfold Device.reclaimFor
    split
    · exact .refl m
    · exact (ih (m.freeSlot n)).after rfl

theorem Device.idleKept_pinEntry (k : Nat) (u : Int) (n : Nat) (st : EntryState) : m.IdleKept (m.pinEntry k u n st) :=
  (Device.idleKept_recompute _ n).after rfl

theorem Device.idleKept_placeFailed (byPass : Bool) (k : Nat) (w : WinEntry) (cause : Cause) :
    m.IdleKept (m.placeFailed byPass k w cause) := by
  unfold Device.placeFailed
  dsimp only
  generalize reclaimed : (if m.freeRecord.isSome = true ∨ byPass = true ∧ m.rankedAhead k w.u = true then m
    else m.reclaimFor 0 m.reclaim : Device) = m1
  have kept : m.IdleKept m1 := by
    rw [← reclaimed]
    split
    · exact .refl m
    · exact m.idleKept_reclaimFor 0 _
  split
  · exact kept
  · exact kept.trans ((Device.idleKept_pinEntry _ k w.u _ _).after rfl)

theorem Device.idleKept_placeMiss (byPass : Bool) (k : Nat) (w : WinEntry) (loc : Location) :
    m.IdleKept (m.placeMiss e byPass k w loc) := by
  have kept := m.idleKept_reclaimFor (pagesFor loc.frameBytes) m.reclaim
  unfold Device.placeMiss
  dsimp only
  generalize m.reclaimFor (pagesFor loc.frameBytes) m.reclaim = m1 at kept
  split
  · exact .refl m
  · split
    · exact kept
    · split
      · refine .trans (kept.trans ?_) (Device.idleKept_offer _ e.now _)
        exact (Device.idleKept_pinEntry _ k w.u _ _).after rfl
      · exact kept

theorem Device.idleKept_revive (k : Nat) (w : WinEntry) (n : Nat) : m.IdleKept (m.revive e k w n) := by
  unfold Device.revive
  dsimp only
  split
  · exact (Device.idleKept_pinEntry _ k w.u n _).after rfl
  · refine .trans ?_ (Device.idleKept_offer _ e.now n)
    exact (Device.idleKept_pinEntry _ k w.u n _).after rfl

theorem Device.idleKept_place (byPass : Bool) (k : Nat) (w : WinEntry) : m.IdleKept (m.place e byPass k w) := by
  unfold Device.place
  dsimp only
  split
  · split
    · exact (Device.idleKept_pinEntry _ k w.u _ _).after rfl
    · exact (Device.idleKept_pinEntry _ k w.u _ _).after rfl
    · exact (Device.idleKept_pinEntry _ k w.u _ _).after rfl
    · exact m.idleKept_revive e k w _
    · exact .refl m
  · split
    · exact m.idleKept_placeFailed byPass k w _
    · exact m.idleKept_placeMiss e byPass k w _

theorem Device.idleKept_deliver (k : Nat) (w : WinEntry) : m.IdleKept (m.deliver now k w) := by
  unfold Device.deliver
  dsimp only
  split
  · exact (Device.idleKept_releasePin _ now _).after rfl
  · exact (Device.idleKept_recompute _ _).after rfl

theorem Device.idleKept_deliverLoop (k fuel : Nat) : m.IdleKept (m.deliverLoop now k fuel) := by
  induction fuel generalizing m with
  | zero => exact .refl m
  | succ fuel ih =>
    unfold Device.deliverLoop
    split
    · exact (m.idleKept_deliver now k _).trans (ih _)
    · exact .refl m

theorem Device.idleKept_check (k : Nat) : m.IdleKept (m.check now k) := by
  unfold Device.check
  dsimp only
  split
  · exact (m.idleKept_deliverLoop now k _).trans (.of_channels rfl)
  · exact m.idleKept_deliverLoop now k _

theorem Device.idleKept_retryLoop (fuel : Nat) : m.IdleKept (m.retryLoop e fuel) := by
  induction fuel generalizing m with
  | zero => exact .refl m
  | succ fuel ih =>
    unfold Device.retryLoop
    split
    · exact .refl m
    · split
      · exact .refl m
      · dsimp only
        split
        · split
          · exact m.idleKept_place e false _ _
          · refine .trans ?_ (ih _)
            split
            · exact (m.idleKept_place e false _ _).trans (Device.idleKept_check _ e.now _)
            · exact m.idleKept_place e false _ _
        · exact m.idleKept_place e false _ _

theorem Device.idleKept_retry : m.IdleKept (m.retry e) := by
  unfold Device.retry
  split
  · exact (m.idleKept_retryLoop e _).trans (.of_channels rfl)
  · exact .refl m

/-- What the end of an event does before it comes to the idle timers (log 10). -/
def Device.chosen (e : Env) (m : Device) : Device := (((m.runChecks e.now).grantAll e.now).retry e).runChoices e

theorem Device.idleKept_chosen : m.IdleKept (m.chosen e) :=
  (((Device.idleKept_foldl (fun t k => t.idleKept_check e.now k) _ m).trans
    (Device.idleKept_grantWaiting _ e.now _)).trans (Device.idleKept_retry _ e)).trans
    (Device.idleKept_foldl (fun t c => t.idleKept_runChoice e c) _ _)

end Kept

/-! ### The idle timers -/

section Idle
variable (m : Device) (now : Time)

theorem Device.idle_iff (c : Nat) :
    m.idle c = true ↔ (m.channel c).state = .active ∧ (m.channel c).char = none ∧ m.queue c = [] ∧
      ∀ t < 4, (m.channel c).tag t = .free := by
  simp only [Device.idle, Bool.and_eq_true, decide_eq_true_eq, List.isEmpty_iff, Channel.tagsFree_iff, and_assoc]

/-- The idle timer of a channel that is idle or not (R124). -/
def Channel.idled (x : Channel) (now : Time) (idle : Bool) : Channel :=
  { x with idleTimer :=
      if idle = true then
        (if x.idleTimer = none ∧ 0 < x.parkMs then some (now + x.parkMs * 1000000) else x.idleTimer)
      else none }

theorem Device.idleTimer_channel (c j : Nat) :
    (m.idleTimer now c).channel j = if j = c then (m.channel c).idled now (m.idle c) else m.channel j := by
  have same (x : Channel) (keeps : m.channel c = x) : m.channel j = if j = c then x else m.channel j := by
    split
    · rename_i here
      rw [here, keeps]
    · rfl
  unfold Device.idleTimer Channel.idled
  by_cases idle : m.idle c = true
  · rw [if_pos idle]
    by_cases start : (m.channel c).idleTimer = none ∧ 0 < (m.channel c).parkMs
    · rw [if_pos start, Device.onChannel, Device.channel_setChannel, if_pos idle, if_pos start]
    · rw [if_neg start, if_pos idle, if_neg start]
      exact same _ rfl
  · rw [if_neg idle, Device.onChannel, Device.channel_setChannel, if_neg idle]

theorem Device.idleTimer_reqs (c : Nat) : (m.idleTimer now c).reqs = m.reqs := by
  unfold Device.idleTimer
  split
  · split <;> rfl
  · rfl

/-- Whether a channel is idle does not depend on idle timers. -/
theorem Device.idleTimer_idle (c j : Nat) : (m.idleTimer now c).idle j = m.idle j := by
  have queue : (m.idleTimer now c).queue j = m.queue j := by
    unfold Device.queue
    rw [Device.idleTimer_reqs]
  unfold Device.idle
  rw [queue, Device.idleTimer_channel]
  split
  · rename_i here
    rw [here]
    rfl
  · rfl

theorem Device.runIdle_channel (l : List Nat) (nodup : l.Nodup) (c : Nat) :
    (l.foldl (fun m c => m.idleTimer now c) m).channel c =
      if c ∈ l then (m.channel c).idled now (m.idle c) else m.channel c := by
  induction l generalizing m with
  | nil => exact (if_neg (by simp)).symm
  | cons a l ih =>
    obtain ⟨fresh, rest⟩ := List.nodup_cons.1 nodup
    rw [List.foldl_cons, ih _ rest, Device.idleTimer_idle, Device.idleTimer_channel]
    by_cases here : c = a
    · subst here
      simp [fresh]
    · simp [here]

theorem Device.runIdle_reqs (l : List Nat) : (l.foldl (fun m c => m.idleTimer now c) m).reqs = m.reqs :=
  foldl_keeps (I := fun t => t.reqs = m.reqs) (fun t c same => (t.idleTimer_reqs now c).trans same) l m rfl

end Idle

/-- The idle timer that an event leaves (R124). -/
theorem Device.settle_idleTimer (m : Device) (e : Env) {c : Nat} (fitted : c < e.straps.fitted) :
    let t := m.settle e
    let ch := t.channel c
    let idle := ch.state = .active ∧ ch.char = none ∧ t.queue c = [] ∧ ∀ j < 4, ch.tag j = .free
    (idle → ∀ u, (m.channel c).idleTimer = some u → ch.idleTimer = some u) ∧
    (idle → (m.channel c).idleTimer = none →
      ch.idleTimer = if ch.parkMs = 0 then none else some (e.now + ch.parkMs * 1000000)) ∧
    (¬ idle → ch.idleTimer = none) := by
  intro t ch idle
  have ports := (Device.settlePorts_portsSettled (m.settleTables e) e.now).1
  have channels : t.channels = ((m.chosen e).runIdle e).channels := ports.channels
  have reqs : t.reqs = (m.chosen e).reqs := ports.reqs.trans (Device.runIdle_reqs _ e.now _)
  have record : ch = ((m.chosen e).channel c).idled e.now ((m.chosen e).idle c) :=
    (congrArg (Table.get Channel.reset · c) channels).trans
      (((m.chosen e).runIdle_channel e.now _ List.nodup_range c).trans (if_pos (List.mem_range.2 fitted)))
  have queue : t.queue c = (m.chosen e).queue c := by
    unfold Device.queue
    rw [reqs]
  have idleIff : idle ↔ (m.chosen e).idle c = true := by
    rw [Device.idle_iff, ← queue]
    simp only [idle, record]
    exact Iff.rfl
  have kept : ((m.chosen e).channel c).idleTimer = (m.channel c).idleTimer := m.idleKept_chosen e c
  refine ⟨fun isIdle u set => ?_, fun isIdle unset => ?_, fun busy => ?_⟩
  · rw [record, idleIff.1 isIdle]
    change (if ((m.chosen e).channel c).idleTimer = none ∧ 0 < ((m.chosen e).channel c).parkMs then _
      else ((m.chosen e).channel c).idleTimer) = _
    rw [kept, set]
    exact if_neg nofun
  · rw [record, idleIff.1 isIdle]
    change (if ((m.chosen e).channel c).idleTimer = none ∧ 0 < ((m.chosen e).channel c).parkMs then _ else _) =
      if ((m.chosen e).channel c).parkMs = 0 then _ else _
    rw [kept]
    by_cases parks : ((m.chosen e).channel c).parkMs = 0
    · rw [if_neg fun h => absurd parks (Nat.ne_of_gt h.2), if_pos parks, unset]
    · rw [if_pos ⟨unset, Nat.pos_of_ne_zero parks⟩, if_neg parks]
      rfl
  · rw [record, Bool.eq_false_iff.2 fun h => busy (idleIff.2 h)]
    rfl

end Sys2Proof.Machine
end

section
/-! PROOFS. Faults, timeouts, park and wake, and the timers of a channel (chapters 6 and 7). -/

namespace Sys2Proof.Machine

theorem Table.numbers_nodup {α : Type} [DecidableEq α] {d : α} {t : Table α} (wf : Table.wf d t = true) :
    (t.map (·.1)).Nodup := by
  have rising := ((Table.wf_iff t).1 wf).1
  exact (List.pairwise_map.2 rising).imp fun less => Nat.ne_of_lt less

/-! ### Slots that a fault fails -/

/-- Slot `n` is FILLING and has a queued or an unissued segment on channel `c` (R112). -/
def Device.failsOn (m : Device) (c n : Nat) : Bool :=
  decide ((m.slot n).state = .filling) &&
    (m.slot n).segs.any fun g => decide (g.channel = c ∧ (g.status = .queued ∨ g.status = .unissued))

/-- Slot `n` fails by a fault of channel `c` and is counted (R112). -/
def Device.failOne (c n : Nat) (m : Device) : Device :=
  (m.onChannel c (·.countFailure .channelFault)).failSlot n .channelFault

theorem Device.failsOn_iff (m : Device) (c n : Nat) :
    m.failsOn c n = true ↔ (m.slot n).state = .filling ∧ ((m.slot n).segs.any fun g => decide (g.channel = c) &&
      (decide (g.status = .queued) || decide (g.status = .unissued))) = true := by
  rw [Device.failsOn, Bool.and_eq_true, decide_eq_true_eq]
  simp only [Bool.decide_and, Bool.decide_or]

theorem Device.failQueue_eq (c : Nat) (m : Device) :
    m.failQueue c = (m.slots.map (·.1)).foldl (fun t n => if t.failsOn c n = true then t.failOne c n else t) m := by
  refine congrArg (fun f => (m.slots.map (·.1)).foldl f m) (funext fun t => funext fun n => ?_)
  exact if_congr (t.failsOn_iff c n).symm rfl rfl

/-- A slot that has failed by a fault of a channel, its waiting segments withdrawn (R112). -/
def Slot.faulted (x : Slot) : Slot := { x.withdrawn with state := .failed, cause := some .channelFault }

theorem Segment.withdrawn_withdrawn (g : Segment) : g.withdrawn.withdrawn = g.withdrawn := by
  unfold Segment.withdrawn
  by_cases waits : g.status = .unissued ∨ g.status = .queued
  · rw [if_pos waits]
    exact if_neg (by simp)
  · rw [if_neg waits, if_neg waits]

theorem Slot.faulted_faulted (x : Slot) : x.faulted.faulted = x.faulted := by
  simp only [Slot.faulted, Slot.withdrawn, List.map_map]
  congr 1
  exact List.map_congr_left fun g _ => g.withdrawn_withdrawn

/-! ### What a fault makes of channels -/

/-- A channel whose count of final failures by faults has risen by `k`. -/
def Channel.failedTimes (x : Channel) (k : Nat) : Channel :=
  { x with failedChannel := if k = 0 then x.failedChannel else (x.failedChannel + k) % 4294967296 }

theorem Channel.failedTimes_zero (x : Channel) : x.failedTimes 0 = x := rfl

theorem Channel.failedTimes_add (x : Channel) (j k : Nat) : (x.failedTimes j).failedTimes k = x.failedTimes (j + k) := by
  have count : (if k = 0 then (if j = 0 then x.failedChannel else (x.failedChannel + j) % 4294967296)
      else ((if j = 0 then x.failedChannel else (x.failedChannel + j) % 4294967296) + k) % 4294967296) =
      if j + k = 0 then x.failedChannel else (x.failedChannel + (j + k)) % 4294967296 := by
    rcases Nat.eq_zero_or_pos j with rfl | first
    · simp
    · rcases Nat.eq_zero_or_pos k with rfl | second
      · simp
      · rw [if_neg (by omega), if_neg (by omega), if_neg (by omega)]
        omega
  exact congrArg (fun f => { x with failedChannel := f }) count

/-- Between the two parts `k` slots have failed by a fault of channel `c`: the channel counts them, recheck timers may
be unset, and ports are as they were. -/
structure Device.Counts (c k : Nat) (m t : Device) : Prop where
  channel : ∀ j, t.channel j =
    { (if j = c then (m.channel j).failedTimes k else m.channel j) with recheck := (t.channel j).recheck }
  recheck : ∀ j, (t.channel j).recheck = (m.channel j).recheck ∨ (t.channel j).recheck = none
  port : ∀ p, t.port p = m.port p

section Counts
variable {c : Nat} {m t u : Device}

theorem Device.Counts.refl (c : Nat) (m : Device) : m.Counts c 0 m :=
  ⟨fun j => by rw [Channel.failedTimes_zero, ite_self], fun _ => .inl rfl, fun _ => rfl⟩

theorem Device.Counts.trans {j k : Nat} (h : m.Counts c j t) (g : t.Counts c k u) : m.Counts c (j + k) u := by
  refine ⟨fun i => ?_, fun i => ?_, fun p => (g.port p).trans (h.port p)⟩
  · have first := h.channel i
    have second := g.channel i
    by_cases here : i = c
    · rw [if_pos here] at first second ⊢
      rw [← Channel.failedTimes_add]
      exact second.trans (congrArg (fun x : Channel => { x.failedTimes k with recheck := (u.channel i).recheck }) first)
    · rw [if_neg here] at first second ⊢
      exact second.trans (congrArg (fun x : Channel => { x with recheck := (u.channel i).recheck }) first)
  · rcases g.recheck i with same | unset
    · exact (h.recheck i).imp same.trans same.trans
    · exact .inr unset

theorem Device.failSlot_channels (n : Nat) (cause : Cause) (m : Device) :
    (m.failSlot n cause).channels = (m.withdraw n).channels := by
  unfold Device.failSlot
  rw [Device.setEntries_frame]
  rfl

theorem Device.failSlot_port (n : Nat) (cause : Cause) (m : Device) (p : Head) :
    (m.failSlot n cause).port p = m.port p := by
  have withdrawn : (m.withdraw n).port p = m.port p := by rw [m.withdraw_frame n]; cases p <;> rfl
  rw [← withdrawn]
  unfold Device.failSlot
  rw [Device.setEntries_frame]
  cases p <;> rfl

theorem Device.failOne_counts (c n : Nat) (m : Device) : m.Counts c 1 (m.failOne c n) := by
  have counted (j : Nat) : (m.onChannel c (·.countFailure .channelFault)).channel j =
      if j = c then (m.channel j).failedTimes 1 else m.channel j := by
    rw [Device.onChannel, Device.channel_setChannel]
    split
    · rename_i here
      rw [here]
      rfl
    · rfl
  have channel (j : Nat) : (m.failOne c n).channel j =
      ((m.onChannel c (·.countFailure .channelFault)).withdraw n).channel j :=
    congrArg (Table.get Channel.reset · j) (Device.failSlot_channels ..)
  refine ⟨fun j => ?_, fun j => ?_, fun p => ?_⟩
  · rw [channel, Device.withdraw_channel, counted]
    split <;> rfl
  · rw [channel, Device.withdraw_channel, counted]
    split
    · exact .inr rfl
    · split <;> exact .inl rfl
  · refine (Device.failSlot_port ..).trans ?_
    cases p <;> rfl

theorem Device.failQueue_counts (c : Nat) (m : Device) : ∃ k, m.Counts c k (m.failQueue c) := by
  rw [Device.failQueue_eq]
  refine foldl_keeps (I := fun t => ∃ k, m.Counts c k t) (fun t n ⟨k, counts⟩ => ?_) _ m ⟨0, .refl c m⟩
  split
  · exact ⟨k + 1, counts.trans (t.failOne_counts c n)⟩
  · exact ⟨k, counts⟩

end Counts

/-! ### What a fault makes of the tables -/

/-- A window entry after the slots listed have failed (R92). -/
def WinEntry.failedOn (w : WinEntry) (l : List Nat) : WinEntry :=
  if (w.slot.any fun j => decide (j ∈ l)) = true then { w with state := .failed } else w

theorem WinEntry.failedOn_slot (w : WinEntry) (l : List Nat) : (w.failedOn l).slot = w.slot := by
  unfold WinEntry.failedOn
  split <;> rfl

theorem WinEntry.failedOn_append (w : WinEntry) (l l' : List Nat) : (w.failedOn l).failedOn l' = w.failedOn (l ++ l') := by
  have both : (w.slot.any fun j => decide (j ∈ l ++ l')) =
      ((w.slot.any fun j => decide (j ∈ l)) || w.slot.any fun j => decide (j ∈ l')) := by
    cases w.slot <;> simp
  rw [WinEntry.failedOn, WinEntry.failedOn_slot, WinEntry.failedOn, WinEntry.failedOn, both]
  cases w.slot.any fun j => decide (j ∈ l) <;> cases w.slot.any fun j => decide (j ∈ l') <;> rfl

theorem exists_cons_eq {α : Type} {x : α} {l : List α} {P : α → Prop} :
    (∃ y ys, x :: l = y :: ys ∧ P y) ↔ P x :=
  ⟨fun ⟨_, _, eq, holds⟩ => by cases eq; exact holds, fun holds => ⟨x, l, rfl, holds⟩⟩

/-- The slots listed have failed by a fault of a channel (R112). -/
structure Device.Faulted (l : List Nat) (m t : Device) : Prop where
  slot : ∀ j, t.slot j = if j ∈ l then (m.slot j).faulted else m.slot j
  req : ∀ r, t.req r = if (m.req r).state = .queued ∧ (m.req r).slot ∈ l then Request.free else m.req r
  stream : ∀ k, t.stream k = { m.stream k with window := (m.stream k).window.map (·.failedOn l) }
  checks : ∀ k, k ∈ t.agenda.checks ↔ k ∈ m.agenda.checks ∨
    ∃ w ws, (m.stream k).window = w :: ws ∧ (w.slot.any fun j => decide (j ∈ l)) = true
  reqsWf : Table.wf Request.free t.reqs = true
  streamsWf : Table.wf StreamRec.reset t.streams = true

section Faulted
variable {l l' : List Nat} {m t u : Device}

theorem Device.Faulted.refl (reqs : Table.wf Request.free m.reqs = true)
    (streams : Table.wf StreamRec.reset m.streams = true) : m.Faulted [] m where
  slot j := (if_neg (by simp)).symm
  req r := (if_neg (by simp)).symm
  stream k := by
    have same : (m.stream k).window.map (·.failedOn []) = (m.stream k).window :=
      List.map_congr_left (fun w _ => if_neg (by cases w.slot <;> simp)) |>.trans (List.map_id _)
    rw [same]
  checks k := by
    refine (or_iff_left ?_).symm
    rintro ⟨w, ws, -, any⟩
    cases slot : w.slot <;> simp [slot] at any
  reqsWf := reqs
  streamsWf := streams

theorem Device.Faulted.trans (h : m.Faulted l t) (g : t.Faulted l' u) : m.Faulted (l ++ l') u where
  slot j := by
    rw [g.slot, h.slot]
    by_cases first : j ∈ l <;> by_cases second : j ∈ l' <;> simp [first, second, Slot.faulted_faulted]
  req r := by
    rw [g.req, h.req]
    by_cases gone : (m.req r).state = .queued ∧ (m.req r).slot ∈ l
    · rw [if_pos gone, ite_self, if_pos ⟨gone.1, List.mem_append_left _ gone.2⟩]
    · rw [if_neg gone]
      refine if_congr (and_congr_right fun queued => ?_) rfl rfl
      rw [List.mem_append, or_iff_right fun mem => gone ⟨queued, mem⟩]
  stream k := by
    rw [g.stream, h.stream]
    simp only [List.map_map]
    congr 1
    exact List.map_congr_left fun w _ => w.failedOn_append l l'
  checks k := by
    rw [g.checks, h.checks, h.stream]
    cases window : (m.stream k).window with
    | nil => simp
    | cons w ws =>
      have both : (w.slot.any fun j => decide (j ∈ l ++ l')) = true ↔
          (w.slot.any fun j => decide (j ∈ l)) = true ∨ (w.slot.any fun j => decide (j ∈ l')) = true := by
        cases w.slot <;> simp
      rw [List.map_cons, exists_cons_eq, exists_cons_eq, exists_cons_eq, WinEntry.failedOn_slot, both, or_assoc]
  reqsWf := g.reqsWf
  streamsWf := g.streamsWf

theorem Device.failOne_faulted (c n : Nat) (reqs : Table.wf Request.free m.reqs = true)
    (streams : Table.wf StreamRec.reset m.streams = true) : m.Faulted [n] (m.failOne c n) := by
  have marks : m.Marks n (fun w => { w with state := .failed }) (m.failOne c n) :=
    Device.failSlot_marks n .channelFault streams rfl rfl
  have table : (m.failOne c n).reqs = ((m.onChannel c (·.countFailure .channelFault)).withdraw n).reqs :=
    Device.failSlot_reqs ..
  have any (o : Option Nat) : (o.any fun j => decide (j ∈ [n])) = true ↔ o = some n := by cases o <;> simp
  refine ⟨fun j => ?_, fun r => ?_, fun k => ?_, fun k => ?_, ?_, ?_⟩
  · refine (Device.failSlot_slot ..).trans (if_ctx_congr List.mem_singleton.symm (fun here => ?_) fun _ => rfl)
    rw [List.mem_singleton.1 here]
    rfl
  · refine (congrArg (Table.get Request.free · r) table).trans ((Device.withdraw_req_eq (m := m.onChannel c _) reqs r).trans ?_)
    exact if_congr (and_congr_right fun _ => List.mem_singleton.symm) rfl rfl
  · rw [marks.stream, StreamRec.mark]
    refine congrArg (fun v => { m.stream k with window := v }) (List.map_congr_left fun w _ => ?_)
    exact if_congr (any w.slot).symm rfl rfl
  · rw [marks.checks, StreamRec.headPins]
    simp only [any]
  · rw [table, Device.withdraw_frame]
    exact Device.waitingGone_wf reqs
  · unfold Device.failOne Device.failSlot
    refine Device.setEntries_wf _ _ _ ?_
    change Table.wf StreamRec.reset ((m.onChannel c (·.countFailure .channelFault)).withdraw n).streams = true
    rw [Device.withdraw_frame]
    exact streams

/-- The slots that a fault of channel `c` fails, ascending. -/
def Device.failing (m : Device) (c : Nat) : List Nat := (m.slots.map (·.1)).filter (m.failsOn c)

/-- That a slot fails does not depend on the others that have failed. -/
theorem foldl_failOne_filter (c : Nat) (F : Nat → Bool) (l : List Nat) (nodup : l.Nodup) (m : Device)
    (same : ∀ j ∈ l, m.failsOn c j = F j) :
    l.foldl (fun t n => if t.failsOn c n = true then t.failOne c n else t) m =
      (l.filter F).foldl (fun t n => t.failOne c n) m := by
  induction l generalizing m with
  | nil => rfl
  | cons n l ih =>
    obtain ⟨fresh, rest⟩ := List.nodup_cons.1 nodup
    obtain ⟨now_, later⟩ := List.forall_mem_cons.1 same
    rw [List.foldl_cons, now_]
    by_cases fails : F n = true
    · rw [if_pos fails, List.filter_cons_of_pos fails, List.foldl_cons]
      refine ih rest _ fun j mem => ?_
      have kept : (m.failOne c n).slot j = m.slot j :=
        (Device.failSlot_slot ..).trans (if_neg fun eq : j = n => fresh (eq ▸ mem))
      rw [← later j mem, Device.failsOn, Device.failsOn, kept]
    · rw [if_neg fails, List.filter_cons_of_neg fails]
      exact ih rest m later

theorem Device.failQueue_filter (c : Nat) (m : Device) (slots : Table.wf Slot.free m.slots = true) :
    m.failQueue c = (m.failing c).foldl (fun t n => t.failOne c n) m := by
  rw [Device.failQueue_eq]
  exact foldl_failOne_filter c (m.failsOn c) _ (Table.numbers_nodup slots) m fun _ _ => rfl

theorem foldl_failOne (c : Nat) (l : List Nat) (m : Device) (reqs : Table.wf Request.free m.reqs = true)
    (streams : Table.wf StreamRec.reset m.streams = true) :
    m.Faulted l (l.foldl (fun t n => t.failOne c n) m) ∧
      m.Counts c l.length (l.foldl (fun t n => t.failOne c n) m) := by
  induction l generalizing m with
  | nil => exact ⟨.refl reqs streams, .refl c m⟩
  | cons n l ih =>
    have one := m.failOne_faulted c n reqs streams
    obtain ⟨faulted, counts⟩ := ih (m.failOne c n) one.reqsWf one.streamsWf
    refine ⟨one.trans faulted, ?_⟩
    rw [List.length_cons, Nat.add_comm]
    exact (m.failOne_counts c n).trans counts

theorem Device.mem_failing (c : Nat) (m : Device) (n : Nat) : n ∈ m.failing c ↔ m.failsOn c n = true := by
  refine List.mem_filter.trans (and_iff_right_of_imp fun fails => ?_)
  refine List.mem_map.2 ⟨(n, m.slot n), (Table.get_mem_or m.slots n).resolve_left fun unlisted => ?_, rfl⟩
  have filling := ((m.failsOn_iff c n).1 fails).1
  rw [show m.slot n = Slot.free from unlisted] at filling
  cases filling

theorem Device.length_failing (c : Nat) (m : Device) :
    (m.failing c).length = m.slots.countP fun e => m.failsOn c e.1 := by
  rw [Device.failing, ← List.countP_eq_length_filter, List.countP_map]
  rfl

end Faulted

end Sys2Proof.Machine
end

section
/-! PROOFS. The fault of a channel, its timeouts, park and wake, and its timers (chapter 7). -/

namespace Sys2Proof.Machine

/-! ### What a fault begins with -/

/-- The tables that the end of a characterisation and a raised event leave. -/
structure Device.TablesSame (m t : Device) : Prop where
  slots : t.slots = m.slots
  reqs : t.reqs = m.reqs
  streams : t.streams = m.streams
  checks : t.agenda.checks = m.agenda.checks

theorem Device.TablesSame.trans {m t u : Device} (h : m.TablesSame t) (g : t.TablesSame u) : m.TablesSame u :=
  ⟨g.slots.trans h.slots, g.reqs.trans h.reqs, g.streams.trans h.streams, g.checks.trans h.checks⟩

theorem Device.onPort_tables (m : Device) (p : Head) (f : Port → Port) : m.TablesSame (m.onPort p f) := by
  cases p <;> exact ⟨rfl, rfl, rfl, rfl⟩

theorem Device.onPort_channels (m : Device) (p : Head) (f : Port → Port) : (m.onPort p f).channels = m.channels := by
  cases p <;> rfl

theorem Device.raiseBoth_tables (m : Device) (x : Source) : m.TablesSame (m.raiseBoth x) := ⟨rfl, rfl, rfl, rfl⟩

theorem Device.raiseBoth_channel (m : Device) (x : Source) (c : Nat) : (m.raiseBoth x).channel c = m.channel c := rfl

section EndChar
variable (m : Device) (c : Nat) (o : CharOutcome)

/-- The end of a characterisation before its completion (R131). -/
def Device.charEnded (x : Characterisation) : Device :=
  ((m.onChannel c (·.endChar x o)).raiseBoth .characterised).askChoice c

theorem Device.endChar_none (none_ : (m.channel c).char = none) : m.endChar c o = m := by rw [Device.endChar, none_]

theorem Device.endChar_some {x : Characterisation} (char : (m.channel c).char = some x) :
    m.endChar c o = m.charEnded c o x ∨
      ∃ y, m.endChar c o = (m.charEnded c o x).complete x.issuer y := by
  rw [Device.endChar, char]
  dsimp only
  split
  · exact .inl rfl
  · exact .inr ⟨_, rfl⟩

theorem Device.charEnded_tables (x : Characterisation) : m.TablesSame (m.charEnded c o x) := by
  have record (v : Channel) : m.TablesSame (m.setChannel c v) := ⟨rfl, rfl, rfl, rfl⟩
  have asked (t : Device) : t.TablesSame (t.askChoice c) := ⟨rfl, rfl, rfl, rfl⟩
  exact ((record _).trans (Device.raiseBoth_tables _ _)).trans (asked _)

theorem Device.endChar_tables : m.TablesSame (m.endChar c o) := by
  cases char : (m.channel c).char with
  | none =>
    rw [m.endChar_none c o char]
    exact ⟨rfl, rfl, rfl, rfl⟩
  | some x =>
    rcases m.endChar_some c o char with eq | ⟨y, eq⟩
    · rw [eq]
      exact m.charEnded_tables c o x
    · rw [eq, Device.complete]
      exact (m.charEnded_tables c o x).trans ((m.charEnded c o x).onPort_tables x.issuer _)

theorem Device.endChar_channel_other {j : Nat} (other : j ≠ c) : (m.endChar c o).channel j = m.channel j := by
  cases char : (m.channel c).char with
  | none => rw [m.endChar_none c o char]
  | some x =>
    have ended : (m.charEnded c o x).channel j = m.channel j := (m.channel_setChannel ..).trans (if_neg other)
    rcases m.endChar_some c o char with eq | ⟨y, eq⟩
    · rw [eq, ended]
    · rw [eq, ← ended, Device.complete]
      exact congrArg (Table.get Channel.reset · j) ((m.charEnded c o x).onPort_channels x.issuer _)

/-- A characterisation that a fault ends leaves no averages and no characterisation (R131; log 24). -/
theorem Device.endChar_faulted_channel :
    ∃ v w, (m.endChar c .faulted).channel c = { m.channel c with char := none, lastOutcome := v, lastAverages := w } := by
  cases char : (m.channel c).char with
  | none =>
    refine ⟨(m.channel c).lastOutcome, (m.channel c).lastAverages, ?_⟩
    rw [m.endChar_none c _ char, ← char]
  | some x =>
    have ended : (m.charEnded c .faulted x).channel c = { m.channel c with
        char := none, lastOutcome := some .faulted, lastAverages := none } := m.channel_setChannel_same c _
    refine ⟨some .faulted, none, ?_⟩
    rcases m.endChar_some c .faulted char with eq | ⟨y, eq⟩
    · rw [eq, ended]
    · rw [eq, ← ended, Device.complete]
      exact congrArg (Table.get Channel.reset · c) ((m.charEnded c .faulted x).onPort_channels x.issuer _)

theorem Device.endChar_ev (p : Head) :
    ((m.endChar c o).port p).ev =
      if (m.channel c).char = none then (m.port p).ev else (m.port p).ev.request1 7 := by
  cases char : (m.channel c).char with
  | none =>
    rw [m.endChar_none c o char]
    exact (if_pos rfl).symm
  | some x =>
    have ended : ((m.charEnded c o x).port p).ev = (m.port p).ev.request1 7 := by cases p <;> rfl
    rw [if_neg (by simp), ← ended]
    rcases m.endChar_some c o char with eq | ⟨y, eq⟩
    · rw [eq]
    · rw [eq, Device.complete]
      cases x.issuer <;> cases p <;> rfl

end EndChar

section Fault
variable (m : Device) (c : Nat) (why : FaultReason)

/-- The record of a channel as its fault leaves it, before its queue fails (R122). -/
def Channel.faultedBy (x : Channel) (why : FaultReason) : Channel :=
  { x with state := .faulted, fault := some why, idleTimer := none, parkGuard := none, wakeGuard := none,
           recheck := none }

/-- A fault before the channel's queue fails (R122). -/
def Device.faulting : Device :=
  ((m.setChannel c ((m.channel c).faultedBy why)).raiseBoth .channel).endChar c .faulted

theorem Device.fault_eq : m.fault c why = (m.faulting c why).failQueue c := rfl

theorem Device.faulting_tables : m.TablesSame (m.faulting c why) :=
  .trans (t := (m.setChannel c ((m.channel c).faultedBy why)).raiseBoth .channel) ⟨rfl, rfl, rfl, rfl⟩
    (Device.endChar_tables _ c _)

theorem Device.faulting_record (j : Nat) :
    ((m.setChannel c ((m.channel c).faultedBy why)).raiseBoth .channel).channel j =
      if j = c then (m.channel c).faultedBy why else m.channel j :=
  (Device.raiseBoth_channel _ _ _).trans (m.channel_setChannel ..)

theorem Device.faulting_channel_other {j : Nat} (other : j ≠ c) : (m.faulting c why).channel j = m.channel j :=
  (Device.endChar_channel_other _ c _ other).trans ((m.faulting_record c why j).trans (if_neg other))

theorem Device.faulting_channel :
    ∃ v w, (m.faulting c why).channel c =
      { (m.channel c).faultedBy why with char := none, lastOutcome := v, lastAverages := w } := by
  have record : ((m.setChannel c ((m.channel c).faultedBy why)).raiseBoth .channel).channel c =
      (m.channel c).faultedBy why := (m.faulting_record c why c).trans (if_pos rfl)
  obtain ⟨v, w, eq⟩ :=
    ((m.setChannel c ((m.channel c).faultedBy why)).raiseBoth .channel).endChar_faulted_channel c
  rw [record] at eq
  exact ⟨v, w, eq⟩

theorem Device.faulting_ev (p : Head) :
    ((m.faulting c why).port p).ev =
      if (m.channel c).char = none then (m.port p).ev.request1 1 else ((m.port p).ev.request1 1).request1 7 := by
  have record : ((m.setChannel c ((m.channel c).faultedBy why)).raiseBoth .channel).channel c =
      (m.channel c).faultedBy why := (m.faulting_record c why c).trans (if_pos rfl)
  have raised : (((m.setChannel c ((m.channel c).faultedBy why)).raiseBoth .channel).port p).ev =
      (m.port p).ev.request1 1 := by cases p <;> rfl
  rw [Device.faulting, Device.endChar_ev, record, raised]
  rfl

/-- What a fault leaves of its channel (R122). -/
theorem Device.fault_channel :
    let y := (m.fault c why).channel c
    y.state = .faulted ∧ y.fault = some why ∧ y.char = none ∧ y.idleTimer = none ∧ y.parkGuard = none ∧
      y.wakeGuard = none ∧ y.recheck = none := by
  intro y
  obtain ⟨k, counts⟩ := (m.faulting c why).failQueue_counts c
  obtain ⟨v, w, record⟩ := m.faulting_channel c why
  have eq : y = _ := counts.channel c
  rw [if_pos rfl, record] at eq
  have recheck : y.recheck = none := by
    rcases counts.recheck c with same | unset
    · exact same.trans (by rw [record]; rfl)
    · exact unset
  rw [eq]
  exact ⟨rfl, rfl, rfl, rfl, rfl, rfl, recheck⟩

end Fault

theorem Device.queue_eq_nil_iff {m : Device} (wf : Table.wf Request.free m.reqs = true) (c : Nat) :
    m.queue c = [] ↔ ∀ r, (m.req r).state = .queued → (m.req r).channel ≠ c := by
  rw [List.eq_nil_iff_forall_not_mem]
  constructor
  · exact fun empty r queued channel => empty (r, m.req r) ((Device.mem_queue wf c r _).2 ⟨rfl, queued, channel⟩)
  · rintro none_ ⟨r, q⟩ mem
    obtain ⟨-, queued, channel⟩ := (Device.mem_queue wf c r q).1 mem
    exact none_ r queued channel

/-- Whether a slot fails does not depend on more than the slots. -/
theorem Device.failsOn_congr {m t : Device} (slots : t.slots = m.slots) (c : Nat) : t.failsOn c = m.failsOn c := by
  unfold Device.failsOn Device.slot
  rw [slots]

/-- What a fault does to the tables, the channels and the ports (R112, R122). -/
theorem Device.fault_fails (m : Device) (c : Nat) (why : FaultReason)
    (streams : Table.wf StreamRec.reset m.streams = true) (slots : Table.wf Slot.free m.slots = true)
    (reqs : Table.wf Request.free m.reqs = true) :
    m.Faulted (m.failing c) (m.fault c why) ∧
      (m.faulting c why).Counts c (m.failing c).length (m.fault c why) := by
  have tables := m.faulting_tables c why
  have list : (m.faulting c why).failing c = m.failing c := by
    rw [Device.failing, Device.failing, Device.failsOn_congr tables.slots, tables.slots]
  rw [m.fault_eq c why, Device.failQueue_filter c _ (by rw [tables.slots]; exact slots), list]
  obtain ⟨faulted, counts⟩ := foldl_failOne c (m.failing c) (m.faulting c why) (by rw [tables.reqs]; exact reqs)
    (by rw [tables.streams]; exact streams)
  have slot (j : Nat) : (m.faulting c why).slot j = m.slot j := congrArg (Table.get Slot.free · j) tables.slots
  have req (r : Nat) : (m.faulting c why).req r = m.req r := congrArg (Table.get Request.free · r) tables.reqs
  have stream (k : Nat) : (m.faulting c why).stream k = m.stream k :=
    congrArg (Table.get StreamRec.reset · k) tables.streams
  refine ⟨⟨fun j => ?_, fun r => ?_, fun k => ?_, fun k => ?_, faulted.reqsWf, faulted.streamsWf⟩, counts⟩
  · rw [faulted.slot, slot]
  · rw [faulted.req, req]
  · rw [faulted.stream, stream]
  · rw [faulted.checks, stream, tables.checks]

/-! ### Timeouts -/

section Timeout
variable (m : Device) (c : Nat)

/-- A channel with a further timeout counted (R120). -/
def Channel.timedOut (x : Channel) : Channel :=
  { x with timeouts := (x.timeouts + 1) % 4294967296, consecutive := x.consecutive + 1 }

theorem Device.countTimeout_setChannel (x : Channel) :
    (m.setChannel c x).countTimeout c =
      if x.state ≠ .faulted ∧ 2 ≤ x.consecutive then (m.setChannel c x.timedOut).fault c .timeouts
      else m.setChannel c x.timedOut := by
  have third : 3 ≤ x.consecutive + 1 ↔ 2 ≤ x.consecutive := by omega
  unfold Device.countTimeout
  dsimp only
  rw [Device.onChannel_setChannel, Device.channel_setChannel_same]
  exact if_congr (and_congr_right fun _ => third) rfl rfl

theorem Device.countTimeout_eq :
    m.countTimeout c =
      if (m.channel c).state ≠ .faulted ∧ 2 ≤ (m.channel c).consecutive then
        (m.setChannel c (m.channel c).timedOut).fault c .timeouts
      else m.setChannel c (m.channel c).timedOut := by
  have third : 3 ≤ (m.channel c).consecutive + 1 ↔ 2 ≤ (m.channel c).consecutive := by omega
  unfold Device.countTimeout
  dsimp only
  rw [Device.onChannel, Device.channel_setChannel_same]
  exact if_congr (and_congr_right fun _ => third) rfl rfl

/-- A message sent beside a change of the channel: the change and the sending may change places. -/
theorem Device.send_setChannel (x : Channel) (y : LinkMessage) (same : x.link = (m.channel c).link) :
    (m.setChannel c x).send c y =
      (if (m.channel c).link = true then m.emit (.link c y.bytes) else m).setChannel c x := by
  rw [Device.send_eq, Device.channel_setChannel_same, same]
  split <;> rfl

variable (now : Time) {y : Characterisation}

/-- A channel whose probe is given up, before the timeout is counted (R130). -/
def Channel.probeGivenUp (x : Channel) (now : Time) (y : Characterisation) : Channel :=
  { x with char := some { y with phase := .settling (now + Config.sec) } }

theorem Device.probeGivenUp_count :
    let x := (m.channel c).probeGivenUp now y
    let sent := if (m.channel c).link = true then m.emit (.link c [0x04#8, 0#8]) else m
    ((m.setChannel c x).send c (.abort 0)).countTimeout c =
      if x.state ≠ .faulted ∧ 2 ≤ x.consecutive then (sent.setChannel c x.timedOut).fault c .timeouts
      else sent.setChannel c x.timedOut := by
  intro x sent
  rw [m.send_setChannel c x (.abort 0) rfl, Device.countTimeout_setChannel]
  rfl

/-- A probe that is given up: its tag aborts where the count of the timeout faulted the channel (R120, R130). -/
theorem Device.probeTimedOut_counted :
    m.probeTimedOut now c y =
      let t := ((m.setChannel c ((m.channel c).probeGivenUp now y)).send c (.abort 0)).countTimeout c
      if (t.channel c).state = .faulted then t.onChannel c fun ch => ch.setTag 0 (.aborting (now + Config.sec))
      else t := rfl

theorem Device.probeTimedOut_eq (alive : (m.channel c).state ≠ .faulted) :
    let x := (m.channel c).probeGivenUp now y
    let sent := if (m.channel c).link = true then m.emit (.link c [0x04#8, 0#8]) else m
    (x.consecutive < 2 → m.probeTimedOut now c y = sent.setChannel c x.timedOut) ∧
    (2 ≤ x.consecutive → m.probeTimedOut now c y =
      ((sent.setChannel c x.timedOut).fault c .timeouts).onChannel c fun ch =>
        ch.setTag 0 (.aborting (now + Config.sec))) := by
  intro x sent
  have count := m.probeGivenUp_count c now (y := y)
  refine ⟨fun few => ?_, fun third => ?_⟩
  · have counted := count.trans (if_neg fun h => Nat.not_le.2 few h.2)
    have state : ((sent.setChannel c x.timedOut).channel c).state ≠ .faulted := by
      rw [Device.channel_setChannel_same]
      exact alive
    rw [Device.probeTimedOut_counted, counted]
    exact if_neg state
  · have counted := count.trans (if_pos ⟨alive, third⟩)
    have state := ((sent.setChannel c x.timedOut).fault_channel c .timeouts).1
    rw [Device.probeTimedOut_counted, counted]
    exact if_pos state

end Timeout

/-! ### Rows -/

section Rows
variable {s : State} {c : Fin 8}

theorem exec_probeTimeout {y : Characterisation} {at_ u : Time} {next : Nat}
    (char : (s.part.channel c).char = some y) (probing : y.phase = .probing at_ next u) (reached : u ≤ s.env.now) :
    exec (.probeTimeout c) s = s.ends (s.part.begin_.probeTimedOut s.env.now c y) := by
  change execProbeTimeout c s = _
  rw [execProbeTimeout, char]
  dsimp only
  rw [probing]
  exact if_pos reached

theorem exec_settlingGuardExpiry {y : Characterisation} {u : Time} (char : (s.part.channel c).char = some y)
    (settling : y.phase = .settling u) (reached : u ≤ s.env.now) :
    exec (.settlingGuardExpiry c) s = s.ends ((s.part.begin_.countTimeout c).endChar c .probeTimeout) := by
  change execSettlingGuardExpiry c s = _
  rw [execSettlingGuardExpiry, char]
  dsimp only
  rw [settling]
  exact if_pos reached

end Rows

section Park
variable {m : Device} {c : Nat} (now : Time)

theorem Device.parked_empty (parking : (m.channel c).state = .parking) (empty : m.queue c = []) :
    m.parked now c = m.setChannel c { m.channel c with state := .parked, parkGuard := none } :=
  (if_pos parking).trans (if_pos (by rw [List.isEmpty_iff]; exact empty))

/-- A channel to which WAKE was sent (R125). -/
def Channel.wokenAt (x : Channel) (now : Time) : Channel :=
  { x with state := .waking, parkGuard := none, wakeSent := now, wakeGuard := some (now + 30000000000) }

theorem Device.parked_queued (parking : (m.channel c).state = .parking) (queued : m.queue c ≠ [])
    (up : (m.channel c).link = true) :
    m.parked now c = (m.setChannel c ((m.channel c).wokenAt now)).emit (.link c [0x08#8]) := by
  have sent : (m.setChannel c ((m.channel c).wokenAt now)).send c .wake =
      (m.setChannel c ((m.channel c).wokenAt now)).emit (.link c [0x08#8]) :=
    (m.send_setChannel c ((m.channel c).wokenAt now) .wake rfl).trans (by rw [if_pos up]; rfl)
  refine (if_pos parking).trans ((if_neg (by rw [List.isEmpty_iff]; exact queued)).trans ?_)
  rw [Device.wake, Device.onChannel.eq_def m, Device.onChannel_setChannel]
  exact sent

/-- The record of a channel to which PARK was sent (R124). -/
def Channel.parkSent (x : Channel) (now : Time) : Channel :=
  { x with state := .parking, idleTimer := none, parkGuard := some (now + 30000000000) }

theorem Device.idleExpired_eq (m : Device) (c : Nat) :
    m.idleExpired now c =
      if (m.channel c).link = true then
        (m.setChannel c ((m.channel c).parkSent now)).emit (.link c [0x06#8])
      else m.setChannel c ((m.channel c).parkSent now) := by
  refine (m.send_setChannel c ((m.channel c).parkSent now) .park rfl).trans ?_
  split <;> rfl

end Park

/-- Settles O60, from what a fault does, the count of timeouts, and the effect of each message and timer. -/
theorem powerAndTimers : Obligations.PowerAndTimers := by
  unfold Obligations.PowerAndTimers
  refine ⟨fun m c => ?_, fun s c => ?_, fun m c why streams slots reqs => ?_,
    fun m e c fitted => m.settle_idleTimer e fitted⟩
  · refine ⟨fun few => (m.countTimeout_eq c).trans (if_neg ?_),
      fun alive third => (m.countTimeout_eq c).trans (if_pos ⟨alive, third⟩)⟩
    rintro ⟨alive, third⟩
    exact few.elim alive (Nat.not_lt.2 third)
  · intro now x b stray sent
    have record : b.channel c = x := rfl
    refine ⟨fun _ down => ⟨State.onLink_down _ down, State.onLink_down _ down⟩, fun fitted up => ?_,
      fun u set reached => ?_, fun u set reached => if_pos (due_some set reached),
      fun u set reached => if_pos (due_some set reached), fun u set reached => if_pos (due_some set reached),
      fun alive y u char reached => ?_, fun why => b.fault_channel c why⟩
    · have parked : exec (.parked c) s = s.ends (b.parked now c) := State.onLink_up _ fitted up
      have awake : exec (.awake c) s = s.ends (b.awake now c) := State.onLink_up _ fitted up
      exact ⟨fun other => parked.trans (congrArg s.ends (if_neg other)),
        fun parking empty => parked.trans (congrArg s.ends (Device.parked_empty now parking empty)),
        fun parking queued => parked.trans (congrArg s.ends (Device.parked_queued now parking queued up)),
        fun other => awake.trans (congrArg s.ends (if_neg other)),
        fun waking => awake.trans (congrArg s.ends (if_pos waking))⟩
    · refine (if_pos (due_some set reached)).trans (congrArg s.ends ?_)
      exact b.idleExpired_eq now c
    · intro counted settles
      refine ⟨fun at_ next probing => ?_, fun settling => ?_⟩
      · have run := exec_probeTimeout char probing reached
        obtain ⟨few, third⟩ := b.probeTimedOut_eq c now (y := y) alive
        exact ⟨fun h => run.trans (congrArg s.ends (few h)), fun h => run.trans (congrArg s.ends (third h))⟩
      · have run := exec_settlingGuardExpiry char settling reached
        have counts : counted y = x.timedOut := by
          change { x with char := some y, timeouts := _, consecutive := _ } = _
          rw [← char]
          rfl
        rw [Device.countTimeout_eq, show b.channel c = x from rfl, ← counts] at run
        refine ⟨fun few => ?_, fun third => ?_⟩
        · rw [run, if_neg fun h => Nat.not_le.2 few h.2]
        · rw [run, if_pos ⟨alive, third⟩, Device.endChar_none _ _ _ (Device.fault_channel _ c .timeouts).2.2.1]
  · intro x t fails count
    obtain ⟨faulted, counts⟩ := m.fault_fails c why streams slots reqs
    have listed : (fun j => decide (j ∈ m.failing c)) = fails := funext fun j => by
      rw [Bool.eq_iff_iff, decide_eq_true_iff]
      exact m.mem_failing c j
    have mem (j : Nat) : j ∈ m.failing c ↔ fails j = true := m.mem_failing c j
    have length : (m.failing c).length = count := m.length_failing c
    obtain ⟨v, w, record⟩ := m.faulting_channel c why
    refine ⟨fun n fail => ?_, fun n keeps => ?_, fun r => ?_, ?_, fun k => ?_, fun k => ?_, ?_, fun j other => ?_,
      fun p => ?_⟩
    · exact (faulted.slot n).trans (if_pos ((mem n).2 fail))
    · exact (faulted.slot n).trans (if_neg fun h => by rw [(mem n).1 h] at keeps; cases keeps)
    · exact (faulted.req r).trans (if_congr (and_congr_right fun _ => mem _) rfl rfl)
    · rw [Device.queue_eq_nil_iff faulted.reqsWf]
      refine forall_congr' fun r => ?_
      rw [faulted.req]
      by_cases gone : (m.req r).state = .queued ∧ (m.req r).slot ∈ m.failing c
      · rw [if_pos gone]
        exact ⟨fun _ _ _ => (mem _).1 gone.2, fun _ free => nomatch free⟩
      · rw [if_neg gone]
        exact forall_congr' fun queued => ⟨fun h channel => absurd channel h,
          fun h channel => gone ⟨queued, (mem _).2 (h channel)⟩⟩
    · rw [show t.stream k = _ from faulted.stream k]
      unfold WinEntry.failedOn
      rw [listed]
    · rw [faulted.checks, listed]
    · have eq := counts.channel c
      rw [if_pos rfl, record, length] at eq
      exact congrArg Channel.failedChannel eq
    · have eq := counts.channel j
      rw [if_neg other, m.faulting_channel_other c why other] at eq
      exact eq
    · rw [← m.faulting_ev c why p]
      exact congrArg Port.ev (counts.port p)

end Sys2Proof.Machine
end

section
/-! PROOFS. The pass of a stream and its stages (chapter 4; R56–R58, R142). -/

namespace Sys2Proof.Machine

/-! ### The stream whose pass is taken -/

/-- The order of flagged streams (R56). -/
def passBefore (x y : Nat × StreamRec) : Bool :=
  decide (x.2.seat < y.2.seat) || (decide (x.2.seat = y.2.seat) && decide (x.1 < y.1))

theorem passBefore_iff (x y : Nat × StreamRec) :
    passBefore x y = true ↔ x.2.seat < y.2.seat ∨ (x.2.seat = y.2.seat ∧ x.1 < y.1) := by
  simp [passBefore]

theorem passBefore_eq_false (x y : Nat × StreamRec) :
    passBefore x y = false ↔ y.2.seat < x.2.seat ∨ (y.2.seat = x.2.seat ∧ y.1 ≤ x.1) := by
  rw [Bool.eq_false_iff, Ne, passBefore_iff]
  omega

theorem passBefore_order : StrictWeak passBefore where
  irrefl x := by
    rw [passBefore_eq_false]
    omega
  asymm x y h := by
    rw [passBefore_iff] at h
    rw [passBefore_eq_false]
    omega
  trans x y z h h' := by
    rw [passBefore_eq_false] at h h' ⊢
    omega

theorem Device.flagged_eq {m : Device} (wf : Table.wf StreamRec.reset m.streams = true) {k : Nat}
    (flag : (m.stream k).passPending = true)
    (first : ∀ j, (m.stream j).passPending = true → (m.stream k).seat < (m.stream j).seat ∨
      ((m.stream k).seat = (m.stream j).seat ∧ k ≤ j)) : m.flagged = some k := by
  have listed {e : Nat × StreamRec} (mem : e ∈ m.streams.filter fun e => e.2.passPending) :
      e ∈ m.streams ∧ e = (e.1, m.stream e.1) ∧ e.2.passPending = true := by
    obtain ⟨mem, flag⟩ := List.mem_filter.1 mem
    exact ⟨mem, Prod.ext rfl (Table.get_of_mem _ wf e mem).symm, flag⟩
  have chosen : least passBefore (m.streams.filter fun e => e.2.passPending) = some (k, m.stream k) := by
    rw [least_eq_some_iff passBefore_order]
    · refine ⟨List.mem_filter.2 ⟨(Table.get_mem_or m.streams k).resolve_left fun unlisted => ?_, flag⟩,
        fun y mem => ?_⟩
      · rw [show m.stream k = StreamRec.reset from unlisted] at flag
        cases flag
      · obtain ⟨-, record, flag⟩ := listed mem
        rw [record] at flag ⊢
        exact (passBefore_eq_false _ _).2 (first _ flag)
    · intro x mem y mem' notBefore notBefore'
      obtain ⟨-, record, -⟩ := listed mem
      obtain ⟨-, record', -⟩ := listed mem'
      rw [passBefore_eq_false] at notBefore notBefore'
      rw [record, record', show x.1 = y.1 by omega]
  exact congrArg (Option.map (·.1)) chosen

theorem exec_deadlinePass {s : State} {k : Nat} (flagged : s.part.flagged = some k) :
    exec .deadlinePass s = s.ends (s.part.begin_.pass s.env k) := by
  change execDeadlinePass s = _
  rw [execDeadlinePass, flagged]
  rfl

/-! ### The stages of a pass -/

section Stages
variable (m : Device) (e : Env) (k : Nat)

/-- A stream's record without its pass flag (R57). -/
def StreamRec.passTaken (x : StreamRec) : StreamRec := { x with passPending := false }

theorem Device.pass_none (state : (m.stream k).state = .closed ∨ (m.stream k).state = .closing) :
    m.pass e k = m.setStream k (m.stream k).passTaken := by
  have cleared : ((m.setStream k (m.stream k).passTaken).stream k).state = (m.stream k).state := by
    rw [Device.stream_setStream_same]
    rfl
  unfold Device.pass Device.onStream
  dsimp only
  split
  · rfl
  · rfl
  · rename_i closed closing
    rcases state with state | state
    · exact absurd (cleared.trans state) closed
    · exact absurd (cleared.trans state) closing

/-- The targets without a kept entry are those that no entry of the old window holds with their clip frame (R59). -/
theorem StreamRec.newTargets_kept (x : StreamRec) :
    ({ x with window := x.window.filter x.keeps } : StreamRec).newTargets =
      x.targets.filter fun u => !x.window.any fun w => decide (w.u = u ∧ w.frame = x.clipFrame u) := by
  refine List.filter_congr fun u target => congrArg Bool.not ?_
  rw [List.any_filter]
  refine congrArg (List.any x.window) (funext fun w => ?_)
  rw [Bool.eq_iff_iff, Bool.and_eq_true, x.keeps_iff, decide_eq_true_iff, decide_eq_true_iff]
  constructor
  · rintro ⟨⟨-, frame⟩, rfl⟩
    exact ⟨rfl, frame.symm⟩
  · rintro ⟨rfl, frame⟩
    exact ⟨⟨target, frame.symm⟩, rfl⟩

theorem Device.pass_eq (closed : (m.stream k).state ≠ .closed) (closing : (m.stream k).state ≠ .closing) :
    let b := (m.setStream k (m.stream k).passTaken).pastLoop e.now k (m.stream k).pastFrames
    let y := b.stream k
    m.pass e k = (b.rebuild e k).placeAndCheck e k
      (y.targets.filter fun u => !y.window.any fun w => decide (w.u = u ∧ w.frame = y.clipFrame u)) := by
  intro b y
  have record : (m.setStream k (m.stream k).passTaken).stream k = (m.stream k).passTaken :=
    m.stream_setStream_same k _
  have given : (m.setStream k { m.stream k with passPending := false }).pastLoop e.now k
      ((m.setStream k { m.stream k with passPending := false }).stream k).pastFrames = b := by
    rw [Device.stream_setStream_same]
    rfl
  unfold Device.pass Device.onStream
  dsimp only
  rw [given]
  split
  · rename_i state
    exact absurd ((congrArg StreamRec.state record).symm.trans state) closed
  · rename_i state
    exact absurd ((congrArg StreamRec.state record).symm.trans state) closing
  · rw [b.dropEntries_stream, StreamRec.newTargets_kept]

end Stages

/-! ### The frames that are PAST -/

theorem StreamRec.display_past_iff (x : StreamRec) :
    x.display x.n = .past ↔ x.s ≠ 0 ∧ (x.n * 65536 - x.f0q) * x.s.sign < 0 := by
  rw [← not_iff_not, ← Ne, x.display_ne_past_iff]
  omega

theorem StreamRec.frameN_eq (x : StreamRec) :
    x.frameN = (if x.loop = true then (x.inPoint : Int) + (x.n - x.inPoint) % (x.outPoint - x.inPoint + 1)
      else max (x.inPoint : Int) (min x.n x.outPoint)).toNat := by
  refine congrArg Int.toNat ?_
  rw [StreamRec.mapFrame, StreamRec.rangeLength, clampInt]
  split
  · rename_i inside
    obtain ⟨low, high⟩ : (x.inPoint : Int) ≤ x.n ∧ x.n ≤ x.outPoint := by simpa [StreamRec.inRange] using inside
    split
    · rw [Int.emod_eq_of_lt (by omega) (by omega)]
      omega
    · omega
  · rfl

section Past
variable (m : Device) (now : Time) (k : Nat)

theorem Device.dropEntries_one (keep : WinEntry → Bool) {l r : List WinEntry} {w : WinEntry}
    (window : (m.stream k).window = l ++ w :: r) (gone : keep w = false) (kept : ∀ v ∈ l ++ r, keep v = true) :
    m.dropEntries now k keep =
      (m.setStream k { m.stream k with window := l ++ r }).releasePin now w.slot := by
  have keptL (v) (mem : v ∈ l) : keep v = true := kept v (List.mem_append_left _ mem)
  have keptR (v) (mem : v ∈ r) : keep v = true := kept v (List.mem_append_right _ mem)
  have out : (m.stream k).window.filter (fun v => !keep v) = [w] := by
    rw [window, List.filter_append, List.filter_cons_of_pos (by rw [gone]; rfl),
      List.filter_eq_nil_iff.2 fun v mem => by rw [keptL v mem]; exact Bool.false_ne_true,
      List.filter_eq_nil_iff.2 fun v mem => by rw [keptR v mem]; exact Bool.false_ne_true]
    rfl
  have stay : (m.stream k).window.filter keep = l ++ r := by
    rw [window, List.filter_append, List.filter_cons_of_neg (by rw [gone]; exact Bool.false_ne_true),
      List.filter_eq_self.2 keptL, List.filter_eq_self.2 keptR]
  unfold Device.dropEntries Device.onStream
  dsimp only
  rw [out, stay]
  rfl

theorem Device.dropEntries_none (keep : WinEntry → Bool) (kept : ∀ v ∈ (m.stream k).window, keep v = true) :
    m.dropEntries now k keep = m := by
  have out : (m.stream k).window.filter (fun v => !keep v) = [] :=
    List.filter_eq_nil_iff.2 fun v mem => by rw [kept v mem]; exact Bool.false_ne_true
  unfold Device.dropEntries
  rw [out]
  rfl

theorem Device.missPast_stream :
    (m.missPast now k).stream k =
      (({ m.stream k with window := (m.stream k).window.filter fun w => decide (w.u ≠ (m.stream k).n) }
        : StreamRec).countMiss (m.marked k) (m.stream k).frameN).stepOn now := by
  refine (Device.stream_setStream_same ..).trans ?_
  rw [m.dropEntries_stream]

theorem Device.pastLoop_stops (present : (m.stream k).display (m.stream k).n ≠ .past) (i : Nat) :
    m.pastLoop now k i = m := by
  cases i with
  | zero => rfl
  | succ i => exact if_neg present

theorem Device.pastLoop_goes_on (past : (m.stream k).display (m.stream k).n = .past) (i : Nat) :
    m.pastLoop now k (i + 1) = (m.missPast now k).pastLoop now k i := if_pos past

/-- What the count of a miss leaves of the values that place N (R140). -/
theorem StreamRec.countMiss_place (x : StreamRec) (marked : Bool) (frame : Nat) :
    (x.countMiss marked frame).s = x.s ∧ (x.countMiss marked frame).n = x.n ∧
      (x.countMiss marked frame).f0q = x.f0q := by
  unfold StreamRec.countMiss
  dsimp only
  split <;> exact ⟨rfl, rfl, rfl⟩

theorem StreamRec.queueEnd_s (x : StreamRec) (bound : Nat) : (x.queueEnd bound).s = x.s := by
  unfold StreamRec.queueEnd
  split_ifs <;> rfl

/-- A step stops the stream, or moves N by the stride in its direction (R142, R33, R34). -/
theorem StreamRec.stepOn_place (x : StreamRec) (now : Time) :
    (x.stepOn now).s = 0 ∨ ((x.stepOn now).s = x.s ∧ (x.stepOn now).f0q = x.f0q ∧
      (x.stepOn now).n = x.n + x.stride * x.dir) := by
  unfold StreamRec.stepOn
  dsimp only
  split
  · exact .inl (StreamRec.queueEnd_s ..)
  · exact .inr ⟨rfl, rfl, rfl⟩

theorem one_le_strideOf (s : Int) : 1 ≤ strideOf s := by
  unfold strideOf
  split <;> omega

theorem StreamRec.pastFrames_eq {x : StreamRec} (moves : x.s ≠ 0) :
    x.pastFrames = (-((x.n * 65536 - x.f0q) * x.s.sign)).toNat / 65536 + 1 := by
  rw [StreamRec.pastFrames, StreamRec.distance, StreamRec.dir_of_ne moves]

/-- A step of N leaves one frame fewer that may be PAST. -/
theorem StreamRec.stepOn_pastFrames {x : StreamRec} {now : Time} (past : x.display x.n = .past)
    (still : (x.stepOn now).display (x.stepOn now).n = .past) : (x.stepOn now).pastFrames < x.pastFrames := by
  obtain ⟨moves, behind⟩ := x.display_past_iff.1 past
  obtain ⟨moves', behind'⟩ := StreamRec.display_past_iff _ |>.1 still
  obtain ⟨s, f0q, n⟩ := (x.stepOn_place now).resolve_left moves'
  have stride := one_le_strideOf x.s
  rw [StreamRec.pastFrames_eq moves', StreamRec.pastFrames_eq moves]
  rw [StreamRec.dir_of_ne moves, StreamRec.stride] at n
  rw [s, f0q, n] at behind' ⊢
  rcases Int.lt_or_gt_of_ne moves with down | up
  · rw [Int.sign_eq_neg_one_of_neg down] at behind behind' ⊢
    omega
  · rw [Int.sign_eq_one_of_pos up] at behind behind' ⊢
    omega

theorem Device.missPast_pastFrames (past : (m.stream k).display (m.stream k).n = .past)
    (still : ((m.missPast now k).stream k).display ((m.missPast now k).stream k).n = .past) :
    ((m.missPast now k).stream k).pastFrames < (m.stream k).pastFrames := by
  obtain ⟨s, n, f0q⟩ := StreamRec.countMiss_place
    { m.stream k with window := (m.stream k).window.filter fun w => decide (w.u ≠ (m.stream k).n) }
    (m.marked k) (m.stream k).frameN
  rw [m.missPast_stream now k] at still ⊢
  generalize StreamRec.countMiss _ _ _ = y at s n f0q still ⊢
  obtain ⟨moves, behind⟩ := (m.stream k).display_past_iff.1 past
  have moves' : y.s ≠ 0 := s ▸ moves
  have frames : y.pastFrames = (m.stream k).pastFrames := by
    rw [StreamRec.pastFrames_eq moves', StreamRec.pastFrames_eq moves, s, n, f0q]
  rw [← frames]
  refine StreamRec.stepOn_pastFrames (y.display_past_iff.2 ⟨moves', ?_⟩) still
  rw [s, n, f0q]
  exact behind

/-- With fuel for the frames that may be PAST, the loop ends with a frame at N that is not (R58). -/
theorem Device.pastLoop_done (i : Nat) (enough : (m.stream k).pastFrames ≤ i) :
    ((m.pastLoop now k i).stream k).display ((m.pastLoop now k i).stream k).n ≠ .past := by
  induction i generalizing m with
  | zero => exact absurd enough (by simp [StreamRec.pastFrames])
  | succ i ih =>
    by_cases past : (m.stream k).display (m.stream k).n = .past
    · rw [m.pastLoop_goes_on now k past]
      by_cases still : ((m.missPast now k).stream k).display ((m.missPast now k).stream k).n = .past
      · exact ih _ (by have := m.missPast_pastFrames now k past still; omega)
      · rw [Device.pastLoop_stops _ now k still]
        exact still
    · rw [m.pastLoop_stops now k past]
      exact past

end Past

/-! ### The placements of a pass and its check -/

section Placements
variable (m : Device) (e : Env) (k : Nat) (us : List Int)

theorem Device.leftUnplaced_iff : m.leftUnplaced k us = true ↔ ∃ u ∈ us, ∃ w, m.entry k u = some w ∧ w.state = .unplaced := by
  simp only [Device.leftUnplaced, List.any_eq_true, decide_eq_true_iff, Option.map_eq_some_iff]

/-- The retry that the event asked has been made (R88). -/
def Device.retryMade (m : Device) : Device := { m with agenda := { m.agenda with retry := false } }

theorem Device.retry_eq (asked : m.agenda.retry = true) (waiting : m.backlog ≠ []) :
    m.retry e = (m.retryLoop e m.backlog.length).retryMade := by
  refine if_pos ?_
  rw [asked, Bool.true_and, Bool.not_eq_true', Bool.eq_false_iff, Ne, List.isEmpty_iff]
  exact waiting

theorem Device.no_retry (quiet : m.agenda.retry = false ∨ m.backlog = []) : m.retry e = m := by
  refine if_neg ?_
  rcases quiet with quiet | empty
  · rw [quiet]
    exact Bool.false_ne_true
  · rw [empty, List.isEmpty_nil, Bool.not_true, Bool.and_false]
    exact Bool.false_ne_true

theorem Device.askRetry_of_asked (asked : m.agenda.retry = true) : m.askRetry = m :=
  congrArg (fun b => { m with agenda := { m.agenda with retry := b } }) asked.symm

/-- The device after the placements of a pass, with the retry asked where one of them stays UNPLACED (R62, R88). -/
theorem Device.placeAndCheck_eq :
    let b := m.placeNew e k us
    let t := if b.leftUnplaced k us = true then b.askRetry else b
    m.placeAndCheck e k us =
      if t.agenda.retry && !t.backlog.isEmpty then
        let u := (t.retry e).check e.now k
        { u with agenda := { u.agenda with retry := false } }
      else t.check e.now k := rfl

theorem Device.placeAndCheck_retry
    (due : (m.placeNew e k us).agenda.retry = true ∨ (m.placeNew e k us).leftUnplaced k us = true)
    (waiting : (m.placeNew e k us).backlog ≠ []) :
    m.placeAndCheck e k us = (((m.placeNew e k us).askRetry.retryLoop e
      (m.placeNew e k us).backlog.length).retryMade.check e.now k).retryMade := by
  have asked : (if (m.placeNew e k us).leftUnplaced k us = true then (m.placeNew e k us).askRetry
      else m.placeNew e k us) = (m.placeNew e k us).askRetry := by
    split
    · rfl
    · rename_i placed
      exact ((m.placeNew e k us).askRetry_of_asked (due.resolve_right placed)).symm
  rw [m.placeAndCheck_eq e k us]
  dsimp only
  rw [asked, (m.placeNew e k us).askRetry.retry_eq e rfl waiting]
  refine if_pos ?_
  rw [show (m.placeNew e k us).askRetry.agenda.retry = true from rfl, Bool.true_and, Bool.not_eq_true',
    Bool.eq_false_iff, Ne, List.isEmpty_iff]
  exact waiting

/-- An entry that a pass leaves UNPLACED stands in the backlog (R87). -/
theorem Device.backlog_of_leftUnplaced (left : m.leftUnplaced k us = true) : m.backlog ≠ [] := by
  obtain ⟨u, -, w, entry, state⟩ := (m.leftUnplaced_iff k us).1 left
  obtain ⟨i, inside, at_⟩ := List.mem_iff_getElem.1 (List.mem_of_find?_eq_some entry)
  have listed : (k, m.stream k) ∈ m.streams := (Table.get_mem_or m.streams k).resolve_left fun unlisted => by
    rw [show m.stream k = StreamRec.reset from unlisted] at inside
    exact absurd inside (Nat.not_lt_zero i)
  exact List.ne_nil_of_mem (List.mem_flatMap.2 ⟨_, listed, (mem_unplacedFrom ..).2
    ⟨i, w, List.getElem?_eq_some_iff.2 ⟨inside, at_⟩, state, rfl⟩⟩)

theorem Device.placeAndCheck_quiet
    (quiet : ¬ ((m.placeNew e k us).agenda.retry = true ∨ (m.placeNew e k us).leftUnplaced k us = true) ∨
      (m.placeNew e k us).backlog = []) :
    m.placeAndCheck e k us = (m.placeNew e k us).check e.now k := by
  have placed : ¬ (m.placeNew e k us).leftUnplaced k us = true := fun left => by
    rcases quiet with quiet | empty
    · exact quiet (.inr left)
    · exact Device.backlog_of_leftUnplaced _ k us left empty
  rw [m.placeAndCheck_eq e k us]
  dsimp only
  rw [if_neg placed]
  refine if_neg fun both => ?_
  rw [Bool.and_eq_true, Bool.not_eq_true', Bool.eq_false_iff, Ne, List.isEmpty_iff] at both
  rcases quiet with quiet | empty
  · exact quiet (.inl both.1)
  · exact both.2 empty

end Placements

end Sys2Proof.Machine
end

section
/-! PROOFS. The placement backlog and its retry (section 4.2; R87, R88). -/

namespace Sys2Proof.Machine

/-! ### The order of the backlog -/

theorem BacklogItem.before_iff (x y : BacklogItem) :
    x.before y = true ↔
      x.due < y.due ∨ (x.due = y.due ∧ (x.stream < y.stream ∨ (x.stream = y.stream ∧ x.place < y.place))) := by
  simp [BacklogItem.before]

theorem BacklogItem.before_eq_false (x y : BacklogItem) :
    x.before y = false ↔
      y.due < x.due ∨ (y.due = x.due ∧ (y.stream < x.stream ∨ (y.stream = x.stream ∧ y.place ≤ x.place))) := by
  rw [Bool.eq_false_iff, Ne, BacklogItem.before_iff]
  simp only [Time]
  omega

theorem BacklogItem.before_order : StrictWeak BacklogItem.before where
  irrefl x := by
    rw [BacklogItem.before_eq_false]
    exact .inr ⟨rfl, .inr ⟨rfl, le_rfl⟩⟩
  asymm x y h := by
    rw [BacklogItem.before_iff] at h
    rw [BacklogItem.before_eq_false]
    simp only [Time] at *
    omega
  trans x y z h h' := by
    rw [BacklogItem.before_eq_false] at h h' ⊢
    simp only [Time] at *
    omega

/-- The entry `w` waits UNPLACED at place `i` of the window of stream `k`. -/
def Device.WaitsAt (m : Device) (k i : Nat) (w : WinEntry) : Prop :=
  (m.stream k).window[i]? = some w ∧ w.state = .unplaced

/-- The backlog item of an entry. -/
def backlogItem (k i : Nat) (w : WinEntry) : BacklogItem := { due := w.due, stream := k, place := i, u := w.u }

section Backlog
variable {m : Device} (wf : Table.wf StreamRec.reset m.streams = true)
include wf

theorem Device.mem_backlog_iff (x : BacklogItem) :
    x ∈ m.backlog ↔ ∃ w, m.WaitsAt x.stream x.place w ∧ x = backlogItem x.stream x.place w := by
  rw [Device.mem_backlog wf]
  refine exists_congr fun w => ?_
  obtain ⟨due, k, i, u⟩ := x
  simp only [Device.WaitsAt, backlogItem, BacklogItem.mk.injEq, true_and, and_assoc]
  exact and_congr_right fun _ => and_congr_right fun _ => and_congr eq_comm eq_comm

theorem Device.backlogItem_mem {k i : Nat} {w : WinEntry} (waits : m.WaitsAt k i w) : backlogItem k i w ∈ m.backlog :=
  (Device.mem_backlog_iff wf _).2 ⟨w, waits, rfl⟩

/-- The items of the backlog at one place of one stream are one. -/
theorem Device.backlog_inj {x y : BacklogItem} (mem : x ∈ m.backlog) (mem' : y ∈ m.backlog)
    (stream : x.stream = y.stream) (place : x.place = y.place) : x = y := by
  obtain ⟨w, waits, eq⟩ := (Device.mem_backlog_iff wf x).1 mem
  obtain ⟨v, waits', eq'⟩ := (Device.mem_backlog_iff wf y).1 mem'
  rw [← stream, ← place] at waits'
  have same : w = v := Option.some.inj (waits.1.symm.trans waits'.1)
  rw [eq, eq', same, stream, place]

theorem Device.backlogHead_eq_some_iff (x : BacklogItem) :
    m.backlogHead = some x ↔ x ∈ m.backlog ∧ ∀ y ∈ m.backlog, y.before x = false := by
  refine least_eq_some_iff BacklogItem.before_order fun x mem y mem' notBefore notBefore' => ?_
  rw [BacklogItem.before_eq_false] at notBefore notBefore'
  simp only [Time] at notBefore notBefore'
  exact Device.backlog_inj wf mem mem' (by omega) (by omega)

/-- One entry stands before another in the backlog (R87). -/
def Ahead (k i : Nat) (w : WinEntry) (j l : Nat) (v : WinEntry) : Prop :=
  w.due < v.due ∨ (w.due = v.due ∧ (k < j ∨ (k = j ∧ i < l)))

omit wf in
theorem backlogItem_before_iff (k i : Nat) (w : WinEntry) (j l : Nat) (v : WinEntry) :
    (backlogItem k i w).before (backlogItem j l v) = true ↔ Ahead k i w j l v := BacklogItem.before_iff ..

omit wf in
theorem backlogItem_before_eq_false (k i : Nat) (w : WinEntry) (j l : Nat) (v : WinEntry) :
    (backlogItem j l v).before (backlogItem k i w) = false ↔ (j = k ∧ l = i ∧ v.due = w.due) ∨ Ahead k i w j l v := by
  rw [BacklogItem.before_eq_false, Ahead]
  simp only [backlogItem, Time]
  omega

theorem Device.backlogHead_iff (x : BacklogItem) :
    m.backlogHead = some x ↔ ∃ w, m.WaitsAt x.stream x.place w ∧ w.due = x.due ∧ w.u = x.u ∧
      ∀ j l v, m.WaitsAt j l v → (j = x.stream ∧ l = x.place) ∨ Ahead x.stream x.place w j l v := by
  rw [Device.backlogHead_eq_some_iff wf, Device.mem_backlog_iff wf]
  constructor
  · rintro ⟨⟨w, waits, eq⟩, first⟩
    refine ⟨w, waits, (congrArg BacklogItem.due eq).symm, (congrArg BacklogItem.u eq).symm, fun j l v other => ?_⟩
    have notBefore := first _ (Device.backlogItem_mem wf other)
    rw [eq, backlogItem_before_eq_false] at notBefore
    exact notBefore.imp_left fun ⟨stream, place, _⟩ => ⟨stream, place⟩
  · rintro ⟨w, waits, due, u, first⟩
    have eq : x = backlogItem x.stream x.place w := by
      rw [backlogItem, due, u]
    refine ⟨⟨w, waits, eq⟩, fun y mem => ?_⟩
    obtain ⟨v, other, eq'⟩ := (Device.mem_backlog_iff wf y).1 mem
    rw [eq, eq', backlogItem_before_eq_false]
    refine (first _ _ v other).imp_left fun ⟨stream, place⟩ => ⟨stream, place, ?_⟩
    rw [stream, place] at other
    rw [Option.some.inj (other.1.symm.trans waits.1)]

end Backlog

/-! ### The entry at an index -/

section Entry
variable {m : Device} {k i : Nat} {w : WinEntry}

/-- Where no two entries of a window have one index, an index stands at one place. -/
theorem place_of_index {l : List WinEntry} (distinct : (l.map (·.u)).Nodup) {i j : Nat} {v w : WinEntry}
    (at_ : l[i]? = some v) (at' : l[j]? = some w) (same : v.u = w.u) : i = j := by
  obtain ⟨inside, rfl⟩ := List.getElem?_eq_some_iff.1 at_
  obtain ⟨inside', rfl⟩ := List.getElem?_eq_some_iff.1 at'
  exact (distinct.getElem_inj_iff (hi := by simpa using inside) (hj := by simpa using inside')).1 (by simpa using same)

theorem Device.entry_of_waits (waits : m.WaitsAt k i w) (distinct : ((m.stream k).window.map (·.u)).Nodup) :
    m.entry k w.u = some w := by
  have mem : w ∈ (m.stream k).window := List.mem_of_getElem? waits.1
  cases found : m.entry k w.u with
  | none => exact absurd (decide_eq_true rfl) (List.find?_eq_none.1 found w mem)
  | some v =>
    have index : v.u = w.u := of_decide_eq_true (List.find?_some (p := fun v : WinEntry => decide (v.u = w.u)) found)
    exact congrArg some (List.inj_on_of_nodup_map distinct (List.mem_of_find?_eq_some found) mem index)

theorem Device.rankedAhead_iff (wf : Table.wf StreamRec.reset m.streams = true) (waits : m.WaitsAt k i w)
    (distinct : ((m.stream k).window.map (·.u)).Nodup) :
    m.rankedAhead k w.u = true ↔ ∃ j l v, m.WaitsAt j l v ∧ Ahead j l v k i w := by
  have found : m.backlog.find? (fun x => decide (x.stream = k) && decide (x.u = w.u)) = some (backlogItem k i w) := by
    cases found : m.backlog.find? (fun x => decide (x.stream = k) && decide (x.u = w.u)) with
    | none =>
      refine absurd ?_ (List.find?_eq_none.1 found _ (Device.backlogItem_mem wf waits))
      simp [backlogItem]
    | some x =>
      obtain ⟨stream, u⟩ : x.stream = k ∧ x.u = w.u := by simpa using List.find?_some found
      have mem := List.mem_of_find?_eq_some found
      obtain ⟨v, other, eq⟩ := (Device.mem_backlog_iff wf x).1 mem
      have index : v.u = w.u := (congrArg BacklogItem.u eq).symm.trans u
      rw [stream] at other
      exact congrArg some (Device.backlog_inj wf mem (Device.backlogItem_mem wf waits) stream
        (place_of_index distinct other.1 waits.1 index))
  rw [Device.rankedAhead, found, List.any_eq_true]
  constructor
  · rintro ⟨x, mem, before⟩
    obtain ⟨v, other, eq⟩ := (Device.mem_backlog_iff wf x).1 mem
    rw [eq] at before
    exact ⟨_, _, v, other, (backlogItem_before_iff ..).1 before⟩
  · rintro ⟨j, l, v, other, ahead⟩
    exact ⟨_, Device.backlogItem_mem wf other, (backlogItem_before_iff ..).2 ahead⟩

end Entry

/-! ### The length of the backlog -/

/-- The UNPLACED entries of a window. -/
def StreamRec.unplaced (x : StreamRec) : List WinEntry := x.window.filter fun w => decide (w.state = .unplaced)

theorem length_unplacedFrom (k p : Nat) (l : List WinEntry) :
    (unplacedFrom k p l).length = (l.filter fun w => decide (w.state = .unplaced)).length := by
  induction l generalizing p with
  | nil => rfl
  | cons w l ih =>
    rw [unplacedFrom, List.filter_cons]
    simp only [decide_eq_true_eq]
    split
    · rw [List.length_cons, List.length_cons, ih]
    · exact ih _

theorem Device.length_backlog (m : Device) :
    m.backlog.length = (m.streams.flatMap fun e => e.2.unplaced).length := by
  rw [Device.backlog, List.length_flatMap, List.length_flatMap]
  exact congrArg List.sum (List.map_congr_left fun e _ => length_unplacedFrom ..)

theorem Device.length_backlog_setStream {m : Device} (wf : Table.wf StreamRec.reset m.streams = true) (k : Nat)
    (v : StreamRec) :
    (m.stream k).unplaced.length + (m.setStream k v).backlog.length = v.unplaced.length + m.backlog.length := by
  have exchanged := (Table.flatMap_set (d := StreamRec.reset) StreamRec.unplaced rfl m.streams k v wf).length_eq
  rw [List.length_append, List.length_append] at exchanged
  rw [Device.length_backlog, Device.length_backlog]
  exact exchanged

/-- The stream table of `t` is canonical and its backlog is no longer than that of `m`. -/
def Device.NoLonger (m t : Device) : Prop :=
  Table.wf StreamRec.reset t.streams = true ∧ t.backlog.length ≤ m.backlog.length

theorem Device.NoLonger.of_streams {m t u : Device} (h : m.NoLonger t) (same : u.streams = t.streams) : m.NoLonger u := by
  refine ⟨by rw [same]; exact h.1, ?_⟩
  rw [Device.backlog, same]
  exact h.2

theorem Device.NoLonger.setStream {m t : Device} (h : m.NoLonger t) {k : Nat} {v : StreamRec}
    (window : v.window.Sublist (t.stream k).window) : m.NoLonger (t.setStream k v) := by
  refine ⟨Table.wf_set _ _ _ h.1, ?_⟩
  have fewer : v.unplaced.length ≤ (t.stream k).unplaced.length := (window.filter _).length_le
  have exchanged := Device.length_backlog_setStream h.1 k v
  have short := h.2
  omega

theorem StreamRec.queueEnd_window (x : StreamRec) (bound : Nat) : (x.queueEnd bound).window = x.window := by
  unfold StreamRec.queueEnd
  split_ifs <;> rfl

theorem StreamRec.stepOn_window (x : StreamRec) (now : Time) : (x.stepOn now).window = x.window := by
  unfold StreamRec.stepOn
  dsimp only
  split
  · exact StreamRec.queueEnd_window ..
  · rfl

theorem StreamRec.delivered_window (x : StreamRec) (now : Time) (w : WinEntry) (y : Notice) (slot : Option Nat) :
    (x.delivered now w y slot).window = x.window.tail := by
  rw [x.delivered_eq]
  split
  · exact StreamRec.stepOn_window ..
  · rfl

section Check
variable {m t : Device} (now : Time) (k : Nat)

theorem Device.NoLonger.deliver (h : m.NoLonger t) (w : WinEntry) : m.NoLonger (t.deliver now k w) := by
  have set (y slot) : m.NoLonger (t.setStream k ((t.stream k).delivered now w y slot)) :=
    h.setStream (by rw [StreamRec.delivered_window]; exact List.tail_sublist _)
  unfold Device.deliver
  dsimp only
  split
  · exact (set _ _).of_streams (Device.releasePin_streams ..)
  · exact (set _ _).of_streams ((quiet_streams _).recompute _ rfl)

theorem Device.NoLonger.deliverLoop (h : m.NoLonger t) (fuel : Nat) : m.NoLonger (t.deliverLoop now k fuel) := by
  induction fuel generalizing t with
  | zero => exact h
  | succ fuel ih =>
    rw [Device.deliverLoop]
    split
    · exact ih (h.deliver now k _)
    · exact h

theorem StreamRec.missedAlone_window (x : StreamRec) : x.missedAlone.window = x.window := by
  unfold StreamRec.missedAlone
  split <;> rfl

theorem Device.NoLonger.check (h : m.NoLonger t) : m.NoLonger (t.check now k) := by
  have loop := h.deliverLoop now k (t.stream k).c
  unfold Device.check
  dsimp only
  split
  · exact loop.setStream (by rw [StreamRec.missedAlone_window])
  · exact loop

end Check

/-! ### The retry -/

section Retry
variable {m : Device} {e : Env} {k i : Nat} {w : WinEntry}

theorem Device.retryLoop_none (none_ : m.backlogHead = none) (i : Nat) : m.retryLoop e i = m := by
  cases i with
  | zero => rfl
  | succ i => rw [Device.retryLoop, none_]

/-- The record of a stream whose entries at one index are given a slot (R80). -/
def StreamRec.pinned (x : StreamRec) (u : Int) (n : Nat) (st : EntryState) : StreamRec :=
  { x with window := x.window.map fun v => if v.u = u then { v with slot := some n, state := st } else v }

/-- A placement leaves the streams, or gives the entry a slot and a state (R80). -/
theorem Device.place_cases (byPass : Bool) :
    (m.place e byPass k w).streams = m.streams ∨ ∃ n st, st ≠ EntryState.unplaced ∧
      (m.place e byPass k w).streams = (m.setStream k ((m.stream k).pinned w.u n st)).streams :=
  Device.place_streams e byPass k w m

theorem StreamRec.pinned_fewer {x : StreamRec} (mem : w ∈ x.window) (waits : w.state = .unplaced) (n : Nat)
    {st : EntryState} (placed : st ≠ .unplaced) : (x.pinned w.u n st).unplaced.length < x.unplaced.length := by
  have fewer (l : List WinEntry) : ((l.map fun v => if v.u = w.u then { v with slot := some n, state := st } else v).filter
      fun v => decide (v.state = .unplaced)).length + (if w ∈ l then 1 else 0) ≤
        (l.filter fun v => decide (v.state = .unplaced)).length := by
    induction l with
    | nil => simp
    | cons v l ih =>
      simp only [List.map_cons, List.filter_cons, List.mem_cons]
      by_cases index : v.u = w.u
      · simp only [index, if_true, placed, decide_false, Bool.false_eq_true, if_false]
        by_cases same : w = v
        · simp only [same.symm, true_or, if_true, waits, decide_true, List.length_cons]
          split at ih <;> omega
        · simp only [same, false_or]
          refine ih.trans ?_
          split
          · exact Nat.le_succ _
          · exact le_rfl
      · have other : w ≠ v := fun same => index (by rw [same])
        simp only [index, if_false, other, false_or]
        split
        · rw [List.length_cons, List.length_cons]
          omega
        · exact ih
  have all := fewer x.window
  rw [if_pos mem] at all
  exact all

/-- The entry of an index in a window whose entries there are given a slot. -/
theorem StreamRec.pinned_find (x : StreamRec) (u : Int) (n : Nat) (st : EntryState) :
    (x.pinned u n st).window.find? (fun v => decide (v.u = u)) =
      (x.window.find? fun v => decide (v.u = u)).map fun v => { v with slot := some n, state := st } := by
  unfold StreamRec.pinned
  dsimp only
  induction x.window with
  | nil => rfl
  | cons v l ih =>
    rw [List.map_cons, List.find?_cons, List.find?_cons]
    by_cases index : v.u = u
    · simp [index]
    · simp only [index, if_false, decide_false]
      exact ih

theorem StreamRec.pinned_head (x : StreamRec) (u : Int) (n : Nat) (st : EntryState) :
    (x.pinned u n st).window.head?.map (·.u) = x.window.head?.map (·.u) := by
  unfold StreamRec.pinned
  cases x.window with
  | nil => rfl
  | cons v l =>
    simp only [List.map_cons, List.head?_cons, Option.map_some]
    split <;> rfl

variable {x : BacklogItem} (wf : Table.wf StreamRec.reset m.streams = true) (head : m.backlogHead = some x)
  (waits : m.WaitsAt x.stream x.place w) (distinct : ((m.stream x.stream).window.map (·.u)).Nodup)
include wf head waits distinct

omit distinct in
theorem Device.head_index : x.u = w.u := by
  obtain ⟨v, other, -, u, -⟩ := (Device.backlogHead_iff wf x).1 head
  rw [← u, Option.some.inj (other.1.symm.trans waits.1)]

/-- A step of the retry whose entry stands in the window after its placement (R88). -/
theorem Device.retryLoop_step (i : Nat) {v : WinEntry} (after : (m.place e false x.stream w).entry x.stream w.u = some v) :
    m.retryLoop e (i + 1) =
      if v.state = .unplaced then m.place e false x.stream w
      else Device.retryLoop e i
        (if (((m.place e false x.stream w).stream x.stream).window.head?.map (·.u)) = some w.u then
          (m.place e false x.stream w).check e.now x.stream else m.place e false x.stream w) := by
  have entry := Device.entry_of_waits waits distinct
  have index := Device.head_index wf head waits
  rw [Device.retryLoop, head]
  dsimp only
  rw [index, entry]
  dsimp only
  rw [after]

theorem Device.retryLoop_stuck
    (left : ((m.place e false x.stream w).entry x.stream w.u).map (·.state) = some .unplaced) (i : Nat) :
    m.retryLoop e (i + 1) = m.place e false x.stream w := by
  obtain ⟨v, entry, state⟩ := Option.map_eq_some_iff.1 left
  exact (Device.retryLoop_step wf head waits distinct i entry).trans (if_pos state)

theorem Device.retryLoop_placed
    (placed : ((m.place e false x.stream w).entry x.stream w.u).map (·.state) ≠ some .unplaced) :
    let t := m.place e false x.stream w
    let b := if x.place = 0 then t.check e.now x.stream else t
    (∀ i, m.retryLoop e (i + 1) = b.retryLoop e i) ∧ b.backlog.length < m.backlog.length := by
  intro t b
  have entry := Device.entry_of_waits waits distinct
  have mem : w ∈ (m.stream x.stream).window := List.mem_of_getElem? waits.1
  rcases m.place_cases (e := e) (k := x.stream) (w := w) false with same | ⟨n, st, state, set⟩
  · refine absurd ?_ placed
    have stream : (m.place e false x.stream w).stream x.stream = m.stream x.stream :=
      congrArg (Table.get StreamRec.reset · x.stream) same
    rw [Device.entry, stream, show (m.stream x.stream).window.find? _ = some w from entry]
    exact congrArg some waits.2
  · have stream : t.stream x.stream = (m.stream x.stream).pinned w.u n st :=
      (congrArg (Table.get StreamRec.reset · x.stream) set).trans (Device.stream_setStream_same ..)
    have after : t.entry x.stream w.u = some { w with slot := some n, state := st } := by
      rw [Device.entry, stream, StreamRec.pinned_find, show (m.stream x.stream).window.find? _ = some w from entry]
      rfl
    have atHead : (t.stream x.stream).window.head?.map (·.u) = some w.u ↔ x.place = 0 := by
      rw [stream, StreamRec.pinned_head, List.head?_eq_getElem?]
      constructor
      · intro first
        obtain ⟨v, at_, index⟩ := Option.map_eq_some_iff.1 first
        exact (place_of_index distinct at_ waits.1 index).symm
      · intro place
        have at_ := waits.1
        rw [place] at at_
        rw [at_]
        rfl
    have shorter : t.backlog.length < m.backlog.length := by
      have exchanged := Device.length_backlog_setStream wf x.stream ((m.stream x.stream).pinned w.u n st)
      have fewer := StreamRec.pinned_fewer (x := m.stream x.stream) mem waits.2 n state
      have same : t.backlog.length = (m.setStream x.stream ((m.stream x.stream).pinned w.u n st)).backlog.length := by
        rw [Device.backlog, set]
        rfl
      omega
    refine ⟨fun i => ?_, ?_⟩
    · exact (Device.retryLoop_step wf head waits distinct i after).trans
        ((if_neg state).trans (congrArg (Device.retryLoop e i) (if_congr atHead rfl rfl)))
    · have canonical : Table.wf StreamRec.reset t.streams = true := by
        rw [set]
        exact Table.wf_set _ _ _ wf
      have checked : t.NoLonger (t.check e.now x.stream) := Device.NoLonger.check e.now x.stream ⟨canonical, le_rfl⟩
      have short := checked.2
      by_cases place : x.place = 0
      · rw [show b = t.check e.now x.stream from if_pos place]
        omega
      · rw [show b = t from if_neg place]
        exact shorter

end Retry

end Sys2Proof.Machine
end

section
/-! PROOFS. Reclaiming and the placement of an entry (sections 5.3–5.5; R80–R86), and the pass of DEADLINE_PASS. -/

namespace Sys2Proof.Machine

/-! ### Reclaiming -/

/-- Pages or a record are lacking (R83, R86). -/
def Device.Lacks (m : Device) (need : Nat) : Prop := m.freePages.length < need ∨ m.freeRecord = none

theorem Device.hasPages_iff (m : Device) (need : Nat) : m.hasPages need = true ↔ need ≤ m.freePages.length := by
  rw [Device.hasPages, decide_eq_true_iff, List.length_take, min_eq_left_iff]

theorem Device.enough_iff (m : Device) (need : Nat) :
    (m.hasPages need && m.freeRecord.isSome) = true ↔ ¬ m.Lacks need := by
  rw [Bool.and_eq_true, m.hasPages_iff, Option.isSome_iff_ne_none, Device.Lacks, not_or, Nat.not_lt]

/-- The slots of a list freed one after another. -/
def Device.freed (m : Device) (l : List Nat) : Device := l.foldl (fun m n => m.freeSlot n) m

/-- Reclaiming frees a first part of the list, as long as pages or a record are lacking and no longer (R86). -/
theorem Device.reclaimFor_freed (m : Device) (need : Nat) (l : List Nat) :
    ∃ i ≤ l.length, m.reclaimFor need l = m.freed (l.take i) ∧
      (∀ j < i, (m.freed (l.take j)).Lacks need) ∧ (i < l.length → ¬ (m.freed (l.take i)).Lacks need) := by
  induction l generalizing m with
  | nil => exact ⟨0, le_rfl, rfl, fun j before => absurd before (Nat.not_lt_zero j), fun before => absurd before (lt_irrefl 0)⟩
  | cons n l ih =>
    by_cases lacks : m.Lacks need
    · obtain ⟨i, inside, eq, before, after⟩ := ih (m.freeSlot n)
      refine ⟨i + 1, Nat.succ_le_succ inside, ?_, fun j less => ?_, fun less => after (Nat.lt_of_succ_lt_succ less)⟩
      · rw [Device.reclaimFor, if_neg (by rw [m.enough_iff]; exact not_not.2 lacks)]
        exact eq
      · cases j with
        | zero => exact lacks
        | succ j => exact before j (Nat.lt_of_succ_lt_succ less)
    · refine ⟨0, Nat.zero_le _, ?_, fun j before => absurd before (Nat.not_lt_zero j), fun _ => lacks⟩
      rw [Device.reclaimFor, if_pos ((m.enough_iff need).2 lacks)]
      rfl

/-! ### The slot that holds a frame -/

/-- Slot `n` is live and holds a frame of a clip (R75). -/
def Device.Holds (m : Device) (n clip generation frame : Nat) : Prop :=
  (m.slot n).state ≠ .free ∧ (m.slot n).clip = clip ∧ (m.slot n).generation = generation ∧ (m.slot n).frame = frame

section Find
variable {m : Device} (wf : Table.wf Slot.free m.slots = true) {clip generation frame : Nat}
include wf

theorem Device.findSlot_none (none_ : ∀ n, ¬ m.Holds n clip generation frame) :
    m.findSlot clip generation frame = none := by
  rw [← Option.not_isSome_iff_eq_none, Device.findSlot_isSome_iff wf]
  exact fun ⟨n, holds⟩ => none_ n holds

theorem Device.holds_of_findSlot {n : Nat} (found : m.findSlot clip generation frame = some n) :
    m.Holds n clip generation frame := by
  obtain ⟨⟨j, x⟩, at_, rfl⟩ := Option.map_eq_some_iff.1 found
  have record : m.slot j = x := Table.get_of_mem _ wf _ (List.mem_of_find?_eq_some at_)
  simpa [Device.Holds, record, and_assoc] using List.find?_some at_

theorem Device.findSlot_some {n : Nat} (holds : m.Holds n clip generation frame)
    (only : ∀ j, m.Holds j clip generation frame → j = n) : m.findSlot clip generation frame = some n := by
  obtain ⟨j, found⟩ := Option.isSome_iff_exists.1 ((Device.findSlot_isSome_iff wf clip generation frame).2 ⟨n, holds⟩)
  rw [found, only j (Device.holds_of_findSlot wf found)]

end Find

/-! ### An offer -/

/-- A segment as an offer leaves it: an unissued one may be queued (R99). -/
def Segment.Offered (g h : Segment) : Prop := h = g ∨ (g.status = .unissued ∧ h = { g with status := .queued })

theorem Segment.Offered.trans {g h i : Segment} (first : g.Offered h) (second : h.Offered i) : g.Offered i := by
  rcases first with rfl | ⟨unissued, rfl⟩
  · exact second
  · rcases second with rfl | ⟨again, rfl⟩
    · exact .inr ⟨unissued, rfl⟩
    · cases again

theorem forall₂_offered_refl (l : List Segment) : List.Forall₂ Segment.Offered l l :=
  List.forall₂_same.2 fun _ _ => .inl rfl

theorem forall₂_offered_trans {l r s : List Segment} (first : List.Forall₂ Segment.Offered l r)
    (second : List.Forall₂ Segment.Offered r s) : List.Forall₂ Segment.Offered l s := by
  induction first generalizing s with
  | nil => exact second
  | cons head tail ih =>
    cases second with
    | cons head' tail' => exact .cons (head.trans head') (ih tail')

theorem forall₂_offered_modify (l : List Segment) (i : Nat) (unissued : (l[i]?.map (·.status)) = some .unissued) :
    List.Forall₂ Segment.Offered l (l.modify i fun g => { g with status := .queued }) := by
  induction l generalizing i with
  | nil =>
    rw [List.modify_nil]
    exact .nil
  | cons g l ih =>
    cases i with
    | zero => exact .cons (.inr ⟨Option.some.inj unissued, rfl⟩) (forall₂_offered_refl l)
    | succ i => exact .cons (.inl rfl) (ih i unissued)

theorem offered_places {l r : List Segment} (offered : List.Forall₂ Segment.Offered l r) :
    r.map (fun g => (g.channel, g.block, g.count, g.offset)) = l.map fun g => (g.channel, g.block, g.count, g.offset) := by
  induction offered with
  | nil => rfl
  | cons head tail ih =>
    rw [List.map_cons, List.map_cons, ih]
    rcases head with rfl | ⟨-, rfl⟩ <;> rfl

theorem offered_count {l r : List Segment} (offered : List.Forall₂ Segment.Offered l r) {st : SegStatus}
    (unissued : st ≠ .unissued) (queued : st ≠ .queued) :
    r.countP (fun g => decide (g.status = st)) = l.countP fun g => decide (g.status = st) := by
  induction offered with
  | nil => rfl
  | cons head tail ih =>
    rw [List.countP_cons, List.countP_cons, ih]
    rcases head with rfl | ⟨status, rfl⟩
    · rfl
    · simp [status, unissued.symm, queued.symm]

section Offer
variable {m : Device} (now : Time) (n : Nat)

/-- What an offer of a slot's segments leaves (R99). -/
structure Device.OfferKept (m t : Device) (n : Nat) : Prop where
  streams : t.streams = m.streams
  slot : ∃ segs, List.Forall₂ Segment.Offered (m.slot n).segs segs ∧ t.slot n = { m.slot n with segs }
  other : ∀ j, j ≠ n → t.slot j = m.slot j
  pages : t.freePages = m.freePages

theorem Device.joinQueue_pages (m : Device) (now : Time) (c : Nat) : (m.joinQueue now c).freePages = m.freePages := by
  unfold Device.joinQueue
  split
  · rw [Device.wake, Device.send_eq]
    split <;> rfl
  · rfl

theorem Device.OfferKept.refl (m : Device) (n : Nat) : m.OfferKept m n :=
  ⟨rfl, ⟨_, forall₂_offered_refl _, rfl⟩, fun _ _ => rfl, rfl⟩

theorem Device.OfferKept.offerAt {t : Device} {n : Nat} (kept : m.OfferKept t n) (i : Nat) :
    m.OfferKept (Device.offerAt now n t i) n := by
  unfold Device.offerAt
  split
  · rename_i unissued
    cases free : t.freeReq with
    | none =>
      rw [Device.grant_none free]
      exact kept
    | some r =>
      obtain ⟨g, seg, -⟩ := Option.map_eq_some_iff.1 unissued
      have slots := Device.grant_slot (now := now) free seg
      obtain ⟨segs, offered, record⟩ := kept.slot
      rw [record] at unissued
      refine ⟨(quiet_streams m).grant now n i kept.streams,
        ⟨segs.modify i fun g => { g with status := .queued }, ?_, ?_⟩, fun j other => ?_, ?_⟩
      · exact forall₂_offered_trans offered (forall₂_offered_modify segs i unissued)
      · rw [slots, if_pos rfl, record]
        rfl
      · rw [slots, if_neg other, kept.other j other]
      · rw [Device.grant_eq free seg, Device.joinQueue_pages]
        exact kept.pages
  · exact kept

theorem Device.offer_kept (m : Device) : m.OfferKept (m.offer now n) n := by
  rw [Device.offer_eq]
  exact foldl_keeps (I := fun t => m.OfferKept t n) (fun t i kept => kept.offerAt now i) _ _ (Device.OfferKept.refl m n)

end Offer

/-! ### A pin -/

/-- What a placement leaves: the stream's entry has its slot, no other slot of `b` changes, and the slot is not without
a pin (R80). -/
def Device.Took (m b t : Device) (k : Nat) (u : Int) (n : Nat) (st : EntryState) : Prop :=
  (∀ j, t.stream j = if j = k then (m.stream k).pinned u n st else m.stream j) ∧
    (∀ j, j ≠ n → t.slot j = b.slot j) ∧ (t.slot n).unpinnedSince = never

/-- The record of a slot that a window entry pins, with slot due and seat priority recomputed and segments that an offer
may have queued (R76, R77, R99). -/
def Slot.pinnedWith (x : Slot) (due : Time) (seat : Nat) (segs : List Segment) : Slot :=
  { x with pins := x.pins + 1, unpinnedSince := never, due, seat, segs }

/-- What a pin changes, and an offer after it. -/
structure Device.Pinned (b t : Device) (k : Nat) (u : Int) (n : Nat) (st : EntryState) : Prop where
  stream : ∀ j, t.stream j = if j = k then (b.stream k).pinned u n st else b.stream j
  slot : ∃ due seat segs, List.Forall₂ Segment.Offered (b.slot n).segs segs ∧
    t.slot n = (b.slot n).pinnedWith due seat segs
  other : ∀ j, j ≠ n → t.slot j = b.slot j
  pages : t.freePages = b.freePages

theorem Device.Pinned.took {m b c t : Device} {k : Nat} {u : Int} {n : Nat} {st : EntryState}
    (h : c.Pinned t k u n st) (streams : c.streams = m.streams) (other : ∀ j, j ≠ n → c.slot j = b.slot j) :
    m.Took b t k u n st := by
  have stream (j : Nat) : c.stream j = m.stream j := congrArg (Table.get StreamRec.reset · j) streams
  obtain ⟨due, seat, segs, -, record⟩ := h.slot
  refine ⟨fun j => ?_, fun j ne => (h.other j ne).trans (other j ne), by rw [record]; rfl⟩
  rw [h.stream, stream, stream]

section Pin
variable {b : Device} (k : Nat) (u : Int) {n : Nat} (st : EntryState)

/-- A pin before slot due and seat priority are recomputed (R76). -/
def Device.pinning (b : Device) (k : Nat) (u : Int) (n : Nat) (st : EntryState) : Device :=
  (b.onSlot n fun x => { x with pins := x.pins + 1, unpinnedSince := never }).onEntry k u
    fun w => { w with slot := some n, state := st }

theorem Device.pinEntry_frame (b : Device) :
    b.pinEntry k u n st = { b.pinning k u n st with
                              slots := ((b.pinning k u n st).recompute n).slots,
                              agenda := { b.agenda with
                                choices := ((b.pinning k u n st).recompute n).agenda.choices } } :=
  (b.pinning k u n st).recompute_frame n

theorem Device.pinEntry_reclaim (b : Device) : (b.pinEntry k u n st).reclaim = b.reclaim := by
  rw [Device.pinEntry_frame]
  rfl

theorem Device.pinEntry_slot (live : (b.slot n).state ≠ .free) (j : Nat) :
    ∃ due seat, (b.pinEntry k u n st).slot j =
      if j = n then (b.slot n).pinnedWith due seat (b.slot n).segs else b.slot j := by
  have slots (j : Nat) : (b.pinning k u n st).slot j =
      if j = n then { b.slot n with pins := (b.slot n).pins + 1, unpinnedSince := never } else b.slot j :=
    Device.slot_setSlot ..
  have still : ((b.pinning k u n st).slot n).state ≠ .free := by
    rw [slots, if_pos rfl]
    exact live
  refine ⟨(b.pinning k u n st).dueOf n, (b.pinning k u n st).seatOf n, ?_⟩
  refine ((b.pinning k u n st).recompute_slot n j still).trans ?_
  rw [slots, slots, if_pos rfl]
  split <;> rfl

theorem Device.pinEntry_pinned (live : (b.slot n).state ≠ .free) : b.Pinned (b.pinEntry k u n st) k u n st := by
  refine ⟨fun j => ?_, ?_, fun j other => ?_, ?_⟩
  · rw [Device.pinEntry_frame]
    exact Device.stream_setStream ..
  · obtain ⟨due, seat, record⟩ := Device.pinEntry_slot k u st live n
    exact ⟨due, seat, _, forall₂_offered_refl _, record.trans (if_pos rfl)⟩
  · obtain ⟨due, seat, record⟩ := Device.pinEntry_slot k u st live j
    exact record.trans (if_neg other)
  · rw [Device.pinEntry_frame]
    rfl

theorem Device.pinEntry_segs (live : (b.slot n).state ≠ .free) :
    ((b.pinEntry k u n st).slot n).segs = (b.slot n).segs := by
  obtain ⟨due, seat, record⟩ := Device.pinEntry_slot k u st live n
  rw [record, if_pos rfl]
  rfl

variable {k u st} in
theorem Device.Pinned.offer {t : Device} (h : b.Pinned t k u n st) (now : Time) :
    b.Pinned (t.offer now n) k u n st := by
  have kept := t.offer_kept now n
  obtain ⟨due, seat, segs, offered, record⟩ := h.slot
  obtain ⟨segs', offered', record'⟩ := kept.slot
  rw [record] at offered'
  refine ⟨fun j => ?_, ⟨due, seat, segs', forall₂_offered_trans offered offered', ?_⟩, fun j other => ?_, ?_⟩
  · exact (congrArg (Table.get StreamRec.reset · j) kept.streams).trans (h.stream j)
  · rw [record', record]
    rfl
  · rw [kept.other j other, h.other j other]
  · rw [kept.pages, h.pages]

end Pin

/-! ### A frame that a slot holds -/

section Held
variable {m : Device} (e : Env) (byPass : Bool) {k n : Nat} {w : WinEntry}

section Found
variable (found : m.findSlot (m.stream k).clip (m.stream k).generation w.frame = some n)
include found

theorem Device.place_filling (state : (m.slot n).state = .filling) :
    m.place e byPass k w = m.pinEntry k w.u n .filling := by
  simp only [Device.place, found, state]

theorem Device.place_failed (state : (m.slot n).state = .failed) :
    m.place e byPass k w = m.pinEntry k w.u n .failed := by
  simp only [Device.place, found, state]

theorem Device.place_staged (state : (m.slot n).state = .staged) :
    m.place e byPass k w = ({ m with reclaim := m.reclaim.filter fun j => decide (j ≠ n) } : Device).pinEntry k w.u n
      .staged := by
  simp only [Device.place, found, state]

theorem Device.place_abandoned (state : (m.slot n).state = .abandoned) : m.place e byPass k w = m.revive e k w n := by
  simp only [Device.place, found, state]

end Found

theorem Device.revive_lost (lost : ∃ g ∈ (m.slot n).segs, g.status = .withdrawn ∧ (m.channel g.channel).state = .faulted) :
    m.revive e k w n =
      (m.setSlot n { m.slot n with state := .failed, cause := some .channelFault }).pinEntry k w.u n .failed := by
  refine if_pos ?_
  obtain ⟨g, mem, status, faulted⟩ := lost
  exact List.any_eq_true.2 ⟨g, List.mem_filter.2 ⟨mem, decide_eq_true status⟩, decide_eq_true faulted⟩

/-- The record of a revived slot: its withdrawn segments wait again (R81). -/
def Slot.revived (x : Slot) : Slot :=
  { x with state := .filling,
           segs := x.segs.map fun g => if g.status = .withdrawn then { g with status := .unissued } else g }

theorem Device.revive_kept
    (kept : ∀ g ∈ (m.slot n).segs, g.status = .withdrawn → ¬ (m.channel g.channel).state = .faulted) :
    m.revive e k w n = ((m.setSlot n (m.slot n).revived).pinEntry k w.u n .filling).offer e.now n := by
  refine if_neg fun lost => ?_
  obtain ⟨g, mem, faulted⟩ := List.any_eq_true.1 lost
  obtain ⟨mem, status⟩ := List.mem_filter.1 mem
  exact kept g mem (of_decide_eq_true status) (of_decide_eq_true faulted)

theorem Slot.count_revived (x : Slot) (st : SegStatus) (unissued : st ≠ .unissued) :
    x.revived.count st = if st = .withdrawn then 0 else x.count st := by
  unfold Slot.count Slot.revived
  dsimp only
  rw [List.countP_map]
  split
  · rename_i withdrawn
    refine List.countP_eq_zero.2 fun g _ => ?_
    rw [withdrawn]
    by_cases status : g.status = .withdrawn <;> simp [status]
  · rename_i other
    refine List.countP_congr fun g _ => ?_
    by_cases status : g.status = .withdrawn <;> simp [status, unissued.symm, Ne.symm other]

end Held

/-! ### A frame that no slot holds -/

section Miss
variable {m : Device} (e : Env) (byPass : Bool) {k : Nat} {w : WinEntry}

section NotFound
variable (missing : m.findSlot (m.stream k).clip (m.stream k).generation w.frame = none)
include missing

theorem Device.place_fails {cause : Cause}
    (why : (m.clip (m.stream k).clip).locate e.mem w.frame = none ∧ cause = .invalidIndex ∨
      ∃ l, (m.clip (m.stream k).clip).locate e.mem w.frame = some l ∧
        (∃ g ∈ l.extents, (m.channel g.channel).state = .faulted) ∧ cause = .channelFault) :
    m.place e byPass k w = m.placeFailed byPass k w cause := by
  have location : m.missLocation e (m.stream k) w.frame = .inl cause := by
    unfold Device.missLocation
    rcases why with ⟨loc, rfl⟩ | ⟨l, loc, ⟨g, mem, faulted⟩, rfl⟩
    · rw [loc]
    · rw [loc]
      exact if_pos (List.any_eq_true.2 ⟨g, mem, decide_eq_true faulted⟩)
  simp only [Device.place, missing, location]

theorem Device.place_located {l : Location} (loc : (m.clip (m.stream k).clip).locate e.mem w.frame = some l)
    (sound : ∀ g ∈ l.extents, ¬ (m.channel g.channel).state = .faulted) :
    m.place e byPass k w = m.placeMiss e byPass k w l := by
  have location : m.missLocation e (m.stream k) w.frame = .inr l := by
    unfold Device.missLocation
    rw [loc]
    refine if_neg fun lost => ?_
    obtain ⟨g, mem, faulted⟩ := List.any_eq_true.1 lost
    exact sound g mem (of_decide_eq_true faulted)
  simp only [Device.place, missing, location]

end NotFound

/-- A FREE record taken for a frame that fails (R82). -/
def Device.takeFailed (b m : Device) (k : Nat) (w : WinEntry) (cause : Cause) (n : Nat) : Device :=
  (b.setSlot n (failedSlot (m.stream k).clip (m.stream k).generation w.frame cause)).pinEntry k w.u n .failed

theorem Device.takeFailed_took {b : Device} (streams : b.streams = m.streams) (cause : Cause) (n : Nat) :
    let t := b.takeFailed m k w cause n
    m.Took b t k w.u n .failed ∧ (t.slot n).state = .failed ∧ (t.slot n).cause = some cause ∧ (t.slot n).pins = 1 ∧
      (t.slot n).pages = [] ∧ (t.slot n).segs = [] ∧ t.freePages = b.freePages := by
  intro t
  let x := failedSlot (m.stream k).clip (m.stream k).generation w.frame cause
  have record : (b.setSlot n x).slot n = x := Device.slot_setSlot_same ..
  have live : ((b.setSlot n x).slot n).state ≠ .free := by
    rw [record]
    exact nofun
  have pinned : (b.setSlot n x).Pinned t k w.u n .failed := Device.pinEntry_pinned k w.u .failed live
  have segs : (t.slot n).segs = [] := (Device.pinEntry_segs k w.u .failed live).trans (by rw [record]; rfl)
  obtain ⟨due, seat, _, -, after⟩ := pinned.slot
  rw [record] at after
  refine ⟨pinned.took streams fun j other => (Device.slot_setSlot ..).trans (if_neg other), ?_, ?_, ?_, ?_, segs,
    pinned.pages⟩
  all_goals
    rw [after]
    rfl

theorem Device.placeFailed_from {b : Device} {cause : Cause}
    (start : (if m.freeRecord.isSome = true ∨ (byPass = true ∧ m.rankedAhead k w.u = true) then m
      else m.reclaimFor 0 m.reclaim) = b) :
    (∀ n, b.freeRecord = some n → m.placeFailed byPass k w cause = b.takeFailed m k w cause n) ∧
      (b.freeRecord = none → m.placeFailed byPass k w cause = b) := by
  unfold Device.placeFailed
  dsimp only
  rw [start]
  refine ⟨fun n free => ?_, fun none_ => ?_⟩
  · rw [free]
    rfl
  · rw [none_]

/-- A FREE record and its pages taken for a frame with a location, and its segments offered (R83, R84). -/
def Device.takeMiss (b m : Device) (now : Time) (k : Nat) (w : WinEntry) (l : Location) (need n : Nat) : Device :=
  ((({ b with freePages := b.freePages.drop need } : Device).setSlot n (fillingSlot (m.stream k).clip
    (m.stream k).generation w.frame l (b.freePages.take need))).pinEntry k w.u n .filling).offer now n

theorem Device.takeMiss_took {b : Device} (streams : b.streams = m.streams) (now : Time) (l : Location) (need n : Nat) :
    let t := b.takeMiss m now k w l need n
    m.Took b t k w.u n .filling ∧ (t.slot n).state = .filling ∧ (t.slot n).pins = 1 ∧
      (t.slot n).clip = (m.stream k).clip ∧ (t.slot n).generation = (m.stream k).generation ∧
      (t.slot n).frame = w.frame ∧ (t.slot n).frameBytes = l.frameBytes ∧
      (t.slot n).pages = b.freePages.take need ∧ t.freePages = b.freePages.drop need ∧
      (t.slot n).segs.map (fun g => (g.channel, g.block, g.count, g.offset)) =
        (cutExtents 0 l.extents).map fun g => (g.channel, g.block, g.count, g.offset) := by
  intro t
  let x := fillingSlot (m.stream k).clip (m.stream k).generation w.frame l (b.freePages.take need)
  let c := ({ b with freePages := b.freePages.drop need } : Device).setSlot n x
  have record : c.slot n = x := Device.slot_setSlot_same ..
  have live : (c.slot n).state ≠ .free := by
    rw [record]
    exact nofun
  have pinned : c.Pinned t k w.u n .filling := (Device.pinEntry_pinned k w.u .filling live).offer now
  obtain ⟨due, seat, segs, offered, after⟩ := pinned.slot
  rw [record] at offered after
  refine ⟨pinned.took streams fun j other => (Device.slot_setSlot ..).trans (if_neg other), ?_, ?_, ?_, ?_, ?_, ?_, ?_,
    pinned.pages, ?_⟩
  case refine_8 =>
    rw [after]
    exact offered_places offered
  all_goals
    rw [after]
    rfl

theorem Device.placeMiss_passed (passed : byPass = true ∧ m.rankedAhead k w.u = true) (l : Location) :
    m.placeMiss e byPass k w l = m := if_pos (by rw [passed.1, passed.2]; rfl)

theorem Device.placeMiss_from (first : byPass = false ∨ m.rankedAhead k w.u = false) {l : Location} {need : Nat}
    (pages : pagesFor l.frameBytes = need) :
    let b := m.reclaimFor need m.reclaim
    (∀ n, b.freeRecord = some n → need ≤ b.freePages.length →
      m.placeMiss e byPass k w l = b.takeMiss m e.now k w l need n) ∧
    (b.freeRecord = none ∨ b.freePages.length < need → m.placeMiss e byPass k w l = b) := by
  intro b
  have goesOn : ¬ (byPass && m.rankedAhead k w.u) = true := by
    rw [Bool.not_eq_true]
    rcases first with no | no
    · rw [no, Bool.false_and]
    · rw [no, Bool.and_false]
  have run : m.placeMiss e byPass k w l =
      match b.freeRecord with
      | none => b
      | some n => if b.hasPages need = true then b.takeMiss m e.now k w l need n else b := by
    refine (if_neg goesOn).trans ?_
    rw [pages]
    rfl
  rw [run]
  refine ⟨fun n free enough => ?_, fun lacks => ?_⟩
  · rw [free]
    exact if_pos ((b.hasPages_iff need).2 enough)
  · cases free : b.freeRecord with
    | none => rfl
    | some n =>
      refine if_neg fun enough => ?_
      rw [b.hasPages_iff] at enough
      rcases lacks with none_ | short
      · rw [free] at none_
        cases none_
      · exact absurd enough (Nat.not_le.2 short)

end Miss

end Sys2Proof.Machine
end

section
/-! PROOFS. DEADLINE_PASS: the parts of a pass put together (chapters 4 and 5). -/

namespace Sys2Proof.Machine

theorem pagesFor_eq (bytes : Nat) : pagesFor bytes = (bytes + 1048575) / 1048576 := by
  unfold pagesFor ceilDiv Config.pageBytes
  omega

theorem Device.reclaimFor_streams (m : Device) (need : Nat) (l : List Nat) : (m.reclaimFor need l).streams = m.streams :=
  (quiet_streams m).reclaimFor need l rfl

/-- A miss at N, where one entry of the window stands there (R58, R142). -/
theorem Device.missPast_one {m : Device} (now : Time) {k : Nat} {l r : List WinEntry} {w : WinEntry}
    (window : (m.stream k).window = l ++ w :: r) (atN : w.u = (m.stream k).n)
    (others : ∀ v ∈ l ++ r, v.u ≠ (m.stream k).n) :
    m.missPast now k =
      ((m.setStream k { m.stream k with window := l ++ r }).releasePin now w.slot).onStream k
        fun y => (y.countMiss (m.marked k) (m.stream k).frameN).stepOn now := by
  unfold Device.missPast
  dsimp only
  rw [m.dropEntries_one now k _ window (by simp [atN]) fun v mem => decide_eq_true (others v mem)]

theorem Device.missPast_none {m : Device} (now : Time) {k : Nat}
    (others : ∀ v ∈ (m.stream k).window, v.u ≠ (m.stream k).n) :
    m.missPast now k = m.onStream k fun y => (y.countMiss (m.marked k) (m.stream k).frameN).stepOn now := by
  unfold Device.missPast
  dsimp only
  rw [m.dropEntries_none now k _ fun v mem => decide_eq_true (others v mem)]

section Held
variable {m : Device} {k n : Nat} {w : WinEntry} (live : (m.slot n).state ≠ .free)
include live

/-- What a placement leaves that pins a slot as it stands (R80). -/
theorem Device.pinEntry_keeps (st : EntryState) :
    let t := m.pinEntry k w.u n st
    m.Took m t k w.u n st ∧ (t.slot n).state = (m.slot n).state ∧ (t.slot n).segs = (m.slot n).segs ∧
      (t.slot n).pins = (m.slot n).pins + 1 := by
  intro t
  have pinned : m.Pinned t k w.u n st := Device.pinEntry_pinned k w.u st live
  obtain ⟨due, seat, _, -, record⟩ := pinned.slot
  exact ⟨pinned.took rfl fun _ _ => rfl, by rw [record]; rfl, Device.pinEntry_segs k w.u st live, by rw [record]; rfl⟩

omit live in
theorem Device.revive_lost_took (e : Env)
    (lost : ∃ g ∈ (m.slot n).segs, g.status = .withdrawn ∧ (m.channel g.channel).state = .faulted) :
    let t := m.revive e k w n
    m.Took m t k w.u n .failed ∧ (t.slot n).state = .failed ∧ (t.slot n).cause = some .channelFault ∧
      (t.slot n).segs = (m.slot n).segs ∧ (t.slot n).pins = (m.slot n).pins + 1 := by
  intro t
  let x : Slot := { m.slot n with state := .failed, cause := some .channelFault }
  have record : (m.setSlot n x).slot n = x := Device.slot_setSlot_same ..
  have failed : ((m.setSlot n x).slot n).state ≠ .free := by
    rw [record]
    exact nofun
  have run : t = (m.setSlot n x).pinEntry k w.u n .failed := Device.revive_lost e lost
  have pinned : (m.setSlot n x).Pinned t k w.u n .failed := by
    rw [run]
    exact Device.pinEntry_pinned k w.u .failed failed
  have segs : (t.slot n).segs = (m.slot n).segs := by
    rw [run, Device.pinEntry_segs k w.u .failed failed, record]
  obtain ⟨due, seat, _, -, after⟩ := pinned.slot
  rw [record] at after
  refine ⟨pinned.took rfl fun j other => (Device.slot_setSlot ..).trans (if_neg other), ?_, ?_, segs, ?_⟩
  all_goals
    rw [after]
    rfl

omit live in
theorem Device.revive_kept_took (e : Env)
    (kept : ∀ g ∈ (m.slot n).segs, g.status = .withdrawn → ¬ (m.channel g.channel).state = .faulted) :
    let t := m.revive e k w n
    m.Took m t k w.u n .filling ∧ (t.slot n).state = .filling ∧ (t.slot n).pins = (m.slot n).pins + 1 ∧
      (t.slot n).count .withdrawn = 0 ∧ (t.slot n).count .done = (m.slot n).count .done ∧
      (t.slot n).count .inFlight = (m.slot n).count .inFlight := by
  intro t
  have record : (m.setSlot n (m.slot n).revived).slot n = (m.slot n).revived := Device.slot_setSlot_same ..
  have filling : ((m.setSlot n (m.slot n).revived).slot n).state ≠ .free := by
    rw [record]
    exact nofun
  have pinned : (m.setSlot n (m.slot n).revived).Pinned t k w.u n .filling := by
    rw [show t = _ from Device.revive_kept e kept]
    exact (Device.pinEntry_pinned k w.u .filling filling).offer e.now
  obtain ⟨due, seat, segs, offered, after⟩ := pinned.slot
  rw [record] at offered after
  have count (st : SegStatus) (unissued : st ≠ .unissued) (queued : st ≠ .queued) :
      (t.slot n).count st = if st = .withdrawn then 0 else (m.slot n).count st := by
    rw [← Slot.count_revived _ st unissued, after]
    exact offered_count offered unissued queued
  exact ⟨pinned.took rfl fun j other => (Device.slot_setSlot ..).trans (if_neg other), by rw [after]; rfl,
    by rw [after]; rfl, count .withdrawn nofun nofun, count .done nofun nofun, count .inFlight nofun nofun⟩

end Held

/-- Settles O34: the stream taken, the stages of its pass, its misses, its placements and their retry, the order of the
backlog, one placement by the slot it finds, and the reclaiming. -/
theorem deadlinePass : Obligations.DeadlinePass := by
  unfold Obligations.DeadlinePass
  refine ⟨fun s k wf flag first => ?_, fun m e k closed closing => m.pass_eq e k closed closing, fun m now k => ?_,
    fun m e k us => ?_, fun m e wf => ?_, fun m e byPass k w wf => ?_, fun m need => ?_⟩
  · have run := exec_deadlinePass (Device.flagged_eq wf flag first)
    exact ⟨run, fun state => run.trans (congrArg s.ends (s.part.begin_.pass_none s.env k state))⟩
  · intro x past frame missed
    have same : x.frameN = frame := x.frameN_eq
    have counted : (fun b : Device => b.onStream k fun y => (y.countMiss (m.marked k) x.frameN).stepOn now) = missed := by
      rw [same]
      rfl
    have isPast : x.display x.n = .past ↔ past x := x.display_past_iff
    refine ⟨fun l w r window atN others => ?_, fun others => ?_, fun present i => ?_, fun still i => ?_, ?_⟩
    · refine (Device.missPast_one now window atN others).trans ((congrFun counted _).trans (congrArg missed ?_))
      cases w.slot <;> rfl
    · exact (Device.missPast_none now others).trans (congrFun counted m)
    · exact m.pastLoop_stops now k (fun h => present (isPast.1 h)) i
    · exact m.pastLoop_goes_on now k (isPast.2 still) i
    · exact fun still => m.pastLoop_done now k x.pastFrames le_rfl ((StreamRec.display_past_iff _).2 still)
  · intro b due made
    have asked : due ↔ b.agenda.retry = true ∨ b.leftUnplaced k us = true :=
      or_congr_right (b.leftUnplaced_iff k us).symm
    refine ⟨fun retry waiting => m.placeAndCheck_retry e k us (asked.1 retry) waiting, fun quiet => ?_,
      fun retry waiting => m.retry_eq e retry waiting, fun quiet => m.no_retry e quiet⟩
    exact m.placeAndCheck_quiet e k us (quiet.imp_left fun no h => no (asked.2 h))
  · refine ⟨fun x => Device.backlogHead_iff wf x, fun k i w waits distinct => Device.rankedAhead_iff wf waits distinct,
      fun none_ i => Device.retryLoop_none none_ i, fun x w head waits distinct => ?_⟩
    exact ⟨fun left i => Device.retryLoop_stuck wf head waits distinct left i,
      fun placed => Device.retryLoop_placed wf head waits distinct placed⟩
  · intro x t held took pinned loc faulted need
    refine ⟨fun n holds only => ?_, fun none_ => ?_⟩
    · have found := Device.findSlot_some wf holds only
      have live := holds.1
      refine ⟨fun state => ?_, fun state => ?_, fun state => ?_, fun state lost => ?_, fun state kept => ?_⟩
      · have kept := Device.pinEntry_keeps (k := k) (w := w) live .filling
        rw [← Device.place_filling e byPass found state] at kept
        exact kept
      · have kept := Device.pinEntry_keeps (k := k) (w := w) live .failed
        rw [← Device.place_failed e byPass found state] at kept
        exact kept
      · let b : Device := { m with reclaim := m.reclaim.filter fun j => decide (j ≠ n) }
        have run : t = b.pinEntry k w.u n .staged := Device.place_staged e byPass found state
        have kept := Device.pinEntry_keeps (m := b) (k := k) (w := w) live .staged
        rw [← run] at kept
        exact ⟨kept.1, kept.2, (congrArg Device.reclaim run).trans (Device.pinEntry_reclaim k w.u .staged b)⟩
      · have revived := Device.revive_lost_took (k := k) (w := w) e lost
        rw [← Device.place_abandoned e byPass found state] at revived
        exact revived
      · have revived := Device.revive_kept_took (k := k) (w := w) e kept
        rw [← Device.place_abandoned e byPass found state] at revived
        exact revived
    · have missing := Device.findSlot_none wf none_
      refine ⟨fun n cause why free => ?_, fun cause why full => ?_, fun l located sound => ?_⟩
      · have start : (if m.freeRecord.isSome = true ∨ (byPass = true ∧ m.rankedAhead k w.u = true) then m
            else m.reclaimFor 0 m.reclaim) = m := if_pos (.inl (by rw [free]; rfl))
        have run : t = m.takeFailed m k w cause n :=
          (Device.place_fails e byPass missing why).trans ((Device.placeFailed_from byPass start).1 n free)
        have taken := Device.takeFailed_took (m := m) (b := m) (k := k) (w := w) rfl cause n
        rw [← run] at taken
        exact taken
      · have fails := Device.place_fails e byPass missing why
        refine ⟨fun passed => ?_, fun first => ?_⟩
        · have start : (if m.freeRecord.isSome = true ∨ (byPass = true ∧ m.rankedAhead k w.u = true) then m
              else m.reclaimFor 0 m.reclaim) = m := if_pos (.inr passed)
          exact fails.trans ((Device.placeFailed_from byPass start).2 full)
        · intro b
          have start : (if m.freeRecord.isSome = true ∨ (byPass = true ∧ m.rankedAhead k w.u = true) then m
              else m.reclaimFor 0 m.reclaim) = b := by
            refine if_neg ?_
            rw [full]
            rintro (none_ | ⟨passes, ranked⟩)
            · cases none_
            · rcases first with no | no
              · rw [no] at passes
                cases passes
              · rw [no] at ranked
                cases ranked
          obtain ⟨takes, stays⟩ := Device.placeFailed_from (cause := cause) byPass start
          refine ⟨fun n free => ?_, fun none_ => fails.trans (stays none_)⟩
          have run : t = b.takeFailed m k w cause n := fails.trans (takes n free)
          have taken := Device.takeFailed_took (k := k) (w := w) (m.reclaimFor_streams 0 m.reclaim) cause n
          rw [← run] at taken
          exact taken
      · have misses := Device.place_located e byPass missing located sound
        refine ⟨fun passed => misses.trans (Device.placeMiss_passed e byPass passed l), fun first => ?_⟩
        intro b
        obtain ⟨takes, stays⟩ := Device.placeMiss_from e byPass first (w := w) (pagesFor_eq l.frameBytes)
        refine ⟨fun n free enough => ?_, fun lacks => misses.trans (stays lacks)⟩
        have run : t = b.takeMiss m e.now k w l (need l) n := misses.trans (takes n free enough)
        have taken := Device.takeMiss_took (k := k) (w := w) (m.reclaimFor_streams (need l) m.reclaim) e.now l (need l) n
        rw [← run] at taken
        exact taken
  · obtain ⟨i, inside, eq, before, after⟩ := m.reclaimFor_freed need m.reclaim
    refine ⟨i, inside, eq, before, fun less => ?_⟩
    obtain ⟨enough, record⟩ := not_or.1 (after less)
    exact ⟨Nat.not_lt.1 enough, record⟩

end Sys2Proof.Machine
end
